-- ==== Sys2Proof/Word.lean ====
section
/-! DEFINITION. The plain data of the spec's conventions (00_scope.md, "Conventions"): words, memory addresses, the two
sides, the two platters, and a pair that holds one value for each side. -/

namespace Sys2Proof

/-- A word is 16 bits (00_scope.md, Words and bits). -/
abbrev Word := BitVec 16

/-- A memory address is an 18-bit word address of one side's memory (00_scope.md, Memory addresses). -/
abbrev Addr := BitVec 18

/-- The two computers (00_scope.md, The part in its setting). -/
inductive Side where
  | A
  | B
  deriving DecidableEq, Repr

/-- The other side. -/
def Side.other : Side → Side
  | .A => .B
  | .B => .A

/-- The removable cartridge platter C (heads 0 and 1) and the fixed platter F (heads 2 and 3) (R1). -/
inductive Platter where
  | C
  | F
  deriving DecidableEq, Repr

/-- The direction of a memory cycle (R29, R32). -/
inductive Dir where
  | read
  | write
  deriving DecidableEq, Repr

/-- One value for Side A and one for Side B: the form of every block that exists once per side. -/
structure Sided (α : Type) where
  a : α
  b : α
  deriving DecidableEq, Repr

variable {α : Type}

/-- Side `x`'s value. -/
def Sided.get (p : Sided α) : Side → α
  | .A => p.a
  | .B => p.b

/-- `p` with side `x`'s value replaced by `v`. -/
def Sided.set (p : Sided α) (x : Side) (v : α) : Sided α :=
  match x with
  | .A => { p with a := v }
  | .B => { p with b := v }

/-- The same value for both sides. -/
def Sided.both (v : α) : Sided α := ⟨v, v⟩

end Sys2Proof
end

