-- ==== Sys2Proof/Syntax.lean ====
section
/-! DEFINITION. The commands: one constructor for each row of spec/opcode_table.json, in the table's order. A command
is an event at the coupler (00_scope.md, "What this manual covers"). Where an event brings data from outside the part
(a word the memory returned, a mark's number, the words under the head) the command carries it. A command that ends a
memory cycle carries `wt`, the word times since the last sector mark at that moment, which is what the urgency
judgement of R35 needs. -/

namespace Sys2Proof

/-- The levels of the drive's level inputs (R14). `true` is asserted. -/
structure DriveInputs where
  power : Bool
  upToSpeed : Bool
  headsLoaded : Bool
  onCylinder : Bool
  writeProtect : Bool
  fault : Bool
  cartridgeClosed : Bool
  deriving DecidableEq, Repr

/-- Every input not asserted. -/
def DriveInputs.low : DriveInputs := ⟨false, false, false, false, false, false, false⟩

/-- What becomes of the computers' cycles while a part reset is in progress (R46): one arrives at side `x`'s tap, or the
memory ends side `x`'s, `data` being the word it returned, for a read. -/
inductive ResetCycle where
  | arrival (x : Side) (dir : Dir) (addr : Addr) (data : Word)
  | ended (x : Side) (data : Word)
  deriving DecidableEq, Repr

/-- What a part reset finds outside the part: the drive's inputs at its end, and the arrivals and ends of computer cycles
in the order they came while it was in progress. -/
structure ResetInputs where
  drive : DriveInputs
  cycles : List ResetCycle
  deriving DecidableEq, Repr

/-- The commands, one for each row of the table. `x` is the side a command belongs to. -/
inductive Instr where
  /-- PART_RESET: the two sides' switches, whether each init line is asserted at the reset's end, and what else it finds
  outside. -/
  | partReset (swA swB : BitVec 13) (initA initB : Bool) (inp : ResetInputs)
  /-- INIT_ASSERTED. -/
  | initAsserted (x : Side)
  /-- INIT_RELEASED. -/
  | initReleased (x : Side)
  /-- COMPUTER_CYCLE_ARRIVAL: direction, address and, for a write, data. -/
  | computerCycleArrival (x : Side) (dir : Dir) (addr : Addr) (data : Word)
  /-- HOLD_TIMER_EXPIRY. -/
  | holdTimerExpiry (x : Side)
  /-- COMPUTER_CYCLE_END: `data` is the word the memory returned, for a read. -/
  | computerCycleEnd (x : Side) (data : Word) (wt : Nat)
  /-- UNWATCHED_CELL_WRITE. -/
  | unwatchedCellWrite (x : Side) (wt : Nat)
  /-- SUBMISSION_CELL_WRITE: the memory ends the computer's write, whose cell and data the tap holds. -/
  | submissionCellWrite (x : Side) (wt : Nat)
  /-- LEVEL_CELL_WRITE. -/
  | levelCellWrite (x : Side) (wt : Nat)
  /-- NOTICE_CELL_READ: `data` is the word the memory returned to the computer. -/
  | noticeCellRead (x : Side) (data : Word) (wt : Nat)
  /-- END_OF_NOTICE. -/
  | endOfNotice (x : Side) (wt : Nat)
  /-- CROSS_CELL_WRITE. -/
  | crossCellWrite (x : Side) (wt : Nat)
  /-- IDLE_CELL_WRITE. -/
  | idleCellWrite (x : Side) (wt : Nat)
  /-- PROPOSAL_CELL_WRITE. -/
  | proposalCellWrite (x : Side) (wt : Nat)
  /-- SEAL_CELL_WRITE. -/
  | sealCellWrite (x : Side) (wt : Nat)
  /-- PROPOSAL_EXPIRY. -/
  | proposalExpiry
  /-- TAKE: the claim of a take, or, while a claim of the side is granted, its return (R50). -/
  | take (x : Side)
  /-- CHAIN_FETCH_START. -/
  | chainFetchStart (x : Side)
  /-- CLEARING_WRITE_END, with an answer or a timeout. -/
  | clearingWriteEnd (x : Side) (answered : Bool) (wt : Nat)
  /-- RECORD_FETCH_READ_END: the word read. -/
  | recordFetchReadEnd (x : Side) (data : Word) (wt : Nat)
  /-- SELECTION_TAKEN. -/
  | selectionTaken
  /-- DEADLINE_EVENT of slot `i`. -/
  | deadlineEvent (i : Fin 12)
  /-- POSTING_START. -/
  | postingStart
  /-- RESULT_WORD_WRITE_END. -/
  | resultWordWriteEnd (x : Side) (wt : Nat)
  /-- SIGNAL_PAIR_READ_END: the word read. -/
  | signalPairReadEnd (x : Side) (data : Word) (wt : Nat)
  /-- SIGNAL_PAIR_END: the pair's write ended, with an answer or a timeout. -/
  | signalPairEnd (x : Side) (answered : Bool) (wt : Nat)
  /-- MEMORY_TIMEOUT of the part cycle in progress on side `x`. -/
  | memoryTimeout (x : Side) (wt : Nat)
  /-- NOTICE_CELL_WRITE_END, with an answer or a timeout. -/
  | noticeCellWriteEnd (x : Side) (answered : Bool) (wt : Nat)
  /-- LEVEL_CELL_WRITE_END, with an answer or a timeout. -/
  | levelCellWriteEnd (x : Side) (answered : Bool) (wt : Nat)
  /-- STATUS_WRITE_END, with an answer or a timeout. -/
  | statusWriteEnd (x : Side) (answered : Bool) (wt : Nat)
  /-- DATA_CYCLE_END: `data` is the word fetched, for a fetch. -/
  | dataCycleEnd (x : Side) (data : Word) (wt : Nat)
  /-- SLOT_TIMER_TICK. -/
  | slotTimerTick
  /-- SECTOR_MARK with the number of the sector it opens. -/
  | sectorMark (n : BitVec 4)
  /-- INDEX_RISE. -/
  | indexRise
  /-- HEADER_JUDGED: the header word and the header check word. -/
  | headerJudged (hdr chk : Word)
  /-- SECTOR_DATA_START. -/
  | sectorDataStart
  /-- SECTOR_END: the data words received (fewer than 256 where words are missing) and the data check word, if
  received. -/
  | sectorEnd (data : List Word) (chk : Option Word)
  /-- ON_CYLINDER_RISE. -/
  | onCylinderRise
  /-- ON_CYLINDER_FALL. -/
  | onCylinderFall
  /-- SEEK_SPAN_END. -/
  | seekSpanEnd
  /-- ENGINE_RECAL_SPAN_END. -/
  | engineRecalSpanEnd
  /-- ABANDONED_MOVEMENT_SPAN_END. -/
  | abandonedMovementSpanEnd
  /-- POWER_PRESENT_FALL. -/
  | powerPresentFall
  /-- POWER_PRESENT_RISE. -/
  | powerPresentRise
  /-- UP_TO_SPEED_RISE. -/
  | upToSpeedRise
  /-- UP_TO_SPEED_FALL. -/
  | upToSpeedFall
  /-- HEADS_LOADED_RISE. -/
  | headsLoadedRise
  /-- HEADS_LOADED_FALL. -/
  | headsLoadedFall
  /-- WRITE_PROTECT_CHANGE: the level the input now has. -/
  | writeProtectChange (level : Bool)
  /-- FAULT_RISE. -/
  | faultRise
  /-- FAULT_FALL. -/
  | faultFall
  /-- FAULT_RESET_SPAN_END. -/
  | faultResetSpanEnd
  /-- LOAD_SWITCH_PRESSED. -/
  | loadSwitchPressed
  /-- CARTRIDGE_CLOSED_FALL. -/
  | cartridgeClosedFall
  /-- CARTRIDGE_CLOSED_RISE. -/
  | cartridgeClosedRise
  /-- OPEN_ENTRY_RESUME. -/
  | openEntryResume
  /-- SPIN_UP_TIMEOUT. -/
  | spinUpTimeout
  /-- RECALIBRATE_TIMEOUT. -/
  | recalibrateTimeout
  /-- PARK_DELAY_END. -/
  | parkDelayEnd
  /-- SPIN_DOWN_DELAY_END. -/
  | spinDownDelayEnd
  deriving DecidableEq, Repr

end Sys2Proof
end

