-- ==== Sys2Proof/Config.lean ====
section
/-! DEFINITION. The values the spec leaves open: opaque constants with no body, so that nothing proved of the model can
rest on what they are. Each names the log entry that says where the spec is silent. -/

namespace Sys2Proof

/-- The fixed gap and sync pattern of 12 words that a data write sends ahead of the data (R8); the spec gives no word
of it. FREE VALUE, log entry 8. -/
opaque Config.gapSync : Fin 12 → Word

/-- The residual posted for a record refused with BAD_KIND, as a function of its words 0 to 11: R26's table has no
column for a kind from 10 to 15. FREE VALUE, log entry 9. -/
opaque Config.badKindResidual : List Word → Word

/-- The stop position posted for a record whose kind is 10 to 15; R26 keeps bit 15 at 0, and no more is stated.
FREE VALUE, log entry 9. -/
opaque Config.badKindStop : List Word → BitVec 15

/-- The stop position of a request that ended with a failure although every sector of its extent was completed, so that
"the first sector that the engine did not complete" (R131) names none; as a function of the platter, the start and the
sector count. FREE VALUE, log entry 10. -/
opaque Config.stopNoneLeft : Platter → Nat → Nat → BitVec 15

end Sys2Proof
end

