-- ==== Sys2Proof/Machine/State.lean ====
section
/-! DEFINITION. The whole state of the coupler as plain data, block by block in the order of 00_scope.md's block table,
with the two outcomes that stop a command and the state right after a part reset. -/

namespace Sys2Proof.Machine

/-! ### Spans and the slot clock (Chapter 1) -/

/-- A span on the slot clock (R12): the count at which it ends, and whether that increment has come. -/
structure Span where
  endsAt : Word
  reached : Bool
  deriving DecidableEq, Repr

/-- What the slot clock counts (R10). -/
inductive ClockSource where
  | timer
  | marks
  deriving DecidableEq, Repr

/-- The slot clock (R10). -/
structure Clock where
  count : Word
  source : ClockSource
  deriving DecidableEq, Repr

/-! ### The memory taps (Chapter 3) -/

/-- What a computer cycle was found to be when it was examined at its arrival (R31's table; `partOwned` for a write to
offsets 15 to 19, R16). -/
inductive Watch where
  | none
  | submission (i : Fin 8)
  | level
  | noticeRead
  | noticeWrite
  | cross
  | idle
  | proposal (second : Bool)
  | seal
  | partOwned
  deriving DecidableEq, Repr

/-- A computer cycle in the tap, as the computer issued it (R29). -/
structure CompCycle where
  dir : Dir
  addr : Addr
  data : Word
  watch : Watch
  deriving DecidableEq, Repr

/-- The four kinds of notice (R28). -/
inductive NoticeKind where
  | completion
  | peer
  | drive
  | partition
  deriving DecidableEq, Repr

/-- A notice: its kind, priority, tag, code and the entry number that records the order of joining (R144). -/
structure Entry where
  kind : NoticeKind
  prio : Nat
  tag : Nat
  code : Nat
  no : Nat
  deriving DecidableEq, Repr

/-- The five part-owned cells, in ascending order of offset (R16). -/
inductive StatusCell where
  | drive
  | side
  | map1
  | map2
  | partition
  deriving DecidableEq, Repr

/-- What a part cycle is for, which also names its requester (R32). -/
inductive CycleKind where
  /-- Transfer engine: the data cycle of word index `j` (R38). -/
  | data (j : Nat)
  /-- Posting unit: the write of record word 13 + `k` (R136). -/
  | result (k : Nat)
  /-- Posting unit: the read and the write of a locked pair (R36). -/
  | pairRead
  | pairWrite
  /-- Intake unit: the clearing write of submission cell `i` (R51). -/
  | clearing (i : Fin 8)
  /-- Intake unit: the read of record word `k` (R52). -/
  | fetch (k : Nat)
  /-- Notice presenter: a notice word, or NONE; `accept` marks the NONE owed by an acceptance (R147). -/
  | notice (e : Option Entry) (accept : Bool)
  /-- Notice presenter: the level cell (R147). -/
  | level
  /-- Control page status writes (R16). -/
  | status (c : StatusCell)
  deriving DecidableEq, Repr

/-- A part cycle on a side's memory (R32). `abandoned` says that its end is to be discarded (R43). -/
structure PartCycle where
  kind : CycleKind
  dir : Dir
  addr : Addr
  data : Word
  abandoned : Bool
  deriving DecidableEq, Repr

/-- The memory arbiter's state with the cycle in progress (R34). The memory timeout of R33 runs exactly while the state
is `part`. In `pairWriteOwed` the word to be written stands with its address (R36). -/
inductive Arb where
  | free
  | computer (c : CompCycle)
  | part (p : PartCycle)
  | pairWriteOwed (addr : Addr) (data : Word)
  deriving DecidableEq, Repr

/-- The direction of a fence (R37). -/
inductive FenceDir where
  | diskRead
  | fromMemory
  deriving DecidableEq, Repr

/-- The fence copy a tap holds (R37), with the transfer index (R38). -/
structure Fence where
  buffer : Nat
  count : Nat
  stride : Nat
  dir : FenceDir
  wait : Bool
  index : Nat
  deriving DecidableEq, Repr

/-- Which part-owned cells of a side have an owed write not yet granted (R16). -/
structure OwedCells where
  drive : Bool
  side : Bool
  map1 : Bool
  map2 : Bool
  partition : Bool
  deriving DecidableEq, Repr

/-- One memory tap with its arbiter (Chapter 3). `live` is the init state (R43): LIVE or IN_RESET, and so the level of
the init line. `comp` is the computer cycle that waits at the arbiter, `held` the one the fence holds, whose hold timer
runs exactly while it is held (R41). Part cycles that wait are those the requesters' own state asks for. -/
structure Tap where
  base : Nat
  live : Bool
  arb : Arb
  comp : Option CompCycle
  held : Option CompCycle
  fence : Option Fence
  owed : OwedCells
  deriving DecidableEq, Repr

/-! ### Intake (Chapter 4) -/

/-- A record fetch in progress (R49): its slot, and the submission cell whose clearing write has not yet ended (R51). -/
structure Fetch where
  slot : Fin 12
  clearing : Option (Fin 8)
  deriving DecidableEq, Repr

/-- One side's intake unit: the pending list with captured values, the overrun count, the granted claim that has not
yet returned, as its slot and the head index it was made for (R50), the fetch in progress, the chain fetches that
wait, and the continuation cursor as a platter and a spiral index (R47, R49, R57). -/
structure Intake where
  list : List (Fin 8 × Word)
  overrun : Nat
  claim : Option (Fin 12 × Fin 8)
  fetch : Option Fetch
  chains : List (Fin 12)
  cursor : Option (Platter × Nat)
  deriving DecidableEq, Repr

/-! ### The request table (Chapter 5) -/

/-- The ten kinds of request (R20). -/
inductive Kind where
  | read
  | write
  | check
  | seek
  | contRead
  | contWrite
  | lock
  | unlock
  | mountAck
  | restore
  deriving DecidableEq, Repr

/-- The status codes (R27's table). -/
inductive Status where
  | ok
  | expired
  | badKind
  | badAddress
  | badCount
  | regionDenied
  | noLock
  | locked
  | deadlock
  | overlap
  | lockTableFull
  | lockInUse
  | notHeld
  | notMounted
  | mediumChanged
  | writeProtected
  | noCursor
  | regionChanging
  | dataCheck
  | headerMismatch
  | notReady
  | driveFault
  | memoryTimeout
  | compareFailed
  | chainLimit
  deriving DecidableEq, Repr

/-- The states of a slot (R62). -/
inductive SlotState where
  | free
  | intake
  | lockwait
  | waiting
  | active
  | posting
  deriving DecidableEq, Repr

/-- A slot with its context (R65). `words` holds the record's words 0 to 11 as far as they are fetched. `span` is the
deadline span, while it runs (R69). `tenure` counts the slot's claims, so that a request made for one tenure never acts on
a later one (R63). -/
structure Slot where
  state : SlotState
  tenure : Nat
  side : Side
  q : Word
  words : List Word
  recordless : Bool
  platter : Option Platter
  start : Option Nat
  n : Option Nat
  touched : Option (Nat × Nat)
  seq : Option Word
  deadline : Option Word
  span : Option Span
  passed : Bool
  passCount : Nat
  depth : Nat
  status : Option Status
  retried : Bool
  touchedFlag : Bool
  rereads : Nat
  residual : Word
  stop : Word
  instant : Word
  deriving DecidableEq, Repr

/-- A FREE slot's empty context, after `tenure` claims. -/
def Slot.empty (tenure : Nat) : Slot where
  state := .free
  tenure := tenure
  side := .A
  q := 0
  words := []
  recordless := false
  platter := none
  start := none
  n := none
  touched := none
  seq := none
  deadline := none
  span := none
  passed := false
  passCount := 0
  depth := 0
  status := none
  retried := false
  touchedFlag := false
  rereads := 0
  residual := 0
  stop := 0
  instant := 0

/-! ### The selector (Chapter 6) -/

/-- The outstanding selection request: the slot, its tenure and the counted set (R78), each of its slots with the
tenure and the chain depth it waited in, which tells one stay in WAITING from the next (R88, R90): DEDUCED, log entry
43. -/
structure Selection where
  slot : Fin 12
  tenure : Nat
  counted : List (Fin 12 × Nat × Nat)
  deriving DecidableEq, Repr

/-! ### The region map and the lock table (Chapter 7) -/

/-- The change protocol's state (R95); `proposed x` is PROPOSED_A or PROPOSED_B. -/
inductive Protocol where
  | idle
  | proposed (x : Side)
  | commitPending
  deriving DecidableEq, Repr

/-- One side's proposal (R95). -/
structure Proposal where
  p1 : Option Word
  p2 : Option Word
  mark1 : Bool
  mark2 : Bool
  isSealed : Bool
  deriving DecidableEq, Repr

/-- A proposal after it was discarded (R95). -/
def Proposal.discarded : Proposal := ⟨none, none, false, false, false⟩

/-- The region map (R93, R95): the committed boundaries, the proposals, the expiry span, the pending map and each side's
last outcome code. -/
structure RegionMap where
  p1 : Nat
  p2 : Nat
  protocol : Protocol
  proposal : Sided Proposal
  span : Option Span
  pendingMap : Option (Nat × Nat)
  last : Sided Nat
  deriving DecidableEq, Repr

/-- An extent lock (R103). -/
structure Lock where
  side : Side
  platter : Platter
  first : Nat
  last : Nat
  exclusive : Bool
  deriving DecidableEq, Repr

/-! ### The transfer engine (Chapter 8) -/

/-- The engine's phases (R112). -/
inductive Phase where
  | idle
  | seeking
  | recalWait
  | rotating
  | inSector
  | draining
  | restoring
  | finishing
  deriving DecidableEq, Repr

/-- The states of a sector buffer (R112). -/
inductive BufState where
  | empty
  | filling
  | full
  | receiving
  | good
  deriving DecidableEq, Repr

/-- A sector buffer: its state, the extent position it serves, the words moved through it to memory, and its words. The
words moved from memory into it are those it holds. -/
structure Buffer where
  state : BufState
  pos : Nat
  moved : Nat
  words : List Word
  deriving DecidableEq, Repr

/-- An empty buffer. -/
def Buffer.none : Buffer := ⟨.empty, 0, 0, []⟩

/-- A result that has been decided and waits to be handed over: the status, the completion instant, and whether the
drain of a disk read is finished first (R129: found in the work itself) or not (an interruption). -/
structure Ending where
  status : Status
  instant : Word
  drain : Bool
  deriving DecidableEq, Repr

/-- A movement of the actuator: a recalibrate, or a seek to a cylinder (R13). -/
inductive Movement where
  | recalibrate
  | seek (c : Nat)
  deriving DecidableEq, Repr

/-- The state a RESTORE found the drive in (R133). -/
inductive RestoreFrom where
  | ready
  | faulted
  deriving DecidableEq, Repr

/-- The transfer engine (R112). `target` is the extent position m. `begun` is set when the first seek operation has
ended; until then a request may wait for an abandoned movement (R113, R115). `moveTo` is the cylinder of the seek
operation. `sector` is the disk sector the engine has open, `headerOk` that its header was sound and matched, `heldOff`
that write-protect holds write gate off for it (R117). `protectSeen` holds the position at which it was set. `written`
counts the sectors that count as written (R130). -/
structure Engine where
  work : Option (Fin 12 × Nat)
  phase : Phase
  target : Option Nat
  begun : Bool
  moveTo : Nat
  span : Option Span
  seekRetry : Bool
  mismatches : Nat
  rereads : Nat
  recalibrated : Bool
  protectSeen : Option Nat
  sector : Option (Platter × Nat)
  headerOk : Bool
  heldOff : Bool
  written : Nat
  buf0 : Buffer
  buf1 : Buffer
  firstDiff : Option Nat
  ending : Option Ending
  restore : Option RestoreFrom
  abandoned : Option (Movement × Span)
  deriving DecidableEq, Repr

/-- The engine with no work and the abandoned movement `ab`. -/
def Engine.cleared (ab : Option (Movement × Span)) : Engine where
  work := none
  phase := .idle
  target := none
  begun := false
  moveTo := 0
  span := none
  seekRetry := false
  mismatches := 0
  rereads := 0
  recalibrated := false
  protectSeen := none
  sector := none
  headerOk := false
  heldOff := false
  written := 0
  buf0 := .none
  buf1 := .none
  firstDiff := none
  ending := none
  restore := none
  abandoned := ab

/-! ### The drive controller (Chapter 11) and the drive cable (R13, R14) -/

/-- The drive states (R17). -/
inductive DriveState where
  | offline
  | stopped
  | spinningUp
  | recalibrating
  | ready
  | parked
  | opened
  | faulted
  deriving DecidableEq, Repr

/-- An event at the drive controller that can arrive while an OPEN entry sequence is under way and is then taken after
it (R163). -/
inductive DriveEvent where
  | onCylinderRise
  | onCylinderFall
  | powerFall
  | powerRise
  | upToSpeedRise
  | upToSpeedFall
  | headsRise
  | headsFall
  | faultRise
  | faultFall
  | loadSwitch
  | closedFall
  | closedRise
  | idleWrite (x : Side) (level : Nat)
  deriving DecidableEq, Repr

/-- The drive controller (R156) with the drive cable. `inp` are the drive's level inputs as they stand. `cylAddr`,
`headSel`, `readGate` and `writeGate` are the outputs that hold a level. `move` is the seek or recalibrate that awaits on
cylinder. `homed` says that on cylinder has risen after the recalibrate of RECALIBRATING (R157). `openPending` marks an
OPEN entry sequence that waits for the ACTIVE slot to reach POSTING, with the events deferred behind it (R163).
`markSeen` says that a sector mark has come on the present cylinder and `wordTime` counts word times since the last mark
as last told (R35). -/
structure Drive where
  state : DriveState
  cause : Nat
  cyl : Nat
  mark : BitVec 4
  generation : BitVec 8
  mounted : Sided Bool
  idle : Sided Nat
  span : Option Span
  recovery : Bool
  homed : Bool
  move : Option Movement
  openPending : Bool
  deferred : List DriveEvent
  inp : DriveInputs
  cylAddr : Nat
  headSel : Nat
  readGate : Bool
  writeGate : Bool
  markSeen : Bool
  wordTime : Nat
  deriving DecidableEq, Repr

/-! ### The posting unit (Chapter 9) -/

/-- The step of the current slot's posting (R135). NOTICE and CHAIN have no cycle to wait for and are passed within the
step that reaches them. -/
inductive PostStep where
  | words
  | signal
  deriving DecidableEq, Repr

/-- The posting unit (R134). The current slot, when there is one, is the slot at the head of the queue. -/
structure Posting where
  queue : List (Fin 12 × Nat)
  step : Option PostStep
  wordsWritten : Nat
  timeoutSeen : Bool
  deriving DecidableEq, Repr

/-! ### The notice presenters (Chapter 10) -/

/-- A write a presenter owes (R147). -/
inductive OwedWrite where
  | level (l : Nat)
  | notice (e : Option Entry) (accept : Bool)
  deriving DecidableEq, Repr

/-- One side's notice presenter (R144). The attention line is `Presenter.line`, a function of the presented and the
shown entry, as R144 defines it. `writing` is the entry that the notice-cell write in progress stands for (R147): its
kind, priority, tag and code are those of the word being written, and its number is the one the entry has now. -/
structure Presenter where
  queue : List Entry
  presented : Option Entry
  shown : Option Entry
  writing : Option Entry
  level : Nat
  stack : List Nat
  owed : List OwedWrite
  lost : Nat
  nextNo : Nat
  deriving DecidableEq, Repr

/-! ### Outputs -/

/-- What the part put out during the last command: the pulses of the drive cable (R13), the sectors it sent to the drive
(R8), and the words it returned to a computer (R29). -/
inductive Output where
  | seekStrobe (c : Nat)
  | recalibrate
  | spindleStart
  | spindleStop
  | headRetract
  | faultReset
  /-- A sector sent whole: gap and sync words, 256 data words, data check word. -/
  | sectorSent (p : Platter) (i : Nat) (gap : List Word) (data : List Word) (chk : Word)
  /-- A sector whose write gate dropped before word time 296. -/
  | sectorCut (p : Platter) (i : Nat)
  /-- The word the memory returned to side `x`'s computer. -/
  | readReturned (x : Side) (data : Word)
  deriving DecidableEq, Repr

/-! ### The whole state -/

/-- The coupler's state, and the queue of commands that wait, first in first out. -/
structure State where
  tap : Sided Tap
  intake : Sided Intake
  slots : Vector Slot 12
  counter : Word
  sel : Option Selection
  map : RegionMap
  locks : Vector (Option Lock) 8
  eng : Engine
  drv : Drive
  post : Posting
  pres : Sided Presenter
  clk : Clock
  out : List Output
  pending : List Instr
  deriving DecidableEq, Repr

/-- Reasons a command stops the machine. -/
inductive Fault where
  /-- Raised by COMPUTER_CYCLE_ARRIVAL, and by PART_RESET for an arrival while it is in progress, when a computer cycle
  of the side is already in the tap: R29 says at most one is. Safe: the hardware is never in this case. -/
  | secondComputerCycle
  deriving DecidableEq, Repr

/-- Reasons a command is refused. -/
inductive Refusal where
  /-- Raised by exec for a command whose meaning is not written: none is left. Safe. -/
  | notModelled (mnemonic : String)
  deriving DecidableEq, Repr

/-! ### Reset -/

/-- No part-owned cell owed. -/
def OwedCells.clear : OwedCells := ⟨false, false, false, false, false⟩

/-- Every part-owned cell owed. -/
def OwedCells.all : OwedCells := ⟨true, true, true, true, true⟩

/-- A tap after part reset (R46) with its page base and init state. -/
def Tap.reset (base : Nat) (live : Bool) : Tap := ⟨base, live, .free, none, none, none, .clear⟩

/-- An intake unit after part reset (R47, R57, R61). -/
def Intake.reset : Intake := ⟨[], 0, none, none, [], none⟩

/-- The region map after part reset (R93, R95). -/
def RegionMap.reset : RegionMap := ⟨0, 400, .idle, .both .discarded, none, none, .both 0⟩

/-- The posting unit after part reset (R134). -/
def Posting.reset : Posting := ⟨[], none, 0, false⟩

/-- A presenter after part reset (R144). -/
def Presenter.reset : Presenter := ⟨[], none, none, none, 0, [], [], 0, 0⟩

/-- The drive controller and the drive cable after part reset, before the drive state is taken from the inputs (R13,
R156, R165). -/
def Drive.reset (inp : DriveInputs) : Drive where
  state := .offline
  cause := 0
  cyl := 0
  mark := 0
  generation := 0
  mounted := .both false
  idle := .both 0
  span := none
  recovery := false
  homed := false
  move := none
  openPending := false
  deferred := []
  inp := inp
  cylAddr := 0
  headSel := 0
  readGate := false
  writeGate := false
  markSeen := false
  wordTime := 0

/-- The machine right after a part reset that found both sides' switches at 0, both init lines asserted and every drive
input not asserted. Those levels come from outside the part: DESIGN CHOICE, log entry 1. -/
def State.reset : State where
  tap := ⟨Tap.reset 0 false, Tap.reset 0 false⟩
  intake := .both .reset
  slots := Vector.replicate 12 (Slot.empty 0)
  counter := 0
  sel := none
  map := .reset
  locks := Vector.replicate 8 none
  eng := .cleared none
  drv := .reset DriveInputs.low
  post := .reset
  pres := .both .reset
  clk := ⟨0, .timer⟩
  out := []
  pending := []

end Sys2Proof.Machine
end

