-- ==== Sys2Proof/Machine/Operands.lean ====
section
/-! DEFINITION. Reading what a request names: disk geometry and spiral order (R1 to R4), the fields of a request record
with the clamped fields as taken (R20 to R24), the memory layout of a buffer (R22, R37) and a sector header (R5). -/

namespace Sys2Proof.Machine

/-! ### Disk geometry (R1, R3, R4) -/

/-- Sectors on a platter: 400 × 2 × 16. -/
def platterSectors : Nat := 12800

/-- The platter a head addresses (R1): heads 0 and 1 are C, 2 and 3 are F. -/
def platterOf (h : Nat) : Platter := if h < 2 then .C else .F

/-- The even head of a platter (R1). -/
def evenHead : Platter → Nat
  | .C => 0
  | .F => 2

/-- The spiral index of a disk address (R4). -/
def spiralIndex (c h s : Nat) : Nat := c * 32 + h % 2 * 16 + s

/-- The cylinder at spiral index `i` (R4). -/
def cylOf (i : Nat) : Nat := i / 32

/-- The sector at spiral index `i` (R4). -/
def secOf (i : Nat) : Nat := i % 16

/-- The head at spiral index `i` of platter `p` (R4). -/
def headOf (p : Platter) (i : Nat) : Nat := if i % 32 < 16 then evenHead p else evenHead p + 1

/-- Sector 15 of an odd head, after which spiral order goes on to the next cylinder (R3). -/
def endsCylinder (i : Nat) : Bool := i % 32 == 31

/-- The sectors that `w` words cover (R4). -/
def sectorsFor (w : Nat) : Nat := (w + 255) / 256

/-- A disk address as a stop position: cylinder in bits 14 to 6, head in 5 to 4, sector in 3 to 0 (R26). -/
def addressWord (c h s : Nat) : Word :=
  (0#1 ++ BitVec.ofNat 9 c ++ BitVec.ofNat 2 h ++ BitVec.ofNat 4 s : BitVec (1 + 9 + 2 + 4))

/-- The stop position of the sector at spiral index `i` of platter `p`. -/
def sectorWord (p : Platter) (i : Nat) : Word := addressWord (cylOf i) (headOf p i) (secOf i)

/-! ### The request record (R20 to R24) -/

/-- Bits `lo + len - 1` to `lo` of a word as a number. -/
def field (w : Word) (lo len : Nat) : Nat := (w.extractLsb' lo len).toNat

/-- Word `k` of a fetched record. -/
def recWord (r : List Word) (k : Nat) : Word := r.getD k 0

/-- The record's kind; none for 10 to 15, which are refused (R20). -/
def recKind (r : List Word) : Option Kind :=
  match field (recWord r 0) 12 4 with
  | 0 => some .read
  | 1 => some .write
  | 2 => some .check
  | 3 => some .seek
  | 4 => some .contRead
  | 5 => some .contWrite
  | 6 => some .lock
  | 7 => some .unlock
  | 8 => some .mountAck
  | 9 => some .restore
  | _ => none

/-- The class: 0 P, 1 N, 2 L, with 3 taken as L (R20). -/
def recClass (r : List Word) : Nat := min 2 (field (recWord r 0) 10 2)

/-- The fence mode, WAIT when set (R20). -/
def recFenceWait (r : List Word) : Bool := (recWord r 0).getLsbD 9

/-- Drop-if-late (R20). -/
def recDropIfLate (r : List Word) : Bool := (recWord r 0).getLsbD 8

/-- The link condition: 0 NONE, 1 ALWAYS, 2 ON_SUCCESS, 3 ON_FAILURE (R20). -/
def recLinkCondition (r : List Word) : Nat := field (recWord r 0) 6 2

/-- The notice priority, 8 to 15 asking for none (R20). -/
def recPriority (r : List Word) : Nat := field (recWord r 0) 0 4

/-- The cylinder of word 1, and the first cylinder of a lock request (R21). -/
def recCylinder (r : List Word) : Nat := field (recWord r 1) 0 9

/-- The tag (R21). -/
def recTag (r : List Word) : Nat := field (recWord r 2) 10 6

/-- The head (R21). -/
def recHead (r : List Word) : Nat := field (recWord r 2) 4 2

/-- The sector (R21). -/
def recSector (r : List Word) : Nat := field (recWord r 2) 0 4

/-- The platter of LOCK and UNLOCK, bit 5 of word 2 (R21). -/
def recLockPlatter (r : List Word) : Platter := if (recWord r 2).getLsbD 5 then .F else .C

/-- The last cylinder of LOCK and UNLOCK (R21). -/
def recLastCylinder (r : List Word) : Nat := field (recWord r 5) 0 9

/-- LOCK's mode, EXCLUSIVE when set (R21). -/
def recExclusive (r : List Word) : Bool := (recWord r 6).getLsbD 0

/-- LOCK's no-wait (R21). -/
def recNoWait (r : List Word) : Bool := (recWord r 6).getLsbD 1

/-- The buffer address (R22). -/
def recBuffer (r : List Word) : Nat := field (recWord r 3) 0 2 * 65536 + (recWord r 4).toNat

/-- The word count (R22). -/
def recCount (r : List Word) : Nat := (recWord r 5).toNat

/-- The stride, with values above 4095 taken as 4095 (R22). -/
def recStride (r : List Word) : Nat := min 4095 (recWord r 6).toNat

/-- The deadline, with values above 4095 taken as 4095; 0 is none (R23). -/
def recDeadline (r : List Word) : Nat := min 4095 (recWord r 7).toNat

/-- The signal word address; 0 is none (R23). -/
def recSignalAddr (r : List Word) : Nat := field (recWord r 8) 8 2 * 65536 + (recWord r 9).toNat

/-- The signal offset (R23). -/
def recSignalOffset (r : List Word) : Nat := field (recWord r 8) 0 4

/-- The signal width as taken: 0 as 1, above 8 as 8, and then no wider than the word allows (R23). -/
def recSignalWidth (r : List Word) : Nat :=
  let w := min 8 (max 1 (field (recWord r 8) 4 4))
  min w (16 - recSignalOffset r)

/-- The signal value (R23). -/
def recSignalValue (r : List Word) : Nat := field (recWord r 10) 0 8

/-- The link (R23). -/
def recLink (r : List Word) : Word := recWord r 11

/-- READ, WRITE, CHECK, CONT_READ and CONT_WRITE (R24). -/
def Kind.transfers : Kind → Bool
  | .read | .write | .check | .contRead | .contWrite => true
  | .seek | .lock | .unlock | .mountAck | .restore => false

/-- The disk reads, READ and CONT_READ (R24). -/
def Kind.diskRead : Kind → Bool
  | .read | .contRead => true
  | .write | .check | .contWrite | .seek | .lock | .unlock | .mountAck | .restore => false

/-- The disk writes, WRITE and CONT_WRITE (R24). -/
def Kind.diskWrite : Kind → Bool
  | .write | .contWrite => true
  | .read | .check | .contRead | .seek | .lock | .unlock | .mountAck | .restore => false

/-- CONT_READ and CONT_WRITE. -/
def Kind.continues : Kind → Bool
  | .contRead | .contWrite => true
  | .read | .write | .check | .seek | .lock | .unlock | .mountAck | .restore => false

/-- READ, CHECK and CONT_READ: the kinds that the other side's EXCLUSIVE lock blocks (R55, R56). -/
def Kind.lockRead : Kind → Bool
  | .read | .check | .contRead => true
  | .write | .contWrite | .seek | .lock | .unlock | .mountAck | .restore => false

/-- The kinds that move the cursor at acceptance (R58). -/
def Kind.setsCursor : Kind → Bool
  | .read | .write | .contRead | .contWrite => true
  | .check | .seek | .lock | .unlock | .mountAck | .restore => false

/-- The kinds that use the deadline and drop-if-late (R24's table). -/
def Kind.usesDeadline : Kind → Bool
  | .read | .write | .check | .seek | .contRead | .contWrite | .lock | .restore => true
  | .unlock | .mountAck => false

/-- LOCK and UNLOCK. -/
def Kind.locks : Kind → Bool
  | .lock | .unlock => true
  | .read | .write | .check | .contRead | .contWrite | .seek | .mountAck | .restore => false

/-! ### The buffer in memory (R22, R37) -/

/-- The address of word `j` of a buffer (R37). -/
def bufferAddr (buffer stride j : Nat) : Addr := BitVec.ofNat 18 (buffer + j + stride * (j / 256))

/-- The index of the buffer word at address `a`, if `a` is one (R37): the words in stride gaps have none. -/
def wordIndex (f : Fence) (a : Addr) : Option Nat :=
  if a.toNat < f.buffer then none
  else
    let off := a.toNat - f.buffer
    let j := off / (256 + f.stride) * 256 + off % (256 + f.stride)
    if off % (256 + f.stride) < 256 ∧ j < f.count then some j else none

/-- The last memory word of a transfer (R22, R25 step 4). -/
def lastBufferWord (buffer count stride : Nat) : Nat := buffer + (count - 1) + stride * (sectorsFor count - 1)

/-! ### A sector header (R5) -/

/-- A header is sound: bit 15 set, the check word its complement, the cylinder at most 399. -/
def headerSound (hdr chk : Word) : Bool := hdr.getLsbD 15 && chk == ~~~hdr && decide (field hdr 6 9 ≤ 399)

/-- The header names the sector at spiral index `i` of platter `p`. -/
def headerMatches (hdr : Word) (p : Platter) (i : Nat) : Bool :=
  field hdr 6 9 == cylOf i && field hdr 4 2 == headOf p i && field hdr 0 4 == secOf i

end Sys2Proof.Machine
end

