-- ==== Sys2Proof/Machine/Flags.lean ====
section
/-! DEFINITION. Every word the part computes from its state: the drive status, side status, map and partition state cells
(R17 to R19), the result words with LATE (R26, R27, R137), the notice word (R28), the signal word (R138), and the data
check word of a sector (R6). -/

namespace Sys2Proof.Machine

/-- A count that saturates at 15 (R18, R27). -/
def sat15 (n : Nat) : Nat := min 15 n

/-! ### Codes -/

/-- The drive state's code (R17). -/
def DriveState.code : DriveState → Nat
  | .offline => 0
  | .stopped => 1
  | .spinningUp => 2
  | .recalibrating => 3
  | .ready => 4
  | .parked => 5
  | .opened => 6
  | .faulted => 7

/-- The status code (R27's table). -/
def Status.code : Status → Nat
  | .ok => 0
  | .expired => 1
  | .badKind => 2
  | .badAddress => 3
  | .badCount => 4
  | .regionDenied => 5
  | .noLock => 6
  | .locked => 7
  | .deadlock => 8
  | .overlap => 9
  | .lockTableFull => 10
  | .lockInUse => 11
  | .notHeld => 12
  | .notMounted => 13
  | .mediumChanged => 14
  | .writeProtected => 15
  | .noCursor => 16
  | .regionChanging => 17
  | .dataCheck => 18
  | .headerMismatch => 19
  | .notReady => 20
  | .driveFault => 21
  | .memoryTimeout => 22
  | .compareFailed => 23
  | .chainLimit => 24

/-- The protocol state's code (R19). -/
def Protocol.code : Protocol → Nat
  | .idle => 0
  | .proposed .A => 1
  | .proposed .B => 2
  | .commitPending => 3

/-- The notice kind's two bits (R28). -/
def NoticeKind.code : NoticeKind → Nat
  | .completion => 0
  | .peer => 1
  | .drive => 2
  | .partition => 3

/-! ### Cells and notice words -/

/-- The drive status cell (R17). -/
def driveCell (d : Drive) : Word :=
  (BitVec.ofNat 4 d.state.code ++ BitVec.ofBool d.inp.writeProtect ++ BitVec.ofNat 3 d.cause ++ d.generation
    : BitVec (4 + 1 + 3 + 8))

/-- The side status cell (R18) from its fields. -/
def sideCell (inUse overrun lost : Nat) (mounted cursor : Bool) : Word :=
  (0#2 ++ BitVec.ofBool cursor ++ BitVec.ofBool mounted ++ BitVec.ofNat 4 lost ++ BitVec.ofNat 4 overrun
    ++ BitVec.ofNat 4 inUse : BitVec (2 + 1 + 1 + 4 + 4 + 4))

/-- Side `x`'s partition state cell (R19). -/
def partitionCell (m : RegionMap) (x : Side) : Word :=
  (0#5 ++ BitVec.ofNat 3 (m.last.get x) ++ 0#3 ++ BitVec.ofBool (m.proposal.get x).mark2
    ++ BitVec.ofBool (m.proposal.get x).mark1 ++ BitVec.ofBool (m.proposal.get x).isSealed
    ++ BitVec.ofNat 2 m.protocol.code : BitVec (5 + 3 + 3 + 1 + 1 + 1 + 2))

/-- The value NONE of the notice cell (R28). -/
def noNotice : Word := 0xFFFF#16

/-- The notice word of an entry (R28). -/
def Entry.word (e : Entry) : Word :=
  (BitVec.ofNat 2 e.kind.code ++ BitVec.ofNat 3 e.prio ++ BitVec.ofNat 6 e.tag ++ BitVec.ofNat 5 e.code
    : BitVec (2 + 3 + 6 + 5))

/-! ### Result words -/

/-- LATE (R137): the deadline is present, and it passed or the completion instant is at or after it. -/
def Slot.late (sl : Slot) : Bool :=
  match sl.deadline with
  | none => false
  | some d => sl.passed || (d - sl.instant == 0) || decide (4095 < (d - sl.instant).toNat)

/-- Word 13, the result status word (R27). -/
def Slot.resultWord (sl : Slot) : Word :=
  (0#4 ++ BitVec.ofNat 4 sl.rereads ++ BitVec.ofBool sl.touchedFlag ++ BitVec.ofBool sl.late ++ BitVec.ofBool sl.retried
    ++ BitVec.ofNat 5 (sl.status.getD .ok).code : BitVec (4 + 4 + 1 + 1 + 1 + 5))

/-- Result word 13 + `k` (R136). -/
def Slot.result (sl : Slot) (k : Nat) : Word :=
  match k with
  | 0 => sl.resultWord
  | 1 => sl.residual
  | _ => sl.stop

/-- The signal word to be written: `old` with the `w` bits from bit `o` up replaced by the low bits of `v` (R138). -/
def insertField (old : Word) (o w v : Nat) : Word :=
  let mask : Word := BitVec.ofNat 16 (2 ^ w - 1) <<< o
  (old &&& ~~~mask) ||| ((BitVec.ofNat 16 v <<< o) &&& mask)

/-- The signal word for a slot's record and status: the signal value after OK, all ones otherwise (R138). -/
def Slot.signalWord (sl : Slot) (old : Word) : Word :=
  let v := if sl.status = some .ok then recSignalValue sl.words else 0xFFFF
  insertField old (recSignalOffset sl.words) (recSignalWidth sl.words) v

/-! ### The data check (R6) -/

/-- One data bit taken into the check register (R6). -/
def crcBit (r : Word) (b : Bool) : Word :=
  if (b ^^ r.getLsbD 15) then (r <<< 1) ^^^ 0x1021#16 else r <<< 1

/-- The sixteen bits of a word, most significant first. -/
def bitsOf (w : Word) : List Bool :=
  [15, 14, 13, 12, 11, 10, 9, 8, 7, 6, 5, 4, 3, 2, 1, 0].map w.getLsbD

/-- One data word taken into the check register. -/
def crcWord (r w : Word) : Word := (bitsOf w).foldl crcBit r

/-- The data check word over the words of a sector (R6). -/
def dataCheck (ws : List Word) : Word := ws.foldl crcWord 0xFFFF#16

/-- A sector's 256 data words from the `r` words of the transfer: zero words fill it out (R8). -/
def zeroFilled (ws : List Word) : List Word := ws ++ List.replicate (256 - ws.length) 0

/-- A sector read good: all 256 data words and the check word were received, and the check agrees (R6). -/
def readsGood (data : List Word) (chk : Option Word) : Bool :=
  data.length == 256 && chk == some (dataCheck data)

/-- The first place below `r` at which two word lists differ (R122). -/
def firstDifference (disk mem : List Word) (r : Nat) : Option Nat :=
  (List.range r).find? (fun k => disk.getD k 0 != mem.getD k 0)

end Sys2Proof.Machine
end

