-- ==== Sys2Proof/Machine/Ops.lean ====
section
/-! DEFINITION. The named operations over the state's parts: one side's blocks, one slot, the spans and the slot clock
(R10 to R12), and the questions that more than one block asks of the state. -/

namespace Sys2Proof.Machine

/-! ### Updating one part -/

/-- Side `x`'s tap changed by `f`. -/
def State.modTap (s : State) (x : Side) (f : Tap → Tap) : State := { s with tap := s.tap.set x (f (s.tap.get x)) }

/-- Side `x`'s intake unit changed by `f`. -/
def State.modIntake (s : State) (x : Side) (f : Intake → Intake) : State :=
  { s with intake := s.intake.set x (f (s.intake.get x)) }

/-- Side `x`'s presenter changed by `f`. -/
def State.modPres (s : State) (x : Side) (f : Presenter → Presenter) : State :=
  { s with pres := s.pres.set x (f (s.pres.get x)) }

/-- Slot `i`. -/
def State.slot (s : State) (i : Fin 12) : Slot := s.slots[i]

/-- Slot `i` changed by `f`. -/
def State.modSlot (s : State) (i : Fin 12) (f : Slot → Slot) : State := { s with slots := s.slots.set i (f s.slots[i]) }

/-- The drive controller changed by `f`. -/
def State.modDrv (s : State) (f : Drive → Drive) : State := { s with drv := f s.drv }

/-- The transfer engine changed by `f`. -/
def State.modEng (s : State) (f : Engine → Engine) : State := { s with eng := f s.eng }

/-- The posting unit changed by `f`. -/
def State.modPost (s : State) (f : Posting → Posting) : State := { s with post := f s.post }

/-- The region map changed by `f`. -/
def State.modMap (s : State) (f : RegionMap → RegionMap) : State := { s with map := f s.map }

/-- `o` put out. -/
def State.emit (s : State) (o : Output) : State := { s with out := s.out ++ [o] }

/-- Side `x`'s init state is LIVE (R43). -/
def State.live (s : State) (x : Side) : Bool := (s.tap.get x).live

/-! ### Spans and the slot clock -/

/-- The span of `k` slots that starts at count `t` (R12). -/
def spanFrom (t : Word) (k : Nat) : Span := ⟨t + BitVec.ofNat 16 k, false⟩

/-- A span at the increment that makes the count `c`. -/
def Span.tick (c : Word) (sp : Span) : Span := if sp.endsAt = c then { sp with reached := true } else sp

/-- A span that runs and has been reached. -/
def spanReached : Option Span → Bool
  | none => false
  | some sp => sp.reached

/-- The slot clock's increment (R10) with every running span (R12): the deadline spans, the proposal expiry, the drive
controller's state span, the engine's span and that of its abandoned movement. -/
def tick (s : State) : State :=
  let c := s.clk.count + 1
  { s with
    clk := { s.clk with count := c }
    slots := s.slots.map (fun sl => { sl with span := sl.span.map (Span.tick c) })
    map := { s.map with span := s.map.span.map (Span.tick c) }
    drv := { s.drv with span := s.drv.span.map (Span.tick c) }
    eng := { s.eng with
      span := s.eng.span.map (Span.tick c)
      abandoned := s.eng.abandoned.map (fun m => (m.1, Span.tick c m.2)) } }

/-! ### Questions about the slots -/

/-- The twelve slot numbers in ascending order. -/
def slotIds : List (Fin 12) := [0, 1, 2, 3, 4, 5, 6, 7, 8, 9, 10, 11]

/-- The ACTIVE slot, if there is one (R72: at most one is). -/
def State.activeSlot (s : State) : Option (Fin 12) := slotIds.find? (fun i => (s.slot i).state == .active)

/-- The slots in WAITING. -/
def State.waitingSlots (s : State) : List (Fin 12) := slotIds.filter (fun i => (s.slot i).state == .waiting)

/-- The number of side `x`'s occupied slots (R64). -/
def State.occupied (s : State) (x : Side) : Nat :=
  (slotIds.filter (fun i => (s.slot i).state != .free && (s.slot i).side == x)).length

/-- The lowest-numbered FREE slot (R50). -/
def State.lowestFree (s : State) : Option (Fin 12) := slotIds.find? (fun i => (s.slot i).state == .free)

/-- A slot's kind. -/
def Slot.kind (sl : Slot) : Option Kind := recKind sl.words

/-- A slot's kind meets `p`. -/
def Slot.isKind (sl : Slot) (p : Kind → Bool) : Bool := sl.kind.any p

/-- A slot's age (R68). -/
def State.age (s : State) (i : Fin 12) : Nat := (s.counter - (s.slot i).seq.getD 0).toNat

/-- Slot `i` comes before slot `j` in oldest-first order: greater age, and of equal ages the lower number (R68). -/
def State.older (s : State) (i j : Fin 12) : Bool :=
  decide (s.age j < s.age i) || (s.age i == s.age j && decide (i < j))

/-- Slot `i` put into an oldest-first list. -/
def State.insertOldest (s : State) (i : Fin 12) : List (Fin 12) → List (Fin 12)
  | [] => [i]
  | j :: r => if s.older i j then i :: j :: r else j :: s.insertOldest i r

/-- Slots in oldest-first order (R68). -/
def State.oldestFirst (s : State) (l : List (Fin 12)) : List (Fin 12) := l.foldr s.insertOldest []

/-- Two cylinder ranges share a cylinder. -/
def rangesMeet (r t : Nat × Nat) : Bool := decide (r.1 ≤ t.2) && decide (t.1 ≤ r.2)

/-- A slot touches platter `p` and a cylinder of `r` (R65). -/
def Slot.touches (sl : Slot) (p : Platter) (r : Nat × Nat) : Bool :=
  sl.platter == some p && sl.touched.any (rangesMeet r)

/-! ### Idle target -/

/-- The idle level a side counts with: a side IN_RESET counts as 2 (R159). -/
def State.idleLevel (s : State) (x : Side) : Nat := if s.live x then s.drv.idle.get x else 2

/-- The idle target (R159). -/
def State.idleTarget (s : State) : Nat := min (s.idleLevel .A) (s.idleLevel .B)

end Sys2Proof.Machine
end

