-- ==== Sys2Proof/Machine/Notices.lean ====
section
/-! DEFINITION. The notice presenter (Chapter 10): its queue, presentation, acceptance, end-of-notice, levels and owed
writes, as functions of one presenter; and handing a notice to a side. -/

namespace Sys2Proof.Machine

/-- The attention line is raised while a presented entry exists and a shown entry exists (R144). -/
def Presenter.line (p : Presenter) : Bool := p.presented.isSome && p.shown.isSome

/-! ### The queue (R145, R146) -/

/-- `e` stands before `f`: more favoured, or of equal priority with the lower entry number. -/
def Entry.before (e f : Entry) : Bool := decide (e.prio < f.prio) || (e.prio == f.prio && decide (e.no < f.no))

/-- `e` at its place in a queue. -/
def insertEntry (e : Entry) : List Entry → List Entry
  | [] => [e]
  | f :: r => if e.before f then e :: f :: r else f :: insertEntry e r

/-- The queue without its last COMPLETION entry, which is the least favoured one with the highest entry number. -/
def dropLastCompletion (q : List Entry) : List Entry := (q.reverse.eraseP (fun e => e.kind == .completion)).reverse

/-- One more notice lost (R146). -/
def Presenter.loseOne (p : Presenter) : Presenter := { p with lost := sat15 (p.lost + 1) }

/-- Room made for an entry that must join (R146). -/
def Presenter.makeRoom (p : Presenter) : Presenter :=
  if 16 ≤ p.queue.length then { p.loseOne with queue := dropLastCompletion p.queue } else p

/-- The shown entry after the entries `old` became the one entry `e` (R145). Where it is one of them its standing ends
when the merge changed that entry's code or priority, whatever the word shown, and it follows the entry to a new number
otherwise. -/
def shownAfterMerge (shown : Option Entry) (old : List Entry) (e : Entry) : Option Entry :=
  match shown with
  | none => none
  | some sh =>
    match old.find? (fun f => f.no == sh.no) with
    | none => some sh
    | some f => if f.code = e.code ∧ f.prio = e.prio then some { sh with no := e.no } else none

/-- The entry whose word is being written, after the entry numbered `n` became `e`: the word stays, and it stands for the
entry under its new number (R145, R147). -/
def writingAfterMerge (w : Option Entry) (n : Nat) (e : Entry) : Option Entry :=
  w.map (fun f => if f.no = n then { f with no := e.no } else f)

/-- The queue entry of a kind, COMPLETION excepted, since COMPLETION entries do not merge (R145). -/
def Presenter.sameKind (p : Presenter) (k : NoticeKind) : Option Entry :=
  if k = .completion then none else p.queue.find? (fun e => e.kind == k)

/-- A new notice joins or merges (R145, R146). -/
def Presenter.join (p : Presenter) (k : NoticeKind) (prio tag code : Nat) : Presenter :=
  match p.sameKind k with
  | some q =>
    let e : Entry :=
      if prio < q.prio then { q with code := code, prio := prio, no := p.nextNo } else { q with code := code }
    { p with
      queue := insertEntry e (p.queue.erase q)
      nextNo := if prio < q.prio then p.nextNo + 1 else p.nextNo
      shown := shownAfterMerge p.shown [q] e
      writing := writingAfterMerge p.writing q.no e }
  | none =>
    if k = .completion ∧ 16 ≤ p.queue.length then p.loseOne
    else
      let r := p.makeRoom
      { r with queue := insertEntry ⟨k, prio, tag, code, p.nextNo⟩ r.queue, nextNo := p.nextNo + 1 }

/-- An entry returns to the queue from the presented slot (R145, R146). -/
def Presenter.giveBack (p : Presenter) (e : Entry) : Presenter :=
  match p.sameKind e.kind with
  | some q =>
    let m : Entry := { q with prio := min e.prio q.prio, no := if e.prio ≤ q.prio then e.no else q.no }
    { p with
      queue := insertEntry m (p.queue.erase q)
      shown := shownAfterMerge p.shown [q, e] m
      writing := writingAfterMerge (writingAfterMerge p.writing q.no m) e.no m }
  | none =>
    let r := p.makeRoom
    { r with queue := insertEntry e r.queue }

/-! ### Owed writes (R147) -/

/-- An owed write is to the notice cell. -/
def OwedWrite.isNotice : OwedWrite → Bool
  | .level _ => false
  | .notice _ _ => true

/-- The entry an owed write carries. -/
def OwedWrite.entry : OwedWrite → Option Entry
  | .level _ => none
  | .notice e _ => e

/-- An owed write that a new notice-cell write leaves in place: a level-cell write, or the NONE owed by an acceptance. -/
def OwedWrite.staysOnNotice : OwedWrite → Bool
  | .level _ => true
  | .notice _ accept => accept

/-- A new level-cell write replaces an owed one and takes the later place. -/
def Presenter.oweLevel (p : Presenter) : Presenter :=
  { p with owed := p.owed.filter OwedWrite.isNotice ++ [OwedWrite.level p.level] }

/-- A new notice-cell write replaces an owed one, except the NONE owed by an acceptance. -/
def Presenter.oweNotice (p : Presenter) (e : Option Entry) : Presenter :=
  { p with owed := p.owed.filter OwedWrite.staysOnNotice ++ [OwedWrite.notice e false] }

/-- The owed notice-cell writes dropped. -/
def Presenter.dropNotices (p : Presenter) : Presenter :=
  { p with owed := p.owed.filter (fun w => !w.isNotice) }

/-! ### Presentation (R148) -/

/-- The queue's head becomes the presented entry, and its word is owed. -/
def Presenter.presentHead (p : Presenter) : Presenter :=
  match p.queue with
  | [] => p
  | h :: r => { p with queue := r, presented := some h }.oweNotice (some h)

/-- The examination of R148: present, replace, or nothing. -/
def Presenter.examine (p : Presenter) : Presenter :=
  match p.presented, p.queue with
  | _, [] => p
  | none, h :: _ => if h.prio < p.level then p.presentHead else p
  | some e, h :: _ =>
    if h.prio < e.prio then ({ p with presented := none }.giveBack e).presentHead else p

/-- A presented entry whose priority is not below L is withdrawn (R151). -/
def Presenter.withdraw (p : Presenter) : Presenter :=
  match p.presented with
  | none => p
  | some e => if p.level ≤ e.prio then ({ p with presented := none }.giveBack e).oweNotice none else p

/-! ### The computer's cycles -/

/-- Removing the notice that a read accepts (R149, effect 1). One that R146 or R152 has taken out of the queue is gone
already, and is met as R149 says of one that R152 took out of the presented slot: DEDUCED, log entry 16. -/
def Presenter.removeShown (p : Presenter) (sh : Entry) : Presenter :=
  match p.presented with
  | none => { p with queue := p.queue.filter (fun e => e.no != sh.no) }
  | some e =>
    if e.no = sh.no then { p with presented := none }
    else { p with queue := p.queue.filter (fun f => f.no != sh.no), presented := none }.giveBack e

/-- A level pushed onto the saved-level stack, newest first; a ninth pushes the oldest out (R149). -/
def pushLevel (l : Nat) (st : List Nat) : List Nat := (l :: st).take 8

/-- The acceptance of the shown notice `sh` (R149). -/
def Presenter.accept (p : Presenter) (sh : Entry) : Presenter :=
  let r := p.removeShown sh
  let r := { r.dropNotices with stack := pushLevel r.level r.stack, level := sh.prio }
  let r := r.oweLevel
  { r with owed := r.owed ++ [OwedWrite.notice none true], shown := none }.examine

/-- A computer read of the notice cell that returned `d` (R149). -/
def Presenter.read (p : Presenter) (d : Word) : Presenter :=
  match p.shown with
  | none => p
  | some sh => if d = sh.word then p.accept sh else p

/-- The presented entry's word owed to the cell again (R150). -/
def Presenter.reOwe (p : Presenter) : Presenter :=
  match p.presented with
  | none => p
  | some e => p.oweNotice (some e)

/-- An end-of-notice (R150). -/
def Presenter.endNotice (p : Presenter) : Presenter :=
  let p := { p with shown := none }
  match p.stack with
  | [] => p.reOwe
  | l :: st => ({ p with level := l, stack := st }.oweLevel.withdraw.examine).reOwe

/-- A computer write of `v` to the level cell (R151). -/
def Presenter.writeLevel (p : Presenter) (v : Word) : Presenter :=
  ({ p with level := min 8 v.toNat }.withdraw).examine

/-- An attention notice of the other side: a PEER entry with code 0 (R152). -/
def Entry.isAttention (e : Entry) : Bool := e.kind == .peer && e.code == 0

/-- The other side's attention notice withdrawn (R152). -/
def Presenter.dropAttention (p : Presenter) : Presenter :=
  let p := { p with queue := p.queue.filter (fun e => !e.isAttention) }
  match p.presented with
  | some e => if e.isAttention then ({ p with presented := none }.oweNotice none).examine else p.examine
  | none => p.examine

/-- The other side wrote `v` to its cross cell (R152). -/
def Presenter.cross (p : Presenter) (v : Word) : Presenter :=
  if v.toNat ≤ 7 then (p.join .peer v.toNat 0 0).examine else p.dropAttention

/-! ### The presenter's writes end (R147) -/

/-- The first owed write is granted: it is owed no longer, and a notice-cell write in progress stands for its entry. -/
def Presenter.granted (p : Presenter) : Presenter :=
  { p with owed := p.owed.tail, writing := p.owed.head?.bind OwedWrite.entry }

/-- The notice-cell write in progress ended: with an answer the entry it stands for, or none, is shown; with a timeout
nothing is, and the same write is owed again unless a later notice-cell write is owed. -/
def Presenter.noticeEnded (p : Presenter) (accept answered : Bool) : Presenter :=
  let r := { p with writing := none }
  if answered then { r with shown := p.writing }
  else if p.owed.any OwedWrite.isNotice then { r with shown := none }
  else { r with shown := none, owed := p.owed ++ [OwedWrite.notice p.writing accept] }

/-! ### Handing over a notice -/

/-- A notice handed to side `x`'s presenter, which discards it while the side is IN_RESET (R153). -/
def notify (x : Side) (k : NoticeKind) (prio tag code : Nat) (s : State) : State :=
  if s.live x then s.modPres x (fun p => (p.join k prio tag code).examine) else s

/-- A DRIVE notice at priority 1 for each live side (R153). -/
def notifyDrive (code : Nat) (s : State) : State := notify .B .drive 1 0 code (notify .A .drive 1 0 code s)

end Sys2Proof.Machine
end

