-- ==== Sys2Proof/Machine/Regions.lean ====
section
/-! DEFINITION. The region map (sections 7.1 and 7.2): regions, changing cylinders, the change protocol and the commit. -/

namespace Sys2Proof.Machine

/-! ### Part-owned cells (R16) -/

/-- A cell's owed write noted. -/
def OwedCells.owe (o : OwedCells) : StatusCell → OwedCells
  | .drive => { o with drive := true }
  | .side => { o with side := true }
  | .map1 => { o with map1 := true }
  | .map2 => { o with map2 := true }
  | .partition => { o with partition := true }

/-- Side `x` owes a write of a part-owned cell, unless it is not live (R16). -/
def oweCell (x : Side) (c : StatusCell) (s : State) : State :=
  if s.live x then s.modTap x (fun t => { t with owed := t.owed.owe c }) else s

/-! ### Regions (R94) -/

/-- The range touches a cylinder of the other side's region: Region B for Side A, Region A for Side B. -/
def RegionMap.reachesOther (m : RegionMap) (x : Side) (r : Nat × Nat) : Bool :=
  match x with
  | .A => decide (m.p2 ≤ r.2)
  | .B => decide (r.1 < m.p1)

/-- The range holds a cylinder outside Shared. -/
def RegionMap.leavesShared (m : RegionMap) (r : Nat × Nat) : Bool := decide (r.1 < m.p1) || decide (m.p2 ≤ r.2)

/-- Cylinder `c` lies in Shared. -/
def RegionMap.inShared (m : RegionMap) (c : Nat) : Bool := decide (m.p1 ≤ c) && decide (c < m.p2)

/-- A range meets the cylinders from `lo` up to, but not including, `hi`. -/
def meetsBelow (r : Nat × Nat) (lo hi : Nat) : Bool := decide (lo < hi) && decide (r.1 < hi) && decide (lo ≤ r.2)

/-- The range holds a changing cylinder of the proposed map `new` (R94). -/
def RegionMap.changing (m : RegionMap) (new r : Nat × Nat) : Bool :=
  meetsBelow r (min m.p1 new.1) (max m.p1 new.1) || meetsBelow r (min m.p2 new.2) (max m.p2 new.2)

/-- The range holds a cylinder that the pending commit would change (R98, R25 step 8). -/
def RegionMap.commitChanges (m : RegionMap) (r : Nat × Nat) : Bool :=
  m.protocol == .commitPending && m.pendingMap.any (fun new => m.changing new r)

/-! ### Outcomes (R102) -/

/-- An outcome of the change protocol for side `x`: recorded, its cell owed, and handed over as a notice. -/
def giveOutcome (x : Side) (code : Nat) (s : State) : State :=
  notify x .partition 2 0 code (oweCell x .partition (s.modMap (fun m => { m with last := m.last.set x code })))

/-- The same outcome for both sides. -/
def giveBoth (code : Nat) (s : State) : State := giveOutcome .B code (giveOutcome .A code s)

/-! ### The change protocol (R95 to R99) -/

/-- A proposal after a write of `v` to proposal cell 1, or 2 when `second` (R96). -/
def Proposal.capture (p : Proposal) (second : Bool) (v : Word) : Proposal :=
  if second then { p with p2 := some v, mark2 := true, isSealed := false }
  else { p with p1 := some v, mark1 := true, isSealed := false }

/-- Side `x` writes `v` to a proposal cell (R96): a sealed proposal is unsealed. -/
def writeProposal (x : Side) (second : Bool) (v : Word) (s : State) : State :=
  s.modMap (fun m =>
    { m with
      proposal := m.proposal.set x ((m.proposal.get x).capture second v)
      protocol := if (m.proposal.get x).isSealed ∧ m.protocol = .proposed x then .idle else m.protocol
      span := if (m.proposal.get x).isSealed ∧ m.protocol = .proposed x then none else m.span })

/-- Side `x`'s proposal discarded, with the protocol state and the span when it was the sealed one (R97, R99, R101). -/
def RegionMap.discard (m : RegionMap) (x : Side) : RegionMap :=
  { m with
    proposal := m.proposal.set x .discarded
    protocol := if m.protocol = .proposed x then .idle else m.protocol
    span := if m.protocol = .proposed x then none else m.span }

/-- A seal refused (R97, cases 1 to 3). -/
def refuseSeal (x : Side) (s : State) : State := giveOutcome x 5 (s.modMap (fun m => m.discard x))

/-- Both proposals discarded and the protocol state IDLE (R98). -/
def RegionMap.discardBoth (m : RegionMap) : RegionMap :=
  { m with proposal := .both .discarded, protocol := .idle, span := none }

/-- Some lock entry covers a changing cylinder of the proposed map (R98). -/
def lockOnChanging (new : Nat × Nat) (s : State) : Bool :=
  s.locks.toList.any (fun o => o.any (fun l => s.map.changing new (l.first, l.last)))

/-- A second seal (R98). -/
def secondSeal (x : Side) (s : State) : State :=
  let mine := s.map.proposal.get x
  let theirs := s.map.proposal.get x.other
  let new := ((mine.p1.getD 0).toNat, (mine.p2.getD 0).toNat)
  if mine.p1 ≠ theirs.p1 ∨ mine.p2 ≠ theirs.p2 then giveBoth 2 (s.modMap (fun m => m.discardBoth))
  else if lockOnChanging new s then giveBoth 4 (s.modMap (fun m => m.discardBoth))
  else s.modMap (fun m => { m.discardBoth with protocol := .commitPending, pendingMap := some new })

/-- A proposal that breaks 0 ≤ p1 ≤ p2 ≤ 400, or lacks a value. -/
def Proposal.invalid (p : Proposal) : Bool :=
  match p.p1, p.p2 with
  | some a, some b => !(decide (a.toNat ≤ b.toNat) && decide (b.toNat ≤ 400))
  | _, _ => true

/-- Side `x` writes the seal cell (R97): the first case that applies. -/
def writeSeal (x : Side) (s : State) : State :=
  let p := s.map.proposal.get x
  if !p.mark1 || !p.mark2 || p.invalid then refuseSeal x s
  else
    match s.map.protocol with
    | .commitPending => refuseSeal x s
    | .idle =>
      s.modMap (fun m =>
        { m with
          proposal := m.proposal.set x { p with mark1 := false, mark2 := false, isSealed := true }
          protocol := .proposed x
          span := some (spanFrom s.clk.count 3840) })
    | .proposed y => if y = x then refuseSeal x s else secondSeal x s

/-- The end of a sealed proposal's expiry span (R99). -/
def expireProposal (x : Side) (s : State) : State := giveOutcome x 3 (s.modMap (fun m => m.discard x))

/-! ### The commit (R100) -/

/-- A slot stands in the way of the pending commit. -/
def holdsCommit (m : RegionMap) (sl : Slot) : Bool :=
  (sl.state == .lockwait || sl.state == .waiting || sl.state == .active || sl.state == .posting)
    && sl.touched.any m.commitChanges

/-- The drain test passes. -/
def drained (s : State) : Bool := slotIds.all (fun i => !holdsCommit s.map (s.slot i))

/-- The committed map after a commit (R100, effects 1 and 4). -/
def RegionMap.committed (m : RegionMap) : RegionMap :=
  let new := m.pendingMap.getD (m.p1, m.p2)
  { m with p1 := new.1, p2 := new.2, pendingMap := none, protocol := .idle }

/-- The commit's five effects; what is owed and handed over is so in R100's order. -/
def commit (s : State) : State :=
  let s := s.modMap RegionMap.committed
  let s := oweCell .A .map1 (oweCell .A .map2 (oweCell .B .map1 (oweCell .B .map2 s)))
  giveBoth 1 ((s.modIntake .A (fun u => { u with cursor := none })).modIntake .B (fun u => { u with cursor := none }))

/-- The drain test, made at the end of each command: it can only come to pass at entry to COMMIT_PENDING, when a slot
becomes FREE, or when its context is replaced, which are the points R100 names. -/
def drainTest (s : State) : State :=
  if s.map.protocol = .commitPending ∧ drained s = true then commit s else s

end Sys2Proof.Machine
end

