-- ==== Sys2Proof/Machine/Requests.lean ====
section
/-! DEFINITION. The request table's moves (Chapter 5): entry to POSTING with the result fields (R66, R26), becoming FREE
(R74), replacing a context (R65), the fence's end (R42), a touch (R40). -/

namespace Sys2Proof.Machine

/-! ### The extent of a request -/

/-- The sector count of a slot, 0 where it is absent. -/
def Slot.sectors (sl : Slot) : Nat := sl.n.getD 0

/-- The platter and spiral index of extent position `m` (R112). -/
def Slot.sectorAt (sl : Slot) (m : Nat) : Platter × Nat := (sl.platter.getD .C, sl.start.getD 0 + m)

/-- The cylinder of a slot's start, or of a SEEK. -/
def Slot.firstCylinder (sl : Slot) : Nat :=
  if sl.kind = some .seek then recCylinder sl.words else cylOf (sl.sectorAt 0).2

/-- One stay of a slot in WAITING, by its tenure and its chain depth: a slot enters WAITING at most once in each, so
that a slot that has left WAITING and come back through its chain is in another (R62, R65): DEDUCED, log entry 43. -/
def Slot.wait (sl : Slot) : Nat × Nat := (sl.tenure, sl.depth)

/-! ### Results and moves -/

/-- The residual of a request that never became ACTIVE (R26). -/
def neverActiveResidual (sl : Slot) : Word :=
  match sl.kind with
  | none => Config.badKindResidual sl.words
  | some k => if k.transfers then recWord sl.words 5 else 0

/-- The stop position of a request that never became ACTIVE (R26); `cursor` is the side's cursor. -/
def neverActiveStop (cursor : Option (Platter × Nat)) (sl : Slot) : Word :=
  match sl.kind with
  | none => (0#1 ++ Config.badKindStop sl.words : BitVec (1 + 15))
  | some .read | some .write | some .check =>
    addressWord (recCylinder sl.words) (recHead sl.words) (recSector sl.words)
  | some .contRead | some .contWrite =>
    match sl.platter, sl.start with
    | some p, some i => sectorWord p i
    | _, _ =>
      match cursor with
      | some (p, i) => sectorWord p i
      | none => 0
  | some .seek => addressWord (recCylinder sl.words) 0 0
  | some .lock | some .unlock => addressWord (recCylinder sl.words) (evenHead (recLockPlatter sl.words)) 0
  | some .mountAck | some .restore => 0

/-- A slot as it stands in POSTING with its result fields; the deadline span is cancelled (R66, R69). -/
def Slot.posted (sl : Slot) (st : Status) (residual stop instant : Word) : Slot :=
  { sl with
    state := .posting, status := some st, residual := residual, stop := stop, instant := instant, span := none }

/-- Slot `i` enters POSTING and joins the posting queue's tail (R73, R135). -/
def toPosting (i : Fin 12) (st : Status) (residual stop instant : Word) (s : State) : State :=
  (s.modSlot i (fun sl => sl.posted st residual stop instant)).modPost
    (fun p => { p with queue := p.queue ++ [(i, (s.slot i).tenure)] })

/-- Slot `i` enters POSTING without ever having been ACTIVE (R66). -/
def postNeverActive (i : Fin 12) (st : Status) (s : State) : State :=
  toPosting i st (neverActiveResidual (s.slot i))
    (neverActiveStop (s.intake.get (s.slot i).side).cursor (s.slot i)) s.clk.count s

/-- Slot `i` enters POSTING with the record-less result (R53). Its residual and stop position of 0 and its instant are
no word of R53's table: DESIGN CHOICE, log entry 38. -/
def postRecordless (i : Fin 12) (st : Status) (s : State) : State :=
  toPosting i st 0 0 s.clk.count (s.modSlot i (fun sl => { sl with recordless := true, words := [] }))

/-- Slot `i` becomes FREE and its context is emptied (R74). -/
def freeSlot (i : Fin 12) (s : State) : State := s.modSlot i (fun sl => Slot.empty sl.tenure)

/-- A slot's context at a claim by side `x` for the record at quad address `q` (R50, R65). -/
def Slot.claimed (sl : Slot) (x : Side) (q : Word) : Slot :=
  { Slot.empty (sl.tenure + 1) with state := .intake, side := x, q := q }

/-- A slot's context replaced at a chain fetch (R65). -/
def Slot.chained (sl : Slot) : Slot :=
  { Slot.empty sl.tenure with state := .intake, side := sl.side, q := recLink sl.words, depth := sl.depth + 1 }

/-! ### The fence -/

/-- A held computer cycle joins the arbiter as the waiting computer cycle (R41). -/
def Tap.release (t : Tap) : Tap :=
  match t.held with
  | none => t
  | some c => { t with held := none, comp := some c }

/-- The fence of side `x` ends, and a held cycle is released with no flag (R42). -/
def endFence (x : Side) (s : State) : State := s.modTap x (fun t => { t.release with fence := none })

/-- A touch reported: TOUCHED is set in the ACTIVE request's result (R40). -/
def touch (s : State) : State :=
  match s.activeSlot with
  | none => s
  | some i => s.modSlot i (fun sl => { sl with touchedFlag := true })

/-- The fence copy for a slot (R37): taken from the slot, with the transfer index at 0 (R38). -/
def Slot.fence (sl : Slot) : Option Fence :=
  match sl.kind with
  | none => none
  | some k =>
    if k.transfers then
      some ⟨recBuffer sl.words, recCount sl.words, recStride sl.words,
        if k.diskRead then .diskRead else .fromMemory, recFenceWait sl.words, 0⟩
    else none

end Sys2Proof.Machine
end

