-- ==== Sys2Proof/Machine/Choice.lean ====
section
/-! DEFINITION. The selector's choice (sections 6.1 to 6.3): eligibility, the reckoning of each slot's cost, tiers,
the choice and the examination. It stands before the lock table, since a read that a re-examination sends to WAITING
is examined at that moment (R79, R109). -/

namespace Sys2Proof.Machine

/-! ### Eligibility (R80) -/

/-- Slot `i` is WAITING with a RESTORE. -/
def State.restoreSlot (s : State) (i : Fin 12) : Bool := (s.slot i).isKind (· == .restore)

/-- The eligible slots under the drive state (R80). -/
def State.eligible (s : State) : List (Fin 12) :=
  match s.drv.state with
  | .ready => s.waitingSlots
  | .faulted => s.waitingSlots.filter s.restoreSlot
  | .offline | .stopped | .spinningUp | .recalibrating | .parked | .opened => []

/-! ### The cost (R81 to R84) -/

/-- The seek estimate over a cylinder distance (R82). -/
def seekEstimate (d : Nat) : Nat := if d = 0 then 0 else 3 + (d + 24) / 25

/-- The distance of two cylinders. -/
def cylDistance (c k : Nat) : Nat := (c - k) + (k - c)

/-- The earliest start sector (R83). -/
def earliestStart (mark σ : Nat) : Nat := (mark + 1 + σ) % 16

/-- The rotational wait (R83). -/
def rotationalWait (sector earliest : Nat) : Nat := (sector + 16 - earliest) % 16

/-- The access cost of a slot from the current cylinder and the last mark (R83). A SEEK has no rotational wait. -/
def Slot.accessCost (sl : Slot) (cyl mark : Nat) : Nat :=
  let σ := seekEstimate (cylDistance sl.firstCylinder cyl)
  if sl.kind = some .seek then σ
  else σ + rotationalWait (secOf (sl.sectorAt 0).2) (earliestStart mark σ)

/-- A slot's access cost as the drive stands. -/
def State.access (s : State) (i : Fin 12) : Nat := (s.slot i).accessCost s.drv.cyl s.drv.mark.toNat

/-- The slack of a class P slot that has a deadline (R84). -/
def State.slack (s : State) (i : Fin 12) : Option Int :=
  let sl := s.slot i
  match sl.deadline with
  | none => none
  | some d =>
    if recClass sl.words = 0 then
      some (if sl.passed then -1
        else ((d - s.clk.count).toNat : Int) - (1 + (s.access i : Int) + (sl.sectors : Int)))
    else none

/-! ### Tiers and the choice (R85 to R87) -/

/-- The slot's tier (R85). -/
def State.tier (s : State) (i : Fin 12) : Nat :=
  if s.restoreSlot i then 0
  else if (s.slack i).any (fun k => decide (k ≤ 16)) then 1
  else if 8 ≤ (s.slot i).passCount then 2
  else 3

/-- The weight of a class (R87). -/
def classWeight (c : Nat) : Nat := if c = 0 then 0 else if c = 1 then 8 else 24

/-- The tier 3 score (R87). -/
def State.score (s : State) (i : Fin 12) : Int :=
  (s.access i : Int) + (classWeight (recClass (s.slot i).words) : Int) - ((s.slot i).passCount : Int)

/-- What a slot is ranked by within its tier before age (R86). -/
def State.rank (s : State) (i : Fin 12) : Int :=
  if s.tier i = 1 then (s.slack i).getD 0 else if s.tier i = 3 then s.score i else 0

/-- Slot `i` is chosen ahead of slot `j` (R86). -/
def State.ahead (s : State) (i j : Fin 12) : Bool :=
  decide (s.tier i < s.tier j)
    || (s.tier i == s.tier j && (decide (s.rank i < s.rank j) || (s.rank i == s.rank j && s.older i j)))

/-- The slot chosen from a list of slots (R86). -/
def State.choose (s : State) : List (Fin 12) → Option (Fin 12)
  | [] => none
  | i :: r =>
    match s.choose r with
    | none => some i
    | some j => if s.ahead j i then some j else some i

/-- Slot `i` with its present wait, as the counted set lists it (R78). -/
def State.withWait (s : State) (i : Fin 12) : Fin 12 × Nat × Nat := (i, (s.slot i).wait)

/-! ### Examination and selection (R79, R88, R89) -/

/-- An examination (R79). Which of R79's events calls for it need not be asked: the events are the only ones that can make
its three conditions come to hold together. -/
def examine (s : State) : State :=
  if s.activeSlot.isSome ∨ s.sel.isSome then s
  else
    match s.choose s.eligible with
    | none => s
    | some i =>
      { s with sel := some ⟨i, (s.slot i).tenure, (s.eligible.filter (· != i)).map s.withWait⟩ }

end Sys2Proof.Machine
end

