-- ==== Sys2Proof/Machine/Locks.lean ====
section
/-! DEFINITION. The lock table (sections 7.3 and 7.4): conflicts, the deadlock test, the decisions on LOCK, UNLOCK and
blocked reads, re-examination and release. -/

namespace Sys2Proof.Machine

/-- The locks held. -/
def State.held (s : State) : List Lock := s.locks.toList.filterMap id

/-- A lock meets cylinders `r` of platter `p` (R103). -/
def Lock.meets (l : Lock) (p : Platter) (r : Nat × Nat) : Bool := l.platter == p && rangesMeet (l.first, l.last) r

/-- The lowest-numbered free entry (R103). -/
def State.freeEntry (s : State) : Option (Fin 8) :=
  ([0, 1, 2, 3, 4, 5, 6, 7] : List (Fin 8)).find? (fun k => (s.locks[k]).isNone)

/-- The extent of a LOCK or UNLOCK record: its platter and cylinder range (R21). -/
def lockRange (r : List Word) : Nat × Nat := (recCylinder r, recLastCylinder r)

/-- An EXCLUSIVE lock of side `y` meets cylinders `r` of platter `p` (R56). -/
def exclusiveOver (s : State) (y : Side) (p : Platter) (r : Nat × Nat) : Bool :=
  s.held.any (fun l => l.side == y && l.exclusive && l.meets p r)

/-- A lock of side `y` conflicts with a request over `r` of platter `p`: at least one of the two is EXCLUSIVE (R104). -/
def lockConflict (s : State) (y : Side) (p : Platter) (r : Nat × Nat) (excl : Bool) : Bool :=
  s.held.any (fun l => l.side == y && (excl || l.exclusive) && l.meets p r)

/-- Side `y` has a read in flight over `r` of platter `p` (R104). -/
def readInFlight (s : State) (y : Side) (p : Platter) (r : Nat × Nat) : Bool :=
  slotIds.any (fun i =>
    let sl := s.slot i
    (sl.state == .waiting || sl.state == .active) && sl.side == y && sl.isKind Kind.lockRead && sl.touches p r)

/-- A LOCK of side `x` over `r` of platter `p` is in conflict (R104). -/
def inConflict (s : State) (x : Side) (p : Platter) (r : Nat × Nat) (excl : Bool) : Bool :=
  lockConflict s x.other p r excl || (excl && readInFlight s x.other p r)

/-- A READ, CHECK or CONT_READ is blocked: an EXCLUSIVE lock of the other side meets its touched cylinders (R56, R109). -/
def readBlocked (s : State) (sl : Slot) : Bool :=
  sl.touched.any (fun r => sl.platter.any (fun p => exclusiveOver s sl.side.other p r))

/-- A lock of side `x` itself meets `r` of platter `p`. -/
def overlapsOwn (s : State) (x : Side) (p : Platter) (r : Nat × Nat) : Bool :=
  s.held.any (fun l => l.side == x && l.meets p r)

/-- A LOCKWAIT slot waits on side `x` (R105): a read of the other side, or a LOCK of it whose extent conflicts with an
entry of `x`. -/
def waitsOn (s : State) (x : Side) (sl : Slot) : Bool :=
  sl.state == .lockwait && sl.side == x.other
    && (sl.isKind Kind.lockRead
      || (sl.isKind (· == .lock)
        && lockConflict s x (recLockPlatter sl.words) (lockRange sl.words) (recExclusive sl.words)))

/-- The deadlock test for side `x` refuses (R105). -/
def deadlockRefuses (s : State) (x : Side) : Bool := slotIds.any (fun i => waitsOn s x (s.slot i))

/-- The lock a LOCK record asks for. -/
def lockOf (sl : Slot) : Lock :=
  ⟨sl.side, recLockPlatter sl.words, recCylinder sl.words, recLastCylinder sl.words, recExclusive sl.words⟩

/-- A lock placed in entry `k`. -/
def placeLock (k : Fin 8) (l : Lock) (s : State) : State := { s with locks := s.locks.set k (some l) }

/-- The entries that meet `p` made free. -/
def freeLocks (p : Lock → Bool) (s : State) : State :=
  { s with locks := s.locks.map (fun o => if o.any p then none else o) }

/-- Slot `i` goes to LOCKWAIT (R104 step 6, R106). -/
def toLockwait (i : Fin 12) (s : State) : State := s.modSlot i (fun sl => { sl with state := .lockwait })

/-- Slot `i` goes to WAITING. -/
def toWaiting (i : Fin 12) (s : State) : State := s.modSlot i (fun sl => { sl with state := .waiting })

/-! ### Re-examination (R108, R109) -/

/-- Slot `i`'s turn in a pass over the lock-wait order (R109). A slot that is no longer in LOCKWAIT is passed over. A read
that goes to WAITING is reported to the selector, which examines at that moment (R77, R79). -/
def reexamineOne (s : State) (i : Fin 12) : State :=
  let sl := s.slot i
  if sl.state ≠ .lockwait then s
  else if sl.isKind (· == .lock) then
    let p := recLockPlatter sl.words
    let r := lockRange sl.words
    if overlapsOwn s sl.side p r then postNeverActive i .overlap s
    else if s.map.commitChanges r then postNeverActive i .regionChanging s
    else if inConflict s sl.side p r (recExclusive sl.words) then s
    else
      match s.freeEntry with
      | some k => placeLock k (lockOf sl) (postNeverActive i .ok s)
      | none => postNeverActive i .lockTableFull s
  else if readBlocked s sl then s
  else examine (toWaiting i s)

/-- The lock-wait order: the slots in LOCKWAIT that have a sequence number, oldest first (R103, R108). -/
def lockWaitOrder (s : State) : List (Fin 12) :=
  s.oldestFirst (slotIds.filter (fun i => (s.slot i).state == .lockwait && (s.slot i).seq.isSome))

/-- One pass over the lock-wait order (R108). The LOCKs it decides join the posting queue in that order, oldest first,
whatever their slot numbers: DESIGN CHOICE, log entry 51. -/
def reexaminePass (s : State) : State := (lockWaitOrder s).foldl reexamineOne s

/-- The number of slots in LOCKWAIT. -/
def State.lockWaiters (s : State) : Nat := slotIds.countP (fun i => (s.slot i).state == .lockwait)

/-- From `s` to `t` slot `i` left LOCKWAIT otherwise than by a grant: a read that goes to WAITING, or a LOCK that is
refused. An entry granted during a pass does not start a further pass (R108). That the others do is read from it:
DEDUCED, log entry 25. -/
def leftUngranted (s t : State) (i : Fin 12) : Bool :=
  (s.slot i).state == .lockwait
    && ((t.slot i).state == .waiting || ((t.slot i).state == .posting && (t.slot i).status != some .ok))

/-- `calls` re-examinations, one after another, with those that their own departures from LOCKWAIT call for (R108). No
more than `calls` and the number of slots in LOCKWAIT can be called for, which `fuel` bounds. -/
def reexaminePasses : Nat → Nat → State → State
  | 0, _, s => s
  | _ + 1, 0, s => s
  | fuel + 1, calls + 1, s =>
    let t := reexaminePass s
    reexaminePasses fuel (calls + slotIds.countP (leftUngranted s t)) t

/-- Re-examinations called for by `calls` events at once (R108). -/
def reexamineFor (calls : Nat) (s : State) : State := reexaminePasses (calls + s.lockWaiters) calls s

/-- A re-examination (R108). -/
def reexamine (s : State) : State := reexamineFor 1 s

/-- A re-examination when the report of a slot that stood in state `st` before it left asks for one (R108): it left
LOCKWAIT, or it is a READ, CHECK or CONT_READ that left WAITING or ACTIVE. -/
def reexamineAfter (before : Slot) (s : State) : State :=
  if before.state = .lockwait ∨
      ((before.state = .waiting ∨ before.state = .active) ∧ before.isKind Kind.lockRead = true) then reexamine s
  else s

/-! ### Decisions at acceptance -/

/-- The decision on an accepted LOCK (R104). -/
def decideLock (i : Fin 12) (s : State) : State :=
  let sl := s.slot i
  let p := recLockPlatter sl.words
  let r := lockRange sl.words
  if overlapsOwn s sl.side p r then postNeverActive i .overlap s
  else if inConflict s sl.side p r (recExclusive sl.words) then
    if recNoWait sl.words then postNeverActive i .locked s
    else if deadlockRefuses s sl.side then postNeverActive i .deadlock s
    else toLockwait i s
  else
    match s.freeEntry with
    | some k => placeLock k (lockOf sl) (postNeverActive i .ok s)
    | none => postNeverActive i .lockTableFull s

/-- The lock is the one an UNLOCK of `sl` names: side, platter and both cylinders, whatever the mode (R107). -/
def unlocks (sl : Slot) (l : Lock) : Bool :=
  l.side == sl.side && l.platter == recLockPlatter sl.words && l.first == recCylinder sl.words
    && l.last == recLastCylinder sl.words

/-- A WRITE or CONT_WRITE of side `x` in WAITING or ACTIVE touches `r` of platter `p` (R107). -/
def writeNeeds (s : State) (x : Side) (p : Platter) (r : Nat × Nat) : Bool :=
  slotIds.any (fun i =>
    let sl := s.slot i
    (sl.state == .waiting || sl.state == .active) && sl.side == x && sl.isKind Kind.diskWrite && sl.touches p r)

/-- The decision on an accepted UNLOCK (R107). Its own slot joins the posting queue before those of the LOCKs that its
release lets through: DESIGN CHOICE, log entry 52. -/
def decideUnlock (i : Fin 12) (s : State) : State :=
  let sl := s.slot i
  if !s.held.any (unlocks sl) then postNeverActive i .notHeld s
  else if writeNeeds s sl.side (recLockPlatter sl.words) (lockRange sl.words) then postNeverActive i .lockInUse s
  else reexamine (freeLocks (unlocks sl) (postNeverActive i .ok s))

/-- The decision on a blocked read (R106). -/
def decideBlockedRead (i : Fin 12) (s : State) : State :=
  if deadlockRefuses s (s.slot i).side then postNeverActive i .deadlock s else toLockwait i s

end Sys2Proof.Machine
end

