-- ==== Sys2Proof/Machine/Engine.lean ====
section
/-! DEFINITION. The transfer engine (Chapter 8): movements, targets, sectors, the two buffers, recovery, and the end of a
request with its result. -/

namespace Sys2Proof.Machine

/-! ### The request at work -/

/-- The slot the engine works on, while it is ACTIVE in the tenure the engine took (R112, R63). -/
def engineSlot (s : State) : Option (Fin 12) :=
  match s.eng.work with
  | none => none
  | some (i, t) => if (s.slot i).state = .active ∧ (s.slot i).tenure = t then some i else none

/-- The words of the sector at extent position `p`: 256, or r for the last (R4). -/
def Slot.wordsAt (sl : Slot) (p : Nat) : Nat :=
  if p + 1 = sl.sectors then recCount sl.words - 256 * (sl.sectors - 1) else 256

/-- The words of the first `k` sectors of the extent. -/
def Slot.wordsBefore (sl : Slot) (k : Nat) : Nat := if sl.sectors ≤ k then recCount sl.words else 256 * k

/-- The target position. -/
def Engine.m (e : Engine) : Nat := e.target.getD 0

/-- The buffer that serves extent position `p`: buffer `p` mod 2 (R112). -/
def Engine.buf (e : Engine) (p : Nat) : Buffer := if p % 2 = 0 then e.buf0 else e.buf1

/-- The buffer of position `p` replaced. -/
def Engine.setBuf (e : Engine) (p : Nat) (b : Buffer) : Engine :=
  if p % 2 = 0 then { e with buf0 := b } else { e with buf1 := b }

/-- The buffer of position `p` starts to fill for it (R121). -/
def Engine.fill (e : Engine) (p : Nat) : Engine := e.setBuf p ⟨.filling, p, 0, []⟩

/-- A buffer is GOOD: words of a sector that read good wait to be stored. -/
def Engine.anyGood (e : Engine) : Bool := e.buf0.state == .good || e.buf1.state == .good

/-- The transfer index of a slot's fence (R38). -/
def transferIndex (s : State) (sl : Slot) : Nat :=
  match (s.tap.get sl.side).fence with
  | none => 0
  | some f => f.index

/-- A data cycle of the engine is in progress on side `x` and its end is awaited. -/
def dataInFlight (s : State) (x : Side) : Bool :=
  match (s.tap.get x).arb with
  | .part p =>
    match p.kind with
    | .data _ => !p.abandoned
    | _ => false
  | _ => false

/-! ### Results (R130, R131) -/

/-- The words the engine moved (R130). -/
def wordsMoved (s : State) (sl : Slot) : Nat :=
  match sl.kind with
  | some .read | some .contRead => transferIndex s sl
  | some .write | some .contWrite => sl.wordsBefore s.eng.written
  | some .check => sl.wordsBefore s.eng.m + s.eng.firstDiff.getD 0
  | _ => 0

/-- The residual (R130). -/
def residualOf (s : State) (sl : Slot) : Word :=
  if sl.isKind Kind.transfers then BitVec.ofNat 16 (recCount sl.words - wordsMoved s sl) else 0

/-- The position of the first sector the engine did not complete (R131), if there is one. -/
def firstIncomplete (s : State) (sl : Slot) : Option Nat :=
  let k :=
    match sl.kind with
    | some .read | some .contRead =>
      if recCount sl.words ≤ transferIndex s sl then sl.sectors else transferIndex s sl / 256
    | some .write | some .contWrite => s.eng.written
    | _ => s.eng.m
  if k < sl.sectors then some k else none

/-- The stop position of position `m` of a slot's extent. -/
def Slot.stopAt (sl : Slot) (m : Nat) : Word := sectorWord (sl.sectorAt m).1 (sl.sectorAt m).2

/-- The stop position (R131). -/
def stopOf (s : State) (sl : Slot) (st : Status) : Word :=
  match sl.kind with
  | some .seek => addressWord (recCylinder sl.words) 0 0
  | some .restore => 0
  | _ =>
    match st with
    | .ok => sectorWord (sl.sectorAt 0).1 (min (platterSectors - 1) (sl.sectorAt sl.sectors).2)
    | .writeProtected => sl.stopAt (s.eng.protectSeen.getD 0)
    | _ =>
      match firstIncomplete s sl with
      | some k => sl.stopAt k
      | none => (0#1 ++ Config.stopNoneLeft (sl.sectorAt 0).1 (sl.sectorAt 0).2 sl.sectors : BitVec (1 + 15))

/-! ### The end of a request (R129) -/

/-- A data cycle of the engine that is still in progress on side `x` loses its requester: its end is discarded. -/
def Tap.abandonData (t : Tap) : Tap :=
  match t.arb with
  | .part p =>
    match p.kind with
    | .data _ => { t with arb := .part { p with abandoned := true } }
    | _ => t
  | _ => t

/-- Read gate and write gate dropped. -/
def dropGates (s : State) : State := s.modDrv (fun d => { d with readGate := false, writeGate := false })

/-- The engine's per-request items cleared and its phase IDLE; an abandoned movement is kept. -/
def clearEngine (s : State) : State := dropGates (s.modEng (fun e => Engine.cleared e.abandoned))

/-- The engine hands over its result and the slot goes from ACTIVE to POSTING (R73, R129). The selector is told and
examines before the lock table acts on the same departure (R77, R79). A fetch that is in progress when a write or CHECK
ends with a found status is not waited for: DESIGN CHOICE, log entry 39. -/
def endRequest (st : Status) (instant : Word) (s : State) : State :=
  match engineSlot s with
  | none => clearEngine s
  | some i =>
    let sl := s.slot i
    let s := toPosting i st (residualOf s sl) (stopOf s sl st) instant s
    let s := (endFence sl.side s).modTap sl.side Tap.abandonData
    reexamineAfter sl (examine (clearEngine s))

/-- The side of the engine's request. -/
def engineSide (s : State) : Option Side := (engineSlot s).map (fun i => (s.slot i).side)

/-- A decided ending may be handed over: one found in the work itself when every GOOD buffer is drained, an interruption
when no data cycle is in progress and no sector is under write gate (R127, R129). -/
def endingReady (s : State) (e : Ending) : Bool :=
  if e.drain then !s.eng.anyGood
  else !((engineSide s).any (dataInFlight s)) && !s.drv.writeGate

/-- The decided ending handed over, when it may be. -/
def finishEnding (s : State) : State :=
  match s.eng.ending with
  | none => s
  | some e => if endingReady s e then endRequest e.status e.instant s else s

/-- An ending found in the work itself (R129): the drain of a disk read is finished first. The phase is DRAINING
meanwhile, also after a failure, for which R120 does not name it: DESIGN CHOICE, log entry 53. -/
def found (st : Status) (s : State) : State :=
  finishEnding
    ((s.modDrv (fun d => { d with readGate := false })).modEng
      (fun e => { e with ending := some ⟨st, s.clk.count, true⟩, phase := .draining, span := none }))

/-- Write gate dropped on the sector under it, which then counts as written (R8, R121). -/
def cutWrite (s : State) : State :=
  if s.drv.writeGate then
    let o := (s.eng.sector.map (fun q => Output.sectorCut q.1 q.2)).toList
    { s with
      drv := { s.drv with writeGate := false }
      eng := { s.eng with written := s.eng.written + 1 }
      out := s.out ++ o }
  else s

/-- An interruption (R129): the engine stops at once. A status already found, and its drain, are left as they are
(R126). The phase is IDLE from here on, also while the end of a data cycle in progress is waited for before the
hand-over: DESIGN CHOICE, log entry 48. -/
def interrupt (st : Status) (s : State) : State :=
  match s.eng.ending with
  | some e => if e.drain then s else finishEnding (cutWrite s)
  | none =>
    finishEnding
      (((cutWrite s).modDrv (fun d => { d with readGate := false })).modEng
        (fun e => { e with ending := some ⟨st, s.clk.count, false⟩, phase := .idle, span := none }))

/-! ### Moving the actuator (R13, R114) -/

/-- A recalibrate pulse, which takes the place of any movement awaiting on cylinder (R156). -/
def issueRecalibrate (s : State) : State :=
  (s.modDrv (fun d => { d with move := some .recalibrate, markSeen := false })).emit .recalibrate

/-- A seek strobe with cylinder `c` on the address lines. -/
def issueSeek (c : Nat) (s : State) : State :=
  (s.modDrv (fun d => { d with cylAddr := c, move := some (.seek c), markSeen := false })).emit (.seekStrobe c)

/-- A seek operation to cylinder `c` with its span of 64 slots; `retry` is its seek retry used (R114). -/
def startSeek (c : Nat) (retry : Bool) (s : State) : State :=
  issueSeek c
    (s.modEng (fun e =>
      { e with phase := .seeking, moveTo := c, seekRetry := retry, span := some (spanFrom s.clk.count 64) }))

/-- A recalibrate with its span of 256 slots, after which the engine goes to cylinder `c` with seek retry used set
(R114, R119, R124). -/
def startRecal (c : Nat) (s : State) : State :=
  issueRecalibrate
    (s.modEng (fun e =>
      { e with phase := .recalWait, moveTo := c, seekRetry := true, span := some (spanFrom s.clk.count 256) }))

/-- The engine waits for the target's mark with the target's head selected (R118). -/
def rotate (sl : Slot) (s : State) : State :=
  (s.modEng (fun e => { e with phase := .rotating, sector := none, headerOk := false, heldOff := false })).modDrv
    (fun d => { d with headSel := headOf (sl.sectorAt s.eng.m).1 (sl.sectorAt s.eng.m).2 })

/-- The actuator is on the cylinder: a SEEK ends, the write-protect check is made for a first arrival (R116), or the
engine waits for the target's mark. After an abandoned movement the check comes at that movement's end: DESIGN CHOICE, log
entry 41. -/
def arrive (s : State) : State :=
  match engineSlot s with
  | none => s
  | some i =>
    let sl := s.slot i
    let first := !s.eng.begun
    let s := s.modEng (fun e => { e with begun := true, span := none })
    if sl.kind = some .seek then found .ok s
    else if first && sl.isKind Kind.diskWrite && sl.platter == some .C && s.drv.inp.writeProtect then
      found .writeProtected s
    else rotate sl s

/-- The request begins: its cylinder is compared with C (R113). -/
def beginRequest (s : State) : State :=
  match engineSlot s with
  | none => s
  | some i =>
    let c := (s.slot i).firstCylinder
    if s.drv.cyl = c then arrive s else startSeek c false s

/-- The engine's movement has ended with on cylinder: a seek has arrived; a recalibrate has too when its target is
cylinder 0, and is followed by the seek otherwise (R114). -/
def movementEnded (s : State) : State :=
  match s.eng.phase with
  | .seeking => arrive s
  | .recalWait => if s.eng.moveTo = 0 then arrive s else startSeek s.eng.moveTo true s
  | .restoring => if s.eng.restore = some .ready then endRequest .ok s.clk.count s else s
  | _ => s

/-! ### From sector to sector (R118) -/

/-- The target advances past a finished sector at position `m`: to the next mark, or across a cylinder (R118). -/
def nextTarget (sl : Slot) (s : State) : State :=
  let m := s.eng.m
  let s := s.modEng (fun e => { e with target := some (m + 1), rereads := 0, recalibrated := false, sector := none })
  if endsCylinder (sl.sectorAt m).2 then startSeek (cylOf (sl.sectorAt (m + 1)).2) false s else rotate sl s

/-- The target's sector is finished: the next target, or the request's end with `st` after the last. -/
def finishTarget (sl : Slot) (st : Status) (s : State) : State :=
  if s.eng.m + 1 < sl.sectors then nextTarget sl s
  else
    found st (s.modEng (fun e =>
      { e with target := some (e.m + 1), rereads := 0, recalibrated := false, sector := none }))

/-- The buffer of position `m` empties and fills for position `m` + 2 if there is one (R121). -/
def Engine.refill (e : Engine) (m n : Nat) : Engine := if m + 2 < n then e.fill (m + 2) else e.setBuf m .none

/-! ### Header and data judgements (R119, R124) -/

/-- A header mismatch (R119). -/
def headerFail (s : State) : State :=
  match engineSlot s with
  | none => s
  | some i =>
    let s := s.modDrv (fun d => { d with readGate := false })
    if s.eng.mismatches = 0 then
      startRecal (cylOf ((s.slot i).sectorAt s.eng.m).2)
        (s.modEng (fun e => { e with mismatches := 1, sector := none, headerOk := false, heldOff := false }))
    else found .headerMismatch s

/-- One more reread in the slot's count, when this read of the sector was one (R124). -/
def countReread (i : Fin 12) (s : State) : State :=
  if s.eng.rereads = 0 then s else s.modSlot i (fun sl => { sl with rereads := sat15 (sl.rereads + 1) })

/-- A buffer's words discarded where it was receiving them. -/
def Buffer.dropReceived (b : Buffer) : Buffer := if b.state = .receiving then .none else b

/-- A data check failure of the target's sector: the ladder of R124. -/
def dataFail (s : State) : State :=
  match engineSlot s with
  | none => s
  | some i =>
    let s := s.modDrv (fun d => { d with readGate := false })
    let s := countReread i (s.modEng (fun e => e.setBuf e.m (e.buf e.m).dropReceived))
    if s.eng.recalibrated then found .dataCheck s
    else if s.eng.rereads < 3 then rotate (s.slot i) (s.modEng (fun e => { e with rereads := e.rereads + 1 }))
    else
      startRecal (cylOf ((s.slot i).sectorAt s.eng.m).2)
        (s.modEng (fun e => { e with recalibrated := true, sector := none, headerOk := false }))

/-- The data check of a disk read or CHECK was good: rereads are counted, and RETRIED is set after one (R124). -/
def dataGood (i : Fin 12) (s : State) : State :=
  let s := (countReread i s).modDrv (fun d => { d with readGate := false })
  if s.eng.rereads = 0 then s else s.modSlot i (fun sl => { sl with retried := true })

/-- A sector of a disk read was received whole: it is judged (R120). -/
def judgeRead (i : Fin 12) (data : List Word) (chk : Option Word) (s : State) : State :=
  if readsGood data chk then
    let s := dataGood i (s.modEng (fun e => e.setBuf e.m ⟨.good, e.m, 0, data⟩))
    finishTarget (s.slot i) .ok s
  else dataFail s

/-- A sector of a CHECK was received whole: it is judged and compared (R122). -/
def judgeCheck (i : Fin 12) (data : List Word) (chk : Option Word) (s : State) : State :=
  if readsGood data chk then
    let sl := s.slot i
    let m := s.eng.m
    let s := dataGood i s
    match firstDifference data (s.eng.buf m).words (sl.wordsAt m) with
    | some k => found .compareFailed (s.modEng (fun e => { e with firstDiff := some k }))
    | none => finishTarget sl .ok (s.modEng (fun e => e.refill m sl.sectors))
  else dataFail s

/-- A sector of a write is over at the drive; it counts as written when `counted` (R117, R121). -/
def sectorWritten (i : Fin 12) (counted : Bool) (s : State) : State :=
  let sl := s.slot i
  let s := dropGates s
  let s := s.modEng (fun e => { e with written := if counted then e.written + 1 else e.written })
  if s.eng.ending.isSome then finishEnding s
  else
    finishTarget sl (if s.eng.protectSeen.isSome then .writeProtected else .ok)
      (s.modEng (fun e => e.refill e.m sl.sectors))

/-- The words of a sector sent whole under write gate (R8). -/
def sentSector (s : State) : List Output :=
  if s.drv.writeGate then
    let ws := zeroFilled (s.eng.buf s.eng.m).words
    (s.eng.sector.map (fun q =>
      Output.sectorSent q.1 q.2 ((List.finRange 12).map Config.gapSync) ws (dataCheck ws))).toList
  else []

/-- Write gate is dropped on the open sector, if it is asserted, without more (R8, R13). -/
def dropWriteGate (s : State) : State :=
  if s.drv.writeGate then
    { s with
      drv := { s.drv with writeGate := false }
      out := s.out ++ (s.eng.sector.map (fun q => Output.sectorCut q.1 q.2)).toList }
  else s

/-- The engine stops in FINISHING (R128). -/
def stopFinishing (s : State) : State := clearEngine (dropWriteGate s)

/-! ### Marks and word times -/

/-- A mark that comes before the open sector is over: the header or the data is incomplete, and a sector under write gate
counts as written (R7, R8). -/
def earlyMark (s : State) : State :=
  match s.eng.phase with
  | .finishing => stopFinishing s
  | .inSector =>
    match engineSlot s with
    | none => s
    | some i =>
      if !s.eng.headerOk then headerFail s
      else if (s.slot i).isKind Kind.diskWrite then sectorWritten i s.drv.writeGate (dropWriteGate s)
      else dataFail s
  | _ => s

/-- Write-protect holds write gate off for the target: the input is asserted with a head of platter C, or protect was
seen before (R13, R117). -/
def protectHolds (sl : Slot) (s : State) : Bool :=
  sl.isKind Kind.diskWrite && ((sl.platter == some .C && s.drv.inp.writeProtect) || s.eng.protectSeen.isSome)

/-- The target's mark opens its sector (R118 to R121): read gate is asserted for the header. -/
def openTarget (sl : Slot) (s : State) : State :=
  let hold := protectHolds sl s
  (s.modEng (fun e =>
    { e with
      phase := .inSector
      sector := some (sl.sectorAt e.m)
      headerOk := false
      heldOff := hold
      protectSeen := if hold then some (e.protectSeen.getD e.m) else e.protectSeen })).modDrv
    (fun d => { d with readGate := true })

/-- The mark numbered `n` at the engine: the target is opened when it is its mark and, for a write or CHECK, its buffer
is FULL; otherwise the sector passes by (R118, R121). -/
def markAtEngine (n : Nat) (s : State) : State :=
  match engineSlot s with
  | none => s
  | some i =>
    let sl := s.slot i
    if s.eng.phase = .rotating ∧ secOf (sl.sectorAt s.eng.m).2 = n ∧
        (sl.isKind Kind.diskRead = true ∨ (s.eng.buf s.eng.m).state = .full) then openTarget sl s
    else s

/-- Write gate may be asserted: on cylinder, no fault, and no write-protect with a head of platter C (R8, R13). -/
def mayWrite (s : State) : Bool :=
  s.drv.inp.onCylinder && !s.drv.inp.fault && !(s.drv.inp.writeProtect && decide (s.drv.headSel < 2))

/-- The header of the engine's open sector is sound and matches (R5). -/
def headerGood (hdr chk : Word) (s : State) : Bool :=
  headerSound hdr chk && s.eng.sector.any (fun q => headerMatches hdr q.1 q.2)

/-- Write gate asserted from word time 28; the header has been read, and read gate drops: DESIGN CHOICE, log entry 37. -/
def openWriteGate (s : State) : State := s.modDrv (fun d => { d with readGate := false, writeGate := true })

/-- A write's header matched. Write-protect that rose since the sector's own mark, so that R117's two ways of a first
affected sector both leave it out, holds the sector off, sets protect seen and leaves it uncounted: DESIGN CHOICE, log
entry 50. Where write gate may
not be asserted for another cause (R8) the sector is passed by: DESIGN CHOICE, log entry 17. Read gate drops here in every
case: DESIGN CHOICE, log entry 37. -/
def headerMatchedWrite (sl : Slot) (s : State) : State :=
  let hold := s.eng.heldOff || protectHolds sl s
  let s := s.modEng (fun e =>
    { e with
      headerOk := true
      heldOff := hold
      protectSeen := if hold then some (e.protectSeen.getD e.m) else e.protectSeen })
  if hold then s.modDrv (fun d => { d with readGate := false })
  else if mayWrite s then openWriteGate s
  else rotate sl (s.modDrv (fun d => { d with readGate := false }))

/-- The header judged in FINISHING (R128): the engine stops at once where it fails. A sector whose header is sound and
matches is written, or passes to its end with write gate held off (R8, R13), and the engine stops there. Read gate drops
here in both cases: DESIGN CHOICE, log entry 37. -/
def headerFinishing (good : Bool) (s : State) : State :=
  if good then
    let s := s.modEng (fun e => { e with headerOk := true })
    if !s.eng.heldOff && mayWrite s then openWriteGate s else s.modDrv (fun d => { d with readGate := false })
  else stopFinishing s

/-- The header is complete and judged (R119, R128). -/
def judgeHeader (hdr chk : Word) (s : State) : State :=
  if s.eng.headerOk then s
  else
    match s.eng.phase with
    | .finishing => headerFinishing (headerGood hdr chk s) s
    | .inSector =>
      match engineSlot s with
      | none => s
      | some i =>
        if !headerGood hdr chk s then headerFail s
        else if (s.slot i).isKind Kind.diskWrite then headerMatchedWrite (s.slot i) s
        else s.modEng (fun e => { e with headerOk := true })
    | _ => s

/-- Word time 40 of a disk read's sector (R120): the buffer must be EMPTY, or the sector is passed by. -/
def dataStart (s : State) : State :=
  match engineSlot s with
  | none => s
  | some i =>
    if s.eng.phase = .inSector ∧ s.eng.headerOk = true ∧ (s.slot i).isKind Kind.diskRead = true then
      if (s.eng.buf s.eng.m).state = .empty then s.modEng (fun e => e.setBuf e.m ⟨.receiving, e.m, 0, []⟩)
      else rotate (s.slot i) (s.modDrv (fun d => { d with readGate := false }))
    else s

/-- Word time 296 of the open sector (R120 to R122, R128). -/
def sectorOver (data : List Word) (chk : Option Word) (s : State) : State :=
  if !s.eng.headerOk then s
  else
    match s.eng.phase with
    | .finishing => clearEngine { s with out := s.out ++ sentSector s }
    | .inSector =>
      match engineSlot s with
      | none => s
      | some i =>
        match (s.slot i).kind with
        | some .read | some .contRead =>
          if (s.eng.buf s.eng.m).state = .receiving then judgeRead i data chk s else s
        | some .check => judgeCheck i data chk s
        | some .write | some .contWrite => sectorWritten i s.drv.writeGate { s with out := s.out ++ sentSector s }
        | _ => s
    | _ => s

/-- Write-protect has risen (R13, R117): write gate on a sector of platter C drops at once, and the sector counts as
written with protect seen. -/
def protectRises (s : State) : State :=
  if s.drv.writeGate && s.eng.sector.any (fun q => q.1 == .C) then
    let s := dropWriteGate s
    match engineSlot s with
    | none => s
    | some i =>
      if s.eng.phase = .inSector then
        sectorWritten i true (s.modEng (fun e => { e with protectSeen := some (e.protectSeen.getD e.m) }))
      else s
  else s

/-! ### Data cycles (R120, R121, R127) -/

/-- The transfer point passes word `j` (R38): the index goes on and a computer cycle held on that word is released
(R41). -/
def Tap.passWord (t : Tap) (j : Nat) : Tap :=
  match t.fence with
  | none => t
  | some f =>
    let u := { t with fence := some { f with index := f.index + 1 } }
    if t.held.any (fun c => wordIndex f c.addr == some j) then u.release else u

/-- A word of position `p` was stored: the buffer empties with its last one (R120). -/
def Engine.stored (e : Engine) (sl : Slot) (p : Nat) : Engine :=
  let b := e.buf p
  if b.moved + 1 < sl.wordsAt p then e.setBuf p { b with moved := b.moved + 1 } else e.setBuf p .none

/-- Word `d` of position `p` was fetched: the buffer is FULL with its last one, and the first buffer's filling is
followed by the second's (R121). -/
def Engine.fetched (e : Engine) (sl : Slot) (p : Nat) (d : Word) : Engine :=
  let b := e.buf p
  let ws := b.words ++ [d]
  if ws.length < sl.wordsAt p then e.setBuf p { b with words := ws }
  else
    let e := e.setBuf p { b with words := ws, state := .full }
    if p + 1 < sl.sectors ∧ (e.buf (p + 1)).state = .empty then e.fill (p + 1) else e

/-- The data cycle of word `j` ended with an answer (R38, R120, R121). After an interruption the word still counts as
moved, and nothing follows it (R129). -/
def dataAnswered (j : Nat) (d : Word) (s : State) : State :=
  match engineSlot s with
  | none => s
  | some i =>
    let sl := s.slot i
    let s := s.modTap sl.side (fun t => t.passWord j)
    let s := s.modEng (fun e => if sl.isKind Kind.diskRead then e.stored sl (j / 256) else e.fetched sl (j / 256) d)
    finishEnding s

/-- Buffers that were filling are discarded (R127). -/
def Engine.dropFilling (e : Engine) : Engine :=
  { e with
    buf0 := if e.buf0.state = .filling then .none else e.buf0
    buf1 := if e.buf1.state = .filling then .none else e.buf1 }

/-- The movement the engine has under way when its request leaves ACTIVE with the drive READY, at a side reset (R115,
R128) or at a memory timeout: it is then abandoned (R112). -/
def Engine.moving (e : Engine) : Option (Movement × Span) :=
  match e.phase, e.span with
  | .seeking, some sp => some (.seek e.moveTo, sp)
  | .recalWait, some sp => some (.recalibrate, sp)
  | .restoring, some sp => if e.restore = some .ready then some (.recalibrate, sp) else e.abandoned
  | _, _ => e.abandoned

/-- A data cycle ended with a memory timeout (R127): the request ends with MEMORY_TIMEOUT, in place of a status found
whose drain was under way (R129), and after a sector already under write gate. A movement under way is abandoned: DEDUCED,
log entry 36. -/
def dataTimedOut (s : State) : State :=
  match s.eng.ending with
  | some e =>
    if e.drain then finishEnding (s.modEng (fun g => { g with ending := some ⟨.memoryTimeout, s.clk.count, false⟩ }))
    else finishEnding s
  | none =>
    if s.drv.writeGate then
      s.modEng (fun e => { e.dropFilling with ending := some ⟨.memoryTimeout, s.clk.count, false⟩ })
    else interrupt .memoryTimeout (s.modEng (fun e => { e with abandoned := e.moving }))

/-! ### Reports and resets -/

/-- What a RESTORE does on a report of the drive state (R133). -/
def reportRestore (s : State) : State :=
  match s.eng.restore, s.drv.state with
  | _, .faulted => interrupt .driveFault s
  | some .ready, .ready => s
  | some .ready, _ => interrupt .notReady s
  | _, .ready => endRequest .ok s.clk.count s
  | _, .recalibrating => s
  | _, .spinningUp => s
  | _, _ => interrupt .notReady s

/-- The drive controller reports its state to the engine (R115, R126, R128, R133). -/
def reportDrive (s : State) : State :=
  let s := if s.drv.state = .ready then s else s.modEng (fun e => { e with abandoned := none })
  let s := if s.eng.phase = .finishing ∧ s.drv.state ≠ .ready then stopFinishing s else s
  match engineSlot s with
  | none => s
  | some i =>
    if (s.slot i).kind = some .restore then reportRestore s
    else
      match s.drv.state with
      | .ready => s
      | .faulted => interrupt .driveFault s
      | _ => interrupt .notReady s

/-- The engine learns that a side reset frees the ACTIVE slot `i` (R128). -/
def engineFreed (i : Fin 12) (s : State) : State :=
  if engineSlot s = some i then
    if s.eng.phase = .inSector ∧ (s.slot i).isKind Kind.diskWrite = true then
      s.modEng (fun e => { e with work := none, phase := .finishing, span := none, ending := none })
    else dropGates (s.modEng (fun e => Engine.cleared e.moving))
  else s

end Sys2Proof.Machine
end

