-- ==== Sys2Proof/Machine/Spindle.lean ====
section
/-! DEFINITION. The drive controller (Chapter 11): entering each drive state, the events of the drive's inputs, faults and
recovery, the cartridge and the OPEN entry sequence, idle control, and the request a selection hands to the engine. -/

namespace Sys2Proof.Machine

/-- Both sides owe a write of the drive status cell (R16, R17). -/
def oweDrive (s : State) : State := oweCell .B .drive (oweCell .A .drive s)

/-- The drive state set: the state span cancelled, and the fault cause 0 unless the state is FAULTED (R156). A change of
the cell's fields owes its writes (R17). -/
def setDrive (st : DriveState) (cause : Nat) (s : State) : State :=
  let t := s.modDrv (fun d => { d with state := st, cause := cause, span := none })
  if s.drv.state = st ∧ s.drv.cause = cause then t else oweDrive t

/-- The state span of `k` slots started. -/
def startStateSpan (k : Nat) (s : State) : State :=
  s.modDrv (fun d => { d with span := some (spanFrom s.clk.count k) })

/-! ### Entering the states -/

/-- FAULTED with a cause (R161): recorded, the state span cancelled, recovery under way cleared, reported, and a DRIVE
notice with code 1 for each live side. -/
def enterFaulted (cause : Nat) (s : State) : State :=
  notifyDrive 1 (reportDrive ((setDrive .faulted cause s).modDrv (fun d => { d with recovery := false })))

/-- RECALIBRATING (R157): recalibrate issued with its span of 256 slots; a fault input asserted at entry makes it
FAULTED. A sector under write gate that the entry cuts (R8, R126, R128) is put out after the pulse: DESIGN CHOICE, log
entry 54. -/
def enterRecalibrating (s : State) : State :=
  let s := startStateSpan 256 ((setDrive .recalibrating 0 s).modDrv (fun d => { d with homed := false }))
  let s := reportDrive (issueRecalibrate s)
  if s.drv.inp.fault then enterFaulted 4 s else s

/-- SPINNING_UP (R157): spindle start issued with the spin-up span of 25600 slots; a fault input asserted at entry makes
it FAULTED, and a spindle already at speed makes it RECALIBRATING. R157 says "at once" of both, and the fault is taken
first where both are asserted, with no recalibrate pulse: DESIGN CHOICE, log entry 49. A sector under write gate that the
entry cuts (R8, R126, R128) is put out after spindle start: DESIGN CHOICE, log entry 54. -/
def enterSpinningUp (s : State) : State :=
  let s := reportDrive ((startStateSpan 25600 (setDrive .spinningUp 0 s)).emit .spindleStart)
  if s.drv.inp.fault then enterFaulted 4 s
  else if s.drv.inp.upToSpeed then enterRecalibrating s
  else s

/-- READY (R157, R162): with recovery under way it is cleared and a DRIVE notice with code 3 goes to each live side. -/
def enterReady (s : State) : State :=
  let rec0 := s.drv.recovery
  let s := reportDrive ((setDrive .ready 0 s).modDrv (fun d => { d with recovery := false }))
  if rec0 then notifyDrive 3 s else s

/-- STOPPED (R157); whether it is left at once is settled at the command's end. -/
def enterStopped (s : State) : State := reportDrive (setDrive .stopped 0 s)

/-- PARKED (R160): the heads are retracted. A sector under write gate that the entry cuts (R128) is put out after the
pulse: DESIGN CHOICE, log entry 54. -/
def enterParked (s : State) : State := reportDrive ((setDrive .parked 0 s).emit .headRetract)

/-- OFFLINE (R164): recovery under way is cleared. -/
def enterOffline (s : State) : State :=
  reportDrive ((setDrive .offline 0 s).modDrv (fun d => { d with recovery := false }))

/-! ### The OPEN entry sequence (R163) -/

/-- Slot `i` goes to POSTING with MEDIUM_CHANGED when it waits on platter C (R76). -/
def mediumChanged (s : State) (i : Fin 12) : State :=
  let sl := s.slot i
  if (sl.state = .waiting ∨ sl.state = .lockwait) ∧ sl.platter = some .C then postNeverActive i .mediumChanged s else s

/-- Slot `i` is one whose departure at the OPEN entry the lock table is told of: it stands in LOCKWAIT on platter C,
or is a READ, CHECK or CONT_READ in WAITING there (R76, R77). -/
def leavesAtOpen (s : State) (i : Fin 12) : Bool :=
  ((s.slot i).state == .lockwait || ((s.slot i).state == .waiting && (s.slot i).isKind Kind.lockRead))
    && (s.slot i).platter == some .C

/-- The table's step of the OPEN entry (R76), with the re-examinations its reports ask for (R77, R108). -/
def endPlatterC (s : State) : State :=
  reexamineFor (slotIds.countP (leavesAtOpen s)) (slotIds.foldl mediumChanged s)

/-- A cursor present on platter C becomes absent (R60). -/
def dropCursorC (u : Intake) : Intake :=
  { u with cursor := u.cursor.filter (fun c => c.1 != .C) }

/-- Steps 2 to 7 of the OPEN entry sequence (R163). At step 3 each live side's status cell is written, whether its mounted
flag was set or not. -/
def openRest (s : State) : State :=
  let s := s.modDrv (fun d =>
    { d with generation := d.generation + 1, mounted := .both false, openPending := false })
  let s := oweCell .B .side (oweCell .A .side s)
  let s := endPlatterC s
  let s := reexamine (freeLocks (fun l => l.platter == .C) s)
  notifyDrive 2 ((s.modIntake .A dropCursorC).modIntake .B dropCursorC)

/-- The OPEN entry (R163): the state span cancelled and recovery cleared, OPEN reported to the engine, and the sequence
gone through at once when no slot was ACTIVE. -/
def enterOpen (s : State) : State :=
  let wasActive := s.activeSlot.isSome
  let s := reportDrive ((setDrive .opened 0 s).modDrv (fun d => { d with recovery := false }))
  if wasActive then s.modDrv (fun d => { d with openPending := true }) else openRest s

/-! ### The drive's inputs at the controller -/

/-- C at a rise of on cylinder: the address lines' cylinder after a seek strobe, 0 after a recalibrate (R156). -/
def cylinderRecorded (d : Drive) : Drive :=
  { d with
    cyl := match d.move with
      | some (.seek c) => c
      | some .recalibrate => 0
      | none => d.cyl
    homed := d.homed || d.move == some .recalibrate
    move := none
    markSeen := false }

/-- The entry to READY when on cylinder has risen after the recalibrate and heads loaded is asserted (R157). -/
def readyIfHomed (s : State) : State :=
  if s.drv.state = .recalibrating ∧ s.drv.homed = true ∧ s.drv.inp.headsLoaded = true then enterReady s else s

/-- An abandoned movement ended with on cylinder, and a request that waited for it begins (R115); a SEEK that is on its
cylinder then ends with the count of this moment: DESIGN CHOICE, log entry 40. -/
def abandonedEnded (s : State) : State :=
  if s.eng.abandoned.isNone then s
  else
    let s := s.modEng (fun e => { e with abandoned := none })
    if s.eng.phase = .idle ∧ s.eng.begun = false ∧ s.eng.ending = none then beginRequest s else s

/-- On cylinder rose (R114, R115, R156, R157). In OFFLINE it is ignored (R164): DESIGN CHOICE, log entry 42. -/
def onCylinderRose (s : State) : State :=
  if s.drv.state = .offline then s
  else
    let moving := s.drv.move.isSome
    let phase := s.eng.phase
    let s := abandonedEnded (s.modDrv cylinderRecorded)
    let s := if moving ∧ s.eng.phase = phase then movementEnded s else s
    readyIfHomed s

/-- On cylinder fell (R158): a loss of ready while READY, unless a movement of the part caused it. -/
def onCylinderFell (s : State) : State :=
  if s.drv.state = .ready ∧ s.drv.move = none then enterRecalibrating s else s

/-- Power present fell (R164). -/
def powerFell (s : State) : State := if s.drv.state = .offline then s else enterOffline s

/-- Power present rose (R164). -/
def powerRose (s : State) : State :=
  if s.drv.state = .offline then
    if !s.drv.inp.cartridgeClosed then enterOpen s
    else if s.drv.inp.upToSpeed then enterRecalibrating s
    else enterStopped s
  else s

/-- Up to speed rose (R157). -/
def upToSpeedRose (s : State) : State := if s.drv.state = .spinningUp then enterRecalibrating s else s

/-- OPEN is left for STOPPED when cartridge closed is asserted and up to speed is not (R163). -/
def leaveOpen (s : State) : State :=
  if s.drv.state = .opened ∧ s.drv.inp.cartridgeClosed = true ∧ s.drv.inp.upToSpeed = false then enterStopped s else s

/-- Up to speed fell (R158, R163). -/
def upToSpeedFell (s : State) : State :=
  match s.drv.state with
  | .recalibrating | .ready | .parked => enterSpinningUp s
  | .opened => leaveOpen s
  | .offline | .stopped | .spinningUp | .faulted => s

/-- Heads loaded rose (R157). -/
def headsRose (s : State) : State := readyIfHomed s

/-- Heads loaded fell (R158). -/
def headsFell (s : State) : State := if s.drv.state = .ready then enterRecalibrating s else s

/-- The fault input rose (R161). -/
def faultRose (s : State) : State :=
  match s.drv.state with
  | .spinningUp | .recalibrating | .ready | .parked => enterFaulted 4 s
  | .offline | .stopped | .opened | .faulted => s

/-- A fault reset acts (R162): FAULTED is left for RECALIBRATING, or for SPINNING_UP with spindle start. -/
def faultResetActs (s : State) : State := if s.drv.inp.upToSpeed then enterRecalibrating s else enterSpinningUp s

/-- The fault input fell (R162). -/
def faultFell (s : State) : State :=
  if s.drv.state = .faulted ∧ s.drv.recovery = true ∧ s.drv.span.isSome then faultResetActs s else s

/-- A fault reset asked for by a RESTORE (R162). -/
def faultReset (s : State) : State :=
  let s := (s.modDrv (fun d => { d with recovery := true })).emit .faultReset
  if s.drv.inp.fault then startStateSpan 256 s else faultResetActs s

/-- The load switch was pressed, or cartridge closed fell (R163). -/
def opensDrive (s : State) : State :=
  match s.drv.state with
  | .opened | .offline => s
  | .stopped | .spinningUp | .recalibrating | .ready | .parked | .faulted => enterOpen s

/-- Side `x`'s idle level set (R159); its effect on the drive state is settled at the command's end. -/
def setIdle (x : Side) (l : Nat) (s : State) : State := s.modDrv (fun d => { d with idle := d.idle.set x l })

/-- An event at the drive controller. -/
def driveEvent (s : State) (e : DriveEvent) : State :=
  match e with
  | .onCylinderRise => onCylinderRose s
  | .onCylinderFall => onCylinderFell s
  | .powerFall => powerFell s
  | .powerRise => powerRose s
  | .upToSpeedRise => upToSpeedRose s
  | .upToSpeedFall => upToSpeedFell s
  | .headsRise => headsRose s
  | .headsFall => headsFell s
  | .faultRise => faultRose s
  | .faultFall => faultFell s
  | .loadSwitch => opensDrive s
  | .closedFall => opensDrive s
  | .closedRise => leaveOpen s
  | .idleWrite x l => setIdle x l s

/-! ### Idle control (R157, R159, R160) -/

/-- The state span kept running while `want` holds, started with `k` slots when it begins to, and cancelled when it ceases
to. -/
def spanWhile (want : Bool) (k : Nat) (s : State) : State :=
  if want then (if s.drv.span.isNone then startStateSpan k s else s) else s.modDrv (fun d => { d with span := none })

/-- What the drive controller does of itself in its present state, by the waiting slots, the ACTIVE slot and the idle
target: leave STOPPED (R157), reload from PARKED, run the park and spin-down delays (R160). It is settled at the end of
each command, since only the events R157 and R160 name can change its outcome. -/
def reconcileDrive (s : State) : State :=
  let waiting := !s.waitingSlots.isEmpty
  match s.drv.state with
  | .stopped => if waiting || decide (s.idleTarget < 2) then enterSpinningUp s else s
  | .parked =>
    if waiting || s.idleTarget == 0 then enterRecalibrating s else spanWhile (s.idleTarget == 2) 38400 s
  | .ready => spanWhile (!waiting && s.activeSlot.isNone && decide (0 < s.idleTarget)) 1024 s
  | .offline | .spinningUp | .recalibrating | .opened | .faulted => s

/-- An event at the controller: taken at once, or after the OPEN entry sequence that is under way (R163). What idle
control does in the state it leaves is taken with it. -/
def takeDriveEvent (s : State) (e : DriveEvent) : State :=
  if s.drv.openPending then s.modDrv (fun d => { d with deferred := d.deferred ++ [e] })
  else reconcileDrive (driveEvent s e)

/-- An event that an OPEN entry sequence held back, taken after it; the selector examines at the drive state it brings
(R79, R163). -/
def takeHeldEvent (s : State) (e : DriveEvent) : State := examine (takeDriveEvent s e)

/-- The OPEN entry sequence goes on once no slot is ACTIVE, and the events it held back are taken in their order
(R163). -/
def openResumes (s : State) : State :=
  let es := s.drv.deferred
  es.foldl takeHeldEvent (openRest (s.modDrv (fun d => { d with deferred := [] })))

/-! ### Taking an ACTIVE slot (R113) -/

/-- A selected request begins (R113): an abandoned movement is waited for, and a write's or CHECK's prefetch starts. The
phase stays IDLE while the movement is waited for: DESIGN CHOICE, log entry 47. -/
def startRequest (sl : Slot) (s : State) : State :=
  let s := if sl.isKind Kind.transfers && !sl.isKind Kind.diskRead then s.modEng (fun e => e.fill 0) else s
  if s.eng.abandoned.isSome then s else beginRequest s

/-- A selected RESTORE in READY: a recalibrate with its span of 256 slots (R133). -/
def restoreReady (s : State) : State :=
  issueRecalibrate
    (s.modEng (fun e =>
      { e with phase := .restoring, restore := some .ready, span := some (spanFrom s.clk.count 256) }))

/-- The engine takes slot `i` as its work (R113). -/
def engineTakes (i : Fin 12) (s : State) : State :=
  let sl := s.slot i
  let s := s.modEng (fun e =>
    { Engine.cleared e.abandoned with work := some (i, sl.tenure), target := some 0 })
  match s.drv.state with
  | .ready => if sl.kind = some .restore then restoreReady s else startRequest sl s
  | .faulted =>
    if sl.kind = some .restore then
      faultReset (s.modEng (fun e => { e with phase := .restoring, restore := some .faulted }))
    else interrupt .driveFault s
  | _ => interrupt .notReady s

/-- The engine takes the ACTIVE slot when it has no work and is not FINISHING (R113, R128). -/
def engineReady (s : State) : State :=
  match s.activeSlot with
  | none => s
  | some i => if s.eng.phase ≠ .finishing ∧ engineSlot s ≠ some i then engineTakes i s else s

/-! ### MOUNT_ACK (R165) -/

/-- The decision on an accepted MOUNT_ACK (R165), made at its acceptance also while an OPEN entry sequence waits, when
it is NOT_READY: DESIGN CHOICE, log entry 18. -/
def decideMountAck (i : Fin 12) (s : State) : State :=
  if s.drv.state = .opened ∨ s.drv.state = .offline then postNeverActive i .notReady s
  else postNeverActive i .ok (s.modDrv (fun d => { d with mounted := d.mounted.set (s.slot i).side true }))

end Sys2Proof.Machine
end

