-- ==== Sys2Proof/Machine/Selection.lean ====
section
/-! DEFINITION. The request table's taking of the selection request (R88, R89) with the passes counted. -/

namespace Sys2Proof.Machine

/-! ### Taking the selection (R88, R89) -/

/-- A pass counted for slot `e` of the counted set, when it still waits as it did at the choice: one that left WAITING is
passed over, also when its chain has entered WAITING since (R88, R90; log entry 43). -/
def countPass (s : State) (e : Fin 12 × Nat × Nat) : State :=
  if (s.slot e.1).state = .waiting ∧ (s.slot e.1).wait = e.2 then
    s.modSlot e.1 (fun sl => { sl with passCount := sat15 (sl.passCount + 1) })
  else s

/-- The fence of slot `i` begins on the tap of its side (R37). -/
def beginFence (i : Fin 12) (s : State) : State :=
  s.modTap (s.slot i).side (fun t => { t with fence := (s.slot i).fence })

/-- Slot `i` becomes ACTIVE, the passes are counted, and the slot's departure from WAITING is reported (R88, R77). -/
def activate (i : Fin 12) (counted : List (Fin 12 × Nat × Nat)) (s : State) : State :=
  let before := s.slot i
  let s := counted.foldl countPass { s with sel := none }
  reexamineAfter before (beginFence i (s.modSlot i (fun sl => { sl with state := .active })))

/-- The request table takes the outstanding selection request (R72, R88), or refuses it (R89). It tests state and tenure
alone, also where the chosen slot has been posted and chained since and waits again: DESIGN CHOICE, log entry 46. -/
def takeSelection (s : State) : State :=
  match s.sel with
  | none => s
  | some q =>
    if (s.slot q.slot).state = .waiting ∧ (s.slot q.slot).tenure = q.tenure ∧ s.activeSlot = none then
      activate q.slot q.counted s
    else { s with sel := none }

end Sys2Proof.Machine
end

