-- ==== Sys2Proof/Machine/Intake.lean ====
section
/-! DEFINITION. The intake unit (Chapter 4): the pending list, the take, the record fetch, validation by the nine steps of
R25, acceptance with the cursor, and dispatch. -/

namespace Sys2Proof.Machine

/-! ### The pending list (R47, R48) -/

/-- Cell `i` is pending. -/
def Intake.pends (u : Intake) (i : Fin 8) : Bool := u.list.any (fun e => e.1 == i)

/-- The captured value of a pending cell replaced in place. -/
def Intake.replace (u : Intake) (i : Fin 8) (v : Word) : Intake :=
  { u with
    list := u.list.map (fun e => if e.1 = i then (i, v) else e)
    overrun := sat15 (u.overrun + 1) }

/-- A computer write of `v` to submission cell `i`, as far as the pending list goes (R48). -/
def Intake.submit (u : Intake) (i : Fin 8) (v : Word) : Intake :=
  if u.pends i then
    if v = 0 then { u with list := u.list.filter (fun e => e.1 != i) } else u.replace i v
  else if v = 0 then u else { u with list := u.list ++ [(i, v)] }

/-! ### The record fetch (R49, R52, R53) -/

/-- The intake unit's fetch is over. -/
def endFetch (x : Side) (s : State) : State := s.modIntake x (fun u => { u with fetch := none })

/-- Slot `i` of side `x` is unfetchable with status `st` (R53). -/
def unfetchable (x : Side) (i : Fin 12) (st : Status) (s : State) : State := postRecordless i st (endFetch x s)

/-- The reads of slot `i`'s record begin, unless its quad address is above 65532 (R52). -/
def startReads (x : Side) (i : Fin 12) (s : State) : State :=
  if 65532 < (s.slot i).q.toNat then unfetchable x i .badAddress s
  else s.modIntake x (fun u => { u with fetch := some ⟨i, none⟩ })

/-- The clearing write of cell `i`, when it is not yet granted, is withdrawn by a new submission in the cell, and the
record fetch starts (R51). `granted` says that it has been granted. -/
def withdrawClearing (x : Side) (i : Fin 8) (granted : Bool) (s : State) : State :=
  match (s.intake.get x).fetch with
  | none => s
  | some f => if f.clearing = some i ∧ granted = false then startReads x f.slot s else s

/-- The clearing write of side `x` is in progress. -/
def clearingGranted (s : State) (x : Side) : Bool :=
  match (s.tap.get x).arb with
  | .part p =>
    match p.kind with
    | .clearing _ => !p.abandoned
    | _ => false
  | _ => false

/-- A delivered computer write of `v` to submission cell `i` (R48, R51). -/
def submitCell (x : Side) (i : Fin 8) (v : Word) (s : State) : State :=
  let wasPending := (s.intake.get x).pends i
  let g := clearingGranted s x
  let s := s.modIntake x (fun u => u.submit i v)
  if v ≠ 0 ∧ wasPending = false then withdrawClearing x i g s else s

/-! ### The take (R49, R50) -/

/-- No fetch is in progress and no claim is on its way back. -/
def Intake.idle (u : Intake) : Bool := u.fetch.isNone && u.claim.isNone

/-- The conditions of a take (R49). -/
def mayTake (s : State) (x : Side) : Bool :=
  s.live x && !(s.intake.get x).list.isEmpty && (s.intake.get x).idle && (s.intake.get x).chains.isEmpty
    && decide (s.occupied x < 8) && s.lowestFree.isSome

/-- The claim of a take for the pending list's head (R50): the lowest-numbered FREE slot enters INTAKE. Its
record address is 0 until the claim returns: DESIGN CHOICE, log entry 12. -/
def claimSlot (x : Side) (s : State) : State :=
  match s.lowestFree, (s.intake.get x).list with
  | some k, e :: _ =>
    (s.modSlot k (fun sl => sl.claimed x 0)).modIntake x (fun u => { u with claim := some (k, e.1) })
  | _, _ => s

/-- Slot `k`'s take of the head `i` with its captured value `q`: the head is removed, with `rest` behind it, and the
clearing write is owed (R50, R51). -/
def removeHead (x : Side) (k : Fin 12) (i : Fin 8) (q : Word) (rest : List (Fin 8 × Word)) (s : State) : State :=
  (s.modSlot k (fun sl => { sl with q := q })).modIntake x
    (fun u => { u with list := rest, claim := none, fetch := some ⟨k, some i⟩ })

/-- A granted claim returns (R50): the head it was made for is removed, with the value captured last. Where a zero has
withdrawn that head meanwhile, the take does not proceed and the slot is returned FREE. Log entry 12. -/
def claimReturned (x : Side) (s : State) : State :=
  match (s.intake.get x).claim with
  | none => s
  | some (k, i) =>
    match (s.intake.get x).list with
    | (j, q) :: rest =>
      if j = i then removeHead x k i q rest s else freeSlot k (s.modIntake x (fun u => { u with claim := none }))
    | [] => freeSlot k (s.modIntake x (fun u => { u with claim := none }))

/-- A chain fetch of slot `i` handed over to side `x`'s intake unit: it starts, or waits behind others (R49). -/
def handChain (x : Side) (i : Fin 12) (s : State) : State :=
  if (s.intake.get x).idle = true ∧ (s.intake.get x).chains = [] then startReads x i s
  else s.modIntake x (fun u => { u with chains := u.chains ++ [i] })

/-- The chain fetch at the head of the waiting ones starts (R49). -/
def startChain (x : Side) (s : State) : State :=
  match (s.intake.get x).chains with
  | [] => s
  | i :: r => startReads x i (s.modIntake x (fun u => { u with chains := r }))

/-! ### What a fetched record names (R4, R21, R59) -/

/-- The platter and start of a transfer record: as named, or the cursor for a continue kind (R59). -/
def extentStart (k : Kind) (r : List Word) (cursor : Option (Platter × Nat)) : Option (Platter × Nat) :=
  if k.continues then cursor
  else some (platterOf (recHead r), spiralIndex (recCylinder r) (recHead r) (recSector r))

/-- The touched cylinders of a record (R25), where they can be told. -/
def touchedOf (k : Kind) (r : List Word) (cursor : Option (Platter × Nat)) : Option (Nat × Nat) :=
  if k.transfers then
    (extentStart k r cursor).map (fun e => (cylOf e.2, cylOf (e.2 + sectorsFor (recCount r) - 1)))
  else if k = .seek then some (recCylinder r, recCylinder r)
  else if k.locks then some (lockRange r)
  else none

/-- The platter of a record's extent, where it has one. -/
def platterNamed (k : Kind) (r : List Word) (cursor : Option (Platter × Nat)) : Option Platter :=
  if k.transfers then (extentStart k r cursor).map Prod.fst
  else if k.locks then some (recLockPlatter r)
  else none

/-! ### The nine steps (R25) -/

/-- Step 2 fails: the count. -/
def badCount (k : Kind) (r : List Word) : Bool :=
  if k.transfers then decide (recCount r = 0) || decide (16384 < recCount r)
  else if k.locks then decide (recLastCylinder r < recCylinder r)
  else false

/-- Step 3 fails: the disk address. -/
def badDiskAddress (k : Kind) (r : List Word) (cursor : Option (Platter × Nat)) : Bool :=
  ((k == .read || k == .write || k == .check || k == .seek) && decide (399 < recCylinder r))
    || (k.transfers && (extentStart k r cursor).any
        (fun e => decide (platterSectors ≤ e.2 + sectorsFor (recCount r) - 1)))
    || (k.locks && decide (399 < recLastCylinder r))

/-- Step 4 fails: the memory extent. -/
def badMemoryExtent (k : Kind) (r : List Word) : Bool :=
  k.transfers && decide (262143 < lastBufferWord (recBuffer r) (recCount r) (recStride r))

/-- Step 6 fails: the mount. -/
def notMounted (s : State) (x : Side) (k : Kind) (r : List Word) (cursor : Option (Platter × Nat)) : Bool :=
  platterNamed k r cursor == some .C && !(s.drv.mounted.get x)

/-- Step 7 fails: the region. -/
def regionDenied (s : State) (x : Side) (k : Kind) (r : List Word) (cursor : Option (Platter × Nat)) : Bool :=
  (touchedOf k r cursor).any (fun t =>
    if k = .lock then s.map.leavesShared t else k != .unlock && s.map.reachesOther x t)

/-- Step 8 fails: the changing cylinders. -/
def regionChanging (s : State) (k : Kind) (r : List Word) (cursor : Option (Platter × Nat)) : Bool :=
  k != .unlock && (touchedOf k r cursor).any s.map.commitChanges

/-- An EXCLUSIVE lock of side `x` on platter `p` covers cylinder `c`. -/
def coveredBy (s : State) (x : Side) (p : Platter) (c : Nat) : Bool :=
  s.held.any (fun l => l.side == x && l.exclusive && l.platter == p && decide (l.first ≤ c) && decide (c ≤ l.last))

/-- Step 9 fails: a touched Shared cylinder that no EXCLUSIVE lock of the side covers. -/
def lockMissing (s : State) (x : Side) (k : Kind) (r : List Word) (cursor : Option (Platter × Nat)) : Bool :=
  k.diskWrite && (extentStart k r cursor).any (fun e => (touchedOf k r cursor).any (fun t =>
    (List.range (t.2 + 1 - t.1)).any (fun d =>
      s.map.inShared (t.1 + d) && !coveredBy s x e.1 (t.1 + d))))

/-- The first step that fails gives the refusal; none means that the record passes (R25). -/
def validate (s : State) (x : Side) (r : List Word) : Option Status :=
  let cursor := (s.intake.get x).cursor
  match recKind r with
  | none => some .badKind
  | some k =>
    if badCount k r then some .badCount
    else if badDiskAddress k r cursor then some .badAddress
    else if badMemoryExtent k r then some .badAddress
    else if k.continues && cursor.isNone then some .noCursor
    else if notMounted s x k r cursor then some .notMounted
    else if regionDenied s x k r cursor then some .regionDenied
    else if regionChanging s k r cursor then some .regionChanging
    else if lockMissing s x k r cursor then some .noLock
    else none

/-! ### Acceptance (R54, R58, R65, R67, R69) -/

/-- The sector count of an accepted record: 0 for a SEEK, absent for the kinds that have none (R65). -/
def countNamed (k : Kind) (r : List Word) : Option Nat :=
  if k.transfers then some (sectorsFor (recCount r)) else if k = .seek then some 0 else none

/-- The deadline in slots that an accepted record asks for, if it does (R69). -/
def deadlineAsked (k : Kind) (r : List Word) : Option Nat :=
  if k.usesDeadline && decide (0 < recDeadline r) then some (recDeadline r) else none

/-- A slot's context as acceptance fills it, with sequence number `seq` and the slot clock at `t`. -/
def Slot.accepted (sl : Slot) (k : Kind) (cursor : Option (Platter × Nat)) (seq t : Word) : Slot :=
  let r := sl.words
  { sl with
    platter := platterNamed k r cursor
    start := if k.transfers then (extentStart k r cursor).map Prod.snd else none
    n := countNamed k r
    touched := touchedOf k r cursor
    seq := some seq
    deadline := (deadlineAsked k r).map (fun d => t + BitVec.ofNat 16 d)
    span := (deadlineAsked k r).map (fun d => spanFrom t d)
    passCount := 0 }

/-- The cursor after the acceptance of an extent (R58). -/
def cursorAfter (k : Kind) (r : List Word) (cursor : Option (Platter × Nat)) : Option (Platter × Nat) :=
  if k.setsCursor then
    (extentStart k r cursor).bind (fun e =>
      if e.2 + sectorsFor (recCount r) < platterSectors then some (e.1, e.2 + sectorsFor (recCount r)) else none)
  else cursor

/-- The accepted record of slot `i` dispatched by its kind (R55). -/
def dispatch (i : Fin 12) (k : Kind) (s : State) : State :=
  match k with
  | .lock => decideLock i s
  | .unlock => decideUnlock i s
  | .mountAck => decideMountAck i s
  | .read | .check | .contRead => if readBlocked s (s.slot i) then decideBlockedRead i s else toWaiting i s
  | .write | .contWrite | .seek | .restore => toWaiting i s

/-- The record of slot `i` accepted (R54). -/
def accept (x : Side) (i : Fin 12) (k : Kind) (s : State) : State :=
  let cursor := (s.intake.get x).cursor
  let r := (s.slot i).words
  let s := { s with counter := s.counter + 1 }
  let s := s.modSlot i (fun sl => sl.accepted k cursor s.counter s.clk.count)
  dispatch i k (s.modIntake x (fun u => { u with cursor := cursorAfter k r cursor }))

/-- The twelfth read has ended: validation, or CHAIN_LIMIT at chain depth 64 (R54, R142), and dispatch. -/
def recordFetched (x : Side) (i : Fin 12) (s : State) : State :=
  let s := endFetch x s
  if (s.slot i).depth = 64 then postNeverActive i .chainLimit s
  else
    match validate s x (s.slot i).words with
    | some st => postNeverActive i st s
    | none =>
      match (s.slot i).kind with
      | some k => accept x i k s
      | none => postNeverActive i .badKind s

/-- Word `d` of slot `i`'s record has been read (R52). -/
def wordFetched (x : Side) (i : Fin 12) (d : Word) (s : State) : State :=
  let s := s.modSlot i (fun sl => { sl with words := sl.words ++ [d] })
  if 12 ≤ (s.slot i).words.length then recordFetched x i s else s

end Sys2Proof.Machine
end

