-- ==== Sys2Proof/Machine/Posting.lean ====
section
/-! DEFINITION. The posting unit (Chapter 9): taking the next head, the WORDS and SIGNAL steps, and the end of a posting
with its notice and its chain. -/

namespace Sys2Proof.Machine

/-- The current slot (R134): the head of the queue while a step is under way. -/
def currentSlot (s : State) : Option (Fin 12) :=
  match s.post.step, s.post.queue with
  | some _, e :: _ => some e.1
  | _, _ => none

/-- The code of the notice: the status, or MEMORY_TIMEOUT when a timeout was seen (R139, R140). -/
def noticeCode (sl : Slot) (timeoutSeen : Bool) : Nat :=
  if timeoutSeen then Status.memoryTimeout.code else (sl.status.getD .ok).code

/-- The NOTICE step (R139). -/
def postNotice (sl : Slot) (timeoutSeen : Bool) (s : State) : State :=
  if sl.recordless then notify sl.side .completion 7 63 (noticeCode sl timeoutSeen) s
  else if recPriority sl.words ≤ 7 then
    notify sl.side .completion (recPriority sl.words) (recTag sl.words) (noticeCode sl timeoutSeen) s
  else s

/-- The link condition is met by the slot's status (R141). -/
def linkMet (sl : Slot) : Bool :=
  match recLinkCondition sl.words with
  | 1 => true
  | 2 => sl.status == some .ok
  | 3 => sl.status != some .ok
  | _ => false

/-- The successor is to be fetched (R141, R142). -/
def followsLink (sl : Slot) (timeoutSeen : Bool) : Bool :=
  !timeoutSeen && !sl.recordless && linkMet sl && recLink sl.words != 0 && decide (sl.depth < 64)

/-- The CHAIN step (R141): the slot goes to INTAKE for its successor, or becomes FREE. -/
def postChain (i : Fin 12) (timeoutSeen : Bool) (s : State) : State :=
  let sl := s.slot i
  if followsLink sl timeoutSeen then handChain sl.side i (s.modSlot i Slot.chained) else freeSlot i s

/-- The posting unit has done with the head: it leaves the queue and the current slot is none (R135). -/
def Posting.dropHead (p : Posting) : Posting := { p with queue := p.queue.tail, step := none }

/-- The NOTICE and CHAIN steps of slot `i`, after which the next head can be taken. -/
def finishPosting (i : Fin 12) (s : State) : State :=
  let t := s.post.timeoutSeen
  postChain i t ((postNotice (s.slot i) t s).modPost Posting.dropHead)

/-- The SIGNAL step is entered after the WORDS step, or passed (R138). -/
def enterSignal (i : Fin 12) (s : State) : State :=
  if recSignalAddr (s.slot i).words = 0 then finishPosting i s
  else s.modPost (fun p => { p with step := some .signal })

/-- The head becomes the current slot (R135); a record-less result passes WORDS and SIGNAL at once. -/
def startPosting (s : State) : State :=
  match s.post.queue with
  | [] => s
  | (i, _) :: _ =>
    let s := s.modPost (fun p => { p with step := some .words, wordsWritten := 0, timeoutSeen := false })
    if (s.slot i).recordless then finishPosting i s else s

/-- A result word was written (R136): the next one follows, or the SIGNAL step. -/
def wordWritten (s : State) : State :=
  match currentSlot s with
  | none => s
  | some i =>
    let s := s.modPost (fun p => { p with wordsWritten := p.wordsWritten + 1 })
    if s.post.wordsWritten < 3 then s else enterSignal i s

/-- The locked pair ended with an answer (R138). -/
def pairWritten (s : State) : State :=
  match currentSlot s with
  | none => s
  | some i => finishPosting i s

/-- A write of the current posting ended with a memory timeout (R140). -/
def postingTimedOut (s : State) : State :=
  match currentSlot s with
  | none => s
  | some i => finishPosting i (s.modPost (fun p => { p with timeoutSeen := true }))

/-- The posting unit at a side reset of `x` (R143): its slots leave the queue, and a current slot of it stops. `isX` tells
whether a slot is the side's. -/
def Posting.dropSide (p : Posting) (isX : Fin 12 → Bool) : Posting :=
  let stops := p.queue.head?.any (fun e => isX e.1)
  { p with
    queue := p.queue.filter (fun e => !isX e.1)
    step := if stops then none else p.step }

end Sys2Proof.Machine
end

