-- ==== Sys2Proof/Machine/Tap.lean ====
section
/-! DEFINITION. The memory taps (Chapter 3): examination of computer cycles against the control page and the fence, what
each requester asks for, the urgency of data cycles, arbitration, and the status cells owed (R16); and what is settled at
the end of every command. -/

namespace Sys2Proof.Machine

/-! ### Examination (R30, R31, R39) -/

/-- A memory address as the 18-bit word it is. -/
def wordAddr (n : Nat) : Addr := BitVec.ofNat 18 n

/-- What a computer write to the cell at offset `k` from 8 on is (R31, R16). -/
def watchCell (k : Nat) : Watch :=
  match k with
  | 8 => .level
  | 9 => .noticeWrite
  | 10 => .cross
  | 11 => .idle
  | 12 => .proposal false
  | 13 => .proposal true
  | 14 => .seal
  | 15 | 16 | 17 | 18 | 19 => .partOwned
  | _ => .none

/-- What a computer write to the cell at offset `k` is: the eight submission cells stand at offsets 0 to 7 (R31). -/
def watchWrite (k : Nat) : Watch := if h : k < 8 then .submission ⟨k, h⟩ else watchCell k

/-- What a computer cycle is by its place in the control page, on a live side (R31). -/
def Tap.examine (t : Tap) (dir : Dir) (a : Addr) : Watch :=
  if t.live = false ∨ a.toNat < t.base then .none
  else
    match dir with
    | .write => watchWrite (a.toNat - t.base)
    | .read => if a.toNat = t.base + 9 then .noticeRead else .none

/-- The fence covers the direction of a computer cycle (R39). -/
def FenceDir.covers (d : FenceDir) (dir : Dir) : Bool := d == .diskRead || dir == .write

/-- A computer cycle qualifies at its arrival (R39): it addresses a fenced word in a direction the fence covers. -/
def Tap.qualifies (t : Tap) (dir : Dir) (a : Addr) : Bool :=
  t.live && t.fence.any (fun f => f.dir.covers dir && (wordIndex f a).any (fun j => decide (f.index ≤ j)))

/-- The fence is in WAIT mode. -/
def Tap.fenceWaits (t : Tap) : Bool := t.fence.any (fun f => f.wait)

/-- The computer cycle in progress on side `x`. -/
def computerCycle (s : State) (x : Side) : Option CompCycle :=
  match (s.tap.get x).arb with
  | .computer c => some c
  | _ => none

/-- A computer cycle of side `x` is in the tap (R29). -/
def inTap (s : State) (x : Side) : Bool :=
  (computerCycle s x).isSome || (s.tap.get x).comp.isSome || (s.tap.get x).held.isSome

/-- A computer cycle arrives (R29, R39 to R41): it is held in WAIT mode, or waits at the arbiter, with a touch reported in
REPORT mode. -/
def arrival (x : Side) (dir : Dir) (a : Addr) (d : Word) (s : State) : State :=
  let t := s.tap.get x
  let c : CompCycle := ⟨dir, a, d, t.examine dir a⟩
  if t.qualifies dir a then
    if t.fenceWaits then s.modTap x (fun t => { t with held := some c })
    else touch (s.modTap x (fun t => { t with comp := some c }))
  else s.modTap x (fun t => { t with comp := some c })

/-! ### Urgency (R35) -/

/-- Word times of a slot (R5 to R8's recorded format). -/
def slotWordTimes : Nat := 320

/-- Marks to come until the target's own mark: 1 to 16 while the engine waits for it, 0 while it is in its sector. None
where it cannot be known. -/
def marksToTarget (s : State) (sl : Slot) : Option Nat :=
  if !s.drv.markSeen then none
  else
    match s.eng.phase with
    | .rotating => some ((secOf (sl.sectorAt s.eng.m).2 + 31 - s.drv.mark.toNat) % 16 + 1)
    | .inSector => some 0
    | _ => none

/-- The word times until the mark of position `t`, counted from the last mark: none where a seek comes between, or the
position is behind the target or beyond the extent. -/
def wordTimesToMark (s : State) (sl : Slot) (t : Nat) : Option Nat :=
  let m := s.eng.m
  if t < m ∨ sl.sectors ≤ t then none
  else if (List.range (t - m)).any (fun k => endsCylinder (sl.sectorAt (m + k)).2) then none
  else (marksToTarget s sl).map (fun a => (a + (t - m)) * slotWordTimes)

/-- The word times from the last mark to the need point of the buffer that serves position `p` (R35). -/
def needPoint (s : State) (sl : Slot) (p : Nat) : Option Nat :=
  if sl.isKind Kind.diskRead then (wordTimesToMark s sl (p + 2)).map (fun w => w + 40)
  else wordTimesToMark s sl p

/-- The words still to move in the buffer of position `p`. -/
def wordsToMove (s : State) (sl : Slot) (p : Nat) : Nat :=
  let b := s.eng.buf p
  sl.wordsAt p - (if sl.isKind Kind.diskRead then b.moved else b.words.length)

/-- The data cycle of word `j` is urgent (R35). -/
def urgent (s : State) (sl : Slot) (j : Nat) : Bool :=
  (needPoint s sl (j / 256)).any (fun w => decide (w - s.drv.wordTime ≤ wordsToMove s sl (j / 256) + 32))

/-! ### What the requesters ask for (R32) -/

/-- A read asked for. -/
def askRead (k : CycleKind) (a : Addr) : PartCycle := ⟨k, .read, a, 0, false⟩

/-- A write asked for. -/
def askWrite (k : CycleKind) (a : Addr) (d : Word) : PartCycle := ⟨k, .write, a, d, false⟩

/-- The engine goes on moving words: no ending decided, or the drain of a disk read is to be finished (R129). -/
def engineMoves (s : State) : Bool :=
  match s.eng.ending with
  | none => true
  | some e => e.drain

/-- The transfer engine's data cycle on side `x` (R120, R121). -/
def engineAsks (s : State) (x : Side) : Option PartCycle :=
  match engineSlot s, (s.tap.get x).fence with
  | some i, some f =>
    let sl := s.slot i
    let b := s.eng.buf (f.index / 256)
    let a := bufferAddr f.buffer f.stride f.index
    if sl.side ≠ x ∨ engineMoves s = false ∨ f.count ≤ f.index then none
    else if f.dir = .diskRead ∧ b.state = .good then some (askWrite (.data f.index) a (b.words.getD (f.index % 256) 0))
    else if f.dir = .fromMemory ∧ b.state = .filling then some (askRead (.data f.index) a)
    else none
  | _, _ => none

/-- The posting unit's cycle on side `x` (R136, R138). -/
def postingAsks (s : State) (x : Side) : Option PartCycle :=
  match currentSlot s with
  | none => none
  | some i =>
    let sl := s.slot i
    if sl.side ≠ x then none
    else
      match s.post.step with
      | some .words =>
        some (askWrite (.result s.post.wordsWritten) (wordAddr (4 * sl.q.toNat + 13 + s.post.wordsWritten))
          (sl.result s.post.wordsWritten))
      | some .signal => some (askRead .pairRead (wordAddr (recSignalAddr sl.words)))
      | none => none

/-- The intake unit's cycle on side `x` (R51, R52). -/
def intakeAsks (s : State) (x : Side) : Option PartCycle :=
  match (s.intake.get x).fetch with
  | none => none
  | some ⟨_, some i⟩ => some (askWrite (.clearing i) (wordAddr ((s.tap.get x).base + i.val)) 0)
  | some ⟨k, none⟩ =>
    let sl := s.slot k
    some (askRead (.fetch sl.words.length) (wordAddr (4 * sl.q.toNat + sl.words.length)))

/-- The presenter's cycle on side `x`: its first owed write (R147). -/
def presenterAsks (s : State) (x : Side) : Option PartCycle :=
  match (s.pres.get x).owed with
  | [] => none
  | .level l :: _ => some (askWrite .level (wordAddr ((s.tap.get x).base + 8)) (BitVec.ofNat 16 l))
  | .notice e acc :: _ =>
    some (askWrite (.notice e acc) (wordAddr ((s.tap.get x).base + 9)) (e.elim noNotice Entry.word))

/-- The offset of a part-owned cell (R16). -/
def StatusCell.offset : StatusCell → Nat
  | .drive => 15
  | .side => 16
  | .map1 => 17
  | .map2 => 18
  | .partition => 19

/-- The contents of a part-owned cell of side `x` (R17 to R19). -/
def cellWord (s : State) (x : Side) (c : StatusCell) : Word :=
  match c with
  | .drive => driveCell s.drv
  | .side =>
    sideCell (s.occupied x) (s.intake.get x).overrun (s.pres.get x).lost (s.drv.mounted.get x)
      (s.intake.get x).cursor.isSome
  | .map1 => BitVec.ofNat 16 s.map.p1
  | .map2 => BitVec.ofNat 16 s.map.p2
  | .partition => partitionCell s.map x

/-- The lowest part-owned cell with an owed write (R16). -/
def OwedCells.lowest (o : OwedCells) : Option StatusCell :=
  if o.drive then some .drive
  else if o.side then some .side
  else if o.map1 then some .map1
  else if o.map2 then some .map2
  else if o.partition then some .partition
  else none

/-- A cell's owed write granted. -/
def OwedCells.pay (o : OwedCells) : StatusCell → OwedCells
  | .drive => { o with drive := false }
  | .side => { o with side := false }
  | .map1 => { o with map1 := false }
  | .map2 => { o with map2 := false }
  | .partition => { o with partition := false }

/-- The control page status write asked for on side `x`: the lowest cell owed, with its latest contents (R16). It is
told at the grant, so that a lower cell which becomes owed while a write waits goes first: DESIGN CHOICE, log entry 45. -/
def statusAsks (s : State) (x : Side) : Option PartCycle :=
  (s.tap.get x).owed.lowest.map (fun c =>
    askWrite (.status c) (wordAddr ((s.tap.get x).base + c.offset)) (cellWord s x c))

/-! ### Arbitration (R34) -/

/-- The waiting part cycle of the first requester in the order of R34. -/
def partAsks (s : State) (x : Side) : Option PartCycle :=
  (engineAsks s x).or ((postingAsks s x).or ((intakeAsks s x).or ((presenterAsks s x).or (statusAsks s x))))

/-- The urgent data cycle that waits on side `x`. -/
def urgentAsks (s : State) (x : Side) : Option PartCycle :=
  match engineSlot s with
  | none => none
  | some i =>
    (engineAsks s x).filter (fun p =>
      match p.kind with
      | .data j => urgent s (s.slot i) j
      | _ => false)

/-- A part cycle is granted: an owed write is no longer owed. -/
def grantPart (x : Side) (p : PartCycle) (s : State) : State :=
  let s := s.modTap x (fun t => { t with arb := .part p })
  match p.kind with
  | .notice _ _ | .level => s.modPres x Presenter.granted
  | .status c => s.modTap x (fun t => { t with owed := t.owed.pay c })
  | _ => s

/-- The waiting computer cycle is granted. -/
def grantComputer (x : Side) (c : CompCycle) (s : State) : State :=
  s.modTap x (fun t => { t with arb := .computer c, comp := none })

/-- Side `x`'s arbiter grants by the first row of R34's table that applies; an IN_RESET side serves its computer only
(R44). -/
def arbitrate (x : Side) (s : State) : State :=
  let t := s.tap.get x
  match t.arb with
  | .pairWriteOwed a d => s.modTap x (fun t => { t with arb := .part (askWrite .pairWrite a d) })
  | .free =>
    match (if t.live then urgentAsks s x else none), t.comp with
    | some p, _ => grantPart x p s
    | none, some c => grantComputer x c s
    | none, none =>
      match (if t.live then partAsks s x else none) with
      | some p => grantPart x p s
      | none => s
  | .computer _ | .part _ => s

/-! ### The end of a command -/

/-- The write of cell `c` of side `x` owed when its contents differ from those in `s0` (R16). -/
def oweIfChanged (s0 : State) (x : Side) (c : StatusCell) (s : State) : State :=
  if cellWord s0 x c = cellWord s x c then s else oweCell x c s

/-- The writes of a side's part-owned cells owed for what the command changed. -/
def oweChangedOn (s0 : State) (x : Side) (s : State) : State :=
  oweIfChanged s0 x .partition (oweIfChanged s0 x .map2 (oweIfChanged s0 x .map1
    (oweIfChanged s0 x .side (oweIfChanged s0 x .drive s))))

/-- The writes of the part-owned cells owed for what the command changed (R16). -/
def oweChanged (s0 s : State) : State := oweChangedOn s0 .B (oweChangedOn s0 .A s)

/-- What the blocks do of themselves once a command's own effect is made: the engine takes an ACTIVE slot (R113), the
drive controller acts on waiting slots and the idle target (R157, R160), the drain test (R100), the selector's examination
(R79), the status cells owed (R16), and both arbiters (R34). `s0` is the state before the command. -/
def settle (s0 s : State) : State :=
  arbitrate .B (arbitrate .A (oweChanged s0 (examine (drainTest (reconcileDrive (engineReady s))))))

/-- The state at a command's beginning: the outputs of the command before are gone. -/
def State.begun (s : State) : State := { s with out := [] }

/-- A command with its own effect `f`. -/
def run (f : State → State) (s : State) : Host.Outcome State Fault Refusal := .next (settle s (f s.begun))

/-- A command that is an event only when `c` holds; it has no effect otherwise. -/
def runIf (c : Bool) (f : State → State) (s : State) : Host.Outcome State Fault Refusal :=
  if c then run f s else .next s.begun

end Sys2Proof.Machine
end

