-- ==== Sys2Proof/Machine/Resets.lean ====
section
/-! DEFINITION. The resets (R43 to R46 with every block's response): PART_RESET, INIT_ASSERTED and INIT_RELEASED. -/

namespace Sys2Proof.Machine

/-! ### Becoming live (R16, R45, R155) -/

/-- Side `x` becomes live: the five part-owned cells and NONE are owed. -/
def becomeLive (x : Side) (s : State) : State :=
  (s.modTap x (fun t => { t with live := true, owed := .all })).modPres x (fun p => p.oweNotice none)

/-! ### Part reset -/

/-- What the memory's end of a computer cycle puts out: the word it returned, for a read (R29). -/
def returned (x : Side) (c : CompCycle) (d : Word) : List Output :=
  match c.dir with
  | .read => [.readReturned x d]
  | .write => []

/-- The computer cycle in the tap (R29): in progress at the memory, waiting at the arbiter, or held. -/
def Tap.cycle (t : Tap) : Option CompCycle :=
  match t.arb with
  | .computer c => some c
  | .free | .part _ | .pairWriteOwed _ _ => t.comp.or t.held

/-- The computer cycle in each side's tap. -/
def State.cycles (s : State) : Sided (Option CompCycle) := ⟨(s.tap.get .A).cycle, (s.tap.get .B).cycle⟩

/-- The computer cycles pass to memory while a part reset is in progress, in the order of their arrivals and ends, from
those in the taps at its beginning (R46). One that arrives is not examined, one that ends is not delivered, and the word
a read returned goes to the computer (R29). The answer is what is left in the taps and what was put out; none where a
side's second cycle arrives while its first is in the tap, which R29 rules out: DESIGN CHOICE, log entry 7. -/
def passCycles (cs : Sided (Option CompCycle)) : List ResetCycle → Option (Sided (Option CompCycle) × List Output)
  | [] => some (cs, [])
  | .arrival x dir a d :: es =>
    if (cs.get x).isSome then none else passCycles (cs.set x (some ⟨dir, a, d, .none⟩)) es
  | .ended x d :: es =>
    match cs.get x with
    | none => passCycles cs es
    | some c => (passCycles (cs.set x none) es).map (fun r => (r.1, returned x c d ++ r.2))

/-- A tap after a part reset (R30, R46), live when the side's init line is released. The arbiter is FREE, and the
computer cycle `c` that the reset left in the tap waits there, to be granted at once, also where the memory had it in
progress: DESIGN CHOICE, log entry 15. -/
def Tap.partReset (switches : BitVec 13) (init : Bool) (c : Option CompCycle) : Tap :=
  { Tap.reset (32 * switches.toNat) (!init) with comp := c }

/-- The drive state taken from the inputs (R165), with STOPPED left at once where R157 calls for it. -/
def driveStateAtReset (s : State) : State :=
  if !s.drv.inp.power then s
  else if !s.drv.inp.cartridgeClosed then s.modDrv (fun d => { d with state := .opened })
  else if s.drv.inp.upToSpeed then enterRecalibrating s
  else reconcileDrive (s.modDrv (fun d => { d with state := .stopped }))

/-- Side `x` comes out of the part reset, live when its init line is released (R46). -/
def outOfReset (x : Side) (init : Bool) (s : State) : State := if init then s else becomeLive x s

/-- Every block at a part reset, the drive state not yet taken from the inputs. The queue of waiting commands is the
model's own and is kept. Write gate drops (R13), and a sector that stood under it is put out in no form, as the request
it belonged to is not: DESIGN CHOICE, log entry 44. `r` is what the computer cycles left in the taps and put out. -/
def State.cleared (swA swB : BitVec 13) (initA initB : Bool) (inp : DriveInputs)
    (r : Sided (Option CompCycle) × List Output) (s : State) : State :=
  { State.reset with
    tap := ⟨.partReset swA initA (r.1.get .A), .partReset swB initB (r.1.get .B)⟩
    drv := .reset inp
    pending := s.pending
    out := r.2 }

/-- Both presenters reset. -/
def resetPresenters (s : State) : State := { s with pres := .both .reset }

/-- A part reset of every block. It gives no DRIVE notice (R165), so the presenters are reset after the drive state is
taken. -/
def partReset (swA swB : BitVec 13) (initA initB : Bool) (inp : DriveInputs)
    (r : Sided (Option CompCycle) × List Output) (s : State) : State :=
  outOfReset .B initB (outOfReset .A initA
    (resetPresenters (driveStateAtReset (s.cleared swA swB initA initB inp r))))

/-- PART_RESET: the computer cycles pass while it is in progress, and at its end every block is reset (R46). -/
def execPartReset (swA swB : BitVec 13) (initA initB : Bool) (inp : ResetInputs) (s : State) :
    Host.Outcome State Fault Refusal :=
  match passCycles s.cycles inp.cycles with
  | none => .fault .secondComputerCycle
  | some r => run (partReset swA swB initA initB inp.drive r) s

/-! ### Side reset -/

/-- The arbiter at a side reset (R43): a part cycle in progress runs on to be discarded, an owed pair write is not made,
and a computer cycle in progress is not watched any more. -/
def Arb.sideReset : Arb → Arb
  | .free => .free
  | .computer c => .computer { c with watch := .none }
  | .part p => .part { p with abandoned := true }
  | .pairWriteOwed _ _ => .free

/-- The tap at its side's reset (R43): a held cycle is released, and a computer cycle at the arbiter is not disturbed. -/
def Tap.sideReset (t : Tap) : Tap :=
  let t := t.release
  { t with live := false, arb := t.arb.sideReset, fence := none, owed := .clear }

/-- Slot `i` is an occupied slot of side `x`. -/
def State.slotOf (s : State) (x : Side) (i : Fin 12) : Bool := (s.slot i).state != .free && (s.slot i).side == x

/-- Slot `i` made FREE when it is an occupied slot of side `x` (R75). -/
def freeIfOf (x : Side) (s : State) (i : Fin 12) : State := if s.slotOf x i then freeSlot i s else s

/-- The engine is told when the ACTIVE slot is side `x`'s (R75, R128). -/
def tellEngine (x : Side) (s : State) : State :=
  match s.activeSlot with
  | none => s
  | some i => if (s.slot i).side = x then engineFreed i s else s

/-- The request table, the transfer engine and the posting unit at a reset of side `x` (R75, R128, R143). The selector
is told of a slot that leaves ACTIVE and examines at that moment, before the lock table re-examines (R77, R79). -/
def resetSlots (x : Side) (s : State) : State :=
  let s := (tellEngine x s).modPost (fun p => p.dropSide (s.slotOf x))
  examine (slotIds.foldl (freeIfOf x) s)

/-- An idle cell write of side `x` that an OPEN entry sequence holds back. -/
def DriveEvent.isIdleOf (x : Side) : DriveEvent → Bool
  | .idleWrite y _ => y == x
  | .onCylinderRise | .onCylinderFall | .powerFall | .powerRise | .upToSpeedRise | .upToSpeedFall | .headsRise
  | .headsFall | .faultRise | .faultFall | .loadSwitch | .closedFall | .closedRise => false

/-- The drive controller at a reset of side `x` (R159, R165). An idle write of the side still held back came before the
reset, so it has no effect after it. -/
def Drive.sideReset (d : Drive) (x : Side) : Drive :=
  { d with
    mounted := d.mounted.set x false
    idle := d.idle.set x 0
    deferred := d.deferred.filter (fun e => !e.isIdleOf x) }

/-- A side reset of `x`, block by block. -/
def sideReset (x : Side) (s : State) : State :=
  let s := s.modTap x Tap.sideReset
  let s := (s.modIntake x (fun _ => .reset)).modPres x (fun _ => .reset)
  let s := resetSlots x s
  let s := (s.modMap (fun m => m.discard x)).modDrv (fun d => d.sideReset x)
  let s := reexamine (freeLocks (fun l => l.side == x) s)
  notify x.other .peer 1 0 1 s

/-- INIT_ASSERTED: an event while the side is LIVE (R43, R44). -/
def execInitAsserted (x : Side) (s : State) : Host.Outcome State Fault Refusal := runIf (s.live x) (sideReset x) s

/-! ### Release of init -/

/-- INIT_RELEASED: an event while the side is IN_RESET (R45). The side's idle level is 0 (R159). -/
def execInitReleased (x : Side) (s : State) : Host.Outcome State Fault Refusal :=
  runIf (!s.live x) (fun s => setIdle x 0 (becomeLive x s)) s

end Sys2Proof.Machine
end

