-- ==== Sys2Proof/Machine/Cycles.lean ====
section
/-! DEFINITION. Computer cycles at the tap and what each watched one does (Chapters 3, 4, 7, 10 and 11): the arrival, the
hold timer, and the ends of cycles, watched and not. -/

namespace Sys2Proof.Machine

/-! ### Arrival and hold -/

/-- COMPUTER_CYCLE_ARRIVAL (R29, R39 to R41). A second cycle of the side does not arrive while one is in the tap. -/
def execComputerCycleArrival (x : Side) (dir : Dir) (addr : Addr) (data : Word) (s : State) :
    Host.Outcome State Fault Refusal :=
  if inTap s x then .fault .secondComputerCycle else run (arrival x dir addr data) s

/-- HOLD_TIMER_EXPIRY (R41): an event while a cycle is held. -/
def execHoldTimerExpiry (x : Side) (s : State) : Host.Outcome State Fault Refusal :=
  runIf (s.tap.get x).held.isSome (fun s => touch (s.modTap x Tap.release)) s

/-! ### The end of a computer cycle -/

/-- The memory ends side `x`'s computer cycle: the arbiter becomes FREE (R34). `wt` is the word time told. -/
def endComputer (x : Side) (c : CompCycle) (d : Word) (wt : Nat) (s : State) : State :=
  let s := (s.modTap x (fun t => { t with arb := .free })).modDrv (fun r => { r with wordTime := wt })
  { s with out := s.out ++ returned x c d }

/-- The end of a computer cycle of side `x` that is watched as `w` says, with the delivery `f`, which is made only while
the side is live (R31). It is an event only while such a cycle is in progress. -/
def onWatched (x : Side) (d : Word) (wt : Nat) (w : Watch → Bool) (f : CompCycle → State → State) (s : State) :
    Host.Outcome State Fault Refusal :=
  match computerCycle s x with
  | none => .next s.begun
  | some c =>
    runIf (w c.watch) (fun s => if s.live x then f c (endComputer x c d wt s) else endComputer x c d wt s) s

/-- COMPUTER_CYCLE_END: the end of a cycle that is not watched, or of any cycle while the side is IN_RESET (R29, R31,
R34). -/
def execComputerCycleEnd (x : Side) (data : Word) (wt : Nat) (s : State) : Host.Outcome State Fault Refusal :=
  onWatched x data wt (fun w => w == .none || !s.live x) (fun _ s => s) s

/-- UNWATCHED_CELL_WRITE: the end of a write to a part-owned cell, not acted on (R16). -/
def execUnwatchedCellWrite (x : Side) (wt : Nat) (s : State) : Host.Outcome State Fault Refusal :=
  onWatched x 0 wt (· == .partOwned) (fun _ s => s) s

/-! ### Deliveries -/

/-- The submission cell of a watch. -/
def Watch.cell : Watch → Option (Fin 8)
  | .submission i => some i
  | .none | .level | .noticeRead | .noticeWrite | .cross | .idle | .proposal _ | .seal | .partOwned => Option.none

/-- SUBMISSION_CELL_WRITE (R48, R51). -/
def execSubmissionCellWrite (x : Side) (wt : Nat) (s : State) : Host.Outcome State Fault Refusal :=
  onWatched x 0 wt (fun w => w.cell.isSome) (fun c s => c.watch.cell.elim s (fun i => submitCell x i c.data s)) s

/-- LEVEL_CELL_WRITE (R151). -/
def execLevelCellWrite (x : Side) (wt : Nat) (s : State) : Host.Outcome State Fault Refusal :=
  onWatched x 0 wt (· == .level) (fun c s => s.modPres x (fun p => p.writeLevel c.data)) s

/-- NOTICE_CELL_READ (R149). -/
def execNoticeCellRead (x : Side) (data : Word) (wt : Nat) (s : State) : Host.Outcome State Fault Refusal :=
  onWatched x data wt (· == .noticeRead) (fun _ s => s.modPres x (fun p => p.read data)) s

/-- END_OF_NOTICE (R150). -/
def execEndOfNotice (x : Side) (wt : Nat) (s : State) : Host.Outcome State Fault Refusal :=
  onWatched x 0 wt (· == .noticeWrite) (fun _ s => s.modPres x Presenter.endNotice) s

/-- CROSS_CELL_WRITE (R152): not acted on while the other side is IN_RESET. -/
def execCrossCellWrite (x : Side) (wt : Nat) (s : State) : Host.Outcome State Fault Refusal :=
  onWatched x 0 wt (· == .cross)
    (fun c s => if s.live x.other then s.modPres x.other (fun p => p.cross c.data) else s) s

/-- A side's idle cell write at the drive controller (R159). -/
def idleWrite (x : Side) (v : Word) (s : State) : State := takeDriveEvent s (.idleWrite x (min 2 v.toNat))

/-- IDLE_CELL_WRITE (R159). -/
def execIdleCellWrite (x : Side) (wt : Nat) (s : State) : Host.Outcome State Fault Refusal :=
  onWatched x 0 wt (· == .idle) (fun c s => idleWrite x c.data s) s

/-- The proposal cell of a watch: true for cell 2. -/
def Watch.proposalCell : Watch → Option Bool
  | .proposal b => some b
  | .none | .submission _ | .level | .noticeRead | .noticeWrite | .cross | .idle | .seal | .partOwned => Option.none

/-- PROPOSAL_CELL_WRITE (R96). -/
def execProposalCellWrite (x : Side) (wt : Nat) (s : State) : Host.Outcome State Fault Refusal :=
  onWatched x 0 wt (fun w => w.proposalCell.isSome)
    (fun c s => c.watch.proposalCell.elim s (fun b => writeProposal x b c.data s)) s

/-- SEAL_CELL_WRITE (R97, R98). -/
def execSealCellWrite (x : Side) (wt : Nat) (s : State) : Host.Outcome State Fault Refusal :=
  onWatched x 0 wt (· == .seal) (fun _ s => writeSeal x s) s

/-- The side whose sealed proposal's expiry span has ended. -/
def expiredProposer (m : RegionMap) : Option Side :=
  match m.protocol with
  | .proposed x => if spanReached m.span then some x else none
  | .idle | .commitPending => none

/-- PROPOSAL_EXPIRY (R99). -/
def execProposalExpiry (s : State) : Host.Outcome State Fault Refusal :=
  match expiredProposer s.map with
  | none => .next s.begun
  | some x => run (expireProposal x) s

end Sys2Proof.Machine
end

