-- ==== Sys2Proof/Machine/PartCycles.lean ====
section
/-! DEFINITION. The part's own work at the memories (Chapters 3, 4, 5, 6, 9 and 10): takes and record fetches, selection,
deadlines, posting, the presenter's and the status writes, data cycles, and the memory timeout. -/

namespace Sys2Proof.Machine

/-! ### The end of a part cycle (R32 to R34) -/

/-- The part cycle in progress on side `x`. -/
def partCycle (s : State) (x : Side) : Option PartCycle :=
  match (s.tap.get x).arb with
  | .part p => some p
  | _ => none

/-- Side `x`'s part cycle ends: the arbiter becomes FREE. `wt` is the word time told. -/
def endPart (x : Side) (wt : Nat) (s : State) : State :=
  (s.modTap x (fun t => { t with arb := .free })).modDrv (fun r => { r with wordTime := wt })

/-- What the requester of `p` does with its end, `f`; the end of an abandoned cycle is discarded (R43). -/
def afterEnd (p : PartCycle) (f : State → State) (s : State) : State := if p.abandoned then s else f s

/-- The end of side `x`'s part cycle of the kind that `k` tells, with what its requester then does. It is an event only
while such a cycle is in progress. -/
def onPart (x : Side) (wt : Nat) (k : CycleKind → Bool) (f : PartCycle → State → State) (s : State) :
    Host.Outcome State Fault Refusal :=
  match partCycle s x with
  | none => .next s.begun
  | some p => runIf (k p.kind) (fun s => afterEnd p (f p) (endPart x wt s)) s

/-- The kinds of cycle, by requester. -/
def CycleKind.isData : CycleKind → Bool
  | .data _ => true
  | .result _ | .pairRead | .pairWrite | .clearing _ | .fetch _ | .notice _ _ | .level | .status _ => false

/-- A write of a result word. -/
def CycleKind.isResult : CycleKind → Bool
  | .result _ => true
  | .data _ | .pairRead | .pairWrite | .clearing _ | .fetch _ | .notice _ _ | .level | .status _ => false

/-- A clearing write. -/
def CycleKind.isClearing : CycleKind → Bool
  | .clearing _ => true
  | .data _ | .result _ | .pairRead | .pairWrite | .fetch _ | .notice _ _ | .level | .status _ => false

/-- A read of a record word. -/
def CycleKind.isFetch : CycleKind → Bool
  | .fetch _ => true
  | .data _ | .result _ | .pairRead | .pairWrite | .clearing _ | .notice _ _ | .level | .status _ => false

/-- A write of the notice cell. -/
def CycleKind.isNotice : CycleKind → Bool
  | .notice _ _ => true
  | .data _ | .result _ | .pairRead | .pairWrite | .clearing _ | .fetch _ | .level | .status _ => false

/-- A write of a part-owned cell. -/
def CycleKind.isStatus : CycleKind → Bool
  | .status _ => true
  | .data _ | .result _ | .pairRead | .pairWrite | .clearing _ | .fetch _ | .notice _ _ | .level => false

/-! ### Takes and fetches -/

/-- TAKE (R49, R50): an event when the take conditions hold, or when a granted claim of the side has yet to return. The
one makes the claim and the other brings it back, since a computer's write may come between the two: DESIGN CHOICE, log
entry 12. -/
def execTake (x : Side) (s : State) : Host.Outcome State Fault Refusal :=
  if (s.intake.get x).claim.isSome then run (claimReturned x) s else runIf (mayTake s x) (claimSlot x) s

/-- A waiting chain fetch may start: no fetch and no take is under way (R49). -/
def mayStartChain (s : State) (x : Side) : Bool := (s.intake.get x).idle && !(s.intake.get x).chains.isEmpty

/-- CHAIN_FETCH_START (R49): an event when a chain fetch waits and no fetch is in progress. -/
def execChainFetchStart (x : Side) (s : State) : Host.Outcome State Fault Refusal :=
  runIf (mayStartChain s x) (startChain x) s

/-- The clearing write of side `x` has ended, in either way: the record fetch starts (R51). -/
def clearingEnded (x : Side) (s : State) : State :=
  match (s.intake.get x).fetch with
  | none => s
  | some f => if f.clearing.isSome then startReads x f.slot s else s

/-- CLEARING_WRITE_END (R51): the take goes on whether the memory answered or not. -/
def execClearingWriteEnd (x : Side) (_answered : Bool) (wt : Nat) (s : State) : Host.Outcome State Fault Refusal :=
  onPart x wt CycleKind.isClearing (fun _ => clearingEnded x) s

/-- A word of the record in fetch on side `x` was read (R52). -/
def fetchRead (x : Side) (d : Word) (s : State) : State :=
  match (s.intake.get x).fetch with
  | none => s
  | some f => wordFetched x f.slot d s

/-- A read of the record in fetch on side `x` timed out (R53). -/
def fetchTimedOut (x : Side) (s : State) : State :=
  match (s.intake.get x).fetch with
  | none => s
  | some f => unfetchable x f.slot .memoryTimeout s

/-- RECORD_FETCH_READ_END (R52, R54). -/
def execRecordFetchReadEnd (x : Side) (data : Word) (wt : Nat) (s : State) : Host.Outcome State Fault Refusal :=
  onPart x wt CycleKind.isFetch (fun _ => fetchRead x data) s

/-! ### Selection and deadlines -/

/-- SELECTION_TAKEN (R88, R89): an event while a selection request is outstanding. -/
def execSelectionTaken (s : State) : Host.Outcome State Fault Refusal := runIf s.sel.isSome takeSelection s

/-- Slot `i`'s deadline event (R70): the passed flag is set, and a waiting slot with drop-if-late is EXPIRED. -/
def deadlineReached (i : Fin 12) (s : State) : State :=
  let before := s.slot i
  let s := s.modSlot i (fun sl => { sl with passed := true, span := none })
  if (before.state = .waiting ∨ before.state = .lockwait) ∧ recDropIfLate before.words = true then
    reexamineAfter before (postNeverActive i .expired s)
  else s

/-- DEADLINE_EVENT (R70): an event when the slot's deadline span has been reached. -/
def execDeadlineEvent (i : Fin 12) (s : State) : Host.Outcome State Fault Refusal :=
  runIf (spanReached (s.slot i).span) (deadlineReached i) s

/-! ### Posting -/

/-- The posting unit may take the next head (R135). -/
def mayPost (s : State) : Bool := s.post.step.isNone && !s.post.queue.isEmpty

/-- POSTING_START (R135): an event when the current slot is none and the queue is not empty. -/
def execPostingStart (s : State) : Host.Outcome State Fault Refusal := runIf (mayPost s) startPosting s

/-- RESULT_WORD_WRITE_END (R136). -/
def execResultWordWriteEnd (x : Side) (wt : Nat) (s : State) : Host.Outcome State Fault Refusal :=
  onPart x wt CycleKind.isResult (fun _ => wordWritten) s

/-- The pair's read returned `d`: the word with the field replaced is owed to the same address (R36, R138). -/
def pairReadAnswered (x : Side) (d : Word) (p : PartCycle) (s : State) : State :=
  match currentSlot s with
  | none => s
  | some i => s.modTap x (fun t => { t with arb := .pairWriteOwed p.addr ((s.slot i).signalWord d) })

/-- SIGNAL_PAIR_READ_END (R36). -/
def execSignalPairReadEnd (x : Side) (data : Word) (wt : Nat) (s : State) : Host.Outcome State Fault Refusal :=
  onPart x wt (· == .pairRead) (pairReadAnswered x data) s

/-- SIGNAL_PAIR_END (R36, R138, R140): the pair's write ended with an answer or a timeout. -/
def execSignalPairEnd (x : Side) (answered : Bool) (wt : Nat) (s : State) : Host.Outcome State Fault Refusal :=
  onPart x wt (· == .pairWrite) (fun _ => if answered then pairWritten else postingTimedOut) s

/-! ### Cell writes -/

/-- The presenter's notice-cell write `k` ended (R147). -/
def noticeWriteEnded (x : Side) (answered : Bool) (k : CycleKind) (s : State) : State :=
  match k with
  | .notice _ acc => s.modPres x (fun p => p.noticeEnded acc answered)
  | _ => s

/-- NOTICE_CELL_WRITE_END (R147). -/
def execNoticeCellWriteEnd (x : Side) (answered : Bool) (wt : Nat) (s : State) : Host.Outcome State Fault Refusal :=
  onPart x wt CycleKind.isNotice (fun p => noticeWriteEnded x answered p.kind) s

/-- LEVEL_CELL_WRITE_END (R147): a timeout is not made good, and the next owed write is asked for. -/
def execLevelCellWriteEnd (x : Side) (_answered : Bool) (wt : Nat) (s : State) : Host.Outcome State Fault Refusal :=
  onPart x wt (· == .level) (fun _ s => s) s

/-- STATUS_WRITE_END (R16): a timeout leaves the word as it was, and the next owed write is asked for. -/
def execStatusWriteEnd (x : Side) (_answered : Bool) (wt : Nat) (s : State) : Host.Outcome State Fault Refusal :=
  onPart x wt CycleKind.isStatus (fun _ s => s) s

/-! ### Data cycles and the timeout -/

/-- The data cycle `k` ended with an answer; `d` is the word fetched, for a fetch (R38). -/
def dataEnded (d : Word) (k : CycleKind) (s : State) : State :=
  match k with
  | .data j => dataAnswered j d s
  | _ => s

/-- DATA_CYCLE_END (R38, R120, R121). -/
def execDataCycleEnd (x : Side) (data : Word) (wt : Nat) (s : State) : Host.Outcome State Fault Refusal :=
  onPart x wt CycleKind.isData (fun p => dataEnded data p.kind) s

/-- What each requester does with a memory timeout (R33): R127, R140, R51, R53, R147 and R16. -/
def timedOut (x : Side) (k : CycleKind) (s : State) : State :=
  match k with
  | .data _ => dataTimedOut s
  | .result _ | .pairRead | .pairWrite => postingTimedOut s
  | .clearing _ => clearingEnded x s
  | .fetch _ => fetchTimedOut x s
  | .notice _ _ => noticeWriteEnded x false k s
  | .level | .status _ => s

/-- MEMORY_TIMEOUT (R33): an event while a part cycle is in progress. -/
def execMemoryTimeout (x : Side) (wt : Nat) (s : State) : Host.Outcome State Fault Refusal :=
  onPart x wt (fun _ => true) (fun p => timedOut x p.kind) s

end Sys2Proof.Machine
end

