-- ==== Sys2Proof/Machine/Disk.lean ====
section
/-! DEFINITION. The slot clock, the sectors and the engine's spans (Chapters 1 and 8): timer ticks, marks and index, the
header, the data start and the end of a sector, and the spans of seeks and recalibrates. -/

namespace Sys2Proof.Machine

/-! ### The slot clock (R10, R11) -/

/-- SLOT_TIMER_TICK (R10): an event while the source is TIMER. -/
def execSlotTimerTick (s : State) : Host.Outcome State Fault Refusal := runIf (s.clk.source == .timer) tick s

/-- The source becomes `c`. -/
def setSource (c : ClockSource) (s : State) : State := { s with clk := { s.clk with source := c } }

/-- INDEX_RISE (R9, R11): an event while the source is TIMER and up to speed is asserted. The mark that comes with the
index is its own command. -/
def execIndexRise (s : State) : Host.Outcome State Fault Refusal :=
  runIf (s.clk.source == .timer && s.drv.inp.upToSpeed) (setSource .marks) s

/-! ### Sectors -/

/-- S recorded, with the word time at 0 (R9). A mark tells the time of later ones when no movement awaits on cylinder
(R35). So it is in OFFLINE too: DESIGN CHOICE, log entry 42. -/
def recordMark (n : BitVec 4) (s : State) : State :=
  s.modDrv (fun d => { d with mark := n, wordTime := 0, markSeen := d.move.isNone })

/-- The slot clock at a mark (R9, R11). -/
def markTick (s : State) : State :=
  match s.clk.source with
  | .marks => tick s
  | .timer => s

/-- A sector mark (R9): its number is recorded as S, a sector still open is over, the clock is incremented, and the new
sector is opened. R9 gives no order among these: DESIGN CHOICE, log entry 26. So where an early mark ends the request,
the selector computes with this mark's S and with the count T before its tick (R81), and the park span that begins then
is counted from the count after it (R160). -/
def markArrives (n : BitVec 4) (s : State) : State := markAtEngine n.toNat (markTick (earlyMark (recordMark n s)))

/-- SECTOR_MARK (R9). -/
def execSectorMark (n : BitVec 4) (s : State) : Host.Outcome State Fault Refusal := run (markArrives n) s

/-- The word time reached in the present sector. -/
def atWordTime (w : Nat) (s : State) : State := s.modDrv (fun d => { d with wordTime := w })

/-- HEADER_JUDGED, at word time 27 (R7, R119). -/
def execHeaderJudged (hdr chk : Word) (s : State) : Host.Outcome State Fault Refusal :=
  run (fun s => judgeHeader hdr chk (atWordTime 27 s)) s

/-- SECTOR_DATA_START, at word time 40 (R120). -/
def execSectorDataStart (s : State) : Host.Outcome State Fault Refusal := run (fun s => dataStart (atWordTime 40 s)) s

/-- SECTOR_END, at word time 296 (R7, R8, R120 to R122). -/
def execSectorEnd (data : List Word) (chk : Option Word) (s : State) : Host.Outcome State Fault Refusal :=
  run (fun s => sectorOver data chk (atWordTime 296 s)) s

/-! ### The engine's spans (R114, R115, R125, R133) -/

/-- A seek's span of 64 slots has ended. -/
def seekSpanEnded (s : State) : Bool := s.eng.phase == .seeking && spanReached s.eng.span

/-- The end of a seek's span (R114): a recalibrate, or a seek timeout when the retry is used. -/
def seekTimedOut (s : State) : State := if s.eng.seekRetry then enterFaulted 1 s else startRecal s.eng.moveTo s

/-- SEEK_SPAN_END (R114). -/
def execSeekSpanEnd (s : State) : Host.Outcome State Fault Refusal := runIf (seekSpanEnded s) seekTimedOut s

/-- The span of a recalibrate that the engine asked for has ended. -/
def recalSpanEnded (s : State) : Bool :=
  (s.eng.phase == .recalWait || (s.eng.phase == .restoring && s.eng.restore == some .ready)) && spanReached s.eng.span

/-- ENGINE_RECAL_SPAN_END (R114, R125, R133): a recalibrate timeout. -/
def execEngineRecalSpanEnd (s : State) : Host.Outcome State Fault Refusal :=
  runIf (recalSpanEnded s) (enterFaulted 2) s

/-- The span of the abandoned movement has ended. -/
def abandonedSpanEnded (s : State) : Bool := spanReached (s.eng.abandoned.map Prod.snd)

/-- The cause that a movement's timeout gives (R115). -/
def Movement.cause : Movement → Nat
  | .seek _ => 1
  | .recalibrate => 2

/-- The end of the abandoned movement's span (R115). -/
def abandonedTimedOut (s : State) : State :=
  match s.eng.abandoned with
  | none => s
  | some m => enterFaulted m.1.cause (s.modEng (fun e => { e with abandoned := none }))

/-- ABANDONED_MOVEMENT_SPAN_END (R115). -/
def execAbandonedMovementSpanEnd (s : State) : Host.Outcome State Fault Refusal :=
  runIf (abandonedSpanEnded s) abandonedTimedOut s

end Sys2Proof.Machine
end

