-- ==== Sys2Proof/Machine/DriveCable.lean ====
section
/-! DEFINITION. The drive's inputs (R14) and the drive controller's spans (Chapter 11). A level input's change is an event
only when the level is not already the new one. -/

namespace Sys2Proof.Machine

/-- The drive's level inputs changed by `f`. -/
def setInput (f : DriveInputs → DriveInputs) (s : State) : State := s.modDrv (fun d => { d with inp := f d.inp })

/-- An input changed by `f`, with the event it is at the controller. -/
def inputEvent (f : DriveInputs → DriveInputs) (e : DriveEvent) (s : State) : State := takeDriveEvent (setInput f s) e

/-! ### Cylinder, power, speed and heads -/

/-- ON_CYLINDER_RISE (R114, R115, R156, R157). -/
def execOnCylinderRise (s : State) : Host.Outcome State Fault Refusal :=
  runIf (!s.drv.inp.onCylinder) (inputEvent (fun i => { i with onCylinder := true }) .onCylinderRise) s

/-- ON_CYLINDER_FALL (R158). -/
def execOnCylinderFall (s : State) : Host.Outcome State Fault Refusal :=
  runIf s.drv.inp.onCylinder (inputEvent (fun i => { i with onCylinder := false }) .onCylinderFall) s

/-- POWER_PRESENT_FALL (R164): up to speed falls with it, and so the slot clock's source becomes TIMER (R11). -/
def execPowerPresentFall (s : State) : Host.Outcome State Fault Refusal :=
  runIf s.drv.inp.power
    (fun s => inputEvent (fun i => { i with power := false, upToSpeed := false }) .powerFall (setSource .timer s)) s

/-- POWER_PRESENT_RISE (R164). -/
def execPowerPresentRise (s : State) : Host.Outcome State Fault Refusal :=
  runIf (!s.drv.inp.power) (inputEvent (fun i => { i with power := true }) .powerRise) s

/-- UP_TO_SPEED_RISE (R157). -/
def execUpToSpeedRise (s : State) : Host.Outcome State Fault Refusal :=
  runIf (!s.drv.inp.upToSpeed) (inputEvent (fun i => { i with upToSpeed := true }) .upToSpeedRise) s

/-- UP_TO_SPEED_FALL (R158, R163), with the slot clock's source TIMER (R11). -/
def execUpToSpeedFall (s : State) : Host.Outcome State Fault Refusal :=
  runIf s.drv.inp.upToSpeed
    (fun s => inputEvent (fun i => { i with upToSpeed := false }) .upToSpeedFall (setSource .timer s)) s

/-- HEADS_LOADED_RISE (R157). -/
def execHeadsLoadedRise (s : State) : Host.Outcome State Fault Refusal :=
  runIf (!s.drv.inp.headsLoaded) (inputEvent (fun i => { i with headsLoaded := true }) .headsRise) s

/-- HEADS_LOADED_FALL (R158). -/
def execHeadsLoadedFall (s : State) : Host.Outcome State Fault Refusal :=
  runIf s.drv.inp.headsLoaded (inputEvent (fun i => { i with headsLoaded := false }) .headsFall) s

/-! ### Write-protect and fault -/

/-- Write-protect takes a level, which the drive status cell shows (R13, R17, R117). So it does in OFFLINE: DESIGN CHOICE,
log entry 42. -/
def protectChanges (level : Bool) (s : State) : State :=
  let s := setInput (fun i => { i with writeProtect := level }) s
  if level then protectRises s else s

/-- WRITE_PROTECT_CHANGE (R117). -/
def execWriteProtectChange (level : Bool) (s : State) : Host.Outcome State Fault Refusal :=
  runIf (s.drv.inp.writeProtect != level) (protectChanges level) s

/-- FAULT_RISE (R161). -/
def execFaultRise (s : State) : Host.Outcome State Fault Refusal :=
  runIf (!s.drv.inp.fault) (inputEvent (fun i => { i with fault := true }) .faultRise) s

/-- FAULT_FALL (R162). -/
def execFaultFall (s : State) : Host.Outcome State Fault Refusal :=
  runIf s.drv.inp.fault (inputEvent (fun i => { i with fault := false }) .faultFall) s

/-- The fault reset span has ended in FAULTED with recovery under way (R162). -/
def faultResetSpanEnded (s : State) : Bool :=
  s.drv.state == .faulted && s.drv.recovery && spanReached s.drv.span

/-- FAULT_RESET_SPAN_END (R162): FAULTED is entered again. -/
def execFaultResetSpanEnd (s : State) : Host.Outcome State Fault Refusal :=
  runIf (faultResetSpanEnded s) (enterFaulted 4) s

/-! ### The cartridge (R163) -/

/-- LOAD_SWITCH_PRESSED (R163). -/
def execLoadSwitchPressed (s : State) : Host.Outcome State Fault Refusal :=
  run (fun s => takeDriveEvent s .loadSwitch) s

/-- CARTRIDGE_CLOSED_FALL (R163). -/
def execCartridgeClosedFall (s : State) : Host.Outcome State Fault Refusal :=
  runIf s.drv.inp.cartridgeClosed (inputEvent (fun i => { i with cartridgeClosed := false }) .closedFall) s

/-- CARTRIDGE_CLOSED_RISE (R163). -/
def execCartridgeClosedRise (s : State) : Host.Outcome State Fault Refusal :=
  runIf (!s.drv.inp.cartridgeClosed) (inputEvent (fun i => { i with cartridgeClosed := true }) .closedRise) s

/-- OPEN_ENTRY_RESUME (R163): an event when the OPEN entry sequence waits and no slot is ACTIVE. -/
def execOpenEntryResume (s : State) : Host.Outcome State Fault Refusal :=
  runIf (s.drv.openPending && s.activeSlot.isNone) openResumes s

/-! ### The controller's spans (R157, R160) -/

/-- The state span has ended in state `st`. -/
def stateSpanEnded (st : DriveState) (s : State) : Bool := s.drv.state == st && spanReached s.drv.span

/-- SPIN_UP_TIMEOUT (R157). -/
def execSpinUpTimeout (s : State) : Host.Outcome State Fault Refusal :=
  runIf (stateSpanEnded .spinningUp s) (enterFaulted 3) s

/-- RECALIBRATE_TIMEOUT (R157). -/
def execRecalibrateTimeout (s : State) : Host.Outcome State Fault Refusal :=
  runIf (stateSpanEnded .recalibrating s) (enterFaulted 2) s

/-- PARK_DELAY_END (R160). -/
def execParkDelayEnd (s : State) : Host.Outcome State Fault Refusal := runIf (stateSpanEnded .ready s) enterParked s

/-- SPIN_DOWN_DELAY_END (R160): spindle stop is issued, before a sector under write gate that the entry to STOPPED cuts:
DESIGN CHOICE, log entry 54. -/
def execSpinDownDelayEnd (s : State) : Host.Outcome State Fault Refusal :=
  runIf (stateSpanEnded .parked s) (fun s => enterStopped (s.emit .spindleStop)) s

end Sys2Proof.Machine
end

