-- ==== Sys2Proof/Machine/Dispatch.lean ====
section
/-! DEFINITION. The dispatch: one arm for each command, each a direct call of its meaning. -/

namespace Sys2Proof.Machine

def exec (i : Instr) (s : State) : Host.Outcome State Fault Refusal :=
  match i with
  | .partReset swA swB initA initB inp => Sys2Proof.Machine.execPartReset swA swB initA initB inp s
  | .initAsserted x => Sys2Proof.Machine.execInitAsserted x s
  | .initReleased x => Sys2Proof.Machine.execInitReleased x s
  | .computerCycleArrival x dir addr data => Sys2Proof.Machine.execComputerCycleArrival x dir addr data s
  | .holdTimerExpiry x => Sys2Proof.Machine.execHoldTimerExpiry x s
  | .computerCycleEnd x data wt => Sys2Proof.Machine.execComputerCycleEnd x data wt s
  | .unwatchedCellWrite x wt => Sys2Proof.Machine.execUnwatchedCellWrite x wt s
  | .submissionCellWrite x wt => Sys2Proof.Machine.execSubmissionCellWrite x wt s
  | .levelCellWrite x wt => Sys2Proof.Machine.execLevelCellWrite x wt s
  | .noticeCellRead x data wt => Sys2Proof.Machine.execNoticeCellRead x data wt s
  | .endOfNotice x wt => Sys2Proof.Machine.execEndOfNotice x wt s
  | .crossCellWrite x wt => Sys2Proof.Machine.execCrossCellWrite x wt s
  | .idleCellWrite x wt => Sys2Proof.Machine.execIdleCellWrite x wt s
  | .proposalCellWrite x wt => Sys2Proof.Machine.execProposalCellWrite x wt s
  | .sealCellWrite x wt => Sys2Proof.Machine.execSealCellWrite x wt s
  | .proposalExpiry => Sys2Proof.Machine.execProposalExpiry s
  | .take x => Sys2Proof.Machine.execTake x s
  | .chainFetchStart x => Sys2Proof.Machine.execChainFetchStart x s
  | .clearingWriteEnd x answered wt => Sys2Proof.Machine.execClearingWriteEnd x answered wt s
  | .recordFetchReadEnd x data wt => Sys2Proof.Machine.execRecordFetchReadEnd x data wt s
  | .selectionTaken => Sys2Proof.Machine.execSelectionTaken s
  | .deadlineEvent k => Sys2Proof.Machine.execDeadlineEvent k s
  | .postingStart => Sys2Proof.Machine.execPostingStart s
  | .resultWordWriteEnd x wt => Sys2Proof.Machine.execResultWordWriteEnd x wt s
  | .signalPairReadEnd x data wt => Sys2Proof.Machine.execSignalPairReadEnd x data wt s
  | .signalPairEnd x answered wt => Sys2Proof.Machine.execSignalPairEnd x answered wt s
  | .memoryTimeout x wt => Sys2Proof.Machine.execMemoryTimeout x wt s
  | .noticeCellWriteEnd x answered wt => Sys2Proof.Machine.execNoticeCellWriteEnd x answered wt s
  | .levelCellWriteEnd x answered wt => Sys2Proof.Machine.execLevelCellWriteEnd x answered wt s
  | .statusWriteEnd x answered wt => Sys2Proof.Machine.execStatusWriteEnd x answered wt s
  | .dataCycleEnd x data wt => Sys2Proof.Machine.execDataCycleEnd x data wt s
  | .slotTimerTick => Sys2Proof.Machine.execSlotTimerTick s
  | .sectorMark n => Sys2Proof.Machine.execSectorMark n s
  | .indexRise => Sys2Proof.Machine.execIndexRise s
  | .headerJudged hdr chk => Sys2Proof.Machine.execHeaderJudged hdr chk s
  | .sectorDataStart => Sys2Proof.Machine.execSectorDataStart s
  | .sectorEnd data chk => Sys2Proof.Machine.execSectorEnd data chk s
  | .onCylinderRise => Sys2Proof.Machine.execOnCylinderRise s
  | .onCylinderFall => Sys2Proof.Machine.execOnCylinderFall s
  | .seekSpanEnd => Sys2Proof.Machine.execSeekSpanEnd s
  | .engineRecalSpanEnd => Sys2Proof.Machine.execEngineRecalSpanEnd s
  | .abandonedMovementSpanEnd => Sys2Proof.Machine.execAbandonedMovementSpanEnd s
  | .powerPresentFall => Sys2Proof.Machine.execPowerPresentFall s
  | .powerPresentRise => Sys2Proof.Machine.execPowerPresentRise s
  | .upToSpeedRise => Sys2Proof.Machine.execUpToSpeedRise s
  | .upToSpeedFall => Sys2Proof.Machine.execUpToSpeedFall s
  | .headsLoadedRise => Sys2Proof.Machine.execHeadsLoadedRise s
  | .headsLoadedFall => Sys2Proof.Machine.execHeadsLoadedFall s
  | .writeProtectChange level => Sys2Proof.Machine.execWriteProtectChange level s
  | .faultRise => Sys2Proof.Machine.execFaultRise s
  | .faultFall => Sys2Proof.Machine.execFaultFall s
  | .faultResetSpanEnd => Sys2Proof.Machine.execFaultResetSpanEnd s
  | .loadSwitchPressed => Sys2Proof.Machine.execLoadSwitchPressed s
  | .cartridgeClosedFall => Sys2Proof.Machine.execCartridgeClosedFall s
  | .cartridgeClosedRise => Sys2Proof.Machine.execCartridgeClosedRise s
  | .openEntryResume => Sys2Proof.Machine.execOpenEntryResume s
  | .spinUpTimeout => Sys2Proof.Machine.execSpinUpTimeout s
  | .recalibrateTimeout => Sys2Proof.Machine.execRecalibrateTimeout s
  | .parkDelayEnd => Sys2Proof.Machine.execParkDelayEnd s
  | .spinDownDelayEnd => Sys2Proof.Machine.execSpinDownDelayEnd s

end Sys2Proof.Machine
end

