-- ==== Sys2Proof/Safety.lean ====
section
/-! DEFINITION. What claims about the coupler are stated in: the laws each block keeps, what a command's end may change,
and the state a memory cycle's end leaves. -/

namespace Sys2Proof.Machine

/-! ### The laws -/

/-- The region map's law (R93 to R97): the boundaries in order, a pending map exactly while COMMIT_PENDING and in order
too, and a side's proposal sealed, with the expiry span running, exactly while the protocol state names it. -/
structure MapLaw (m : RegionMap) : Prop where
  ordered : m.p1 ≤ m.p2
  bounded : m.p2 ≤ 400
  pendingOrdered : ∀ new, m.pendingMap = some new → new.1 ≤ new.2 ∧ new.2 ≤ 400
  pendingState : m.pendingMap.isSome = true ↔ m.protocol = .commitPending
  sealedState : ∀ x, (m.proposal.get x).isSealed = true ↔ m.protocol = .proposed x
  spanState : m.span.isSome = true ↔ ∃ x, m.protocol = .proposed x
  outcomes : ∀ x, m.last.get x ≤ 5

/-- Two locks overlap (R103): the same platter, and a cylinder in common. -/
def Lock.overlaps (a b : Lock) : Prop := a.platter = b.platter ∧ a.first ≤ b.last ∧ b.first ≤ a.last

/-- The lock table's first law (R103). -/
def LockLaw (locks : Vector (Option Lock) 8) : Prop :=
  ∀ i j : Fin 8, i ≠ j → ∀ a b, locks[i] = some a → locks[j] = some b →
    (a.side = b.side ∨ a.exclusive = true ∨ b.exclusive = true) → ¬ a.overlaps b

/-- The lock table's second law (R103), with what keeps it: every lock held, and every LOCK that waits, lies within
Shared; a lock held covers no cylinder that the pending commit would change; and a waiting LOCK's touched cylinders,
which the commit waits for (R100), are those it asks to lock. -/
structure SharedLaw (s : State) : Prop where
  held : ∀ (k : Fin 8) (l : Lock), s.locks[k] = some l → l.first ≤ l.last ∧ s.map.p1 ≤ l.first ∧ l.last < s.map.p2
  unchanging : ∀ (k : Fin 8) (l : Lock), s.locks[k] = some l → s.map.commitChanges (l.first, l.last) = false
  waiting : ∀ i, (s.slot i).state = .lockwait → (s.slot i).kind = some .lock →
    (s.slot i).touched = some (lockRange (s.slot i).words) ∧
      recCylinder (s.slot i).words ≤ recLastCylinder (s.slot i).words ∧ s.map.p1 ≤ recCylinder (s.slot i).words ∧
      recLastCylinder (s.slot i).words < s.map.p2

/-- The slots an intake unit works for: that of a claim on its way back, that of the fetch in progress, and those
whose chain fetches wait. -/
def Intake.works (u : Intake) : List (Fin 12) :=
  (u.claim.map Prod.fst).toList ++ ((u.fetch.map Fetch.slot).toList ++ u.chains)

/-- The request table's law: no side has more than 8 occupied slots (R64), an intake unit works for different slots of its
side in INTAKE (R49, R62), and the posting queue holds different slots in POSTING (R62, R134). -/
structure PlacesLaw (s : State) : Prop where
  eight : ∀ x, s.occupied x ≤ 8
  intake : ∀ x, (s.intake.get x).works.Nodup ∧
    ∀ i ∈ (s.intake.get x).works, (s.slot i).state = .intake ∧ (s.slot i).side = x
  posting : (s.post.queue.map Prod.fst).Nodup ∧ ∀ e ∈ s.post.queue, (s.slot e.1).state = .posting

/-- At most one slot is ACTIVE (R72). -/
def OneActive (s : State) : Prop :=
  ∀ i j : Fin 12, (s.slot i).state = .active → (s.slot j).state = .active → i = j

/-- The counts a slot keeps stay in their ranges (R65). -/
structure SlotLaw (sl : Slot) : Prop where
  passCount : sl.passCount ≤ 15
  rereads : sl.rereads ≤ 15
  depth : sl.depth ≤ 64

/-- An intake unit's law (R47, R57): no cell twice in the pending list, no captured value 0, the overrun count and the
cursor in their ranges. -/
structure IntakeLaw (u : Intake) : Prop where
  cells : (u.list.map Prod.fst).Nodup
  values : ∀ e ∈ u.list, e.2 ≠ 0
  overrun : u.overrun ≤ 15
  cursor : ∀ c, u.cursor = some c → c.2 < 12800

/-- Neither entry stands before an earlier one: the order of R145. -/
def queueOrder (e f : Entry) : Prop := f.before e = false

/-- Two entries that R145 keeps apart: unless both are COMPLETION, their kinds differ. -/
def kindsApart (e f : Entry) : Prop := e.kind = f.kind → e.kind = .completion

/-- An owed notice-cell write other than the NONE of an acceptance. -/
def OwedWrite.plainNotice (w : OwedWrite) : Bool := w.isNotice && !w.staysOnNotice

/-- An owed NONE of an acceptance. -/
def OwedWrite.acceptNone (w : OwedWrite) : Bool := w.isNotice && w.staysOnNotice

/-- A presenter's law (R144 to R147). -/
structure PresenterLaw (p : Presenter) : Prop where
  level : p.level ≤ 8
  stackLength : p.stack.length ≤ 8
  stackLevels : ∀ l ∈ p.stack, l ≤ 8
  lost : p.lost ≤ 15
  queueLength : p.queue.length ≤ 16
  sorted : p.queue.Pairwise queueOrder
  apart : p.queue.Pairwise kindsApart
  queuePriorities : ∀ e ∈ p.queue, e.prio ≤ 7
  presentedPriority : ∀ e, p.presented = some e → e.prio ≤ 7
  shownPriority : ∀ e, p.shown = some e → e.prio ≤ 7
  writingPriority : ∀ e, p.writing = some e → e.prio ≤ 7
  owedPriorities : ∀ w ∈ p.owed, ∀ e, w.entry = some e → e.prio ≤ 7
  owedLevels : p.owed.countP (fun w => !w.isNotice) ≤ 1
  owedPlain : p.owed.countP OwedWrite.plainNotice ≤ 1
  owedAccept : p.owed.countP OwedWrite.acceptNone ≤ 1

/-- The notice entry of a part cycle in progress. -/
def Arb.entry : Arb → Option Entry
  | .part p =>
    match p.kind with
    | .notice e _ => e
    | _ => none
  | .free | .computer _ | .pairWriteOwed _ _ => none

/-- Both presenters keep their law, and a notice word on its way to a cell has a priority of 0 to 7. -/
def PresentersLaw (s : State) : Prop :=
  ∀ x, PresenterLaw (s.pres.get x) ∧ ∀ e, (s.tap.get x).arb.entry = some e → e.prio ≤ 7

/-- The drive controller's law (R156, R159): a fault cause exactly while FAULTED, and the idle levels in their range,
those of idle writes held back by an OPEN entry too. -/
structure DriveLaw (d : Drive) : Prop where
  cause : d.cause ≠ 0 ↔ d.state = .faulted
  causeRange : d.cause ≤ 4
  idle : ∀ x, d.idle.get x ≤ 2
  heldIdle : ∀ x l, DriveEvent.idleWrite x l ∈ d.deferred → l ≤ 2
  head : d.headSel ≤ 3

/-- Every law at once. -/
structure Safe (s : State) : Prop where
  map : MapLaw s.map
  locks : LockLaw s.locks
  shared : SharedLaw s
  oneActive : OneActive s
  places : PlacesLaw s
  slots : ∀ i, SlotLaw (s.slot i)
  intake : ∀ x, IntakeLaw (s.intake.get x)
  presenters : PresentersLaw s
  drive : DriveLaw s.drv

/-! ### Commands that are no event -/

/-- The span `sp` does not run, or has not been reached. -/
def Unreached (sp : Option Span) : Prop := ∀ e, sp ≠ some ⟨e, true⟩

/-- Side `x` has no computer cycle in progress whose watch meets `w`. -/
def NoComputerCycle (s : State) (x : Side) (w : Watch → Prop) : Prop := ∀ c, (s.tap.get x).arb = .computer c → ¬ w c.watch

/-- Side `x` has no part cycle in progress whose kind meets `k`. -/
def NoPartCycle (s : State) (x : Side) (k : CycleKind → Prop) : Prop := ∀ p, (s.tap.get x).arb = .part p → ¬ k p.kind

/-- A take of side `x` cannot be made: one of R49's conditions does not hold. -/
def NoTake (s : State) (x : Side) : Prop :=
  s.live x = false ∨ (s.intake.get x).list = [] ∨ (s.intake.get x).fetch ≠ none ∨ (s.intake.get x).chains ≠ [] ∨
    8 ≤ s.occupied x ∨ ∀ k, (s.slot k).state ≠ .free

/-- When a command is no event in the state `s`, command by command: an input that has the level already, a span's end
that has not come, the end of a cycle that is not in progress, a step of a block that has nothing to take. A part
reset, an arrival, a mark, the three word times of a sector and the load switch can come in every state. -/
def NonEvent (s : State) : Instr → Prop
  | .partReset _ _ _ _ _ | .computerCycleArrival _ _ _ _ | .sectorMark _ | .headerJudged _ _ | .sectorDataStart
  | .sectorEnd _ _ | .loadSwitchPressed => False
  | .initAsserted x => s.live x = false
  | .initReleased x => s.live x = true
  | .holdTimerExpiry x => (s.tap.get x).held = none
  | .computerCycleEnd x _ _ => NoComputerCycle s x (fun w => w = .none ∨ s.live x = false)
  | .unwatchedCellWrite x _ => NoComputerCycle s x (· = .partOwned)
  | .submissionCellWrite x _ => NoComputerCycle s x (fun w => ∃ i, w = .submission i)
  | .levelCellWrite x _ => NoComputerCycle s x (· = .level)
  | .noticeCellRead x _ _ => NoComputerCycle s x (· = .noticeRead)
  | .endOfNotice x _ => NoComputerCycle s x (· = .noticeWrite)
  | .crossCellWrite x _ => NoComputerCycle s x (· = .cross)
  | .idleCellWrite x _ => NoComputerCycle s x (· = .idle)
  | .proposalCellWrite x _ => NoComputerCycle s x (fun w => ∃ b, w = .proposal b)
  | .sealCellWrite x _ => NoComputerCycle s x (· = .seal)
  | .proposalExpiry => (∀ x, s.map.protocol ≠ .proposed x) ∨ Unreached s.map.span
  | .take x => (s.intake.get x).claim = none ∧ NoTake s x
  | .chainFetchStart x =>
    (s.intake.get x).chains = [] ∨ (s.intake.get x).fetch ≠ none ∨ (s.intake.get x).claim ≠ none
  | .clearingWriteEnd x _ _ => NoPartCycle s x (fun k => ∃ i, k = .clearing i)
  | .recordFetchReadEnd x _ _ => NoPartCycle s x (fun k => ∃ n, k = .fetch n)
  | .selectionTaken => s.sel = none
  | .deadlineEvent i => Unreached (s.slot i).span
  | .postingStart => s.post.step ≠ none ∨ s.post.queue = []
  | .resultWordWriteEnd x _ => NoPartCycle s x (fun k => ∃ n, k = .result n)
  | .signalPairReadEnd x _ _ => NoPartCycle s x (· = .pairRead)
  | .signalPairEnd x _ _ => NoPartCycle s x (· = .pairWrite)
  | .memoryTimeout x _ => NoPartCycle s x (fun _ => True)
  | .noticeCellWriteEnd x _ _ => NoPartCycle s x (fun k => ∃ e acc, k = .notice e acc)
  | .levelCellWriteEnd x _ _ => NoPartCycle s x (· = .level)
  | .statusWriteEnd x _ _ => NoPartCycle s x (fun k => ∃ c, k = .status c)
  | .dataCycleEnd x _ _ => NoPartCycle s x (fun k => ∃ j, k = .data j)
  | .slotTimerTick => s.clk.source = .marks
  | .indexRise => s.clk.source = .marks ∨ s.drv.inp.upToSpeed = false
  | .onCylinderRise => s.drv.inp.onCylinder = true
  | .onCylinderFall => s.drv.inp.onCylinder = false
  | .seekSpanEnd => s.eng.phase ≠ .seeking ∨ Unreached s.eng.span
  | .engineRecalSpanEnd =>
    (s.eng.phase ≠ .recalWait ∧ (s.eng.phase ≠ .restoring ∨ s.eng.restore ≠ some .ready)) ∨ Unreached s.eng.span
  | .abandonedMovementSpanEnd => Unreached (s.eng.abandoned.map Prod.snd)
  | .powerPresentFall => s.drv.inp.power = false
  | .powerPresentRise => s.drv.inp.power = true
  | .upToSpeedRise => s.drv.inp.upToSpeed = true
  | .upToSpeedFall => s.drv.inp.upToSpeed = false
  | .headsLoadedRise => s.drv.inp.headsLoaded = true
  | .headsLoadedFall => s.drv.inp.headsLoaded = false
  | .writeProtectChange level => s.drv.inp.writeProtect = level
  | .faultRise => s.drv.inp.fault = true
  | .faultFall => s.drv.inp.fault = false
  | .faultResetSpanEnd => s.drv.state ≠ .faulted ∨ s.drv.recovery = false ∨ Unreached s.drv.span
  | .cartridgeClosedFall => s.drv.inp.cartridgeClosed = false
  | .cartridgeClosedRise => s.drv.inp.cartridgeClosed = true
  | .openEntryResume => s.drv.openPending = false ∨ s.activeSlot ≠ none
  | .spinUpTimeout => s.drv.state ≠ .spinningUp ∨ Unreached s.drv.span
  | .recalibrateTimeout => s.drv.state ≠ .recalibrating ∨ Unreached s.drv.span
  | .parkDelayEnd => s.drv.state ≠ .ready ∨ Unreached s.drv.span
  | .spinDownDelayEnd => s.drv.state ≠ .parked ∨ Unreached s.drv.span

/-! ### The request record (R20 to R24) -/

/-- How the fields of a record `r` are read from its words, `w k` being word `k` as a number (R20 to R23): kind and class
by their codes, a stride and a deadline above 4095 as 4095, and the signal width as the rule takes it. Bits named by no
field have no effect. -/
structure RecordRead (r : List Word) (w : Nat → Nat) : Prop where
  kind : (w 0 / 4096 = 0 → recKind r = some .read) ∧ (w 0 / 4096 = 1 → recKind r = some .write) ∧
    (w 0 / 4096 = 2 → recKind r = some .check) ∧ (w 0 / 4096 = 3 → recKind r = some .seek) ∧
    (w 0 / 4096 = 4 → recKind r = some .contRead) ∧ (w 0 / 4096 = 5 → recKind r = some .contWrite) ∧
    (w 0 / 4096 = 6 → recKind r = some .lock) ∧ (w 0 / 4096 = 7 → recKind r = some .unlock) ∧
    (w 0 / 4096 = 8 → recKind r = some .mountAck) ∧ (w 0 / 4096 = 9 → recKind r = some .restore) ∧
    (10 ≤ w 0 / 4096 → recKind r = none)
  cls : recClass r = if w 0 / 1024 % 4 = 3 then 2 else w 0 / 1024 % 4
  fenceWait : recFenceWait r = true ↔ w 0 / 512 % 2 = 1
  dropIfLate : recDropIfLate r = true ↔ w 0 / 256 % 2 = 1
  linkCondition : recLinkCondition r = w 0 / 64 % 4
  priority : recPriority r = w 0 % 16
  cylinder : recCylinder r = w 1 % 512
  tag : recTag r = w 2 / 1024
  head : recHead r = w 2 / 16 % 4
  sector : recSector r = w 2 % 16
  lockPlatter : recLockPlatter r = if w 2 / 32 % 2 = 1 then .F else .C
  lastCylinder : recLastCylinder r = w 5 % 512
  exclusive : recExclusive r = true ↔ w 6 % 2 = 1
  noWait : recNoWait r = true ↔ w 6 / 2 % 2 = 1
  buffer : recBuffer r = w 3 % 4 * 65536 + w 4
  count : recCount r = w 5
  stride : recStride r = if 4095 < w 6 then 4095 else w 6
  deadline : recDeadline r = if 4095 < w 7 then 4095 else w 7
  signalAddr : recSignalAddr r = w 8 / 256 % 4 * 65536 + w 9
  signalOffset : recSignalOffset r = w 8 % 16
  signalWidth : ∀ v, v = (if w 8 / 16 % 16 = 0 then 1 else if 8 < w 8 / 16 % 16 then 8 else w 8 / 16 % 16) →
    recSignalWidth r = if 16 < w 8 % 16 + v then 16 - w 8 % 16 else v
  signalValue : recSignalValue r = w 10 % 256
  link : (recLink r).toNat = w 11

/-- Which kinds the rules speak of together: the transfers, the disk reads and writes, the kinds that a deadline serves
(R24), the kinds that the other side's lock keeps waiting (R55, R56) and those that move the cursor (R58). -/
structure KindsNamed (k : Kind) : Prop where
  transfers : k.transfers = true ↔ k = .read ∨ k = .write ∨ k = .check ∨ k = .contRead ∨ k = .contWrite
  diskRead : k.diskRead = true ↔ k = .read ∨ k = .contRead
  diskWrite : k.diskWrite = true ↔ k = .write ∨ k = .contWrite
  usesDeadline : k.usesDeadline = true ↔ k ≠ .unlock ∧ k ≠ .mountAck
  lockRead : k.lockRead = true ↔ k = .read ∨ k = .check ∨ k = .contRead
  setsCursor : k.setsCursor = true ↔ k = .read ∨ k = .write ∨ k = .contRead ∨ k = .contWrite

/-! ### Regions (R94) -/

/-- The cylinders `r` hold one of the other side's region: Region B for Side A, Region A for Side B. -/
def TouchesOther (m : RegionMap) (x : Side) (r : Nat × Nat) : Prop :=
  ∃ c, r.1 ≤ c ∧ c ≤ r.2 ∧ ((x = .A ∧ m.p2 ≤ c) ∨ (x = .B ∧ c < m.p1))

/-- Cylinder `c` lies between the committed and the proposed place of a boundary. -/
def Changing (m : RegionMap) (new : Nat × Nat) (c : Nat) : Prop :=
  (min m.p1 new.1 ≤ c ∧ c < max m.p1 new.1) ∨ (min m.p2 new.2 ≤ c ∧ c < max m.p2 new.2)

/-- The cylinders `r` hold one that the pending commit would change (R98). -/
def TouchesChanging (m : RegionMap) (r : Nat × Nat) : Prop :=
  m.protocol = .commitPending ∧ ∃ new c, m.pendingMap = some new ∧ r.1 ≤ c ∧ c ≤ r.2 ∧ Changing m new c

/-! ### Notices (R145, R146, R148) -/

/-- `r` is the queue `q` with `e` at its place: behind every entry that is more favoured, or of equal priority with a
number not above its own, and before the next (R145). -/
def PlacedIn (e : Entry) (q r : List Entry) : Prop :=
  ∃ a b, q = a ++ b ∧ r = a ++ e :: b ∧ (∀ f ∈ a, f.prio < e.prio ∨ (f.prio = e.prio ∧ f.no ≤ e.no)) ∧
    ∀ f ∈ b.head?, e.prio < f.prio ∨ (e.prio = f.prio ∧ e.no < f.no)

/-- `r` is the queue `q` without one COMPLETION entry, the least favoured, and of that priority the one with the highest
number (R146). -/
def RoomMade (q r : List Entry) : Prop :=
  ∃ a c b, q = a ++ c :: b ∧ r = a ++ b ∧ c.kind = .completion ∧
    ∀ f ∈ q, f.kind = .completion → f.prio < c.prio ∨ (f.prio = c.prio ∧ f.no ≤ c.no)

/-- An entry `e` that does not merge comes into the queue of `p`, and `r` is the presenter then: it takes its place, and
in a queue of 16 a COMPLETION entry is discarded for it and counts as lost (R145, R146). -/
structure EntryAdded (p r : Presenter) (e : Entry) : Prop where
  room : p.queue.length < 16 → PlacedIn e p.queue r.queue ∧ r.lost = p.lost
  full : PresenterLaw p → p.queue.length = 16 → ∃ q, RoomMade p.queue q ∧ PlacedIn e q r.queue ∧ r.lost = min 15 (p.lost + 1)
  shown : r.shown = p.shown ∧ r.writing = p.writing

/-- A new notice joins the queue of `p`, and `r` is the presenter then (R145, R146). -/
structure NoticeJoined (p r : Presenter) (k : NoticeKind) (prio tag code : Nat) : Prop where
  dropped : k = .completion → 16 ≤ p.queue.length → r = { p with lost := min 15 (p.lost + 1) }
  added : (k = .completion ∧ p.queue.length < 16) ∨ (k ≠ .completion ∧ ∀ f ∈ p.queue, f.kind ≠ k) →
    EntryAdded p r ⟨k, prio, tag, code, p.nextNo⟩ ∧ r.nextNo = p.nextNo + 1
  merged : ∀ q, k ≠ .completion → p.queue.find? (fun f => f.kind == k) = some q → r.lost = p.lost ∧
    (p.shown = none → r.shown = none) ∧ (p.writing = none → r.writing = none) ∧
    (q.prio ≤ prio → PlacedIn { q with code := code } (p.queue.erase q) r.queue ∧ r.nextNo = p.nextNo) ∧
    (prio < q.prio → PlacedIn { q with code := code, prio := prio, no := p.nextNo } (p.queue.erase q) r.queue ∧
      r.nextNo = p.nextNo + 1)
  rest : r.presented = p.presented ∧ r.level = p.level ∧ r.stack = p.stack ∧ r.owed = p.owed

/-- The entry `e` returns to the queue of `p` from the presented slot, and `r` is the presenter then (R145, R146). Which
of the two entries of a merge loses its shown standing is read from R145: log entry 16. -/
structure EntryReturned (p r : Presenter) (e : Entry) : Prop where
  added : e.kind = .completion ∨ (∀ f ∈ p.queue, f.kind ≠ e.kind) → EntryAdded p r e
  merged : ∀ q n, e.kind ≠ .completion → p.queue.find? (fun f => f.kind == e.kind) = some q →
    n = (if e.prio ≤ q.prio then e.no else q.no) → r.lost = p.lost ∧
    PlacedIn { q with prio := min e.prio q.prio, no := n } (p.queue.erase q) r.queue ∧
    r.writing = p.writing.map (fun w => if w.no = q.no ∨ w.no = e.no then { w with no := n } else w) ∧
    (p.shown = none → r.shown = none) ∧
    ∀ sh, p.shown = some sh →
      (sh.no = q.no → r.shown = if e.prio < q.prio then none else some { sh with no := n }) ∧
      (sh.no ≠ q.no → sh.no = e.no →
        r.shown = if e.code = q.code ∧ e.prio ≤ q.prio then some { sh with no := n } else none) ∧
      (sh.no ≠ q.no → sh.no ≠ e.no → r.shown = some sh)
  rest : r.presented = p.presented ∧ r.level = p.level ∧ r.stack = p.stack ∧ r.owed = p.owed ∧ r.nextNo = p.nextNo

/-- The owed writes `w` with a new write to the notice cell, of `e`'s word or of NONE: it replaces an owed one, except the
NONE owed by an acceptance, and takes the last place (R147). -/
def owedWith (w : List OwedWrite) (e : Option Entry) : List OwedWrite :=
  w.filter (fun o => match o with
    | .level _ => true
    | .notice _ accept => accept) ++ [.notice e false]

/-- The examination of the presenter `p` by the cases of R148, `r` being the presenter after it. -/
structure NoticeExamined (p r : Presenter) : Prop where
  present : ∀ h t, p.presented = none → p.queue = h :: t → h.prio < p.level →
    r = { p with queue := t, presented := some h, owed := owedWith p.owed (some h) }
  replace : ∀ e h t, p.presented = some e → p.queue = h :: t → h.prio < e.prio →
    ∃ g f more, EntryReturned { p with presented := none } g e ∧ g.queue = f :: more ∧
      r = { g with queue := more, presented := some f, owed := owedWith p.owed (some f) }
  nothing : p.queue = [] ∨ (p.presented = none ∧ ∀ h ∈ p.queue.head?, p.level ≤ h.prio) ∨
    (∃ e, p.presented = some e ∧ ∀ h ∈ p.queue.head?, e.prio ≤ h.prio) → r = p

/-- What the presenter `p`, whose level has just been set, does of itself, `r` being the presenter after it (R148, R150,
R151): a presented entry that is not below the level returns to the queue with NONE owed, and the queue is examined. -/
def LevelTaken (p r : Presenter) : Prop :=
  ∃ g, NoticeExamined g r ∧ ((∀ e, p.presented = some e → e.prio < p.level) → g = p) ∧
    ∀ e, p.presented = some e → p.level ≤ e.prio →
      ∃ q, EntryReturned { p with presented := none } q e ∧ g = { q with owed := owedWith p.owed none }

/-! ### Locks and waits -/

/-- A lock asked for by `l.side` is in conflict (R104): it overlaps a lock of the other side, one of the two being
EXCLUSIVE, or it is EXCLUSIVE and meets a read of the other side in flight. -/
def InConflict (s : State) (l : Lock) : Prop :=
  (∃ h ∈ s.held, h.side = l.side.other ∧ h.overlaps l ∧ (h.exclusive = true ∨ l.exclusive = true)) ∨
    (l.exclusive = true ∧ ∃ i r, ((s.slot i).state = .waiting ∨ (s.slot i).state = .active) ∧
      (s.slot i).side = l.side.other ∧ (s.slot i).isKind Kind.lockRead = true ∧ (s.slot i).platter = some l.platter ∧
      (s.slot i).touched = some r ∧ l.first ≤ r.2 ∧ r.1 ≤ l.last)

/-- Slot `i` waits on side `x` (R105): a read of the other side in LOCKWAIT, or a LOCK of it there whose extent conflicts
with an entry of `x`. -/
def WaitsOn (s : State) (x : Side) (i : Fin 12) : Prop :=
  (s.slot i).state = .lockwait ∧ (s.slot i).side = x.other ∧
    ((s.slot i).isKind Kind.lockRead = true ∨
      ((s.slot i).kind = some .lock ∧ ∃ h ∈ s.held, h.side = x ∧ h.overlaps (lockOf (s.slot i)) ∧
        (h.exclusive = true ∨ recExclusive (s.slot i).words = true)))

/-- Slot `i` is a read that an EXCLUSIVE lock of the other side keeps waiting (R56). -/
def ReadBlocked (s : State) (i : Fin 12) : Prop :=
  ∃ h ∈ s.held, ∃ r, h.side = (s.slot i).side.other ∧ h.exclusive = true ∧ (s.slot i).platter = some h.platter ∧
    (s.slot i).touched = some r ∧ h.first ≤ r.2 ∧ r.1 ≤ h.last

/-! ### What the end of a command may change -/

/-- What a slot may become at a command's end: the slot itself; from ACTIVE, POSTING, or ACTIVE with its flags and counts
moved on; from LOCKWAIT, WAITING or POSTING. The rest of its context stays. -/
structure SlotFollows (a b : Slot) : Prop where
  others : a.state ≠ .active → a.state ≠ .lockwait → b = a
  active : a.state = .active → b.state = .active ∨ b.state = .posting
  lockwait : a.state = .lockwait → b.state = .lockwait ∨ b.state = .waiting ∨ b.state = .posting
  tenure : b.tenure = a.tenure
  side : b.side = a.side
  address : b.q = a.q
  words : b.words = a.words
  extent : b.platter = a.platter ∧ b.start = a.start ∧ b.n = a.n ∧ b.touched = a.touched
  seq : b.seq = a.seq
  deadline : b.deadline = a.deadline ∧ b.passed = a.passed
  depth : b.depth = a.depth
  passCount : b.passCount = a.passCount

/-- What the end of a command (`settle`) leaves as it was, from the state `s` that the command's own effect left. -/
structure EndFrame (s t : State) : Prop where
  counter : t.counter = s.counter
  clock : t.clk = s.clk
  pending : t.pending = s.pending
  selection : s.sel.isSome = true → t.sel = s.sel
  taps : ∀ x, (t.tap.get x).base = (s.tap.get x).base ∧ (t.tap.get x).live = (s.tap.get x).live
  intake : ∀ x, (t.intake.get x).list = (s.intake.get x).list ∧ (t.intake.get x).overrun = (s.intake.get x).overrun
    ∧ (t.intake.get x).fetch = (s.intake.get x).fetch ∧ (t.intake.get x).chains = (s.intake.get x).chains
    ∧ (t.intake.get x).claim = (s.intake.get x).claim
  levels : ∀ x, (t.pres.get x).level = (s.pres.get x).level ∧ (t.pres.get x).stack = (s.pres.get x).stack
  drive : t.drv.mark = s.drv.mark ∧ t.drv.cyl = s.drv.cyl ∧ t.drv.generation = s.drv.generation
    ∧ t.drv.mounted = s.drv.mounted ∧ t.drv.idle = s.drv.idle ∧ t.drv.inp = s.drv.inp ∧ t.drv.wordTime = s.drv.wordTime
    ∧ t.drv.openPending = s.drv.openPending ∧ t.drv.deferred = s.drv.deferred
  posting : ∃ more, t.post = { s.post with queue := s.post.queue ++ more }
  locks : ∀ (k : Fin 8) (l : Lock), s.locks[k] = some l → t.locks[k] = some l
  map : s.map.protocol ≠ .commitPending → t.map = s.map
  proposals : t.map.proposal = s.map.proposal
  slots : ∀ i, SlotFollows (s.slot i) (t.slot i)

/-! ### The end of a memory cycle -/

/-- `s` with side `x`'s arbiter FREE, the word time told, and the outputs `out`. -/
def State.ended (s : State) (x : Side) (wt : Nat) (out : List Output) : State :=
  { s with
    tap := s.tap.set x { s.tap.get x with arb := .free }
    drv := { s.drv with wordTime := wt }
    out := out }

/-- Side `x` has a computer cycle in progress that is watched as `w`, with `v` the word it wrote, and the side is live. -/
def watchedAs (s : State) (x : Side) (w : Watch) (v : Word) : Prop :=
  ∃ c, (s.tap.get x).arb = .computer c ∧ c.watch = w ∧ c.data = v ∧ c.dir = .write ∧ s.live x = true

/-- Side `x` has a part cycle in progress for `k`, not abandoned. -/
def cycleFor (s : State) (x : Side) (k : CycleKind) : Prop :=
  ∃ p, (s.tap.get x).arb = .part p ∧ p.kind = k ∧ p.abandoned = false

/-- The slot that follows slot `a` keeps its whole context but its state and result fields: it was sent to POSTING with
status `st` without having been ACTIVE (R66). -/
def PostedWith (a b : Slot) (st : Status) : Prop :=
  b.state = .posting ∧ b.status = some st ∧ b.span = none ∧ b.tenure = a.tenure ∧ b.side = a.side ∧ b.q = a.q
    ∧ b.words = a.words ∧ b.seq = a.seq ∧ b.deadline = a.deadline ∧ b.passed = a.passed

/-- A part-owned cell has its write owed. -/
def OwedCells.has (o : OwedCells) : StatusCell → Bool
  | .drive => o.drive
  | .side => o.side
  | .map1 => o.map1
  | .map2 => o.map2
  | .partition => o.partition

/-- `w` is the disk address of spiral index `i` on platter `p` (R26): the cylinder in bits 14 to 6, the head in bits 5
and 4, the sector in bits 3 to 0 and bit 15 clear. -/
def DiskAddress (w : Word) (p : Platter) (i : Nat) : Prop :=
  w.toNat = i / 32 * 64 + ((if p = .F then 2 else 0) + i / 16 % 2) * 16 + i % 16

/-! ### The end of a request and the drive's states -/

/-- From `s` to `u` the engine's request in slot `i` ended with `st` at the count of the moment: the slot went to POSTING
with its residual and stop position (R130, R131), the fence is gone, both gates are dropped and the engine has no work
(R129). Where write gate was asserted the sector under it is cut and counts as written (R8), so the residual and the stop
position are then left to that rule. -/
structure RequestEnded (s u : State) (i : Fin 12) (st : Status) : Prop where
  posted : (u.slot i).state = .posting ∧ (u.slot i).status = some st ∧ (u.slot i).tenure = (s.slot i).tenure
  result : s.drv.writeGate = false → u.slot i = { s.slot i with
    state := .posting, status := some st, residual := residualOf s (s.slot i), stop := stopOf s (s.slot i) st
    instant := s.clk.count, span := none }
  queue : ∃ more, u.post.queue = s.post.queue ++ (i, (s.slot i).tenure) :: more
  fence : (u.tap.get (s.slot i).side).fence = none
  engine : u.eng.work = none ∧ u.eng.phase = .idle ∧ u.eng.ending = none
  gates : u.drv.readGate = false ∧ u.drv.writeGate = false

/-- From `s` to `u` a side reset freed slot `i`, on which the engine worked (R128): a write whose sector has begun is
finished; otherwise the engine stops, and a seek or recalibrate that it has under way with the drive READY runs on,
with its span, as the abandoned movement (R112, R115). -/
structure EngineFreed (s u : State) (i : Fin 12) : Prop where
  writing : s.eng.phase = .inSector → (s.slot i).isKind Kind.diskWrite = true →
    u.eng = { s.eng with work := none, phase := .finishing, span := none, ending := none } ∧
      u.drv.readGate = s.drv.readGate ∧ u.drv.writeGate = s.drv.writeGate
  stops : s.eng.phase ≠ .inSector ∨ (s.slot i).isKind Kind.diskWrite = false →
    ∃ ab, u.eng = Engine.cleared ab ∧ u.drv.readGate = false ∧ u.drv.writeGate = false ∧
      (∀ sp, s.eng.span = some sp →
        (s.eng.phase = .seeking → ab = some (.seek s.eng.moveTo, sp)) ∧
        (s.eng.phase = .recalWait ∨ (s.eng.phase = .restoring ∧ s.eng.restore = some .ready) →
          ab = some (.recalibrate, sp))) ∧
      (s.eng.phase ≠ .seeking → s.eng.phase ≠ .recalWait → s.eng.phase ≠ .restoring → ab = s.eng.abandoned)

/-- The engine works on slot `i` with no ending decided, and no data cycle of it is in progress, so that an interruption
ends the request at once (R129). -/
structure AtWork (s : State) (i : Fin 12) : Prop where
  slot : engineSlot s = some i
  phase : s.eng.phase ≠ .finishing
  ending : s.eng.ending = none
  cycle : ∀ p j, (s.tap.get (s.slot i).side).arb = .part p → p.kind = .data j → p.abandoned = true

/-- Where the engine goes when the sector at extent position `m` of `sl` is finished and is not the last (R118): the next
target's head is selected, or after sector 15 of an odd head a one-cylinder seek begins with its span of 64 slots. -/
def GoesToNext (sl : Slot) (m : Nat) (s u : State) : Prop :=
  u.eng.target = some (m + 1) ∧ u.eng.rereads = 0 ∧ u.eng.recalibrated = false ∧ u.drv.readGate = false ∧
    ((sl.start.getD 0 + m) % 32 ≠ 31 → u.eng.phase = .rotating ∧
      u.drv.headSel = headOf (sl.platter.getD .C) (sl.start.getD 0 + m + 1)) ∧
    ((sl.start.getD 0 + m) % 32 = 31 → u.eng.phase = .seeking ∧
      u.drv.cylAddr = (sl.start.getD 0 + m + 1) / 32 ∧ u.drv.move = some (.seek ((sl.start.getD 0 + m + 1) / 32)) ∧
      u.eng.span = some ⟨s.clk.count + 64, false⟩ ∧ u.eng.seekRetry = false)

/-- The actuator stands on the cylinder the engine wanted for the request in slot `i` (R113, R114, R116, R118): a SEEK
ends with OK; a write of platter C that finds write-protect asserted at its first arrival ends with WRITE_PROTECTED;
any other request waits for its target's mark with the target's head selected. -/
def Arrived (s u : State) (i : Fin 12) : Prop :=
  ((s.slot i).kind = some .seek → s.eng.anyGood = false → s.drv.writeGate = false → RequestEnded s u i .ok) ∧
  ((s.slot i).isKind Kind.diskWrite = true → (s.slot i).platter = some .C → s.drv.inp.writeProtect = true →
    s.eng.begun = false → s.eng.anyGood = false → s.drv.writeGate = false → RequestEnded s u i .writeProtected) ∧
  ((s.slot i).kind ≠ some .seek →
    (s.slot i).isKind Kind.diskWrite = false ∨ (s.slot i).platter ≠ some .C ∨ s.drv.inp.writeProtect = false ∨
      s.eng.begun = true →
    u.eng.phase = .rotating ∧ u.eng.begun = true ∧ u.eng.span = none ∧ u.eng.target = s.eng.target ∧ u.slots = s.slots ∧
      u.drv.headSel = headOf ((s.slot i).platter.getD .C) ((s.slot i).start.getD 0 + s.eng.m))

/-- What no change of the drive state touches: of the selection, one that is outstanding. -/
structure DriveFrame (s u : State) : Prop where
  blocks : u.intake = s.intake ∧ u.counter = s.counter ∧ u.map = s.map ∧ u.pending = s.pending
  selection : s.sel.isSome = true → u.sel = s.sel
  drive : u.drv.cyl = s.drv.cyl ∧ u.drv.mark = s.drv.mark ∧ u.drv.generation = s.drv.generation ∧
    u.drv.mounted = s.drv.mounted ∧ u.drv.idle = s.drv.idle
  slots : ∀ i, (s.slot i).state ≠ .active → (s.slot i).state ≠ .lockwait → u.slot i = s.slot i

/-- What the report of drive state `st`, not FAULTED, does to a RESTORE at work in slot `i` (R133): one taken in READY
ends with NOT_READY in any state but READY; one taken in FAULTED ends so in OPEN and OFFLINE, and runs on in
RECALIBRATING and SPINNING_UP. -/
def RestoreReported (s u : State) (st : DriveState) (i : Fin 12) : Prop :=
  (s.eng.restore = some .ready → st ≠ .ready → RequestEnded s u i .notReady) ∧
    (s.eng.restore = some .faulted →
      (st = .opened ∨ st = .offline → RequestEnded s u i .notReady) ∧
      (st = .recalibrating ∨ st = .spinningUp →
        u.slot i = s.slot i ∧ u.eng = { s.eng with abandoned := none }))

/-- An entry to drive state `st`, not FAULTED, with the state span `span` and the pulses `out` (R157, R158, R160,
R164): the cause is 0, and a request that finds the drive out of READY ends with NOT_READY (R126), a RESTORE as R133
states. A sector cut by that follows the pulses: DESIGN CHOICE, log entry 54. -/
structure StateEntry (s u : State) (st : DriveState) (span : Option Span) (out : List Output) : Prop where
  state : u.drv.state = st ∧ u.drv.cause = 0 ∧ u.drv.span = span
  out : ∃ cut, u.out = out ++ cut ∧ ∀ o ∈ cut, ∃ p k, o = .sectorCut p k
  request : st ≠ .ready → ∀ i, AtWork s i → (s.slot i).kind ≠ some .restore → RequestEnded s u i .notReady
  restore : ∀ i, AtWork s i → (s.slot i).kind = some .restore → RestoreReported s u st i
  abandoned : st ≠ .ready → u.eng.abandoned = none
  frame : DriveFrame s u

/-- An entry to FAULTED with a cause (R161): the state span is cancelled, recovery cleared, a request ends with
DRIVE_FAULT, and each live side's presenter has a DRIVE notice with code 1. -/
structure FaultEntry (s u : State) (cause : Nat) : Prop where
  state : u.drv.state = .faulted ∧ u.drv.cause = cause ∧ u.drv.span = none ∧ u.drv.recovery = false
  notices : ∀ y, u.pres.get y = if s.live y then ((s.pres.get y).join .drive 1 0 1).examine else s.pres.get y
  request : ∀ i, AtWork s i → RequestEnded s u i .driveFault
  abandoned : u.eng.abandoned = none
  frame : DriveFrame s u

/-- An entry of the controller to SPINNING_UP or RECALIBRATING that finds the fault input asserted (R157): the pulse
`o` goes out, before any sector that the entry cuts (DESIGN CHOICE, log entry 54), the state is FAULTED with cause 4, and
each live side's presenter has a DRIVE notice with code 1. -/
def FaultFound (s u : State) (o : Output) : Prop :=
  u.drv.state = .faulted ∧ u.drv.cause = 4 ∧ u.drv.span = none ∧ u.drv.recovery = false ∧ (∃ cut, u.out = o :: cut) ∧
    ∀ y, u.pres.get y = if s.live y then ((s.pres.get y).join .drive 1 0 1).examine else s.pres.get y

/-- The command `c` is an event `ev` at the drive controller, which leaves the drive's inputs `f` and the slot clock
`k` (R14, R157 to R164): every level input but write-protect, and the load switch. A fall of power or of up to speed
makes TIMER the clock's source (R11). -/
def InputEvent (s : State) (c : Instr) (ev : DriveEvent) (f : DriveInputs) (k : Clock) : Prop :=
  (k = s.clk ∧
    ((c = .onCylinderRise ∧ ev = .onCylinderRise ∧ s.drv.inp.onCylinder = false ∧
        f = { s.drv.inp with onCylinder := true }) ∨
      (c = .onCylinderFall ∧ ev = .onCylinderFall ∧ s.drv.inp.onCylinder = true ∧
        f = { s.drv.inp with onCylinder := false }) ∨
      (c = .powerPresentRise ∧ ev = .powerRise ∧ s.drv.inp.power = false ∧ f = { s.drv.inp with power := true }) ∨
      (c = .upToSpeedRise ∧ ev = .upToSpeedRise ∧ s.drv.inp.upToSpeed = false ∧
        f = { s.drv.inp with upToSpeed := true }) ∨
      (c = .headsLoadedRise ∧ ev = .headsRise ∧ s.drv.inp.headsLoaded = false ∧
        f = { s.drv.inp with headsLoaded := true }) ∨
      (c = .headsLoadedFall ∧ ev = .headsFall ∧ s.drv.inp.headsLoaded = true ∧
        f = { s.drv.inp with headsLoaded := false }) ∨
      (c = .faultRise ∧ ev = .faultRise ∧ s.drv.inp.fault = false ∧ f = { s.drv.inp with fault := true }) ∨
      (c = .faultFall ∧ ev = .faultFall ∧ s.drv.inp.fault = true ∧ f = { s.drv.inp with fault := false }) ∨
      (c = .loadSwitchPressed ∧ ev = .loadSwitch ∧ f = s.drv.inp) ∨
      (c = .cartridgeClosedFall ∧ ev = .closedFall ∧ s.drv.inp.cartridgeClosed = true ∧
        f = { s.drv.inp with cartridgeClosed := false }) ∨
      (c = .cartridgeClosedRise ∧ ev = .closedRise ∧ s.drv.inp.cartridgeClosed = false ∧
        f = { s.drv.inp with cartridgeClosed := true }))) ∨
  (k = ⟨s.clk.count, .timer⟩ ∧
    ((c = .powerPresentFall ∧ ev = .powerFall ∧ s.drv.inp.power = true ∧
        f = { s.drv.inp with power := false, upToSpeed := false }) ∨
      (c = .upToSpeedFall ∧ ev = .upToSpeedFall ∧ s.drv.inp.upToSpeed = true ∧
        f = { s.drv.inp with upToSpeed := false })))

/-- The steps 2 to 7 of the OPEN entry sequence from `s` (R163). -/
structure OpenDone (s u : State) : Prop where
  drive : u.drv.generation = s.drv.generation + 1 ∧ (∀ y, u.drv.mounted.get y = false) ∧ u.drv.openPending = false ∧
    u.drv.cyl = s.drv.cyl ∧ u.drv.idle = s.drv.idle
  waiting : ∀ i, (s.slot i).state = .waiting ∨ (s.slot i).state = .lockwait → (s.slot i).platter = some .C →
    (u.slot i).state = .posting ∧ (u.slot i).status = some .mediumChanged
  others : ∀ i, (s.slot i).state ≠ .lockwait → ¬ ((s.slot i).state = .waiting ∧ (s.slot i).platter = some .C) →
    (s.slot i).state ≠ .active → u.slot i = s.slot i
  locks : ∀ (k : Fin 8) (l : Lock), u.locks[k] = some l → l.platter = .F
  cursors : ∀ y, (u.intake.get y).cursor = (s.intake.get y).cursor.filter (fun c => c.1 == .F) ∧
    (u.intake.get y).list = (s.intake.get y).list
  notices : ∀ y, u.pres.get y = if s.live y then ((s.pres.get y).join .drive 1 0 2).examine else s.pres.get y
  statusCells : ∀ y, s.live y = true → (u.tap.get y).owed.side = true
  selection : s.sel.isSome = true → u.sel = s.sel
  rest : u.map = s.map ∧ u.counter = s.counter ∧ u.clk = s.clk

end Sys2Proof.Machine
end

