-- ==== Sys2Proof/Certificates/Slice0/Obligations.lean ====
section
/-! DEFINITION. The statements about the coupler, in the order of the chapters: steps and resets, the memory taps,
notices, the region map, intake, locks, selection, posting, the engine and the sectors, the drive. A command's own
effect is the state given to `settle`, which ends every command (Machine/Tap.lean) and leaves all that `EndFrame`
lists. -/

open Sys2Proof Sys2Proof.Machine

/-! ### Steps, resets and laws -/

/-- A step runs the command at the front of the queue, on the state with the queue's rest; with nothing waiting the block
idles. Both are the model's choice: log entry 4. -/
def Obligations.StepRunsFrontCommand : Prop :=
  (∀ (c : Instr) (rest : List Instr) (s : State), s.pending = c :: rest →
    step s = exec c { s with pending := rest }) ∧
  ∀ s : State, s.pending = [] → step s = .next s

/-- No command touches the queue of those that wait. -/
def Obligations.CommandsLeaveTheQueue : Prop :=
  ∀ (c : Instr) (s t : State), exec c s = .next t → t.pending = s.pending

/-- The state right after reset meets every law of Safety.lean. -/
def Obligations.ResetMeetsEveryLaw : Prop := Safe State.reset

/-- What ends every command, `settle`, from the state `s` of the command's own effect, `s0` being the one before it. The
engine takes an ACTIVE slot, the drive controller acts, the drain test and the examination are made, in this order; then
each live side's part-owned cells whose contents the command changed are owed (R16), and both arbiters grant (R34). So at
a command's end no FREE arbiter has a cycle that waits, no commit waits with nothing to drain, no selection is missing
where an eligible slot waits with none ACTIVE, and the controller has left STOPPED and PARKED, and runs its spans, as R157
and R160 have it. All that `EndFrame` lists is as the command's own effect left it. The order of the blocks is the
model's: log entry 5. -/
def Obligations.EndOfCommandFrame : Prop :=
  ∀ s0 s v u : State, v = examine (drainTest (reconcileDrive (engineReady s))) → u = settle s0 s →
    EndFrame s u ∧
    (∃ t, u = arbitrate .B (arbitrate .A { v with tap := t }) ∧ ∀ x, ∃ w, t.get x = { v.tap.get x with owed := w } ∧
      ∀ c, w.has c = true ↔
        (v.tap.get x).owed.has c = true ∨ (v.live x = true ∧ cellWord s0 x c ≠ cellWord v x c)) ∧
    (∀ x, (u.tap.get x).arb = .free → (u.tap.get x).comp = none ∧
      (u.live x = true → engineAsks u x = none ∧ postingAsks u x = none ∧ intakeAsks u x = none ∧
        (u.pres.get x).owed = [] ∧ ∀ c, (u.tap.get x).owed.has c = false)) ∧
    (∀ x a d, (u.tap.get x).arb ≠ .pairWriteOwed a d) ∧
    (∀ new, u.map.protocol = .commitPending → u.map.pendingMap = some new →
      (∀ i r, (u.slot i).touched = some r → r.1 ≤ r.2) →
      ∃ i r c, (u.slot i).touched = some r ∧ (u.slot i).state ≠ .free ∧ (u.slot i).state ≠ .intake ∧
        r.1 ≤ c ∧ c ≤ r.2 ∧ Changing u.map new c) ∧
    (u.activeSlot = none → u.eligible ≠ [] → u.sel.isSome = true) ∧
    (u.drv.state = .stopped → u.waitingSlots = [] ∧ 2 ≤ u.idleTarget) ∧
    (u.drv.state = .parked → u.waitingSlots = [] ∧ 1 ≤ u.idleTarget ∧ (u.drv.span.isSome = true ↔ u.idleTarget = 2)) ∧
    (u.drv.state = .ready → (u.drv.span.isSome = true ↔
      u.waitingSlots = [] ∧ u.activeSlot = none ∧ 1 ≤ u.idleTarget))

/-- The region map's law holds after every step from a state in which it holds (R93 to R98). -/
def Obligations.RegionMapLawKept : Prop := ∀ s t : State, MapLaw s.map → step s = .next t → MapLaw t.map

/-- The lock table's two laws (R103) after every step from a state in which they hold: no two locks of one side
overlap, and none overlaps an EXCLUSIVE lock of the other side; and every lock lies within Shared, with what
`SharedLaw` lists beside it, where the request table's law holds too. -/
def Obligations.LockTableLawKept : Prop :=
  (∀ s t : State, LockLaw s.locks → step s = .next t → LockLaw t.locks) ∧
  ∀ s t : State, PlacesLaw s → SharedLaw s → step s = .next t → SharedLaw t

/-- The request table's laws after every step from a state in which they hold: at most one slot is ACTIVE (R72); and
no side has more than 8 occupied slots (R64), with what `PlacesLaw` says of the slots that the intake units and the
posting unit work for. -/
def Obligations.OneActiveSlotKept : Prop :=
  (∀ s t : State, OneActive s → step s = .next t → OneActive t) ∧
  ∀ s t : State, PlacesLaw s → step s = .next t → PlacesLaw t

/-- The presenters' law holds after every step from a state in which it holds (R144 to R147). -/
def Obligations.PresenterLawKept : Prop := ∀ s t : State, PresentersLaw s → step s = .next t → PresentersLaw t

/-- The drive controller's law holds after every step from a state in which it holds (R156, R159). -/
def Obligations.DriveLawKept : Prop := ∀ s t : State, DriveLaw s.drv → step s = .next t → DriveLaw t.drv

/-- The pending lists and the counts of the intake units and of the slots stay in their ranges (R47, R57, R65). -/
def Obligations.IntakeAndSlotCountsKept : Prop :=
  ∀ s t : State, step s = .next t →
    ((∀ x, IntakeLaw (s.intake.get x)) → ∀ x, IntakeLaw (t.intake.get x)) ∧
    ((∀ i, SlotLaw (s.slot i)) → ∀ i, SlotLaw (t.slot i))

/-- A command that is no event in the state it finds, as `NonEvent` says command by command, has no effect but that
the outputs of the one before are gone: an input that takes the level it has, a span's end that has not come, the end
of a cycle that is not in progress, a step of a block that has nothing to take. The model's choice where the spec says
no more than that it is no event: log entry 6. That a waiting chain fetch does not start while a claim is on its way
back is log entry 12. -/
def Obligations.NonEventsHaveNoEffect : Prop :=
  ∀ (c : Instr) (s : State), NonEvent s c → exec c s = .next { s with out := [] }

/-- A part reset: every block as its rule gives it after part reset, whatever state it finds (R10, R13, R46, R47, R57,
R62, R78, R95, R103, R112, R134, R144, R156); and a side that comes out live owes its five part-owned cells and NONE
(R16, R155). The command's own effect is `u`; what ends every command follows it. While the reset is in progress
computer cycles pass to memory (R29, R46), event by event as the second to fourth clauses say: one that arrives is not
examined, and one that ends tells no block and returns its word for a read. The cycle `r.1` that is left in a side's tap
waits at the arbiter. The model's choices in it: what the cycles do is carried by the command (log entry 32), a second
cycle of a side stops the model (log entry 7), one that was there before the reset keeps what it was examined as (log
entries 14, 15), one still in progress at the end waits at the FREE arbiter (log entry 15), an entry to FAULTED gives no
notice (log entry 27), and the tenures begin again (log entry 30). -/
def Obligations.PartResetClearsEveryBlock : Prop :=
  (∀ (swA swB : BitVec 13) (initA initB : Bool) (inp : ResetInputs) (s : State),
    passCycles s.cycles inp.cycles = none →
    exec (.partReset swA swB initA initB inp) s = .fault .secondComputerCycle) ∧
  (∀ s : State, passCycles s.cycles [] = some (s.cycles, []) ∧
    ∀ x, s.cycles.get x =
      match (s.tap.get x).arb with
      | .computer c => some c
      | _ => ((s.tap.get x).comp).or (s.tap.get x).held) ∧
  (∀ (cs : Sided (Option CompCycle)) (x : Side) (dir : Dir) (a : Addr) (d : Word) (es : List ResetCycle),
    passCycles cs (.arrival x dir a d :: es) =
      if (cs.get x).isSome then none else passCycles (cs.set x (some ⟨dir, a, d, .none⟩)) es) ∧
  (∀ (cs : Sided (Option CompCycle)) (x : Side) (d : Word) (es : List ResetCycle),
    (cs.get x = none → passCycles cs (.ended x d :: es) = passCycles cs es) ∧
    ∀ c r, cs.get x = some c → passCycles (cs.set x none) es = some r →
      passCycles cs (.ended x d :: es) = some (r.1, (if c.dir = .read then [.readReturned x d] else []) ++ r.2)) ∧
  ∀ (swA swB : BitVec 13) (initA initB : Bool) (inp : ResetInputs) (s : State)
    (r : Sided (Option CompCycle) × List Output), passCycles s.cycles inp.cycles = some r →
    ∃ u, exec (.partReset swA swB initA initB inp) s = .next (settle s u) ∧
      u.clk = ⟨0, .timer⟩ ∧ u.counter = 0 ∧ u.sel = none ∧ u.pending = s.pending ∧
      (∀ i, u.slot i = Slot.empty 0) ∧ (∀ k : Fin 8, u.locks[k] = none) ∧
      u.map.p1 = 0 ∧ u.map.p2 = 400 ∧ u.map.protocol = .idle ∧ u.map.pendingMap = none ∧ u.map.span = none ∧
      (∀ x, u.map.proposal.get x = ⟨none, none, false, false, false⟩ ∧ u.map.last.get x = 0) ∧
      u.eng = Engine.cleared none ∧ u.post.queue = [] ∧ u.post.step = none ∧
      (∀ x, u.intake.get x = ⟨[], 0, none, none, [], none⟩) ∧
      (∀ x, (u.pres.get x).queue = [] ∧ (u.pres.get x).presented = none ∧ (u.pres.get x).shown = none ∧
        (u.pres.get x).writing = none ∧ (u.pres.get x).level = 0 ∧ (u.pres.get x).stack = [] ∧ (u.pres.get x).lost = 0) ∧
      (∀ x, (u.tap.get x).arb = .free ∧ (u.tap.get x).fence = none ∧ (u.tap.get x).held = none ∧
        (u.tap.get x).comp = r.1.get x) ∧
      (∀ x, u.live x = true →
        (u.tap.get x).owed = ⟨true, true, true, true, true⟩ ∧ (u.pres.get x).owed = [.notice none false]) ∧
      (∀ x, u.live x = false →
        (u.tap.get x).owed = ⟨false, false, false, false, false⟩ ∧ (u.pres.get x).owed = []) ∧
      (u.tap.get .A).base = 32 * swA.toNat ∧ (u.tap.get .B).base = 32 * swB.toNat ∧
      u.live .A = !initA ∧ u.live .B = !initB ∧
      u.drv.inp = inp.drive ∧ u.drv.cyl = 0 ∧ u.drv.mark = 0 ∧ u.drv.generation = 0 ∧ u.drv.recovery = false ∧
      (∀ x, u.drv.mounted.get x = false ∧ u.drv.idle.get x = 0) ∧
      u.drv.readGate = false ∧ u.drv.writeGate = false ∧ u.drv.cylAddr = 0 ∧ u.drv.headSel = 0

/-- The drive state that a part reset takes from the inputs, by the rows of R165, with R157's entry to FAULTED for a
fault input, and its way out of STOPPED where the idle target is below 2: one side is live then (R159). Three clauses
are the model's choice. That STOPPED stands while both init lines are asserted, against the words of R165's row on two
idle levels of 0, is log entry 32; that an entry which finds the fault input issues its pulse all the same is log
entry 23; that a sector which stood under write gate is put out in no form is log entry 44. The pulses come after `r.2`,
the words that the memory returned to the computers while the reset was in progress (R29, R46); `r` is what
PartResetClearsEveryBlock says of it. -/
def Obligations.PartResetTakesDriveState : Prop :=
  ∀ (swA swB : BitVec 13) (initA initB : Bool) (drive : DriveInputs) (es : List ResetCycle) (s : State)
    (r : Sided (Option CompCycle) × List Output), passCycles s.cycles es = some r →
    ∃ u, exec (.partReset swA swB initA initB ⟨drive, es⟩) s = .next (settle s u) ∧
      (drive.power = false → u.drv.state = .offline ∧ u.out = r.2) ∧
      (drive.power = true → drive.cartridgeClosed = false → u.drv.state = .opened ∧ u.out = r.2) ∧
      (drive.power = true → drive.cartridgeClosed = true → drive.upToSpeed = true →
        u.out = r.2 ++ [.recalibrate] ∧
        (drive.fault = false → u.drv.state = .recalibrating ∧ u.drv.span = some ⟨256, false⟩ ∧ u.drv.cause = 0) ∧
        (drive.fault = true → u.drv.state = .faulted ∧ u.drv.cause = 4 ∧ u.drv.span = none)) ∧
      (drive.power = true → drive.cartridgeClosed = true → drive.upToSpeed = false → initA = true → initB = true →
        u.drv.state = .stopped ∧ u.out = r.2) ∧
      (drive.power = true → drive.cartridgeClosed = true → drive.upToSpeed = false → initA = false ∨ initB = false →
        u.out = r.2 ++ [.spindleStart] ∧
        (drive.fault = false → u.drv.state = .spinningUp ∧ u.drv.span = some ⟨25600, false⟩ ∧ u.drv.cause = 0) ∧
        (drive.fault = true → u.drv.state = .faulted ∧ u.drv.cause = 4 ∧ u.drv.span = none))

/-- INIT_ASSERTED on a live side: the side's state in every block goes; the engine finishes a sector it writes for the
side, and otherwise stops, with a movement under way abandoned (R128); the other side's presenter receives a PEER
notice with code 1 at priority 1 when that side is live; and the other side's tap, intake unit, cursor, idle level,
locks and places in the posting queue, and the acceptance counter and the slot clock, stay (R43, R61, R75, R101, R110,
R143, R154, R159, R165). Where the ACTIVE slot is freed and no request is outstanding, the selector chooses from the
other side's slots (R77, R79). Four points are the model's: that it chooses, and counts, only slots that were eligible
already, before R110's re-examination lets a read in, is its order between the two blocks (log entry 5); that an idle
write of the side which an OPEN entry holds back is dropped is log entry 18; that a computer cycle which waits keeps what
it was examined as is log entry 14; that a request which still waits for an abandoned movement is IDLE, so that the
engine stops at once and the movement stays abandoned, is log entry 47. -/
def Obligations.InitAssertedResetsSide : Prop :=
  ∀ (x : Side) (s : State), s.live x = true →
    ∃ u, exec (.initAsserted x) s = .next (settle s u) ∧
      u.live x = false ∧ (u.tap.get x).base = (s.tap.get x).base ∧ (u.tap.get x).fence = none ∧
      (u.tap.get x).held = none ∧ (u.tap.get x).owed = ⟨false, false, false, false, false⟩ ∧
      (u.tap.get x).comp = ((s.tap.get x).held).or (s.tap.get x).comp ∧
      (∀ p, (s.tap.get x).arb = .part p → (u.tap.get x).arb = .part { p with abandoned := true }) ∧
      (∀ c, (s.tap.get x).arb = .computer c → (u.tap.get x).arb = .computer { c with watch := .none }) ∧
      (∀ a d, (s.tap.get x).arb = .pairWriteOwed a d → (u.tap.get x).arb = .free) ∧
      u.intake.get x = ⟨[], 0, none, none, [], none⟩ ∧ u.pres.get x = ⟨[], none, none, none, 0, [], [], 0, 0⟩ ∧
      (∀ i, u.slotOf x i = false) ∧
      (∀ i, s.slotOf x i = false → (s.slot i).state ≠ .lockwait → u.slot i = s.slot i) ∧
      (s.sel.isSome = true → u.sel = s.sel) ∧
      (∀ i j, s.sel = none → (s.slot i).state = .active → (∀ k, (s.slot k).state = .active → k = i) →
        (s.slot i).side = x → j ∈ s.eligible → (s.slot j).side = x.other →
        ∃ q, u.sel = some q ∧ q.slot ∈ s.eligible ∧ (s.slot q.slot).side = x.other ∧
          ∀ e ∈ q.counted, e.1 ∈ s.eligible ∧ (s.slot e.1).side = x.other) ∧
      (∀ i, s.activeSlot = some i → engineSlot s = some i → (s.slot i).side = x → EngineFreed s u i) ∧
      ((∀ i, s.activeSlot = some i → engineSlot s = some i → (s.slot i).side ≠ x) →
        u.eng = s.eng ∧ u.drv.readGate = s.drv.readGate ∧ u.drv.writeGate = s.drv.writeGate) ∧
      (∃ more, u.post.queue = s.post.queue.filter (fun e => !s.slotOf x e.1) ++ more ∧
        ∀ e ∈ more, s.slotOf x e.1 = false) ∧
      u.post.step = (if s.post.queue.head?.any (fun e => s.slotOf x e.1) then none else s.post.step) ∧
      (∀ (k : Fin 8) (l : Lock), u.locks[k] = some l → l.side = x.other) ∧
      (∀ (k : Fin 8) (l : Lock), s.locks[k] = some l → l.side = x.other → u.locks[k] = some l) ∧
      u.map.proposal.get x = ⟨none, none, false, false, false⟩ ∧
      u.map.protocol = (if s.map.protocol = .proposed x then .idle else s.map.protocol) ∧
      u.map.proposal.get x.other = s.map.proposal.get x.other ∧ u.map.last = s.map.last ∧
      u.map.p1 = s.map.p1 ∧ u.map.p2 = s.map.p2 ∧ u.map.pendingMap = s.map.pendingMap ∧
      u.map.span = (if s.map.protocol = .proposed x then none else s.map.span) ∧
      u.drv.mounted.get x = false ∧ u.drv.idle.get x = 0 ∧ (∀ l, DriveEvent.idleWrite x l ∉ u.drv.deferred) ∧
      u.drv.mounted.get x.other = s.drv.mounted.get x.other ∧ u.drv.idle.get x.other = s.drv.idle.get x.other ∧
      u.drv.generation = s.drv.generation ∧ u.drv.cyl = s.drv.cyl ∧
      u.pres.get x.other = (if s.live x.other then ((s.pres.get x.other).join .peer 1 0 1).examine
        else s.pres.get x.other) ∧
      u.tap.get x.other = s.tap.get x.other ∧ u.intake.get x.other = s.intake.get x.other ∧
      u.counter = s.counter ∧ u.clk = s.clk ∧ u.pending = s.pending

/-- INIT_RELEASED on a side IN_RESET: it is live, with its five part-owned cells and NONE owed and its idle level 0 (R16,
R45, R155, R159). -/
def Obligations.InitReleasedMakesLive : Prop :=
  ∀ (x : Side) (s : State), s.live x = false →
    exec (.initReleased x) s = .next (settle s
      { s with
        tap := s.tap.set x { s.tap.get x with live := true, owed := ⟨true, true, true, true, true⟩ }
        pres := s.pres.set x { s.pres.get x with
          owed := (s.pres.get x).owed.filter OwedWrite.staysOnNotice ++ [.notice none false] }
        drv := { s.drv with idle := s.drv.idle.set x 0 }
        out := [] })


/-! ### The memory taps -/

/-- What a computer cycle of a live side is by its place in the control page (R31's table): the eight submission
cells, the level, notice, cross, idle, proposal and seal cells for a write, the notice cell for a read; a write of the
cells 15 to 19 is the part-owned kind (R16), and every other cycle of any address is not watched. -/
def Obligations.CyclesWatchedByPlace : Prop :=
  ∀ (t : Tap) (a : Addr), t.live = true →
    (∀ i : Fin 8, a.toNat = t.base + i.val → t.examine .write a = .submission i) ∧
    (a.toNat = t.base + 8 → t.examine .write a = .level) ∧
    (a.toNat = t.base + 9 → t.examine .read a = .noticeRead ∧ t.examine .write a = .noticeWrite) ∧
    (a.toNat = t.base + 10 → t.examine .write a = .cross) ∧
    (a.toNat = t.base + 11 → t.examine .write a = .idle) ∧
    (a.toNat = t.base + 12 → t.examine .write a = .proposal false) ∧
    (a.toNat = t.base + 13 → t.examine .write a = .proposal true) ∧
    (a.toNat = t.base + 14 → t.examine .write a = .seal) ∧
    (t.base + 15 ≤ a.toNat → a.toNat ≤ t.base + 19 → t.examine .write a = .partOwned) ∧
    (a.toNat ≠ t.base + 9 → t.examine .read a = .none) ∧
    (a.toNat < t.base ∨ t.base + 19 < a.toNat → t.examine .write a = .none)

/-- A cycle qualifies at a live side's tap with a fence exactly when its address is that of a word whose index is at least
the transfer index and below the count, and its direction is a write, or a read under DISK_READ (R37, R39). -/
def Obligations.FencedWordsQualify : Prop :=
  ∀ (t : Tap) (f : Fence) (dir : Dir) (a : Addr), t.live = true → t.fence = some f →
    (t.qualifies dir a = true ↔
      (dir = .write ∨ f.dir = .diskRead) ∧
        ∃ j, f.index ≤ j ∧ j < f.count ∧ a.toNat = f.buffer + j + f.stride * (j / 256))

/-- COMPUTER_CYCLE_ARRIVAL with no cycle of the side in the tap: a cycle that does not qualify waits at the arbiter;
one that qualifies in WAIT mode is held; one that qualifies in REPORT mode waits at the arbiter and sets TOUCHED in
the ACTIVE request. HOLD_TIMER_EXPIRY: the held cycle joins the arbiter as the waiting computer cycle, and TOUCHED is
set (R29, R39 to R41). An arrival while a cycle of the side is in the tap does not come about, since the computer
presents one cycle at a time (R29); that the model stops there is its choice: log entry 7. -/
def Obligations.ArrivalsWaitAreHeldOrTouch : Prop :=
  ∀ (x : Side) (dir : Dir) (a : Addr) (d : Word) (s : State),
    ((s.tap.get x).comp = none → (s.tap.get x).held = none → (∀ c, (s.tap.get x).arb ≠ .computer c) →
      ((s.tap.get x).qualifies dir a = false →
        exec (.computerCycleArrival x dir a d) s = .next (settle s
          { s with
            tap := s.tap.set x { s.tap.get x with comp := some ⟨dir, a, d, (s.tap.get x).examine dir a⟩ }
            out := [] })) ∧
      (∀ f, (s.tap.get x).qualifies dir a = true → (s.tap.get x).fence = some f → f.wait = true →
        exec (.computerCycleArrival x dir a d) s = .next (settle s
          { s with
            tap := s.tap.set x { s.tap.get x with held := some ⟨dir, a, d, (s.tap.get x).examine dir a⟩ }
            out := [] })) ∧
      (∀ f i, (s.tap.get x).qualifies dir a = true → (s.tap.get x).fence = some f → f.wait = false →
        s.activeSlot = some i →
        exec (.computerCycleArrival x dir a d) s = .next (settle s
          { s with
            tap := s.tap.set x { s.tap.get x with comp := some ⟨dir, a, d, (s.tap.get x).examine dir a⟩ }
            slots := s.slots.set i { s.slot i with touchedFlag := true }
            out := [] }))) ∧
    (∀ (c : CompCycle) (i : Fin 12), (s.tap.get x).held = some c → s.activeSlot = some i →
      exec (.holdTimerExpiry x) s = .next (settle s
        { s with
          tap := s.tap.set x { s.tap.get x with held := none, comp := some c }
          slots := s.slots.set i { s.slot i with touchedFlag := true }
          out := [] })) ∧
    ((s.tap.get x).comp.isSome = true ∨ (s.tap.get x).held.isSome = true ∨ (∃ c, (s.tap.get x).arb = .computer c) →
      exec (.computerCycleArrival x dir a d) s = .fault .secondComputerCycle)

/-- COMPUTER_CYCLE_END and UNWATCHED_CELL_WRITE: a cycle that is not watched, and a write of a part-owned cell, end with
no effect but that the arbiter is FREE and, for a read, that the word the memory returned goes to the computer unchanged
(R16, R29, R34). The end of a watched cycle on a side IN_RESET is such an end too (R31). -/
def Obligations.UnwatchedCyclesEnd : Prop :=
  (∀ (x : Side) (c : CompCycle) (d : Word) (wt : Nat) (s : State), (s.tap.get x).arb = .computer c →
    c.watch = .none ∨ s.live x = false →
    exec (.computerCycleEnd x d wt) s = .next (settle s
      (s.ended x wt (if c.dir = .read then [.readReturned x d] else [])))) ∧
  ∀ (x : Side) (v : Word) (wt : Nat) (s : State), watchedAs s x .partOwned v →
    exec (.unwatchedCellWrite x wt) s = .next (settle s (s.ended x wt []))

/-- SUBMISSION_CELL_WRITE: the four rows of R48 for the pending list and the overrun count, with the clearing write of a
take that is not yet granted withdrawn by a new submission in its cell, so that the record fetch starts (R51), or the slot
is unfetchable when its quad address is above 65532 (R52, R53). -/
def Obligations.SubmissionFollowsTheTable : Prop :=
  ∀ (x : Side) (i : Fin 8) (v : Word) (wt : Nat) (s : State), watchedAs s x (.submission i) v →
    ∃ u, exec (.submissionCellWrite x wt) s = .next (settle s u) ∧
      u.intake.get x.other = s.intake.get x.other ∧ u.pres = s.pres ∧ u.map = s.map ∧ u.locks = s.locks ∧
      u.counter = s.counter ∧ (u.intake.get x).cursor = (s.intake.get x).cursor ∧
      (u.intake.get x).claim = (s.intake.get x).claim ∧ (u.intake.get x).chains = (s.intake.get x).chains ∧
      (v = 0 → (u.intake.get x).list = (s.intake.get x).list.filter (fun e => e.1 != i) ∧
        (u.intake.get x).overrun = (s.intake.get x).overrun ∧ u.slots = s.slots ∧
        (u.intake.get x).fetch = (s.intake.get x).fetch) ∧
      (v ≠ 0 → (∃ w, (i, w) ∈ (s.intake.get x).list) →
        (u.intake.get x).list = (s.intake.get x).list.map (fun e => if e.1 = i then (i, v) else e) ∧
        (u.intake.get x).overrun = min 15 ((s.intake.get x).overrun + 1) ∧ u.slots = s.slots ∧
        (u.intake.get x).fetch = (s.intake.get x).fetch) ∧
      (v ≠ 0 → (∀ w, (i, w) ∉ (s.intake.get x).list) →
        (u.intake.get x).list = (s.intake.get x).list ++ [(i, v)] ∧
        (u.intake.get x).overrun = (s.intake.get x).overrun ∧
        ((∀ k, (s.intake.get x).fetch ≠ some ⟨k, some i⟩) →
          u.slots = s.slots ∧ (u.intake.get x).fetch = (s.intake.get x).fetch) ∧
        (∀ k, (s.intake.get x).fetch = some ⟨k, some i⟩ →
          ((s.slot k).q.toNat ≤ 65532 → u.slots = s.slots ∧ (u.intake.get x).fetch = some ⟨k, none⟩) ∧
          (65532 < (s.slot k).q.toNat → (u.intake.get x).fetch = none ∧ (u.slot k).state = .posting ∧
            (u.slot k).recordless = true ∧ (u.slot k).status = some .badAddress)))

/-! ### Notices -/

/-- LEVEL_CELL_WRITE: the value written, with values above 8 taken as 8, becomes L, and the presenter acts on it by
`LevelTaken` (R148, R151); the saved levels, the shown entry when nothing is presented, and the other side's presenter
stay; and whatever is presented afterwards is below L. A presented entry below L that the queue's head does not replace
leaves all else as it was. With nothing presented, a queue's head below L is presented and its word is owed. A presented
entry that is not below L is withdrawn with NONE owed, and where no queued entry is below L none is presented after it: it
returns to the queue, where it merges with an entry of its kind (R145), or stands as it was where there is room; where the
queue's head is below L, that head is presented. The place of a new notice-cell write and the shown entry at a return that
merges are the model's: log entry 16. -/
def Obligations.LevelWriteSetsLevel : Prop :=
  ∀ (x : Side) (v : Word) (wt : Nat) (s : State), watchedAs s x .level v →
    ∃ p : Presenter, exec (.levelCellWrite x wt) s = .next (settle s
        { s.ended x wt [] with pres := s.pres.set x p }) ∧
      LevelTaken { s.pres.get x with level := min 8 v.toNat } p ∧
      (∀ e, (s.pres.get x).presented = some e → e.prio < min 8 v.toNat →
        (∀ h ∈ (s.pres.get x).queue.head?, e.prio ≤ h.prio) → p = { s.pres.get x with level := min 8 v.toNat }) ∧
      (∀ h t, (s.pres.get x).presented = none → (s.pres.get x).queue = h :: t → h.prio < min 8 v.toNat →
        p = { s.pres.get x with
          level := min 8 v.toNat, presented := some h, queue := t, owed := owedWith (s.pres.get x).owed (some h) }) ∧
      (∀ e h t, (s.pres.get x).presented = some e → p.level ≤ e.prio → (s.pres.get x).queue = h :: t →
        h.prio < p.level → e.kind = .completion ∨ (∀ f ∈ (s.pres.get x).queue, f.kind ≠ e.kind) →
        (s.pres.get x).queue.length < 16 →
        p.presented = some h ∧ p.queue.Perm (e :: t) ∧ OwedWrite.notice (some h) false ∈ p.owed) ∧
      p.level = min 8 v.toNat ∧ p.stack = (s.pres.get x).stack ∧
      (∀ e, p.presented = some e → e.prio < p.level) ∧
      ((s.pres.get x).presented = none → p.shown = (s.pres.get x).shown) ∧
      (p.presented = none → ∀ e r, p.queue = e :: r → p.level ≤ e.prio) ∧
      (∀ e, (s.pres.get x).presented = some e → p.level ≤ e.prio → (∀ f ∈ (s.pres.get x).queue, p.level ≤ f.prio) →
        p.presented = none ∧ OwedWrite.notice none false ∈ p.owed ∧
        (e.kind = .completion ∨ (∀ f ∈ (s.pres.get x).queue, f.kind ≠ e.kind) → (s.pres.get x).queue.length < 16 →
          p.queue.Perm (e :: (s.pres.get x).queue) ∧ p.shown = (s.pres.get x).shown) ∧
        (∀ q, e.kind ≠ .completion → (s.pres.get x).queue.find? (fun f => f.kind == e.kind) = some q →
          p.queue.Perm ({ q with prio := min e.prio q.prio, no := if e.prio ≤ q.prio then e.no else q.no } ::
            (s.pres.get x).queue.erase q)))

/-- NOTICE_CELL_READ: a read that returned the shown entry's word accepts that notice: L goes on the stack, the oldest
of nine dropped, and becomes the notice's priority; the shown entry becomes none; the new L and then NONE are owed;
the entry is gone, from the presented slot (what the queue then presents is its head) or from the queue, to which another
presented entry returns; the queue is examined (R148); and whatever is presented is below the new L. Any other word has no
effect on the presenter (R149). That a shown entry which is neither presented nor queued any more is accepted in the same
way is read from R149: log entry 16. -/
def Obligations.NoticeReadAccepts : Prop :=
  ∀ (x : Side) (c : CompCycle) (d : Word) (wt : Nat) (s : State), s.live x = true →
    (s.tap.get x).arb = .computer c → c.watch = .noticeRead → c.dir = .read →
    ((∀ sh, (s.pres.get x).shown = some sh → d ≠ sh.word) →
      exec (.noticeCellRead x d wt) s = .next (settle s (s.ended x wt [.readReturned x d]))) ∧
    (∀ sh, (s.pres.get x).shown = some sh → d = sh.word →
      ∃ p : Presenter, exec (.noticeCellRead x d wt) s = .next (settle s
          { s.ended x wt [.readReturned x d] with pres := s.pres.set x p }) ∧
        (∃ g, NoticeExamined { g with
            level := sh.prio, stack := ((s.pres.get x).level :: (s.pres.get x).stack).take 8, shown := none
            owed := [.level sh.prio, .notice none true] } p ∧
          ((s.pres.get x).presented = none → g = { s.pres.get x with
            queue := (s.pres.get x).queue.filter (fun f => f.no != sh.no) }) ∧
          ∀ e, (s.pres.get x).presented = some e → if e.no = sh.no then g = { s.pres.get x with presented := none }
            else EntryReturned { s.pres.get x with
              presented := none, queue := (s.pres.get x).queue.filter (fun f => f.no != sh.no) } g e) ∧
        p.level = sh.prio ∧ p.stack = ((s.pres.get x).level :: (s.pres.get x).stack).take 8 ∧ p.shown = none ∧
        [OwedWrite.level sh.prio, .notice none true].Sublist p.owed ∧
        ((∃ f, (s.pres.get x).presented = some f ∧ f.no = sh.no) →
          p.presented.toList ++ p.queue = (s.pres.get x).queue) ∧
        ((∀ f, (s.pres.get x).presented = some f → f.no ≠ sh.no) →
          ∀ e ∈ p.presented.toList ++ p.queue, e.no ≠ sh.no) ∧
        ∀ e, p.presented = some e → e.prio < p.level)

/-- END_OF_NOTICE: the shown entry becomes none. With a level saved it is popped and becomes L, the new L is owed to the
level cell, and the presenter acts on it by `LevelTaken`, so that whatever is presented is below it; with none saved, L
stays. A presented entry's word is owed to the cell again (R150). The place of that write among those owed is the model's:
log entry 16. -/
def Obligations.EndOfNoticePops : Prop :=
  ∀ (x : Side) (v : Word) (wt : Nat) (s : State), watchedAs s x .noticeWrite v →
    ∃ p : Presenter, exec (.endOfNotice x wt) s = .next (settle s
        { s.ended x wt [] with pres := s.pres.set x p }) ∧
      p.shown = none ∧
      (∀ e, p.presented = some e → OwedWrite.notice (some e) false ∈ p.owed) ∧
      ((s.pres.get x).stack = [] → p.stack = [] ∧ p.level = (s.pres.get x).level ∧
        p.presented = (s.pres.get x).presented ∧ p.queue = (s.pres.get x).queue) ∧
      (∀ l st, (s.pres.get x).stack = l :: st →
        (∃ q, LevelTaken { s.pres.get x with
            shown := none, stack := st, level := l
            owed := (s.pres.get x).owed.filter (fun w => match w with
              | .level _ => false
              | .notice _ _ => true) ++ [.level l] } q ∧
          p = match q.presented with
            | none => q
            | some e => { q with owed := owedWith q.owed (some e) }) ∧
        p.stack = st ∧ p.level = l ∧ OwedWrite.level l ∈ p.owed ∧
        ∀ e, p.presented = some e → e.prio < l)

/-- CROSS_CELL_WRITE: a value of 0 to 7 joins the live other side's queue as a PEER notice with code 0 at that priority;
a larger one leaves that side no PEER entry with code 0 in the queue or presented, and every other entry where it
stood, a PEER with code 1 among them. Where the presented entry goes, NONE is owed and the line is low, unless a queued
entry is below L and is presented in its place (R148). Neither side's level or saved levels change, and nothing is done
while the other side is IN_RESET (R152). That the shown entry stays, also where it is a PEER entry removed from the queue,
of which R149 and R152 do not speak, is the model's reading: log entry 16. -/
def Obligations.CrossWriteRaisesOrWithdraws : Prop :=
  ∀ (x : Side) (v : Word) (wt : Nat) (s : State), watchedAs s x .cross v →
    (s.live x.other = false → exec (.crossCellWrite x wt) s = .next (settle s (s.ended x wt []))) ∧
    (s.live x.other = true → v.toNat ≤ 7 → exec (.crossCellWrite x wt) s = .next (settle s
      { s.ended x wt [] with
        pres := s.pres.set x.other ((s.pres.get x.other).join .peer v.toNat 0 0).examine })) ∧
    (s.live x.other = true → 7 < v.toNat → ∃ p : Presenter, exec (.crossCellWrite x wt) s = .next (settle s
        { s.ended x wt [] with pres := s.pres.set x.other p }) ∧
      p.level = (s.pres.get x.other).level ∧ p.stack = (s.pres.get x.other).stack ∧
      (∀ e ∈ p.queue, ¬ (e.kind = .peer ∧ e.code = 0)) ∧
      (∀ e, p.presented = some e → ¬ (e.kind = .peer ∧ e.code = 0)) ∧
      (∀ o rest, o = s.pres.get x.other → rest = o.queue.filter (fun e => !(e.kind == .peer && e.code == 0)) →
        (∀ e, o.presented = some e → ¬ (e.kind = .peer ∧ e.code = 0) → (∀ f ∈ rest, e.prio ≤ f.prio) →
          p = { o with queue := rest }) ∧
        (o.presented = none → p.presented.toList ++ p.queue = rest ∧ p.shown = o.shown) ∧
        (∀ e, o.presented = some e → e.kind = .peer → e.code = 0 →
          p.presented.toList ++ p.queue = rest ∧ p.shown = o.shown ∧
          ((∀ f ∈ rest, o.level ≤ f.prio) →
            p.presented = none ∧ OwedWrite.notice none false ∈ p.owed ∧ p.line = false) ∧
          (∀ h t, rest = h :: t → h.prio < o.level →
            p.presented = some h ∧ OwedWrite.notice (some h) false ∈ p.owed))))

/-- IDLE_CELL_WRITE: the value written, with values above 2 taken as 2, becomes the side's idle level; while an OPEN entry
sequence is under way the change is held back behind it (R159, R163). -/
def Obligations.IdleWriteSetsLevel : Prop :=
  ∀ (x : Side) (v : Word) (wt : Nat) (s : State), watchedAs s x .idle v →
    ∃ u, exec (.idleCellWrite x wt) s = .next (settle s u) ∧
      (s.drv.openPending = false → u.drv.idle = s.drv.idle.set x (min 2 v.toNat) ∧ u.drv.deferred = s.drv.deferred) ∧
      (s.drv.openPending = true → u.drv.idle = s.drv.idle ∧
        u.drv.deferred = s.drv.deferred ++ [.idleWrite x (min 2 v.toNat)]) ∧
      u.drv.cyl = s.drv.cyl ∧ u.drv.generation = s.drv.generation ∧ u.drv.mounted = s.drv.mounted ∧
      u.map = s.map ∧ u.counter = s.counter


/-! ### The region map -/

/-- PROPOSAL_CELL_WRITE: the whole value is captured and the cell marked, in every protocol state; a sealed proposal is
unsealed, which makes PROPOSED_X IDLE and cancels the span; no notice is given (R96). -/
def Obligations.ProposalWriteCaptures : Prop :=
  ∀ (x : Side) (second : Bool) (v : Word) (wt : Nat) (s : State), watchedAs s x (.proposal second) v →
    ∃ m : RegionMap, exec (.proposalCellWrite x wt) s = .next (settle s { s.ended x wt [] with map := m }) ∧
      (m.proposal.get x).p1 = (if second then (s.map.proposal.get x).p1 else some v) ∧
      (m.proposal.get x).p2 = (if second then some v else (s.map.proposal.get x).p2) ∧
      (m.proposal.get x).mark1 = (!second || (s.map.proposal.get x).mark1) ∧
      (m.proposal.get x).mark2 = (second || (s.map.proposal.get x).mark2) ∧
      (m.proposal.get x).isSealed = false ∧ m.proposal.get x.other = s.map.proposal.get x.other ∧
      m.p1 = s.map.p1 ∧ m.p2 = s.map.p2 ∧ m.pendingMap = s.map.pendingMap ∧ m.last = s.map.last ∧
      ((s.map.proposal.get x).isSealed = true → s.map.protocol = .proposed x → m.protocol = .idle ∧ m.span = none) ∧
      ((s.map.proposal.get x).isSealed = false → m.protocol = s.map.protocol ∧ m.span = s.map.span)

/-- SEAL_CELL_WRITE, cases 1 to 4 of R97: a seal with a mark clear, with values that break 0 ≤ p1 ≤ p2 ≤ 400, or during
COMMIT_PENDING discards the proposal and gives INCOMPLETE to the sealing side alone, the protocol state becoming IDLE only
where the side was itself the sealed proposer; the first sound seal in IDLE seals the proposal, clears both marks and
starts the span of 3840 slots. -/
def Obligations.SealRefusedOrFirst : Prop :=
  ∀ (x : Side) (v : Word) (wt : Nat) (s : State), watchedAs s x .seal v →
    ((s.map.proposal.get x).mark1 = false ∨ (s.map.proposal.get x).mark2 = false ∨
        (∀ a b, (s.map.proposal.get x).p1 = some a → (s.map.proposal.get x).p2 = some b →
          ¬ (a.toNat ≤ b.toNat ∧ b.toNat ≤ 400)) ∨ s.map.protocol = .commitPending →
      ∃ u, exec (.sealCellWrite x wt) s = .next (settle s u) ∧
        u.map.proposal = s.map.proposal.set x ⟨none, none, false, false, false⟩ ∧
        u.map.protocol = (if s.map.protocol = .proposed x then .idle else s.map.protocol) ∧
        u.map.span = (if s.map.protocol = .proposed x then none else s.map.span) ∧
        u.map.last = s.map.last.set x 5 ∧ u.map.pendingMap = s.map.pendingMap ∧ u.map.p1 = s.map.p1 ∧
        u.map.p2 = s.map.p2 ∧
        u.pres = s.pres.set x ((s.pres.get x).join .partition 2 0 5).examine ∧
        u.intake = s.intake ∧ u.slots = s.slots ∧ u.locks = s.locks) ∧
    (∀ a b : Word, (s.map.proposal.get x).mark1 = true → (s.map.proposal.get x).mark2 = true →
      (s.map.proposal.get x).p1 = some a → (s.map.proposal.get x).p2 = some b → a.toNat ≤ b.toNat → b.toNat ≤ 400 →
      s.map.protocol = .idle →
      exec (.sealCellWrite x wt) s = .next (settle s
        { s.ended x wt [] with
          map := { s.map with
            proposal := s.map.proposal.set x ⟨some a, some b, false, false, true⟩
            protocol := .proposed x
            span := some ⟨s.clk.count + 3840, false⟩ } }))

/-- SEAL_CELL_WRITE, the second seal (R97 case 5, R98): unequal values give MISMATCH to both sides; equal ones with a
lock on a cylinder that would change give LOCKED to both; and equal ones without become the pending map in
COMMIT_PENDING, with no outcome given. In each case both proposals are discarded and the span is cancelled. A cylinder
would change when it lies between the committed and the proposed place of a boundary (R94). -/
def Obligations.SecondSealSettles : Prop :=
  ∀ (x : Side) (v a b : Word) (wt : Nat) (s : State), watchedAs s x .seal v →
    s.map.protocol = .proposed x.other → (s.map.proposal.get x).mark1 = true → (s.map.proposal.get x).mark2 = true →
    (s.map.proposal.get x).p1 = some a → (s.map.proposal.get x).p2 = some b → a.toNat ≤ b.toNat → b.toNat ≤ 400 →
    ∃ u, exec (.sealCellWrite x wt) s = .next (settle s u) ∧
      (∀ y, u.map.proposal.get y = ⟨none, none, false, false, false⟩) ∧ u.map.span = none ∧
      u.map.p1 = s.map.p1 ∧ u.map.p2 = s.map.p2 ∧ u.locks = s.locks ∧ u.slots = s.slots ∧ u.intake = s.intake ∧
      ((s.map.proposal.get x.other).p1 ≠ some a ∨ (s.map.proposal.get x.other).p2 ≠ some b →
        u.map.protocol = .idle ∧ u.map.pendingMap = s.map.pendingMap ∧ (∀ y, u.map.last.get y = 2) ∧
        (∀ y, s.live y = true → u.pres.get y = ((s.pres.get y).join .partition 2 0 2).examine)) ∧
      ((s.map.proposal.get x.other).p1 = some a → (s.map.proposal.get x.other).p2 = some b →
        (∃ (k : Fin 8) (l : Lock) (c : Nat), s.locks[k] = some l ∧ l.first ≤ c ∧ c ≤ l.last ∧
          ((min s.map.p1 a.toNat ≤ c ∧ c < max s.map.p1 a.toNat) ∨
            (min s.map.p2 b.toNat ≤ c ∧ c < max s.map.p2 b.toNat))) →
        u.map.protocol = .idle ∧ u.map.pendingMap = s.map.pendingMap ∧ (∀ y, u.map.last.get y = 4) ∧
        (∀ y, s.live y = true → u.pres.get y = ((s.pres.get y).join .partition 2 0 4).examine)) ∧
      ((s.map.proposal.get x.other).p1 = some a → (s.map.proposal.get x.other).p2 = some b →
        (∀ (k : Fin 8) (l : Lock) (c : Nat), s.locks[k] = some l → l.first ≤ c → c ≤ l.last →
          ¬ ((min s.map.p1 a.toNat ≤ c ∧ c < max s.map.p1 a.toNat) ∨
            (min s.map.p2 b.toNat ≤ c ∧ c < max s.map.p2 b.toNat))) →
        (∀ (k : Fin 8) (l : Lock), s.locks[k] = some l → l.first ≤ l.last) →
        u.map.protocol = .commitPending ∧ u.map.pendingMap = some (a.toNat, b.toNat) ∧ u.map.last = s.map.last ∧
        u.pres = s.pres)

/-- PROPOSAL_EXPIRY and the commit. When the expiry span of a sealed proposal has been reached, the proposer's proposal is
discarded, the protocol state becomes IDLE, and EXPIRED is given to the proposer alone (R99, R102). While COMMIT_PENDING,
with no slot in LOCKWAIT, WAITING, ACTIVE or POSTING that touches a cylinder the pending map would change, the drain test
makes the pending map the committed one, both cursors absent, the protocol state IDLE, and gives COMMITTED to both sides;
with such a slot, and in every other protocol state, it does nothing (R100). -/
def Obligations.ProposalsExpireOrCommit : Prop :=
  (∀ (x : Side) (e : Word) (s : State), s.map.protocol = .proposed x → s.map.span = some ⟨e, true⟩ →
      ∃ u, exec .proposalExpiry s = .next (settle s u) ∧
        u.map = { s.map with
          proposal := s.map.proposal.set x ⟨none, none, false, false, false⟩
          protocol := .idle
          span := none
          last := s.map.last.set x 3 } ∧
        u.pres = (if s.live x then s.pres.set x ((s.pres.get x).join .partition 2 0 3).examine else s.pres) ∧
        u.slots = s.slots ∧ u.locks = s.locks ∧ u.intake = s.intake ∧ u.drv = s.drv) ∧
  ∀ (new : Nat × Nat) (s : State), s.map.pendingMap = some new →
    (s.map.protocol = .commitPending →
      (∀ i r, (s.slot i).touched = some r → (s.slot i).state = .lockwait ∨ (s.slot i).state = .waiting ∨
          (s.slot i).state = .active ∨ (s.slot i).state = .posting →
        r.1 ≤ r.2 ∧ ∀ c, r.1 ≤ c → c ≤ r.2 → ¬ Changing s.map new c) →
      (drainTest s).map.p1 = new.1 ∧ (drainTest s).map.p2 = new.2 ∧ (drainTest s).map.pendingMap = none ∧
        (drainTest s).map.protocol = .idle ∧ (∀ x, (drainTest s).map.last.get x = 1) ∧
        (drainTest s).map.proposal = s.map.proposal ∧
        (∀ x, ((drainTest s).intake.get x).cursor = none ∧
          ((drainTest s).intake.get x).list = (s.intake.get x).list) ∧
        (∀ x, s.live x = true → (drainTest s).pres.get x = ((s.pres.get x).join .partition 2 0 1).examine) ∧
        (∀ x, s.live x = true → ((drainTest s).tap.get x).owed.map1 = true ∧
          ((drainTest s).tap.get x).owed.map2 = true ∧ ((drainTest s).tap.get x).owed.partition = true)) ∧
    ((s.map.protocol ≠ .commitPending ∨ ∃ i r c, (s.slot i).touched = some r ∧ (s.slot i).state ≠ .free ∧
        (s.slot i).state ≠ .intake ∧ r.1 ≤ c ∧ c ≤ r.2 ∧ Changing s.map new c) →
      drainTest s = s)

/-! ### Intake -/

/-- TAKE: under R49's conditions the lowest-numbered FREE slot is claimed for the side with an emptied context and a
new tenure (R50, R65). While a claim is granted it returns: the head leaves the pending list, its clearing write is owed,
and the fetch is from the quad address captured last (R50, R51); where the head has been withdrawn meanwhile, the slot is
FREE again and no fetch begins. The other slots, the other side's intake unit and the acceptance counter stay. That the
table's one row is each of the two moments, and that the record address is 0 between them, is the model's choice: log
entry 12. -/
def Obligations.TakeClaimsLowestFreeSlot : Prop :=
  (∀ (x : Side) (k : Fin 12) (i : Fin 8) (q : Word) (rest : List (Fin 8 × Word)) (s : State), s.live x = true →
    (s.intake.get x).list = (i, q) :: rest → (s.intake.get x).claim = none → (s.intake.get x).fetch = none →
    (s.intake.get x).chains = [] → s.occupied x < 8 → (s.slot k).state = .free → (∀ j, j < k → (s.slot j).state ≠ .free) →
    exec (.take x) s = .next (settle s
      { s with
        slots := s.slots.set k { Slot.empty ((s.slot k).tenure + 1) with state := .intake, side := x }
        intake := s.intake.set x { s.intake.get x with claim := some (k, i) }
        out := [] })) ∧
  ∀ (x : Side) (k : Fin 12) (i : Fin 8) (s : State), (s.intake.get x).claim = some (k, i) →
    (∀ q rest, (s.intake.get x).list = (i, q) :: rest → exec (.take x) s = .next (settle s
      { s with
        slots := s.slots.set k { s.slot k with q := q }
        intake := s.intake.set x { s.intake.get x with list := rest, claim := none, fetch := some ⟨k, some i⟩ }
        out := [] })) ∧
    ((∀ q rest, (s.intake.get x).list ≠ (i, q) :: rest) → exec (.take x) s = .next (settle s
      { s with
        slots := s.slots.set k (Slot.empty (s.slot k).tenure)
        intake := s.intake.set x { s.intake.get x with claim := none }
        out := [] }))

/-- CHAIN_FETCH_START and CLEARING_WRITE_END: with no fetch and no take under way the waiting chain fetch at the head
starts (R49), and a take goes on to its reads when its clearing write has ended, answered or not (R51). In both the
twelve reads begin, with no clearing write to come, unless the quad address is above 65532: then the slot is
unfetchable with a record-less BAD_ADDRESS (R52, R53), whose residual, stop position and instant are the model's
choice: log entry 38. The intake unit asks for the write of 0 to cell i of the page while the clearing write is to come
(R51), for the read of word n at 4 × q + n after n words (R52), and for nothing with no fetch under way. That the
clearing write's timeout has two names, this command's and MEMORY_TIMEOUT, is the model's reading of the table: log
entry 34. -/
def Obligations.FetchesBegin : Prop :=
  ∀ (x : Side) (k : Fin 12) (s : State),
    (∀ r, (s.intake.get x).chains = k :: r → (s.intake.get x).fetch = none → (s.intake.get x).claim = none →
      ∃ u, exec (.chainFetchStart x) s = .next (settle s u) ∧ (u.intake.get x).chains = r ∧
        (u.intake.get x).list = (s.intake.get x).list ∧
        ((s.slot k).q.toNat ≤ 65532 → (u.intake.get x).fetch = some ⟨k, none⟩ ∧ u.slots = s.slots) ∧
        (65532 < (s.slot k).q.toNat → (u.intake.get x).fetch = none ∧
          u.slots = s.slots.set k { s.slot k with
            recordless := true, words := [], state := .posting, status := some .badAddress, residual := 0, stop := 0
            instant := s.clk.count, span := none } ∧
          u.post.queue = s.post.queue ++ [(k, (s.slot k).tenure)])) ∧
    (∀ (i c : Fin 8) (answered : Bool) (wt : Nat), cycleFor s x (.clearing i) →
      (s.intake.get x).fetch = some ⟨k, some c⟩ →
      ∃ u, exec (.clearingWriteEnd x answered wt) s = .next (settle s u) ∧ (u.tap.get x).arb = .free ∧
        (u.intake.get x).list = (s.intake.get x).list ∧
        ((s.slot k).q.toNat ≤ 65532 → (u.intake.get x).fetch = some ⟨k, none⟩ ∧ u.slots = s.slots) ∧
        (65532 < (s.slot k).q.toNat → (u.intake.get x).fetch = none ∧
          u.slots = s.slots.set k { s.slot k with
            recordless := true, words := [], state := .posting, status := some .badAddress, residual := 0, stop := 0
            instant := s.clk.count, span := none } ∧
          u.post.queue = s.post.queue ++ [(k, (s.slot k).tenure)])) ∧
    ((s.intake.get x).fetch = none → intakeAsks s x = none) ∧
    (∀ i, (s.intake.get x).fetch = some ⟨k, some i⟩ → intakeAsks s x =
      some ⟨.clearing i, .write, BitVec.ofNat 18 ((s.tap.get x).base + i.val), 0, false⟩) ∧
    (∀ n, (s.intake.get x).fetch = some ⟨k, none⟩ → n = (s.slot k).words.length → intakeAsks s x =
      some ⟨.fetch n, .read, BitVec.ofNat 18 (4 * (s.slot k).q.toNat + n), 0, false⟩)

/-- RECORD_FETCH_READ_END: each of the first eleven reads adds its word to the slot's record. The twelfth has the record
validated, and a refused one goes to POSTING with the refusal's code, the residual and stop position R26 gives, and the
count of the moment; at chain depth 64 it is not validated and goes with CHAIN_LIMIT. A refused record takes no sequence
number and moves no cursor (R52, R54, R66, R142). R26's table has no column for the kinds 10 to 15: the residual and the
stop position of such a record, refused with BAD_KIND or CHAIN_LIMIT, are free values, the model's choice: log entry 9. -/
def Obligations.RecordReadsRefuseAtTheEnd : Prop :=
  ∀ (x : Side) (k : Fin 12) (n : Nat) (c : Option (Fin 8)) (d : Word) (wt : Nat) (s : State),
    cycleFor s x (.fetch n) → (s.intake.get x).fetch = some ⟨k, c⟩ →
    ((s.slot k).words.length < 11 →
      exec (.recordFetchReadEnd x d wt) s = .next (settle s
        { s.ended x wt [] with slots := s.slots.set k { s.slot k with words := (s.slot k).words ++ [d] } })) ∧
    (∀ st : Status, (s.slot k).words.length = 11 →
      ((s.slot k).depth ≠ 64 ∧ validate s x ((s.slot k).words ++ [d]) = some st) ∨
        ((s.slot k).depth = 64 ∧ st = .chainLimit) →
      exec (.recordFetchReadEnd x d wt) s = .next (settle s
        { s.ended x wt [] with
          slots := s.slots.set k { s.slot k with
            words := (s.slot k).words ++ [d], state := .posting, status := some st
            residual := neverActiveResidual { s.slot k with words := (s.slot k).words ++ [d] }
            stop := neverActiveStop (s.intake.get (s.slot k).side).cursor
              { s.slot k with words := (s.slot k).words ++ [d] }
            instant := s.clk.count, span := none }
          intake := s.intake.set x { s.intake.get x with fetch := none }
          post := { s.post with queue := s.post.queue ++ [(k, (s.slot k).tenure)] } }))

/-- RECORD_FETCH_READ_END with a twelfth word that completes a record which passes R25: it is accepted. The counter
goes up by one and is the slot's sequence number; D and its span are set where the kind uses a deadline that is not 0;
the cursor moves past a READ, WRITE, CONT_READ or CONT_WRITE, or becomes absent at the end of the platter, and stays
for the other kinds; platter, start, sector count and touched cylinders are recorded; and the slot is dispatched by
its kind (R54, R55, R58, R65, R67, R69). -/
def Obligations.SoundRecordIsAccepted : Prop :=
  ∀ (x : Side) (i : Fin 12) (n : Nat) (c : Option (Fin 8)) (d : Word) (wt : Nat) (k : Kind) (r : List Word) (s : State),
    cycleFor s x (.fetch n) → (s.intake.get x).fetch = some ⟨i, c⟩ → (s.slot i).words.length = 11 →
    r = (s.slot i).words ++ [d] → (s.slot i).depth ≠ 64 → validate s x r = none → recKind r = some k →
    ∃ a, exec (.recordFetchReadEnd x d wt) s = .next (settle s (dispatch i k a)) ∧
      a.counter = s.counter + 1 ∧ (a.slot i).seq = some (s.counter + 1) ∧ (a.slot i).words = r ∧
      (a.slot i).state = (s.slot i).state ∧ (a.slot i).passCount = 0 ∧ (a.slot i).depth = (s.slot i).depth ∧
      (k.usesDeadline = true → 0 < recDeadline r →
        (a.slot i).deadline = some (s.clk.count + BitVec.ofNat 16 (recDeadline r)) ∧
        (a.slot i).span = some ⟨s.clk.count + BitVec.ofNat 16 (recDeadline r), false⟩) ∧
      (k.usesDeadline = false ∨ recDeadline r = 0 → (a.slot i).deadline = none ∧ (a.slot i).span = none) ∧
      (∀ p i0, extentStart k r (s.intake.get x).cursor = some (p, i0) → k.transfers = true →
        (a.slot i).platter = some p ∧ (a.slot i).start = some i0 ∧ (a.slot i).n = some ((recCount r + 255) / 256) ∧
        (a.slot i).touched = some (i0 / 32, (i0 + (recCount r + 255) / 256 - 1) / 32) ∧
        (k ≠ .check → (a.intake.get x).cursor =
          if i0 + (recCount r + 255) / 256 < 12800 then some (p, i0 + (recCount r + 255) / 256) else none)) ∧
      (k = .lock ∨ k = .unlock → (a.slot i).platter = some (recLockPlatter r) ∧
        (a.slot i).touched = some (recCylinder r, recLastCylinder r)) ∧
      (k = .seek → (a.slot i).touched = some (recCylinder r, recCylinder r) ∧ (a.slot i).n = some 0) ∧
      (k.setsCursor = false → (a.intake.get x).cursor = (s.intake.get x).cursor) ∧
      (a.intake.get x).fetch = none ∧ (a.intake.get x).list = (s.intake.get x).list ∧
      a.intake.get x.other = s.intake.get x.other ∧ (∀ j, j ≠ i → a.slot j = s.slot j) ∧
      a.map = s.map ∧ a.locks = s.locks ∧ a.pres = s.pres ∧ a.post = s.post ∧ a.eng = s.eng ∧ a.clk = s.clk ∧
      a.sel = s.sel ∧ a.drv = { s.drv with wordTime := wt } ∧ a.tap = (s.ended x wt []).tap ∧ a.out = []

/-- The nine steps for the transfer kinds (R25), with the start named by the record or, for a continue kind, by the
present cursor: the first step that fails gives the code, in the order count, disk address, memory extent, mount,
region, changing cylinders, and a record that fails none of them is refused only by a write's missing lock. The last
spiral index, the last memory word and the touched cylinders are R4's and R22's, the other side's region and the
changing cylinders R94's. -/
def Obligations.ValidationTakesStepsInOrder : Prop :=
  ∀ (x : Side) (r : List Word) (s : State) (k : Kind) (p : Platter) (w i0 n lo hi : Nat), recKind r = some k →
    ((k = .read ∨ k = .write ∨ k = .check) ∧ p = platterOf (recHead r) ∧
        i0 = recCylinder r * 32 + recHead r % 2 * 16 + recSector r) ∨
      ((k = .contRead ∨ k = .contWrite) ∧ (s.intake.get x).cursor = some (p, i0)) →
    w = recCount r → n = (w + 255) / 256 → lo = i0 / 32 → hi = (i0 + n - 1) / 32 →
    (w = 0 ∨ 16384 < w → validate s x r = some .badCount) ∧
    (0 < w → w ≤ 16384 →
      (((k = .read ∨ k = .write ∨ k = .check) ∧ 399 < recCylinder r) ∨ 12799 < i0 + n - 1 →
        validate s x r = some .badAddress) ∧
      ((k = .contRead ∨ k = .contWrite) ∨ recCylinder r ≤ 399 → i0 + n - 1 ≤ 12799 →
        (262143 < recBuffer r + (w - 1) + recStride r * (n - 1) → validate s x r = some .badAddress) ∧
        (recBuffer r + (w - 1) + recStride r * (n - 1) ≤ 262143 →
          (p = .C → s.drv.mounted.get x = false → validate s x r = some .notMounted) ∧
          (p = .F ∨ s.drv.mounted.get x = true →
            (TouchesOther s.map x (lo, hi) → validate s x r = some .regionDenied) ∧
            (¬ TouchesOther s.map x (lo, hi) →
              (TouchesChanging s.map (lo, hi) → validate s x r = some .regionChanging) ∧
              (¬ TouchesChanging s.map (lo, hi) →
                (k ≠ .write → k ≠ .contWrite → validate s x r = none) ∧
                (k = .write ∨ k = .contWrite → (validate s x r = none ↔
                    ∀ c, lo ≤ c → c ≤ hi → s.map.p1 ≤ c → c < s.map.p2 →
                      ∃ l ∈ s.held, l.side = x ∧ l.exclusive = true ∧ l.platter = p ∧ l.first ≤ c ∧ c ≤ l.last) ∧
                  (validate s x r = none ∨ validate s x r = some .noLock))))))))

/-- The nine steps for the other records (R25): kinds 10 to 15, MOUNT_ACK, RESTORE, SEEK, LOCK and UNLOCK, and a continue
kind without a cursor, whose count and memory extent come first. For LOCK the region step asks for a range within Shared;
for UNLOCK neither that step nor the next is made. -/
def Obligations.ValidationOfTheOtherKinds : Prop :=
  ∀ (x : Side) (r : List Word) (s : State) (c l : Nat), c = recCylinder r → l = recLastCylinder r →
    (recKind r = none ↔ 10 ≤ (recWord r 0).toNat / 4096) ∧
    (recKind r = none → validate s x r = some .badKind) ∧
    (recKind r = some .mountAck ∨ recKind r = some .restore → validate s x r = none) ∧
    (recKind r = some .seek →
      (399 < c → validate s x r = some .badAddress) ∧
      (c ≤ 399 → TouchesOther s.map x (c, c) → validate s x r = some .regionDenied) ∧
      (c ≤ 399 → ¬ TouchesOther s.map x (c, c) → TouchesChanging s.map (c, c) →
        validate s x r = some .regionChanging) ∧
      (c ≤ 399 → ¬ TouchesOther s.map x (c, c) → ¬ TouchesChanging s.map (c, c) → validate s x r = none)) ∧
    (recKind r = some .lock ∨ recKind r = some .unlock →
      (l < c → validate s x r = some .badCount) ∧
      (c ≤ l → 399 < l → validate s x r = some .badAddress) ∧
      (c ≤ l → l ≤ 399 → recLockPlatter r = .C → s.drv.mounted.get x = false → validate s x r = some .notMounted) ∧
      (c ≤ l → l ≤ 399 → recLockPlatter r = .F ∨ s.drv.mounted.get x = true →
        (recKind r = some .unlock → validate s x r = none) ∧
        (recKind r = some .lock →
          (c < s.map.p1 ∨ s.map.p2 ≤ l → validate s x r = some .regionDenied) ∧
          (s.map.p1 ≤ c → l < s.map.p2 → TouchesChanging s.map (c, l) → validate s x r = some .regionChanging) ∧
          (s.map.p1 ≤ c → l < s.map.p2 → ¬ TouchesChanging s.map (c, l) → validate s x r = none)))) ∧
    (recKind r = some .contRead ∨ recKind r = some .contWrite → (s.intake.get x).cursor = none →
      (recCount r = 0 ∨ 16384 < recCount r → validate s x r = some .badCount) ∧
      (0 < recCount r → recCount r ≤ 16384 →
        (262143 < recBuffer r + (recCount r - 1) + recStride r * ((recCount r + 255) / 256 - 1) →
          validate s x r = some .badAddress) ∧
        (recBuffer r + (recCount r - 1) + recStride r * ((recCount r + 255) / 256 - 1) ≤ 262143 →
          validate s x r = some .noCursor)))

/-! ### Locks -/

/-- The decision on an accepted LOCK: the six steps of R104 in order, with the deadlock test of R105 at the fifth; the
lock granted is placed in the lowest-numbered free entry (R103). -/
def Obligations.LockIsDecidedInSixSteps : Prop :=
  ∀ (i : Fin 12) (l : Lock) (s : State), l = lockOf (s.slot i) →
    ((∃ h ∈ s.held, h.side = l.side ∧ h.overlaps l) → dispatch i .lock s = postNeverActive i .overlap s) ∧
    ((∀ h ∈ s.held, h.side = l.side → ¬ h.overlaps l) →
      (¬ InConflict s l →
        (∀ k : Fin 8, s.locks[k] = none → (∀ j : Fin 8, j < k → s.locks[j] ≠ none) →
          dispatch i .lock s = { postNeverActive i .ok s with locks := s.locks.set k (some l) }) ∧
        ((∀ k : Fin 8, s.locks[k] ≠ none) → dispatch i .lock s = postNeverActive i .lockTableFull s)) ∧
      (InConflict s l →
        (recNoWait (s.slot i).words = true → dispatch i .lock s = postNeverActive i .locked s) ∧
        (recNoWait (s.slot i).words = false →
          ((∃ j, WaitsOn s l.side j) → dispatch i .lock s = postNeverActive i .deadlock s) ∧
          ((∀ j, ¬ WaitsOn s l.side j) →
            dispatch i .lock s = { s with slots := s.slots.set i { s.slot i with state := .lockwait } }))))

/-- The decision on an accepted UNLOCK (R107): NOT_HELD, LOCK_IN_USE while a write of the side in WAITING or ACTIVE
touches the lock, or OK with the entry free and a re-examination after it. The mode is not compared. That the UNLOCK's
own slot joins the posting queue before the LOCKs which that re-examination decides is the model's choice: log entry
52. -/
def Obligations.UnlockIsDecided : Prop :=
  ∀ (i : Fin 12) (l : Lock) (s : State), l = lockOf (s.slot i) →
    ((∀ e, ({ l with exclusive := e } : Lock) ∉ s.held) → dispatch i .unlock s = postNeverActive i .notHeld s) ∧
    (∀ e, ({ l with exclusive := e } : Lock) ∈ s.held →
      ((∃ j r, ((s.slot j).state = .waiting ∨ (s.slot j).state = .active) ∧ (s.slot j).side = l.side ∧
          (s.slot j).isKind Kind.diskWrite = true ∧ (s.slot j).platter = some l.platter ∧ (s.slot j).touched = some r ∧
          r.1 ≤ l.last ∧ l.first ≤ r.2) →
        dispatch i .unlock s = postNeverActive i .lockInUse s) ∧
      ((∀ j r, (s.slot j).state = .waiting ∨ (s.slot j).state = .active → (s.slot j).side = l.side →
          (s.slot j).isKind Kind.diskWrite = true → (s.slot j).platter = some l.platter → (s.slot j).touched = some r →
          ¬ (r.1 ≤ l.last ∧ l.first ≤ r.2)) →
        ∃ L : Vector (Option Lock) 8, dispatch i .unlock s = reexamine { postNeverActive i .ok s with locks := L } ∧
          ∀ k : Fin 8, L[k] = if ∃ m, s.locks[k] = some { l with exclusive := m } then none else s.locks[k]))

/-- The dispatch of the other kinds (R55): a blocked read waits in LOCKWAIT or is refused with DEADLOCK (R56, R106); a
read that is not blocked, a write, a SEEK and a RESTORE go to WAITING; MOUNT_ACK sets the side's mounted flag, or is
NOT_READY in OPEN and OFFLINE (R165). That it is decided at once also while an OPEN entry sequence waits is the model's
choice: log entry 18. -/
def Obligations.OtherKindsAreDispatched : Prop :=
  ∀ (i : Fin 12) (k : Kind) (s : State),
    (k = .read ∨ k = .check ∨ k = .contRead →
      (ReadBlocked s i →
        ((∃ j, WaitsOn s (s.slot i).side j) → dispatch i k s = postNeverActive i .deadlock s) ∧
        ((∀ j, ¬ WaitsOn s (s.slot i).side j) →
          dispatch i k s = { s with slots := s.slots.set i { s.slot i with state := .lockwait } })) ∧
      (¬ ReadBlocked s i →
        dispatch i k s = { s with slots := s.slots.set i { s.slot i with state := .waiting } })) ∧
    (k = .write ∨ k = .contWrite ∨ k = .seek ∨ k = .restore →
      dispatch i k s = { s with slots := s.slots.set i { s.slot i with state := .waiting } }) ∧
    (k = .mountAck → s.drv.state = .opened ∨ s.drv.state = .offline →
      dispatch i k s = postNeverActive i .notReady s) ∧
    (k = .mountAck → s.drv.state ≠ .opened → s.drv.state ≠ .offline →
      dispatch i k s = { postNeverActive i .ok s with
        drv := { s.drv with mounted := s.drv.mounted.set (s.slot i).side true } })

/-- A slot's turn in a re-examination (R109): the cases of a LOCK in their order, a read that no lock keeps waiting
any more goes to WAITING and is examined there (R79), and a slot that is not in LOCKWAIT, or whose wait goes on, is
passed over. A pass gives each slot in LOCKWAIT its turn, oldest first (R108). That each slot which leaves LOCKWAIT in
it otherwise than by a grant calls for one pass more, after the pass under way, is the model's reading of R108: log
entry 25. That the LOCKs a pass decides join the posting queue in the order of the pass, oldest first, is the model's
choice: log entry 51. -/
def Obligations.ReexaminationTurn : Prop :=
  (∀ (i : Fin 12) (l : Lock) (s : State), l = lockOf (s.slot i) →
    ((s.slot i).state ≠ .lockwait → reexamineOne s i = s) ∧
    ((s.slot i).state = .lockwait → (s.slot i).kind = some .lock →
      ((∃ h ∈ s.held, h.side = l.side ∧ h.overlaps l) → reexamineOne s i = postNeverActive i .overlap s) ∧
      ((∀ h ∈ s.held, h.side = l.side → ¬ h.overlaps l) →
        (TouchesChanging s.map (l.first, l.last) → reexamineOne s i = postNeverActive i .regionChanging s) ∧
        (l.first ≤ l.last → ¬ TouchesChanging s.map (l.first, l.last) →
          (InConflict s l → reexamineOne s i = s) ∧
          (¬ InConflict s l →
            (∀ k : Fin 8, s.locks[k] = none → (∀ j : Fin 8, j < k → s.locks[j] ≠ none) →
              reexamineOne s i = { postNeverActive i .ok s with locks := s.locks.set k (some l) }) ∧
            ((∀ k : Fin 8, s.locks[k] ≠ none) → reexamineOne s i = postNeverActive i .lockTableFull s))))) ∧
    ((s.slot i).state = .lockwait → (s.slot i).kind ≠ some .lock →
      (ReadBlocked s i → reexamineOne s i = s) ∧
      (¬ ReadBlocked s i →
        reexamineOne s i = examine { s with slots := s.slots.set i { s.slot i with state := .waiting } }))) ∧
  (∀ (n : Nat) (s t : State) (d : List (Fin 12)), t = reexaminePass s → d.Nodup →
    (∀ i, i ∈ d ↔ (s.slot i).state = .lockwait ∧
      ((t.slot i).state = .waiting ∨ (t.slot i).state = .posting ∧ (t.slot i).status ≠ some .ok)) →
    reexamine s = reexamineFor 1 s ∧ reexamineFor 0 s = s ∧ reexamineFor (n + 1) s = reexamineFor (n + d.length) t) ∧
  ∀ (s : State), reexaminePass s = (lockWaitOrder s).foldl reexamineOne s ∧
    (∀ i, i ∈ lockWaitOrder s ↔ (s.slot i).state = .lockwait ∧ (s.slot i).seq ≠ none) ∧
    (lockWaitOrder s).Pairwise (fun i j => s.older j i = false)

/-! ### Selection and deadlines -/

/-- The seek estimate σ over a cylinder distance d, and from it the earliest start sector E, the rotational wait w and the
access cost A of a slot, with their ranges (R82, R83). The first cylinder is that of the start, or of a SEEK's word 1. -/
def Obligations.AccessCostIsEstimated : Prop :=
  seekEstimate 0 = 0 ∧
  (∀ d, 1 ≤ d → d ≤ 399 → seekEstimate d = 3 + (d + 24) / 25 ∧ 4 ≤ seekEstimate d ∧ seekEstimate d ≤ 19) ∧
  ∀ (sl : Slot) (cyl mark c σ : Nat), c = (if sl.kind = some .seek then recCylinder sl.words else sl.start.getD 0 / 32) →
    c ≤ 399 → cyl ≤ 399 → mark ≤ 15 → σ = seekEstimate (max c cyl - min c cyl) →
    (sl.kind = some .seek → sl.accessCost cyl mark = σ) ∧
    (sl.kind ≠ some .seek → ∃ E w, E = (mark + 1 + σ) % 16 ∧ w ≤ 15 ∧ (E + w) % 16 = sl.start.getD 0 % 16 ∧
      sl.accessCost cyl mark = σ + w) ∧
    (σ = 0 → sl.accessCost cyl mark ≤ 15) ∧
    (σ ≠ 0 → 4 ≤ sl.accessCost cyl mark ∧ sl.accessCost cyl mark ≤ 34)

/-- A slot's age and the oldest-first order (R68), its access cost from C and S (R81, R83), its slack, its tier, the
first of four whose condition it meets, and its tier 3 score (R84, R85, R87): a RESTORE
is in tier 0; class P with a slack of 16 or less in tier 1; a pass count of 8 or more gives tier 2; every other slot is in
tier 3, where the score is A + weight − k, from −7 to 58 for an access cost of at most 34. In FAULTED every eligible slot
is in tier 0. -/
def Obligations.TierAndScore : Prop :=
  ∀ (s : State) (i : Fin 12) (cls : Nat), cls = recClass (s.slot i).words →
    (∀ (j : Fin 12) (a b : Word), (s.slot i).seq = some a → (s.slot j).seq = some b →
      (s.older i j = true ↔ (s.counter - b).toNat < (s.counter - a).toNat ∨
        ((s.counter - a).toNat = (s.counter - b).toNat ∧ i < j))) ∧
    s.access i = (s.slot i).accessCost s.drv.cyl s.drv.mark.toNat ∧
    (∀ d, cls = 0 → (s.slot i).deadline = some d →
      s.slack i = some (if (s.slot i).passed then -1
        else ((d - s.clk.count).toNat : Int) - (1 + (s.access i : Int) + (((s.slot i).n.getD 0 : Nat) : Int)))) ∧
    (cls ≠ 0 ∨ (s.slot i).deadline = none → s.slack i = none) ∧
    ((s.slot i).kind = some .restore → s.tier i = 0) ∧
    ((s.slot i).kind ≠ some .restore →
      (∀ k : Int, s.slack i = some k → k ≤ 16 → s.tier i = 1) ∧
      ((∀ k : Int, s.slack i = some k → 16 < k) →
        (8 ≤ (s.slot i).passCount → s.tier i = 2) ∧
        ((s.slot i).passCount ≤ 7 → s.tier i = 3 ∧
          (s.access i ≤ 34 → -7 ≤ s.score i ∧ s.score i ≤ 58)))) ∧
    (s.tier i = 3 → (s.slot i).passCount ≤ 7) ∧
    s.score i = (s.access i : Int) + (if cls = 0 then 0 else if cls = 1 then 8 else 24) - ((s.slot i).passCount : Int) ∧
    (s.drv.state = .faulted → i ∈ s.eligible → s.tier i = 0)

/-- An examination (R79, R80, R86): nothing while a slot is ACTIVE, a request is outstanding or no WAITING slot is
eligible under the drive state; otherwise the request names the slot of the lowest tier that comes first in that
tier's order, with its tenure, and the counted set is the other eligible slots with theirs (R78) and their chain
depths, by which one stay in WAITING is told from the next: log entry 43. -/
def Obligations.ExaminationChoosesTheFirst : Prop :=
  ∀ s : State,
    (∀ i, i ∈ s.eligible ↔ (s.slot i).state = .waiting ∧
      (s.drv.state = .ready ∨ s.drv.state = .faulted ∧ (s.slot i).kind = some .restore)) ∧
    (s.activeSlot.isSome = true ∨ s.sel.isSome = true ∨ s.eligible = [] → examine s = s) ∧
    (s.activeSlot = none → s.sel = none → s.eligible ≠ [] →
      ∃ i counted, i ∈ s.eligible ∧ examine s = { s with sel := some ⟨i, (s.slot i).tenure, counted⟩ } ∧
        (∀ e, e ∈ counted ↔ e.1 ∈ s.eligible ∧ e.1 ≠ i ∧ e.2 = ((s.slot e.1).tenure, (s.slot e.1).depth)) ∧
        ∀ j ∈ s.eligible, j ≠ i → s.tier i ≤ s.tier j ∧
          (s.tier i = s.tier j →
            (s.tier i = 1 → (s.slack i).getD 0 < (s.slack j).getD 0 ∨
              ((s.slack i).getD 0 = (s.slack j).getD 0 ∧ s.older i j = true)) ∧
            (s.tier i = 3 → s.score i < s.score j ∨ (s.score i = s.score j ∧ s.older i j = true)) ∧
            (s.tier i = 0 ∨ s.tier i = 2 → s.older i j = true)))

/-- SELECTION_TAKEN (R72, R88, R89): while the slot named is WAITING in its tenure and no slot is ACTIVE, it becomes
ACTIVE, the fence of a transfer kind begins (R37, R38) with the buffer address, count and stride of its record, the
direction DISK_READ for READ and CONT_READ and FROM_MEMORY for WRITE, CONT_WRITE and CHECK, the mode WAIT by the record's
fence mode and the transfer index 0, a SEEK or RESTORE sets none, the request is gone, and each counted
slot still in the stay in WAITING it was counted in, told by its tenure and chain depth (R88, R90; log entry 43), has
its pass count raised, up to 15; otherwise the request is refused and nothing else changes. That a chosen slot
which has been posted and chained since, and waits again in its tenure, is taken all the same is the model's choice: log
entry 46. -/
def Obligations.SelectionIsTakenOrRefused : Prop :=
  ∀ (q : Selection) (s : State), s.sel = some q →
    ((s.slot q.slot).state ≠ .waiting ∨ (s.slot q.slot).tenure ≠ q.tenure ∨ s.activeSlot ≠ none →
      exec .selectionTaken s = .next (settle s { s with sel := none, out := [] })) ∧
    ((s.slot q.slot).state = .waiting → (s.slot q.slot).tenure = q.tenure → s.activeSlot = none →
      (∀ e ∈ q.counted, e.1 ≠ q.slot) →
      ∃ u, exec .selectionTaken s = .next (settle s u) ∧ u.sel = none ∧
        u.slot q.slot = { s.slot q.slot with state := .active } ∧
        (∀ k r, r = (s.slot q.slot).words → recKind r = some k →
          (k = .read ∨ k = .contRead → (u.tap.get (s.slot q.slot).side).fence =
            some ⟨recBuffer r, recCount r, recStride r, .diskRead, recFenceWait r, 0⟩) ∧
          (k = .write ∨ k = .contWrite ∨ k = .check → (u.tap.get (s.slot q.slot).side).fence =
            some ⟨recBuffer r, recCount r, recStride r, .fromMemory, recFenceWait r, 0⟩) ∧
          (k = .seek ∨ k = .restore → (u.tap.get (s.slot q.slot).side).fence = none)) ∧
        (u.tap.get (s.slot q.slot).side).fence = (s.slot q.slot).fence ∧
        u.tap.get (s.slot q.slot).side.other = s.tap.get (s.slot q.slot).side.other ∧
        (∀ j n, j ≠ q.slot → n = q.counted.countP (fun e => e == (j, (s.slot j).tenure, (s.slot j).depth)) →
          ((s.slot j).state = .waiting → 0 < n →
            u.slot j = { s.slot j with passCount := min 15 ((s.slot j).passCount + n) }) ∧
          (((s.slot j).state = .waiting → n = 0) → (s.slot j).state ≠ .lockwait → u.slot j = s.slot j)) ∧
        u.map = s.map ∧ u.intake = s.intake ∧ u.drv = s.drv ∧ u.eng = s.eng ∧ u.pres = s.pres ∧
        u.counter = s.counter ∧ u.clk = s.clk)

/-- DEADLINE_EVENT (R70): a slot whose deadline span has been reached has its passed flag set; one in WAITING or LOCKWAIT
with drop-if-late goes to POSTING with EXPIRED, with the result fields of a request that never was ACTIVE (R66); any other
stays as it is. -/
def Obligations.DeadlineSetsPassedOrExpires : Prop :=
  ∀ (i : Fin 12) (e : Word) (s : State), (s.slot i).span = some ⟨e, true⟩ →
    ((s.slot i).state = .waiting ∨ (s.slot i).state = .lockwait → recDropIfLate (s.slot i).words = true →
      ∃ u, exec (.deadlineEvent i) s = .next (settle s u) ∧
        u.slot i = { s.slot i with
          state := .posting, status := some .expired, passed := true, span := none, instant := s.clk.count
          residual := neverActiveResidual (s.slot i)
          stop := neverActiveStop (s.intake.get (s.slot i).side).cursor (s.slot i) } ∧
        (∃ more, u.post.queue = s.post.queue ++ (i, (s.slot i).tenure) :: more) ∧
        (∀ j, j ≠ i → (s.slot j).state ≠ .lockwait → u.slot j = s.slot j) ∧
        u.tap = s.tap ∧ u.intake = s.intake ∧ u.map = s.map ∧ u.drv = s.drv ∧ u.eng = s.eng ∧ u.pres = s.pres ∧
        u.counter = s.counter ∧ (s.sel.isSome = true → u.sel = s.sel) ∧ u.clk = s.clk) ∧
    ((s.slot i).state ≠ .waiting → (s.slot i).state ≠ .lockwait →
      exec (.deadlineEvent i) s = .next (settle s
        { s with slots := s.slots.set i { s.slot i with passed := true, span := none }, out := [] })) ∧
    (recDropIfLate (s.slot i).words = false →
      exec (.deadlineEvent i) s = .next (settle s
        { s with slots := s.slots.set i { s.slot i with passed := true, span := none }, out := [] }))

/-! ### Posting and the part's writes -/

/-- POSTING_START, RESULT_WORD_WRITE_END, SIGNAL_PAIR_READ_END and SIGNAL_PAIR_END (R135, R136, R138, R140, R36): the
head of the queue becomes the current slot; a record-less result passes both steps; the words 13 to 15 are asked for
at their addresses one after another; the third is followed by the pair's read, or by the end of the posting for a
signal address of 0; the pair's read is followed by the write of the word with the field replaced, to the same
address; and the pair's end ends the posting, with timeout seen when the write timed out. Bit `b` of the word written
is the signal value's, or 1 after any status but OK, inside the field, and the word's own outside it. That the write's
timeout has two names, this command's and MEMORY_TIMEOUT, is the model's reading of the table: log entry 34. -/
def Obligations.PostingWritesResultAndSignal : Prop :=
  (∀ (x : Side) (i : Fin 12) (t : Nat) (rest : List (Fin 12 × Nat)) (s : State), s.post.queue = (i, t) :: rest →
    (s.post.step = none →
      ((s.slot i).recordless = false → exec .postingStart s = .next (settle s
        { s with post := ⟨(i, t) :: rest, some .words, 0, false⟩, out := [] })) ∧
      ((s.slot i).recordless = true → exec .postingStart s = .next (settle s
        (finishPosting i { s with post := ⟨(i, t) :: rest, some .words, 0, false⟩, out := [] })))) ∧
    (s.post.step = some .words →
      (∀ n, n = s.post.wordsWritten → (s.slot i).side = x → postingAsks s x = some ⟨.result n, .write,
        BitVec.ofNat 18 (4 * (s.slot i).q.toNat + 13 + n),
        if n = 0 then (s.slot i).resultWord else if n = 1 then (s.slot i).residual else (s.slot i).stop, false⟩) ∧
      (∀ n wt, cycleFor s x (.result n) →
        (s.post.wordsWritten < 2 → exec (.resultWordWriteEnd x wt) s = .next (settle s
          { s.ended x wt [] with post := { s.post with wordsWritten := s.post.wordsWritten + 1 } })) ∧
        (s.post.wordsWritten = 2 → recSignalAddr (s.slot i).words ≠ 0 →
          exec (.resultWordWriteEnd x wt) s = .next (settle s
            { s.ended x wt [] with post := { s.post with wordsWritten := 3, step := some .signal } })) ∧
        (s.post.wordsWritten = 2 → recSignalAddr (s.slot i).words = 0 →
          exec (.resultWordWriteEnd x wt) s = .next (settle s
            (finishPosting i { s.ended x wt [] with post := { s.post with wordsWritten := 3 } }))))) ∧
    (s.post.step = some .signal →
      ((s.slot i).side = x → postingAsks s x = some ⟨.pairRead, .read,
        BitVec.ofNat 18 (recSignalAddr (s.slot i).words), 0, false⟩) ∧
      (∀ p d wt, (s.tap.get x).arb = .part p → p.kind = .pairRead → p.abandoned = false →
        exec (.signalPairReadEnd x d wt) s = .next (settle s
          { s.ended x wt [] with
            tap := s.tap.set x { s.tap.get x with arb := .pairWriteOwed p.addr ((s.slot i).signalWord d) } })) ∧
      (∀ wt, cycleFor s x .pairWrite →
        exec (.signalPairEnd x true wt) s = .next (settle s (finishPosting i (s.ended x wt []))) ∧
        exec (.signalPairEnd x false wt) s = .next (settle s
          (finishPosting i { s.ended x wt [] with post := { s.post with timeoutSeen := true } }))))) ∧
  ∀ (sl : Slot) (old : Word) (o w b : Nat), o = recSignalOffset sl.words → w = recSignalWidth sl.words → b < 16 →
    1 ≤ w ∧ w ≤ 8 ∧ o + w ≤ 16 ∧
    (sl.signalWord old).getLsbD b =
      if o ≤ b ∧ b < o + w then (if sl.status = some .ok then (recSignalValue sl.words).testBit (b - o) else true)
      else old.getLsbD b

/-- The end of a posting (R139 to R142, R135): the COMPLETION notice of a live side at the record's priority and tag,
or at 7 and 63 for a record-less result, with the status or, after a timeout, MEMORY_TIMEOUT; then the slot goes to
INTAKE for the link with an emptied context and one more of chain depth, its fetch starting or waiting behind others,
or becomes FREE; and the head leaves the queue. Three points are the model's: that a fetch handed to an idle intake unit
starts within the same step (log entry 31), that it waits while a claim is on its way back (log entry 12), and the
instant kept for a link whose quad address is above 65532 (log entry 38). -/
def Obligations.PostingEndsWithNoticeAndChain : Prop :=
  ∀ (i : Fin 12) (t code : Nat) (rest : List (Fin 12 × Nat)) (sl c : Slot) (s u : State), s.post.queue = (i, t) :: rest →
    sl = s.slot i → u = finishPosting i s → code = (if s.post.timeoutSeen then 22 else (sl.status.getD .ok).code) →
    c = { Slot.empty sl.tenure with state := .intake, side := sl.side, q := recLink sl.words, depth := sl.depth + 1 } →
    (sl.recordless = true → s.live sl.side = true →
      u.pres = s.pres.set sl.side ((s.pres.get sl.side).join .completion 7 63 code).examine) ∧
    (sl.recordless = false → recPriority sl.words ≤ 7 → s.live sl.side = true →
      u.pres = s.pres.set sl.side
        ((s.pres.get sl.side).join .completion (recPriority sl.words) (recTag sl.words) code).examine) ∧
    (sl.recordless = false → 7 < recPriority sl.words → u.pres = s.pres) ∧
    (s.live sl.side = false → u.pres = s.pres) ∧
    (s.post.timeoutSeen = true ∨ sl.recordless = true ∨ recLink sl.words = 0 ∨ 64 ≤ sl.depth ∨
        recLinkCondition sl.words = 0 ∨ (recLinkCondition sl.words = 2 ∧ sl.status ≠ some .ok) ∨
        (recLinkCondition sl.words = 3 ∧ sl.status = some .ok) →
      u.slots = s.slots.set i (Slot.empty sl.tenure) ∧ u.intake = s.intake ∧
        u.post = { s.post with queue := rest, step := none }) ∧
    (s.post.timeoutSeen = false → sl.recordless = false → recLink sl.words ≠ 0 → sl.depth < 64 →
      recLinkCondition sl.words = 1 ∨ (recLinkCondition sl.words = 2 ∧ sl.status = some .ok) ∨
        (recLinkCondition sl.words = 3 ∧ sl.status ≠ some .ok) →
      ((s.intake.get sl.side).fetch = none → (s.intake.get sl.side).claim = none → (s.intake.get sl.side).chains = [] →
          (recLink sl.words).toNat ≤ 65532 →
        u.slots = s.slots.set i c ∧ u.post = { s.post with queue := rest, step := none } ∧
        u.intake = s.intake.set sl.side { s.intake.get sl.side with fetch := some ⟨i, none⟩ }) ∧
      ((s.intake.get sl.side).fetch = none → (s.intake.get sl.side).claim = none → (s.intake.get sl.side).chains = [] →
          65532 < (recLink sl.words).toNat →
        u.slots = s.slots.set i { c with
          recordless := true, state := .posting, status := some .badAddress, instant := s.clk.count } ∧
        u.post = { s.post with queue := rest ++ [(i, sl.tenure)], step := none } ∧ u.intake = s.intake) ∧
      ((s.intake.get sl.side).fetch ≠ none ∨ (s.intake.get sl.side).claim ≠ none ∨ (s.intake.get sl.side).chains ≠ [] →
        u.slots = s.slots.set i c ∧ u.post = { s.post with queue := rest, step := none } ∧
        u.intake = s.intake.set sl.side
          { s.intake.get sl.side with chains := (s.intake.get sl.side).chains ++ [i] })) ∧
    u.tap = s.tap ∧ u.map = s.map ∧ u.locks = s.locks ∧ u.eng = s.eng ∧ u.drv = s.drv ∧ u.sel = s.sel ∧
    u.clk = s.clk ∧ u.counter = s.counter ∧ u.out = s.out

/-- MEMORY_TIMEOUT by the cycle's requester (R33): an abandoned cycle's end is discarded (R43); the posting goes on to
its notice with timeout seen (R140); a take goes on to its reads, or is over with the record-less result BAD_ADDRESS
where its quad address is above 65532 (R51, R52); a record fetch is over with the record-less result
MEMORY_TIMEOUT (R53); and the engine's request ends with MEMORY_TIMEOUT, an ending already found being replaced
while it drains, but after a sector under write gate (R127, R129). That a seek or recalibrate under way is then
abandoned is read from R112: log entry 36. The residual, stop position and instant of the record-less result are the
model's choice: log entry 38. -/
def Obligations.MemoryTimeoutsAreMet : Prop :=
  ∀ (x : Side) (wt : Nat) (i : Fin 12) (s : State),
    (∀ p, (s.tap.get x).arb = .part p → p.abandoned = true →
      exec (.memoryTimeout x wt) s = .next (settle s (s.ended x wt []))) ∧
    (∀ t rest n, s.post.queue = (i, t) :: rest → s.post.step ≠ none →
      cycleFor s x (.result n) ∨ cycleFor s x .pairRead ∨ cycleFor s x .pairWrite →
      exec (.memoryTimeout x wt) s = .next (settle s
        (finishPosting i { s.ended x wt [] with post := { s.post with timeoutSeen := true } }))) ∧
    (∀ c k, cycleFor s x (.clearing c) → (s.intake.get x).fetch = some ⟨i, some k⟩ → (s.slot i).q.toNat ≤ 65532 →
      exec (.memoryTimeout x wt) s = .next (settle s
        { s.ended x wt [] with intake := s.intake.set x { s.intake.get x with fetch := some ⟨i, none⟩ } })) ∧
    (∀ c k, cycleFor s x (.clearing c) → (s.intake.get x).fetch = some ⟨i, some k⟩ → 65532 < (s.slot i).q.toNat →
      exec (.memoryTimeout x wt) s = .next (settle s
        { s.ended x wt [] with
          slots := s.slots.set i { s.slot i with
            recordless := true, words := [], state := .posting, status := some .badAddress, residual := 0, stop := 0
            instant := s.clk.count, span := none }
          intake := s.intake.set x { s.intake.get x with fetch := none }
          post := { s.post with queue := s.post.queue ++ [(i, (s.slot i).tenure)] } })) ∧
    (∀ n k, cycleFor s x (.fetch n) → (s.intake.get x).fetch = some ⟨i, k⟩ →
      exec (.memoryTimeout x wt) s = .next (settle s
        { s.ended x wt [] with
          slots := s.slots.set i { s.slot i with
            recordless := true, words := [], state := .posting, status := some .memoryTimeout, residual := 0, stop := 0
            instant := s.clk.count, span := none }
          intake := s.intake.set x { s.intake.get x with fetch := none }
          post := { s.post with queue := s.post.queue ++ [(i, (s.slot i).tenure)] } })) ∧
    (∀ j, cycleFor s x (.data j) → engineSlot s = some i → (s.slot i).side = x →
      (s.drv.writeGate = false → s.eng.ending = none ∨ (∃ st c, s.eng.ending = some ⟨st, c, true⟩) →
        ∃ u, exec (.memoryTimeout x wt) s = .next (settle s u) ∧ RequestEnded s u i .memoryTimeout ∧
          (s.eng.ending = none → ∀ sp, s.eng.span = some sp →
            (s.eng.phase = .seeking → u.eng.abandoned = some (.seek s.eng.moveTo, sp)) ∧
            (s.eng.phase = .recalWait → u.eng.abandoned = some (.recalibrate, sp)))) ∧
      (s.drv.writeGate = true → s.eng.ending = none →
        exec (.memoryTimeout x wt) s = .next (settle s
          { s.ended x wt [] with
            eng := { s.eng with
              buf0 := if s.eng.buf0.state = .filling then .none else s.eng.buf0
              buf1 := if s.eng.buf1.state = .filling then .none else s.eng.buf1
              ending := some ⟨.memoryTimeout, s.clk.count, false⟩ } })))

/-- NOTICE_CELL_WRITE_END, LEVEL_CELL_WRITE_END and STATUS_WRITE_END, with their timeouts (R147, R16): with an answer
the entry that the write stands for is shown; after a timeout nothing is, and the write is owed again unless a later
notice-cell write is owed; the two other writes have no further effect however they end. A merge that changes the shown
entry's code or priority ends its standing, whatever word is shown, and any other leaves it (R145). What leads to those
writes: a notice joins the queue or merges into it by `NoticeJoined`, an entry returns to it by `EntryReturned` (R145,
R146), the queue is examined by `NoticeExamined` (R148), and the first owed write is asked for, a level at offset 8 of
the page, an entry's word or NONE, FFFFh, at offset 9 (R28, R147). The attention line is raised exactly while an entry is
presented and one is shown (R144). At the end of a command every part-owned cell of a live side whose contents it changed
has its write owed, or in progress with the new contents (R16). The model's points: that a notice-cell write in progress
stands for its entry under the number a merge gives it meanwhile, the place of a new notice-cell write among those owed,
and the shown entry at a return that merges (log entry 16); and that a timeout is told by either of two commands (log
entry 34). -/
def Obligations.CellWritesEnd : Prop :=
  (∀ (x : Side) (e : Option Entry) (acc : Bool) (wt : Nat) (c : Instr) (s : State), cycleFor s x (.notice e acc) →
    exec (.noticeCellWriteEnd x true wt) s = .next (settle s
      { s.ended x wt [] with
        pres := s.pres.set x { s.pres.get x with shown := (s.pres.get x).writing, writing := none } }) ∧
    (c = .noticeCellWriteEnd x false wt ∨ c = .memoryTimeout x wt →
      ((∃ f b, OwedWrite.notice f b ∈ (s.pres.get x).owed) → exec c s = .next (settle s
        { s.ended x wt [] with pres := s.pres.set x { s.pres.get x with shown := none, writing := none } })) ∧
      ((∀ f b, OwedWrite.notice f b ∉ (s.pres.get x).owed) → exec c s = .next (settle s
        { s.ended x wt [] with pres := s.pres.set x { s.pres.get x with
            shown := none, writing := none
            owed := (s.pres.get x).owed ++ [.notice (s.pres.get x).writing acc] } })))) ∧
  (∀ (x : Side) (answered : Bool) (wt : Nat) (c : Instr) (s : State), cycleFor s x .level →
    c = .levelCellWriteEnd x answered wt ∨ c = .memoryTimeout x wt →
    exec c s = .next (settle s (s.ended x wt []))) ∧
  (∀ (x : Side) (answered : Bool) (wt : Nat) (st : StatusCell) (c : Instr) (s : State), cycleFor s x (.status st) →
    c = .statusWriteEnd x answered wt ∨ c = .memoryTimeout x wt →
    exec c s = .next (settle s (s.ended x wt []))) ∧
  (∀ p : Presenter, p.line = true ↔ (∃ e, p.presented = some e) ∧ ∃ e, p.shown = some e) ∧
  (∀ (p : Presenter) (k : NoticeKind) (prio tag code : Nat) (q w : Entry), k ≠ .completion →
    p.queue.find? (fun f => f.kind == k) = some q → p.writing = some w →
    (p.join k prio tag code).writing =
      some (if w.no = q.no then { w with no := if prio < q.prio then p.nextNo else q.no } else w)) ∧
  (∀ (p : Presenter) (k : NoticeKind) (prio tag code : Nat) (q sh : Entry), k ≠ .completion →
    p.queue.find? (fun f => f.kind == k) = some q → p.shown = some sh →
    (p.join k prio tag code).shown = if sh.no = q.no ∧ ¬ (code = q.code ∧ q.prio ≤ prio) then none else some sh) ∧
  (∀ (p : Presenter) (k : NoticeKind) (prio tag code : Nat), NoticeJoined p (p.join k prio tag code) k prio tag code) ∧
  (∀ (p : Presenter) (e : Entry), EntryReturned p (p.giveBack e) e) ∧
  (∀ p : Presenter, NoticeExamined p p.examine) ∧
  (∀ (x : Side) (s : State),
    ((s.pres.get x).owed = [] → presenterAsks s x = none) ∧
    (∀ l more, (s.pres.get x).owed = .level l :: more → presenterAsks s x =
      some ⟨.level, .write, BitVec.ofNat 18 ((s.tap.get x).base + 8), BitVec.ofNat 16 l, false⟩) ∧
    (∀ acc more, (s.pres.get x).owed = .notice none acc :: more → presenterAsks s x =
      some ⟨.notice none acc, .write, BitVec.ofNat 18 ((s.tap.get x).base + 9), 0xFFFF, false⟩) ∧
    (∀ e acc more, (s.pres.get x).owed = .notice (some e) acc :: more → presenterAsks s x =
      some ⟨.notice (some e) acc, .write, BitVec.ofNat 18 ((s.tap.get x).base + 9), e.word, false⟩)) ∧
  ∀ (x : Side) (c : StatusCell) (s0 s u : State), u = settle s0 s → u.live x = true → cellWord s0 x c ≠ cellWord u x c →
    (u.tap.get x).owed.has c = true ∨
      ∃ p, (u.tap.get x).arb = .part p ∧ p.kind = .status c ∧ p.data = cellWord u x c

/-! ### Arbitration and data cycles -/

/-- A side's arbiter (R34, R44): nothing is granted while a cycle is in progress; an owed pair write goes first; then an
urgent data cycle, the waiting computer cycle, and the part cycle of the first requester in R34's order; a side IN_RESET
serves its computer only. A data cycle is urgent when the word times to its buffer's need point are no more than the words
to move plus 32 (R35): for a fill, the mark of the sector it serves; for a drain, word time 40 of the sector two on; a
target's mark is 1 to 16 sectors ahead while it is waited for, and is the last mark in its sector. Three
points are the model's: the present word time is the one a command told last (log entry 3); a need point is reckoned
from the last mark at 320 word times a sector, and there is none where R35 gives none (log entry 28); and the status
write asked for is told at the grant, as the lowest cell owed then (log entry 45). -/
def Obligations.ArbiterGrantsInOrder : Prop :=
  (∀ (x : Side) (s : State),
    ((∃ c, (s.tap.get x).arb = .computer c) ∨ (∃ p, (s.tap.get x).arb = .part p) → arbitrate x s = s) ∧
    (∀ a d, (s.tap.get x).arb = .pairWriteOwed a d → arbitrate x s =
      { s with tap := s.tap.set x { s.tap.get x with arb := .part ⟨.pairWrite, .write, a, d, false⟩ } }) ∧
    ((s.tap.get x).arb = .free →
      (∀ p, s.live x = true → urgentAsks s x = some p → arbitrate x s =
        { s with tap := s.tap.set x { s.tap.get x with arb := .part p } }) ∧
      (s.live x = false ∨ urgentAsks s x = none →
        (∀ c, (s.tap.get x).comp = some c → arbitrate x s =
          { s with tap := s.tap.set x { s.tap.get x with arb := .computer c, comp := none } }) ∧
        (s.live x = false → (s.tap.get x).comp = none → arbitrate x s = s) ∧
        (s.live x = true → (s.tap.get x).comp = none →
          (∀ p, engineAsks s x = some p → ((arbitrate x s).tap.get x).arb = .part p) ∧
          (engineAsks s x = none →
            (∀ p, postingAsks s x = some p → ((arbitrate x s).tap.get x).arb = .part p) ∧
            (postingAsks s x = none →
              (∀ p, intakeAsks s x = some p → ((arbitrate x s).tap.get x).arb = .part p) ∧
              (intakeAsks s x = none →
                (∀ w more p, (s.pres.get x).owed = w :: more → presenterAsks s x = some p →
                  ((arbitrate x s).tap.get x).arb = .part p ∧
                    (arbitrate x s).pres.get x = { s.pres.get x with owed := more, writing := w.entry }) ∧
                ((s.pres.get x).owed = [] →
                  (∀ c, (s.tap.get x).owed.lowest = some c →
                    ((arbitrate x s).tap.get x).arb = .part ⟨.status c, .write,
                      BitVec.ofNat 18 ((s.tap.get x).base + c.offset), cellWord s x c, false⟩ ∧
                    ((arbitrate x s).tap.get x).owed = (s.tap.get x).owed.pay c) ∧
                  ((s.tap.get x).owed.lowest = none → arbitrate x s = s))))))))) ∧
  (∀ (x : Side) (p : PartCycle) (s : State), urgentAsks s x = some p ↔ engineAsks s x = some p ∧
    ∃ i j, engineSlot s = some i ∧ p.kind = .data j ∧ urgent s (s.slot i) j = true) ∧
  (∀ (sl : Slot) (j : Nat) (s : State), urgent s sl j = true ↔
    ∃ w, needPoint s sl (j / 256) = some w ∧ w ≤ s.drv.wordTime + wordsToMove s sl (j / 256) + 32) ∧
  (∀ (sl : Slot) (p : Nat) (b : Buffer) (s : State), b = (if p % 2 = 0 then s.eng.buf0 else s.eng.buf1) →
    wordsToMove s sl p = sl.wordsAt p - if sl.isKind Kind.diskRead = true then b.moved else b.words.length) ∧
  ∀ (sl : Slot) (m p t : Nat) (s : State), m = s.eng.m → t = (if sl.isKind Kind.diskRead = true then p + 2 else p) →
    (s.drv.markSeen = false ∨ (s.eng.phase ≠ .rotating ∧ s.eng.phase ≠ .inSector) ∨ t < m ∨ sl.sectors ≤ t ∨
        (∃ k, m ≤ k ∧ k < t ∧ (sl.start.getD 0 + k) % 32 = 31) → needPoint s sl p = none) ∧
    ∀ a, s.drv.markSeen = true → m ≤ t → t < sl.sectors → (∀ k, m ≤ k → k < t → (sl.start.getD 0 + k) % 32 ≠ 31) →
      (s.eng.phase = .rotating ∧ 1 ≤ a ∧ a ≤ 16 ∧ (s.drv.mark.toNat + a) % 16 = (sl.start.getD 0 + m) % 16) ∨
        (s.eng.phase = .inSector ∧ a = 0) →
      needPoint s sl p = some ((a + (t - m)) * 320 + if sl.isKind Kind.diskRead = true then 40 else 0)

/-- DATA_CYCLE_END (R38, R41, R120, R121): the transfer index goes up by one, a computer cycle held on that word joins
the arbiter, and the word leaves the buffer of a disk read, which empties with its last one, or joins that of a write
or CHECK, which is FULL with its last one and is followed by the next position's filling. The answer to the last word
of a drain whose status is already found ends the request with that status and its completion instant (R129, R132). An
interruption that comes while a data cycle is in progress, as FAULT_RISE in READY brings one, waits for the cycle's end
with its status and instant: the word answered counts as moved, and then the engine hands over (R126, R129). -/
def Obligations.DataCyclesMoveWords : Prop :=
  ∀ (x : Side) (i : Fin 12) (f : Fence) (sl : Slot) (b : Buffer) (j p : Nat) (s : State), engineSlot s = some i →
    sl = s.slot i → sl.side = x → (s.tap.get x).fence = some f → f.index = j → p = j / 256 → b = s.eng.buf p →
    (s.eng.ending = none → j < f.count →
      (f.dir = .diskRead → b.state = .good → engineAsks s x = some ⟨.data j, .write,
        BitVec.ofNat 18 (f.buffer + j + f.stride * p), b.words.getD (j % 256) 0, false⟩) ∧
      (f.dir = .fromMemory → b.state = .filling → engineAsks s x = some ⟨.data j, .read,
        BitVec.ofNat 18 (f.buffer + j + f.stride * p), 0, false⟩)) ∧
    (∀ d wt, cycleFor s x (.data j) → s.eng.ending = none →
      ∃ u, exec (.dataCycleEnd x d wt) s = .next (settle s u) ∧
        (u.tap.get x).fence = some { f with index := j + 1 } ∧ (u.tap.get x).arb = .free ∧
        (∀ c, (s.tap.get x).held = some c → wordIndex f c.addr = some j →
          (u.tap.get x).held = none ∧ (u.tap.get x).comp = some c) ∧
        ((∀ c, (s.tap.get x).held = some c → wordIndex f c.addr ≠ some j) →
          (u.tap.get x).held = (s.tap.get x).held ∧ (u.tap.get x).comp = (s.tap.get x).comp) ∧
        (sl.isKind Kind.diskRead = true →
          u.eng = s.eng.setBuf p (if b.moved + 1 < sl.wordsAt p then { b with moved := b.moved + 1 } else .none)) ∧
        (sl.isKind Kind.diskRead = false → b.words.length + 1 < sl.wordsAt p →
          u.eng = s.eng.setBuf p { b with words := b.words ++ [d] }) ∧
        (sl.isKind Kind.diskRead = false → sl.wordsAt p ≤ b.words.length + 1 →
          u.eng.buf p = { b with words := b.words ++ [d], state := .full } ∧
          u.eng.buf (p + 1) = if p + 1 < sl.sectors ∧ (s.eng.buf (p + 1)).state = .empty then ⟨.filling, p + 1, 0, []⟩
            else s.eng.buf (p + 1)) ∧
        u.eng.target = s.eng.target ∧ u.eng.phase = s.eng.phase ∧ u.slots = s.slots ∧ u.intake = s.intake ∧
        u.tap.get x.other = s.tap.get x.other ∧ u.pres = s.pres ∧ u.map = s.map ∧ u.locks = s.locks ∧
        u.post = s.post ∧ u.drv = { s.drv with wordTime := wt }) ∧
    (∀ d wt st c, cycleFor s x (.data j) → s.eng.ending = some ⟨st, c, true⟩ → sl.isKind Kind.diskRead = true →
      sl.wordsAt p ≤ b.moved + 1 → (s.eng.buf (p + 1)).state ≠ .good →
      ∃ u, exec (.dataCycleEnd x d wt) s = .next (settle s u) ∧ (u.slot i).state = .posting ∧
        (u.slot i).status = some st ∧ (u.slot i).instant = c ∧ (u.tap.get x).fence = none ∧
        (u.slot i).residual = BitVec.ofNat 16 (recCount sl.words - (j + 1)) ∧ u.eng.work = none) ∧
    (cycleFor s x (.data j) → s.eng.ending = none → s.eng.phase ≠ .finishing → sl.kind ≠ some .restore →
      s.drv.state = .ready → s.drv.inp.fault = false → s.drv.openPending = false →
      ∃ u, exec .faultRise s = .next (settle s u) ∧ u.drv.state = .faulted ∧ u.slot i = sl ∧
        u.eng.ending = some ⟨.driveFault, s.clk.count, false⟩ ∧ u.eng.work = s.eng.work ∧
        (u.tap.get x).arb = (s.tap.get x).arb ∧ (u.tap.get x).fence = some f ∧ (u.tap.get x).held = (s.tap.get x).held ∧
        u.drv.readGate = false ∧ u.drv.writeGate = false) ∧
    (∀ d wt st c, cycleFor s x (.data j) → s.eng.ending = some ⟨st, c, false⟩ → s.drv.writeGate = false →
      ∃ u, exec (.dataCycleEnd x d wt) s = .next (settle s u) ∧ (u.slot i).state = .posting ∧
        (u.slot i).status = some st ∧ (u.slot i).instant = c ∧ (u.tap.get x).fence = none ∧
        (u.tap.get x).arb = .free ∧ (u.tap.get x).held = none ∧ u.eng.work = none ∧ u.eng.ending = none ∧
        (sl.isKind Kind.diskRead = true → (u.slot i).residual = BitVec.ofNat 16 (recCount sl.words - (j + 1))) ∧
        (sl.isKind Kind.diskWrite = true → (u.slot i).residual = BitVec.ofNat 16 (recCount sl.words -
          if sl.sectors ≤ s.eng.written then recCount sl.words else 256 * s.eng.written)) ∧
        (sl.kind = some .check → s.eng.m < sl.sectors → (u.slot i).residual =
          BitVec.ofNat 16 (recCount sl.words - (256 * s.eng.m + s.eng.firstDiff.getD 0))))

/-! ### The slot clock and the sectors -/

/-- SLOT_TIMER_TICK and INDEX_RISE (R10 to R12): while the source is TIMER a tick adds 1 to the count, and every running
span whose end that count is has been reached; an index while the spindle is up to speed makes the source MARKS. A span of
`k` slots is reached by the `k`th increment and by none before it. A SECTOR_MARK does the same to the count and to every
running span while the source is MARKS, and nothing to them while it is TIMER; a slot that an early mark sends to POSTING
has no span any more, and the engine's span is then that of SectorsOpen. -/
def Obligations.ClockTicksAndSource : Prop :=
  (∀ (f : Span → Span) (s : State), (∀ sp, f sp = ⟨sp.endsAt, sp.reached || sp.endsAt == s.clk.count + 1⟩) →
    s.clk.source = .timer →
    exec .slotTimerTick s = .next (settle s
      { s with
        clk := { s.clk with count := s.clk.count + 1 }
        slots := s.slots.map (fun sl => { sl with span := sl.span.map f })
        map := { s.map with span := s.map.span.map f }
        drv := { s.drv with span := s.drv.span.map f }
        eng := { s.eng with span := s.eng.span.map f, abandoned := s.eng.abandoned.map (fun m => (m.1, f m.2)) }
        out := [] })) ∧
  (∀ (f : Span → Span) (n : BitVec 4) (s : State),
    (∀ sp, f sp = ⟨sp.endsAt, sp.reached || (s.clk.source == .marks && sp.endsAt == s.clk.count + 1)⟩) →
    ∃ u, exec (.sectorMark n) s = .next (settle s u) ∧
      u.clk = ⟨if s.clk.source = .marks then s.clk.count + 1 else s.clk.count, s.clk.source⟩ ∧
      u.map = { s.map with span := s.map.span.map f } ∧ u.drv.span = s.drv.span.map f ∧
      u.eng.abandoned = s.eng.abandoned.map (fun m => (m.1, f m.2)) ∧
      (∀ j, (u.slot j).span = (s.slot j).span.map f ∨
        ((s.slot j).state ≠ .posting ∧ (u.slot j).state = .posting ∧ (u.slot j).span = none)) ∧
      (s.eng.phase ≠ .inSector → s.eng.phase ≠ .finishing →
        u.slots = s.slots.map (fun sl => { sl with span := sl.span.map f }) ∧ u.eng.span = s.eng.span.map f)) ∧
  (∀ s : State, s.clk.source = .timer → s.drv.inp.upToSpeed = true →
    exec .indexRise s = .next (settle s { s with clk := { s.clk with source := .marks }, out := [] })) ∧
  ∀ (t : Word) (k n : Nat), 1 ≤ k → k ≤ 65535 →
    (((List.range n).foldl (fun sp d => sp.tick (t + BitVec.ofNat 16 (d + 1))) (spanFrom t k)).reached = true ↔ k ≤ n)

/-- SECTOR_MARK, HEADER_JUDGED and SECTOR_DATA_START (R5, R7 to R9, R117 to R121, R128): every mark is recorded and
counts while the source is MARKS; the target's own mark opens its sector under read gate, for a write or CHECK only from
a FULL buffer, and a write's with write gate held off where write-protect is asserted on platter C or was seen before,
protect seen then keeping the first such position; any other mark passes by; a header that is sound and names the sector
lets the sector go on, a write's under write gate unless write-protect holds it off, and any other header is a mismatch,
the first of which recalibrates and the second of which ends the request, after the drain where one is under way (R129);
a disk read takes the data into an EMPTY buffer and passes the sector by otherwise. A mark that comes while a sector is
open is an early one: the header is a mismatch, a write's sector is over, cut where write gate stood, and a read's or
CHECK's fails its data check; in FINISHING the engine stops. A header judged in FINISHING stops the engine where it
fails, and lets the sector go on to its end otherwise, under write gate unless it is held off (R128). The model's points
in it: headers of held-off sectors are read too (log entry 21); an early mark acts at the count before its own tick and
with its own number as S (log entry 26); write-protect that rises between a sector's mark and its header judgement holds
that sector off (log entry 50); the phase is DRAINING while the drain before HEADER_MISMATCH is finished (log entry 53);
read gate drops at a write's header (log entry 37); a fetch in progress does not hold back an ending found at the header
(log entry 39); and S is recorded in OFFLINE too (log entry 42). -/
def Obligations.SectorsOpen : Prop :=
  (∀ (n : BitVec 4) (s : State), s.eng.phase ≠ .inSector → s.eng.phase ≠ .finishing →
    ∃ u, exec (.sectorMark n) s = .next (settle s u) ∧ u.drv.mark = n ∧ u.drv.wordTime = 0 ∧
      u.clk = ⟨if s.clk.source = .marks then s.clk.count + 1 else s.clk.count, s.clk.source⟩ ∧ u.out = [] ∧
      u.tap = s.tap ∧ u.intake = s.intake ∧ u.pres = s.pres ∧ u.post = s.post ∧ u.counter = s.counter ∧
      u.eng.target = s.eng.target ∧ u.eng.buf0 = s.eng.buf0 ∧ u.eng.buf1 = s.eng.buf1 ∧ u.drv.writeGate = s.drv.writeGate ∧
      (∀ i k, engineSlot s = some i → s.eng.phase = .rotating → k = (s.slot i).start.getD 0 + s.eng.m → k % 16 = n.toNat →
        (s.slot i).isKind Kind.diskRead = true ∨ (s.eng.buf s.eng.m).state = .full →
        u.eng.phase = .inSector ∧ u.drv.readGate = true ∧ u.eng.headerOk = false ∧
          u.eng.sector = some ((s.slot i).platter.getD .C, k) ∧
          ((s.slot i).isKind Kind.diskWrite = true →
              s.eng.protectSeen ≠ none ∨ ((s.slot i).platter = some .C ∧ s.drv.inp.writeProtect = true) →
            u.eng.heldOff = true ∧ u.eng.protectSeen = some (s.eng.protectSeen.getD s.eng.m)) ∧
          ((s.slot i).isKind Kind.diskWrite = false ∨
              s.eng.protectSeen = none ∧ ((s.slot i).platter ≠ some .C ∨ s.drv.inp.writeProtect = false) →
            u.eng.heldOff = false ∧ u.eng.protectSeen = s.eng.protectSeen)) ∧
      (engineSlot s = none ∨ s.eng.phase ≠ .rotating ∨
          (∃ i, engineSlot s = some i ∧ (((s.slot i).start.getD 0 + s.eng.m) % 16 ≠ n.toNat ∨
            ((s.slot i).isKind Kind.diskRead = false ∧ (s.eng.buf s.eng.m).state ≠ .full))) →
        u.eng.phase = s.eng.phase ∧ u.drv.readGate = s.drv.readGate ∧ u.eng.sector = s.eng.sector)) ∧
  (∀ (n : BitVec 4) (i : Fin 12) (sl : Slot) (m a : Nat) (s : State), engineSlot s = some i → sl = s.slot i →
    m = s.eng.m → a = sl.start.getD 0 + m → s.eng.phase = .inSector →
    ∃ u, exec (.sectorMark n) s = .next (settle s u) ∧ u.drv.mark = n ∧ u.drv.wordTime = 0 ∧
      u.clk = ⟨if s.clk.source = .marks then s.clk.count + 1 else s.clk.count, s.clk.source⟩ ∧
      u.intake = s.intake ∧ u.pres = s.pres ∧ u.counter = s.counter ∧
      (s.eng.headerOk = false → s.eng.mismatches = 0 → u.drv.readGate = false ∧ u.drv.move = some .recalibrate ∧
        u.out = [.recalibrate] ∧ u.eng.phase = .recalWait ∧ u.eng.mismatches = 1 ∧ u.eng.moveTo = a / 32 ∧
        u.eng.seekRetry = true ∧ u.eng.span = some ⟨s.clk.count + 256, false⟩ ∧ u.eng.sector = none) ∧
      (s.eng.headerOk = false → s.eng.mismatches ≠ 0 → s.eng.anyGood = false → s.drv.writeGate = false →
        RequestEnded s u i .headerMismatch) ∧
      (s.eng.headerOk = true → sl.isKind Kind.diskWrite = true → s.eng.ending = none → u.drv.writeGate = false ∧
        (∀ p k, s.drv.writeGate = true → s.eng.sector = some (p, k) → ∃ more, u.out = .sectorCut p k :: more) ∧
        (m + 1 < sl.sectors → u.eng.target = some (m + 1) ∧
          u.eng.written = (if s.drv.writeGate then s.eng.written + 1 else s.eng.written) ∧
          (a % 32 = 31 → u.eng.phase = .seeking) ∧
          (a % 32 ≠ 31 → n.toNat ≠ (a + 1) % 16 → u.eng.phase = .rotating ∧ u.drv.readGate = false)) ∧
        (sl.sectors ≤ m + 1 → (s.eng.buf (m + 1)).state ≠ .good → (u.slot i).state = .posting ∧
          (u.slot i).instant = s.clk.count ∧
          (u.slot i).status = some (if s.eng.protectSeen.isSome then .writeProtected else .ok))) ∧
      (s.eng.headerOk = true → sl.kind = some .read ∨ sl.kind = some .contRead ∨ sl.kind = some .check →
        (s.eng.recalibrated = false → s.eng.rereads < 3 → u.eng.rereads = s.eng.rereads + 1 ∧
          u.eng.target = s.eng.target ∧ u.out = [] ∧
          (n.toNat ≠ a % 16 → u.eng.phase = .rotating ∧ u.drv.readGate = false)) ∧
        (s.eng.recalibrated = false → 3 ≤ s.eng.rereads → u.eng.phase = .recalWait ∧ u.eng.recalibrated = true ∧
          u.out = [.recalibrate] ∧ u.eng.moveTo = a / 32 ∧ u.drv.readGate = false) ∧
        (s.eng.recalibrated = true → (s.eng.buf (m + 1)).state ≠ .good → (s.eng.buf m).state ≠ .good →
          (u.slot i).state = .posting ∧ (u.slot i).status = some .dataCheck ∧ (u.slot i).instant = s.clk.count))) ∧
  (∀ (n : BitVec 4) (s : State), s.eng.phase = .finishing →
    ∃ u, exec (.sectorMark n) s = .next (settle s u) ∧ u.drv.mark = n ∧ u.eng.work = none ∧ u.eng.phase = .idle ∧
      u.drv.readGate = false ∧ u.drv.writeGate = false ∧
      (s.drv.writeGate = false → u.out = []) ∧
      (∀ p k, s.drv.writeGate = true → s.eng.sector = some (p, k) → u.out = [.sectorCut p k])) ∧
  (∀ (hdr chk : Word) (i : Fin 12) (sl : Slot) (p : Platter) (k c : Nat) (s : State), engineSlot s = some i →
    sl = s.slot i → s.eng.phase = .inSector → s.eng.headerOk = false → s.eng.sector = some (p, k) → k < 12800 →
    c = (sl.start.getD 0 + s.eng.m) / 32 →
    ∃ u, exec (.headerJudged hdr chk) s = .next (settle s u) ∧
      (hdr = 0x8000 ||| sectorWord p k → chk = ~~~hdr →
        u.slots = s.slots ∧ u.tap = s.tap ∧ u.out = [] ∧ u.eng.buf0 = s.eng.buf0 ∧ u.eng.buf1 = s.eng.buf1 ∧
        u.eng.target = s.eng.target ∧
        (sl.isKind Kind.diskWrite = false → u.eng = { s.eng with headerOk := true } ∧
          u.drv = { s.drv with wordTime := 27 }) ∧
        (sl.isKind Kind.diskWrite = true →
          (s.eng.heldOff = true ∨ s.eng.protectSeen ≠ none ∨ (sl.platter = some .C ∧ s.drv.inp.writeProtect = true) →
            u.eng.phase = .inSector ∧ u.eng.headerOk = true ∧ u.eng.heldOff = true ∧
              u.eng.protectSeen = some (s.eng.protectSeen.getD s.eng.m) ∧
              u.drv = { s.drv with wordTime := 27, readGate := false }) ∧
          (s.eng.heldOff = false → s.eng.protectSeen = none → sl.platter ≠ some .C ∨ s.drv.inp.writeProtect = false →
            s.drv.inp.onCylinder = true → s.drv.inp.fault = false → s.drv.inp.writeProtect = false ∨ 2 ≤ s.drv.headSel →
            u.eng.phase = .inSector ∧ u.eng.headerOk = true ∧ u.eng.protectSeen = none ∧
              u.drv = { s.drv with wordTime := 27, readGate := false, writeGate := true }))) ∧
      (¬ (hdr = 0x8000 ||| sectorWord p k ∧ chk = ~~~hdr) →
        (s.eng.mismatches = 0 → u.slots = s.slots ∧ u.tap = s.tap ∧ u.out = [.recalibrate] ∧ u.drv.readGate = false ∧
          u.drv.move = some .recalibrate ∧
          u.eng = { s.eng with
            mismatches := 1, sector := none, headerOk := false, heldOff := false, phase := .recalWait, moveTo := c
            seekRetry := true, span := some ⟨s.clk.count + 256, false⟩ }) ∧
        (s.eng.mismatches ≠ 0 → s.eng.buf0.state ≠ .good → s.eng.buf1.state ≠ .good → s.drv.writeGate = false →
          RequestEnded s u i .headerMismatch) ∧
        (s.eng.mismatches ≠ 0 → s.eng.buf0.state = .good ∨ s.eng.buf1.state = .good →
          u.slots = s.slots ∧ u.tap = s.tap ∧ u.out = [] ∧ u.drv.readGate = false ∧ u.eng.phase = .draining ∧
            u.eng.span = none ∧ u.eng.ending = some ⟨.headerMismatch, s.clk.count, true⟩))) ∧
  (∀ (hdr chk : Word) (p : Platter) (k : Nat) (s : State), s.eng.phase = .finishing → s.eng.headerOk = false →
    s.eng.sector = some (p, k) → k < 12800 → s.drv.writeGate = false →
    (¬ (hdr = 0x8000 ||| sectorWord p k ∧ chk = ~~~hdr) → exec (.headerJudged hdr chk) s = .next (settle s
      { s with
        eng := Engine.cleared s.eng.abandoned
        drv := { s.drv with wordTime := 27, readGate := false }
        out := [] })) ∧
    (hdr = 0x8000 ||| sectorWord p k → chk = ~~~hdr →
      (s.eng.heldOff = true ∨ s.drv.inp.onCylinder = false ∨ s.drv.inp.fault = true ∨
          (s.drv.inp.writeProtect = true ∧ s.drv.headSel < 2) →
        exec (.headerJudged hdr chk) s = .next (settle s
          { s with
            eng := { s.eng with headerOk := true }
            drv := { s.drv with wordTime := 27, readGate := false }
            out := [] })) ∧
      (s.eng.heldOff = false → s.drv.inp.onCylinder = true → s.drv.inp.fault = false →
          s.drv.inp.writeProtect = false ∨ 2 ≤ s.drv.headSel →
        exec (.headerJudged hdr chk) s = .next (settle s
          { s with
            eng := { s.eng with headerOk := true }
            drv := { s.drv with wordTime := 27, readGate := false, writeGate := true }
            out := [] })))) ∧
  ∀ (i : Fin 12) (sl : Slot) (m : Nat) (s : State), engineSlot s = some i → sl = s.slot i → m = s.eng.m →
    s.eng.phase = .inSector → s.eng.headerOk = true → sl.isKind Kind.diskRead = true →
    ((s.eng.buf m).state = .empty → exec .sectorDataStart s = .next (settle s
      { s with eng := s.eng.setBuf m ⟨.receiving, m, 0, []⟩, drv := { s.drv with wordTime := 40 }, out := [] })) ∧
    ((s.eng.buf m).state ≠ .empty → exec .sectorDataStart s = .next (settle s
      { s with
        eng := { s.eng with phase := .rotating, sector := none, headerOk := false, heldOff := false }
        drv := { s.drv with
          wordTime := 40, readGate := false, headSel := headOf (sl.platter.getD .C) (sl.start.getD 0 + m) }
        out := [] }))

/-- SECTOR_END of the target's sector, its header found good (R6 to R8, R117, R118, R120 to R122, R124, R130): a disk
read's buffer becomes GOOD, a CHECK's is compared, a sector under write gate is put out whole with its check and
counts as written, and the buffer of a write or CHECK goes on to the position two on; the engine goes to the next
target, or the request ends after the last sector, a disk read's once it is drained. A read or CHECK that fails its
data check is read again three times, then after a recalibrate, and then ends with DATA_CHECK; a word that differs
ends a CHECK with COMPARE_FAILED. In FINISHING the sector under write gate is put out whole too, one held off is not,
and the engine stops (R128). Two points are the model's: a reread is counted when the sector read again is judged (log
entry 21), and a fetch in progress does not hold back the end of a write or CHECK (log entry 39). -/
def Obligations.SectorsEnd : Prop :=
  (∀ (data : List Word) (chk : Option Word) (p : Platter) (k : Nat) (s : State), s.eng.phase = .finishing →
    s.eng.headerOk = true → s.drv.writeGate = true → s.eng.sector = some (p, k) →
    ∃ gap ws, gap.length = 12 ∧
      ws = (s.eng.buf s.eng.m).words ++ List.replicate (256 - (s.eng.buf s.eng.m).words.length) 0 ∧
      exec (.sectorEnd data chk) s = .next (settle s
        { s with
          eng := Engine.cleared s.eng.abandoned
          drv := { s.drv with wordTime := 296, readGate := false, writeGate := false }
          out := [.sectorSent p k gap ws (dataCheck ws)] })) ∧
  (∀ (data : List Word) (chk : Option Word) (s : State), s.eng.phase = .finishing → s.eng.headerOk = true →
    s.drv.writeGate = false → exec (.sectorEnd data chk) s = .next (settle s
      { s with
        eng := Engine.cleared s.eng.abandoned
        drv := { s.drv with wordTime := 296, readGate := false }
        out := [] })) ∧
  ∀ (i : Fin 12) (sl : Slot) (m : Nat) (data : List Word) (chk : Option Word) (s : State), engineSlot s = some i →
    sl = s.slot i → m = s.eng.m → s.eng.phase = .inSector → s.eng.headerOk = true →
    (sl.isKind Kind.diskRead = true → (s.eng.buf m).state = .receiving) →
    sl.isKind Kind.transfers = true → s.eng.ending = none →
    ∃ u, exec (.sectorEnd data chk) s = .next (settle s u) ∧
      u.intake = s.intake ∧ u.map = s.map ∧ u.pres = s.pres ∧ u.counter = s.counter ∧ u.clk = s.clk ∧
      (s.sel.isSome = true → u.sel = s.sel) ∧
      (∀ j, j ≠ i → (s.slot j).state ≠ .lockwait → u.slot j = s.slot j) ∧
      (sl.isKind Kind.diskRead = true → data.length = 256 → chk = some (dataCheck data) →
        u.eng.buf m = ⟨.good, m, 0, data⟩ ∧ u.tap = s.tap ∧
        (s.eng.rereads = 0 → u.slot i = sl) ∧
        (s.eng.rereads ≠ 0 → u.slot i = { sl with retried := true, rereads := min 15 (sl.rereads + 1) }) ∧
        (m + 1 < sl.sectors → GoesToNext sl m s u) ∧
        (sl.sectors ≤ m + 1 → u.eng.phase = .draining ∧ u.eng.ending = some ⟨.ok, s.clk.count, true⟩)) ∧
      (sl.isKind Kind.diskWrite = false → ¬ (data.length = 256 ∧ chk = some (dataCheck data)) →
        (s.eng.recalibrated = false → u.eng.target = s.eng.target ∧ u.drv.readGate = false ∧ u.tap = s.tap ∧
          (s.eng.rereads = 0 → u.slot i = sl) ∧
          (s.eng.rereads ≠ 0 → u.slot i = { sl with rereads := min 15 (sl.rereads + 1) }) ∧
          (s.eng.rereads < 3 → u.eng.phase = .rotating ∧ u.eng.rereads = s.eng.rereads + 1 ∧ u.out = []) ∧
          (3 ≤ s.eng.rereads → u.eng.phase = .recalWait ∧ u.eng.recalibrated = true ∧ u.out = [.recalibrate] ∧
            u.eng.moveTo = (sl.start.getD 0 + m) / 32 ∧ u.eng.seekRetry = true ∧
            u.eng.span = some ⟨s.clk.count + 256, false⟩)) ∧
        (s.eng.recalibrated = true → (s.eng.buf (m + 1)).state ≠ .good → (s.eng.buf m).state ≠ .good →
          (u.slot i).state = .posting ∧ (u.slot i).status = some .dataCheck ∧ (u.slot i).instant = s.clk.count ∧
            (u.tap.get sl.side).fence = none ∧ u.eng.work = none)) ∧
      (sl.kind = some .check → data.length = 256 → chk = some (dataCheck data) →
        (∀ k, k < sl.wordsAt m → data.getD k 0 = (s.eng.buf m).words.getD k 0) →
        (m + 1 < sl.sectors → GoesToNext sl m s u ∧ u.tap = s.tap ∧
          u.eng.buf m = if m + 2 < sl.sectors then ⟨.filling, m + 2, 0, []⟩ else ⟨.empty, 0, 0, []⟩) ∧
        (sl.sectors ≤ m + 1 → (s.eng.buf (m + 1)).state ≠ .good → (u.slot i).state = .posting ∧
          (u.slot i).status = some .ok ∧ (u.slot i).instant = s.clk.count)) ∧
      (∀ k, sl.kind = some .check → data.length = 256 → chk = some (dataCheck data) → k < sl.wordsAt m →
        data.getD k 0 ≠ (s.eng.buf m).words.getD k 0 →
        (∀ l, l < k → data.getD l 0 = (s.eng.buf m).words.getD l 0) →
        (s.eng.buf m).state ≠ .good → (s.eng.buf (m + 1)).state ≠ .good →
        (u.slot i).state = .posting ∧ (u.slot i).status = some .compareFailed ∧
          (u.slot i).residual = BitVec.ofNat 16 (recCount sl.words - (sl.wordsBefore m + k))) ∧
      (sl.isKind Kind.diskWrite = true → u.drv.writeGate = false ∧ u.drv.readGate = false ∧
        (∀ p k ws, s.drv.writeGate = true → s.eng.sector = some (p, k) →
          ws = (s.eng.buf m).words ++ List.replicate (256 - (s.eng.buf m).words.length) 0 →
          ∃ gap more, gap.length = 12 ∧ u.out = .sectorSent p k gap ws (dataCheck ws) :: more) ∧
        (m + 1 < sl.sectors → GoesToNext sl m s u ∧ u.tap = s.tap ∧ u.slot i = sl ∧
          u.eng.written = (if s.drv.writeGate then s.eng.written + 1 else s.eng.written) ∧
          u.eng.buf m = if m + 2 < sl.sectors then ⟨.filling, m + 2, 0, []⟩ else ⟨.empty, 0, 0, []⟩) ∧
        (sl.sectors ≤ m + 1 → (s.eng.buf (m + 1)).state ≠ .good →
          (u.slot i).state = .posting ∧ (u.slot i).instant = s.clk.count ∧
          (u.slot i).status = some (if s.eng.protectSeen.isSome then .writeProtected else .ok) ∧
          (u.slot i).residual = BitVec.ofNat 16 (recCount sl.words -
            sl.wordsBefore (if s.drv.writeGate then s.eng.written + 1 else s.eng.written))))

/-! ### The engine and the drive -/

/-- The engine takes the ACTIVE slot when it has no work and is not FINISHING (R113, R121, R133): with the drive READY a
RESTORE recalibrates; any other request waits for an abandoned movement, or is on its cylinder, or seeks to it, with the
first buffer filling for a write or CHECK; a RESTORE in FAULTED issues the fault reset; and every other request, or one in
another state, ends at once. That a RESTORE in READY recalibrates at once also over an abandoned movement is read from the
rules: log entry 22. That the phase is IDLE while a request waits for an abandoned movement, and that WRITE_PROTECTED
is handed over at once, whatever fetch is in progress, are the model's choices: log entries 47 and 39. -/
def Obligations.EngineTakesTheActiveSlot : Prop :=
  ∀ (i : Fin 12) (sl : Slot) (c : Nat) (s u : State), s.activeSlot = some i → engineSlot s ≠ some i →
    s.eng.phase ≠ .finishing → sl = s.slot i → u = engineReady s →
    c = (if sl.kind = some .seek then recCylinder sl.words else sl.start.getD 0 / 32) →
    (s.drv.state = .ready → sl.kind = some .restore →
      u = { s with
        eng := { Engine.cleared s.eng.abandoned with
          work := some (i, sl.tenure), target := some 0, phase := .restoring, restore := some .ready
          span := some ⟨s.clk.count + 256, false⟩ }
        drv := { s.drv with move := some .recalibrate, markSeen := false }
        out := s.out ++ [.recalibrate] }) ∧
    (s.drv.state = .ready → sl.kind ≠ some .restore →
      (sl.kind = some .write ∨ sl.kind = some .contWrite ∨ sl.kind = some .check → s.eng.abandoned ≠ none ∨ s.drv.cyl ≠ c →
        u.eng.buf0 = ⟨.filling, 0, 0, []⟩) ∧
      (s.eng.abandoned ≠ none → u.eng.phase = .idle ∧ u.eng.begun = false ∧ u.eng.work = some (i, sl.tenure) ∧
        u.out = s.out ∧ u.eng.abandoned = s.eng.abandoned ∧ u.slots = s.slots ∧ u.drv = s.drv) ∧
      (s.eng.abandoned = none → s.drv.cyl = c → s.drv.writeGate = false →
        (sl.kind = some .seek → (u.slot i).state = .posting ∧ (u.slot i).status = some .ok) ∧
        (sl.isKind Kind.diskWrite = true → sl.platter = some .C → s.drv.inp.writeProtect = true →
          (u.slot i).state = .posting ∧ (u.slot i).status = some .writeProtected) ∧
        (sl.kind ≠ some .seek → sl.isKind Kind.diskWrite = false ∨ sl.platter ≠ some .C ∨
            s.drv.inp.writeProtect = false →
          u.eng.phase = .rotating ∧ u.eng.begun = true ∧ u.eng.target = some 0 ∧ u.slots = s.slots ∧
            u.drv.headSel = headOf (sl.platter.getD .C) (sl.start.getD 0) ∧
            (sl.kind = some .write ∨ sl.kind = some .contWrite ∨ sl.kind = some .check →
              u.eng.buf0 = ⟨.filling, 0, 0, []⟩))) ∧
      (s.eng.abandoned = none → s.drv.cyl ≠ c →
        u.eng.phase = .seeking ∧ u.eng.moveTo = c ∧ u.eng.span = some ⟨s.clk.count + 64, false⟩ ∧
          u.eng.seekRetry = false ∧ u.drv.cylAddr = c ∧ u.drv.move = some (.seek c) ∧ u.slots = s.slots ∧
          u.out = s.out ++ [.seekStrobe c])) ∧
    (s.drv.state = .faulted → sl.kind = some .restore →
      (s.drv.inp.fault = true → u.out = s.out ++ [.faultReset] ∧ u.drv.state = .faulted ∧ u.drv.recovery = true ∧
        u.drv.span = some ⟨s.clk.count + 256, false⟩ ∧ u.eng.phase = .restoring ∧ u.slots = s.slots) ∧
      (s.drv.inp.fault = false → s.drv.inp.upToSpeed = true → u.out = s.out ++ [.faultReset, .recalibrate] ∧
        u.drv.state = .recalibrating ∧ u.drv.recovery = true ∧ u.drv.span = some ⟨s.clk.count + 256, false⟩ ∧
        u.eng.phase = .restoring ∧ u.slots = s.slots) ∧
      (s.drv.inp.fault = false → s.drv.inp.upToSpeed = false → u.out = s.out ++ [.faultReset, .spindleStart] ∧
        u.drv.state = .spinningUp ∧ u.drv.recovery = true ∧ u.drv.span = some ⟨s.clk.count + 25600, false⟩ ∧
        u.eng.phase = .restoring ∧ u.slots = s.slots)) ∧
    ((∀ p j, (s.tap.get sl.side).arb = .part p → p.kind = .data j → p.abandoned = true) →
      (s.drv.state = .faulted → sl.kind ≠ some .restore →
        (u.slot i).state = .posting ∧ (u.slot i).status = some .driveFault ∧ (u.slot i).instant = s.clk.count) ∧
      (s.drv.state ≠ .ready → s.drv.state ≠ .faulted →
        (u.slot i).state = .posting ∧ (u.slot i).status = some .notReady ∧ (u.slot i).instant = s.clk.count))

/-- SEEK_SPAN_END with the retry unused, and ON_CYLINDER_RISE (R114, R115, R133, R156): the seek's timeout recalibrates; a
rise of on cylinder records the cylinder sought, or 0 after a recalibrate, and ends the engine's movement: a seek has
arrived, a recalibrate is followed by the seek unless its target is cylinder 0, and a RESTORE in READY ends with OK. An
abandoned movement is then none, and a request that waited for it begins: it has arrived where its cylinder is the one
recorded, and seeks to it otherwise (R113, R115). Five points are the model's: that such a request waits in IDLE (log
entry 47), that WRITE_PROTECTED is handed over at once, also while a prefetch cycle is in progress (log entry 39), the
instant of a SEEK that waited and
needs no seek (log entry 40), the moment of the write-protect check of a write that did (log entry 41), and that in
OFFLINE the rise leaves C and the engine as they are, by R164 (log entry 42). -/
def Obligations.MovementsEnd : Prop :=
  (∀ (e : Word) (s : State), s.eng.phase = .seeking → s.eng.span = some ⟨e, true⟩ → s.eng.seekRetry = false →
    exec .seekSpanEnd s = .next (settle s
      { s with
        eng := { s.eng with phase := .recalWait, seekRetry := true, span := some ⟨s.clk.count + 256, false⟩ }
        drv := { s.drv with move := some .recalibrate, markSeen := false }
        out := [.recalibrate] })) ∧
  ∀ s : State, s.drv.inp.onCylinder = false → s.drv.openPending = false →
    ∃ v, exec .onCylinderRise s = .next (settle s (reconcileDrive v)) ∧
      v.drv.inp = { s.drv.inp with onCylinder := true } ∧
      (s.drv.state = .offline → v.drv.cyl = s.drv.cyl ∧ v.eng = s.eng) ∧
      (s.drv.state ≠ .offline →
        (∀ c, s.drv.move = some (.seek c) → v.drv.cyl = c) ∧
        (s.drv.move = some .recalibrate → v.drv.cyl = 0) ∧
        (s.drv.move = none → v.drv.cyl = s.drv.cyl)) ∧
      v.intake = s.intake ∧ v.map = s.map ∧ v.counter = s.counter ∧ v.clk = s.clk ∧ v.drv.mounted = s.drv.mounted ∧
      (s.drv.state = .ready →
        v.pres = s.pres ∧ v.eng.abandoned = none ∧
        (∀ i, engineSlot s = some i → s.eng.abandoned = none → s.drv.move ≠ none →
          (s.eng.phase = .seeking ∨ (s.eng.phase = .recalWait ∧ s.eng.moveTo = 0) → Arrived s v i) ∧
          (s.eng.phase = .recalWait → s.eng.moveTo ≠ 0 → v.eng.phase = .seeking ∧ v.eng.seekRetry = true ∧
            v.eng.span = some ⟨s.clk.count + 64, false⟩ ∧ v.drv.cylAddr = s.eng.moveTo ∧
            v.drv.move = some (.seek s.eng.moveTo) ∧ v.out = [.seekStrobe s.eng.moveTo] ∧ v.slots = s.slots) ∧
          (s.eng.phase = .restoring → s.eng.restore = some .ready → RequestEnded s v i .ok)) ∧
        (∀ i c, engineSlot s = some i → s.eng.abandoned ≠ none → s.eng.phase = .idle → s.eng.begun = false →
          s.eng.ending = none →
          c = (if (s.slot i).kind = some .seek then recCylinder (s.slot i).words else
            ((s.slot i).start.getD 0) / 32) →
          (v.drv.cyl = c → Arrived s v i) ∧
          (v.drv.cyl ≠ c → v.eng.phase = .seeking ∧ v.eng.moveTo = c ∧ v.eng.seekRetry = false ∧
            v.eng.span = some ⟨s.clk.count + 64, false⟩ ∧ v.drv.cylAddr = c ∧ v.drv.move = some (.seek c) ∧
            v.out = [.seekStrobe c] ∧ v.slots = s.slots ∧ v.eng.buf0 = s.eng.buf0 ∧ v.eng.buf1 = s.eng.buf1)))

/-- The events that make the drive FAULTED, with their causes (R114, R115, R125, R157, R161, R162): FAULT_RISE in
SPINNING_UP, RECALIBRATING, READY or PARKED; SEEK_SPAN_END with the retry used; ENGINE_RECAL_SPAN_END;
ABANDONED_MOVEMENT_SPAN_END; SPIN_UP_TIMEOUT; RECALIBRATE_TIMEOUT; FAULT_RESET_SPAN_END. -/
def Obligations.FaultsAreEntered : Prop :=
  ∀ (c : Instr) (cause : Nat) (e : Word) (s : State),
    (c = .faultRise ∧ cause = 4 ∧ s.drv.inp.fault = false ∧ s.drv.openPending = false ∧
        (s.drv.state = .spinningUp ∨ s.drv.state = .recalibrating ∨ s.drv.state = .ready ∨ s.drv.state = .parked)) ∨
      (c = .seekSpanEnd ∧ cause = 1 ∧ s.eng.phase = .seeking ∧ s.eng.span = some ⟨e, true⟩ ∧ s.eng.seekRetry = true) ∨
      (c = .engineRecalSpanEnd ∧ cause = 2 ∧ s.eng.span = some ⟨e, true⟩ ∧
        (s.eng.phase = .recalWait ∨ (s.eng.phase = .restoring ∧ s.eng.restore = some .ready))) ∨
      (c = .abandonedMovementSpanEnd ∧ cause = 1 ∧ ∃ k, s.eng.abandoned = some (.seek k, ⟨e, true⟩)) ∨
      (c = .abandonedMovementSpanEnd ∧ cause = 2 ∧ s.eng.abandoned = some (.recalibrate, ⟨e, true⟩)) ∨
      (c = .spinUpTimeout ∧ cause = 3 ∧ s.drv.state = .spinningUp ∧ s.drv.span = some ⟨e, true⟩) ∨
      (c = .recalibrateTimeout ∧ cause = 2 ∧ s.drv.state = .recalibrating ∧ s.drv.span = some ⟨e, true⟩) ∨
      (c = .faultResetSpanEnd ∧ cause = 4 ∧ s.drv.state = .faulted ∧ s.drv.recovery = true ∧
        s.drv.span = some ⟨e, true⟩) →
    ∃ u, exec c s = .next (settle s u) ∧ FaultEntry s u cause ∧ u.clk = s.clk ∧
      u.drv.inp = { s.drv.inp with fault := s.drv.inp.fault || decide (c = .faultRise) } ∧
      (s.drv.writeGate = false → u.out = [])

/-- The events that move the drive between its other states, with no OPEN entry under way (R157, R158, R160, R162 to
R164), each with its pulse and its state span; with the fault input asserted an entry to RECALIBRATING or SPINNING_UP
is one to FAULTED with cause 4. A rise of power with the cartridge out goes through the whole OPEN entry; a fall of up
to speed in OPEN with the cartridge in leaves it for STOPPED; READY reached with recovery under way ends a RESTORE with
OK, and the states that end one with NOT_READY are in `StateEntry` (R133). In the states that an event does not move, the
input is recorded, a fall of up to speed makes TIMER the clock's source all the same (R11), and idle control acts as at
every event. Three points are the model's: an OPEN entry
that finds a slot ACTIVE waits for OPEN_ENTRY_RESUME (log entry 18), READY is entered when heads loaded rises whether or
not on cylinder is still asserted (log entry 24), and a sector that an entry cuts is put out after the entry's pulse (log
entry 54). -/
def Obligations.DriveStatesChange : Prop :=
  ∀ (e : Word) (s : State), s.drv.openPending = false →
    (s.drv.inp.power = true → s.drv.state ≠ .offline →
      ∃ v, exec .powerPresentFall s = .next (settle s (reconcileDrive v)) ∧ StateEntry s v .offline none [] ∧
        v.pres = s.pres ∧ v.drv.recovery = false ∧ v.clk = ⟨s.clk.count, .timer⟩ ∧
        v.drv.inp = { s.drv.inp with power := false, upToSpeed := false }) ∧
    (s.drv.inp.power = false → s.drv.state = .offline → s.drv.inp.cartridgeClosed = true →
      ∃ v, exec .powerPresentRise s = .next (settle s (reconcileDrive v)) ∧ v.clk = s.clk ∧
        v.drv.inp = { s.drv.inp with power := true } ∧
        (s.drv.inp.upToSpeed = false → StateEntry s v .stopped none [] ∧ v.pres = s.pres) ∧
        (s.drv.inp.upToSpeed = true → s.drv.inp.fault = false → v.pres = s.pres ∧
          StateEntry s v .recalibrating (some ⟨s.clk.count + 256, false⟩) [.recalibrate]) ∧
        (s.drv.inp.upToSpeed = true → s.drv.inp.fault = true → v.drv.state = .faulted ∧ v.drv.cause = 4)) ∧
    (s.drv.inp.power = false → s.drv.state = .offline → s.drv.inp.cartridgeClosed = false →
      ∃ v, exec .powerPresentRise s = .next (settle s v) ∧ v.clk = s.clk ∧
        v.drv.state = .opened ∧ v.drv.cause = 0 ∧ v.drv.span = none ∧ v.drv.recovery = false ∧
        v.drv.inp = { s.drv.inp with power := true } ∧
        (s.activeSlot = none → engineSlot s = none → s.eng.phase ≠ .finishing →
          (∀ i, (s.slot i).state = .lockwait → (s.slot i).kind = some .lock →
            (s.slot i).platter = some (recLockPlatter (s.slot i).words)) → OpenDone s v ∧ v.out = []) ∧
        (s.activeSlot ≠ none → v.drv.openPending = true ∧ ∀ i, AtWork s i → RequestEnded s v i .notReady)) ∧
    (s.drv.inp.upToSpeed = true → s.drv.state = .opened →
      ∃ v, exec .upToSpeedFall s = .next (settle s (reconcileDrive v)) ∧ v.clk = ⟨s.clk.count, .timer⟩ ∧
        v.pres = s.pres ∧ v.drv.inp = { s.drv.inp with upToSpeed := false } ∧
        (s.drv.inp.cartridgeClosed = true → StateEntry s v .stopped none []) ∧
        (s.drv.inp.cartridgeClosed = false → v.drv.state = .opened ∧ v.eng = s.eng ∧ v.slots = s.slots ∧ v.out = [])) ∧
    (∀ c f, (c = .upToSpeedRise ∧ s.drv.state = .spinningUp ∧ s.drv.inp.upToSpeed = false ∧
          f = { s.drv.inp with upToSpeed := true }) ∨
        (c = .headsLoadedFall ∧ s.drv.state = .ready ∧ s.drv.inp.headsLoaded = true ∧
          f = { s.drv.inp with headsLoaded := false }) ∨
        (c = .onCylinderFall ∧ s.drv.state = .ready ∧ s.drv.move = none ∧ s.drv.inp.onCylinder = true ∧
          f = { s.drv.inp with onCylinder := false }) →
      ∃ v, exec c s = .next (settle s (reconcileDrive v)) ∧ v.clk = s.clk ∧ v.drv.inp = f ∧
        (s.drv.inp.fault = false → v.pres = s.pres ∧ v.drv.move = some .recalibrate ∧ v.drv.homed = false ∧
          StateEntry s v .recalibrating (some ⟨s.clk.count + 256, false⟩) [.recalibrate]) ∧
        (s.drv.inp.fault = true → v.drv.state = .faulted ∧ v.drv.cause = 4)) ∧
    (s.drv.inp.upToSpeed = true → s.drv.state = .recalibrating ∨ s.drv.state = .ready ∨ s.drv.state = .parked →
      ∃ v, exec .upToSpeedFall s = .next (settle s (reconcileDrive v)) ∧ v.clk = ⟨s.clk.count, .timer⟩ ∧
        v.drv.inp = { s.drv.inp with upToSpeed := false } ∧
        (s.drv.inp.fault = false → v.pres = s.pres ∧
          StateEntry s v .spinningUp (some ⟨s.clk.count + 25600, false⟩) [.spindleStart]) ∧
        (s.drv.inp.fault = true → v.drv.state = .faulted ∧ v.drv.cause = 4)) ∧
    (∀ c, (c = .headsLoadedRise ∧ s.drv.inp.headsLoaded = false ∧ s.drv.homed = true) ∨
        (c = .onCylinderRise ∧ s.drv.inp.onCylinder = false ∧ s.drv.move = some .recalibrate ∧
          s.drv.inp.headsLoaded = true ∧ s.eng.abandoned = none ∧
          (s.eng.phase = .idle ∨ s.eng.phase = .restoring ∧ s.eng.restore = some .faulted)) →
      s.drv.state = .recalibrating →
      ∃ v, exec c s = .next (settle s (reconcileDrive v)) ∧ v.drv.state = .ready ∧ v.drv.cause = 0 ∧ v.drv.span = none ∧
        v.drv.recovery = false ∧ v.drv.cyl = (if c = .onCylinderRise then 0 else s.drv.cyl) ∧
        (∀ i, AtWork s i → (s.slot i).kind = some .restore → s.eng.restore = some .faulted → RequestEnded s v i .ok) ∧
        ∀ y, v.pres.get y = if s.drv.recovery && s.live y then ((s.pres.get y).join .drive 1 0 3).examine
          else s.pres.get y) ∧
    (s.drv.state = .ready → s.drv.span = some ⟨e, true⟩ →
      ∃ v, exec .parkDelayEnd s = .next (settle s v) ∧ StateEntry s v .parked none [.headRetract] ∧ v.pres = s.pres ∧
        v.clk = s.clk) ∧
    (s.drv.state = .parked → s.drv.span = some ⟨e, true⟩ →
      ∃ v, exec .spinDownDelayEnd s = .next (settle s v) ∧ StateEntry s v .stopped none [.spindleStop] ∧
        v.pres = s.pres ∧ v.clk = s.clk) ∧
    (s.drv.state = .faulted → s.drv.recovery = true → s.drv.span ≠ none → s.drv.inp.fault = true →
      ∃ v, exec .faultFall s = .next (settle s (reconcileDrive v)) ∧ v.drv.recovery = true ∧ v.pres = s.pres ∧
        v.drv.inp = { s.drv.inp with fault := false } ∧
        (s.drv.inp.upToSpeed = true →
          StateEntry s v .recalibrating (some ⟨s.clk.count + 256, false⟩) [.recalibrate]) ∧
        (s.drv.inp.upToSpeed = false →
          StateEntry s v .spinningUp (some ⟨s.clk.count + 25600, false⟩) [.spindleStart])) ∧
    (∀ c f, (c = .upToSpeedRise ∧ s.drv.state ≠ .spinningUp ∧ s.drv.inp.upToSpeed = false ∧
          f = { s.drv.inp with upToSpeed := true }) ∨
        (c = .headsLoadedRise ∧ s.drv.state ≠ .recalibrating ∧ s.drv.inp.headsLoaded = false ∧
          f = { s.drv.inp with headsLoaded := true }) ∨
        (c = .headsLoadedFall ∧ s.drv.state ≠ .ready ∧ s.drv.inp.headsLoaded = true ∧
          f = { s.drv.inp with headsLoaded := false }) ∨
        (c = .onCylinderFall ∧ (s.drv.state ≠ .ready ∨ s.drv.move ≠ none) ∧ s.drv.inp.onCylinder = true ∧
          f = { s.drv.inp with onCylinder := false }) ∨
        (c = .faultRise ∧ (s.drv.state = .faulted ∨ s.drv.state = .stopped ∨ s.drv.state = .opened ∨
          s.drv.state = .offline) ∧ s.drv.inp.fault = false ∧ f = { s.drv.inp with fault := true }) ∨
        (c = .faultFall ∧ (s.drv.state ≠ .faulted ∨ s.drv.recovery = false) ∧ s.drv.inp.fault = true ∧
          f = { s.drv.inp with fault := false }) →
      exec c s = .next (settle s (reconcileDrive { s with drv := { s.drv with inp := f }, out := [] }))) ∧
    (∀ c f, (c = .upToSpeedFall ∧ s.drv.inp.upToSpeed = true ∧ (s.drv.state = .stopped ∨ s.drv.state = .spinningUp ∨
            s.drv.state = .faulted ∨ s.drv.state = .offline) ∧ f = { s.drv.inp with upToSpeed := false }) ∨
        (c = .powerPresentFall ∧ s.drv.inp.power = true ∧ s.drv.state = .offline ∧
          f = { s.drv.inp with power := false, upToSpeed := false }) →
      exec c s = .next (settle s
        (reconcileDrive { s with clk := ⟨s.clk.count, .timer⟩, drv := { s.drv with inp := f }, out := [] }))) ∧
    (s.drv.inp.power = false → s.drv.state ≠ .offline → exec .powerPresentRise s = .next (settle s
      (reconcileDrive { s with drv := { s.drv with inp := { s.drv.inp with power := true } }, out := [] })))

/-- What the drive controller does of itself (R157, R159, R160): the idle target is the lower of the two levels, a
side IN_RESET counting as 2; STOPPED is left for SPINNING_UP, and PARKED for RECALIBRATING, when a slot waits or the
target asks for it, to FAULTED with cause 4 where the fault input is asserted then, and from STOPPED on to
RECALIBRATING where the spindle is still at speed; the park and spin-down spans run exactly while their conditions
hold; the other states are left alone. That an entry which finds the fault input issues its pulse is read from R157:
log entry 23. That the fault is taken first where the spindle is at speed too, with no recalibrate pulse, is the model's
choice: log entry 49; that a sector which an entry cuts is put out after its pulses is another: log entry 54. -/
def Obligations.IdleControlActs : Prop :=
  ∀ s : State,
    s.idleTarget = min (if s.live .A then s.drv.idle.get .A else 2) (if s.live .B then s.drv.idle.get .B else 2) ∧
    (∀ i, i ∈ s.waitingSlots ↔ (s.slot i).state = .waiting) ∧
    (s.drv.state = .stopped →
      (s.waitingSlots = [] → 2 ≤ s.idleTarget → reconcileDrive s = s) ∧
      (s.waitingSlots ≠ [] ∨ s.idleTarget < 2 → s.drv.inp.fault = false → s.drv.inp.upToSpeed = false → s.out = [] →
        StateEntry s (reconcileDrive s) .spinningUp (some ⟨s.clk.count + 25600, false⟩) [.spindleStart]) ∧
      (s.waitingSlots ≠ [] ∨ s.idleTarget < 2 → s.drv.inp.fault = false → s.drv.inp.upToSpeed = true → s.out = [] →
        s.drv.writeGate = false → StateEntry s (reconcileDrive s) .recalibrating
          (some ⟨s.clk.count + 256, false⟩) [.spindleStart, .recalibrate]) ∧
      (s.waitingSlots ≠ [] ∨ s.idleTarget < 2 → s.drv.inp.fault = true → s.out = [] →
        FaultFound s (reconcileDrive s) .spindleStart)) ∧
    (s.drv.state = .parked →
      (s.waitingSlots ≠ [] ∨ s.idleTarget = 0 → s.drv.inp.fault = false → s.out = [] →
        StateEntry s (reconcileDrive s) .recalibrating (some ⟨s.clk.count + 256, false⟩) [.recalibrate]) ∧
      (s.waitingSlots ≠ [] ∨ s.idleTarget = 0 → s.drv.inp.fault = true → s.out = [] →
        FaultFound s (reconcileDrive s) .recalibrate) ∧
      (s.waitingSlots = [] → s.idleTarget = 2 → reconcileDrive s =
        { s with drv := { s.drv with span := some (s.drv.span.getD ⟨s.clk.count + 38400, false⟩) } }) ∧
      (s.waitingSlots = [] → s.idleTarget = 1 → reconcileDrive s = { s with drv := { s.drv with span := none } })) ∧
    (s.drv.state = .ready →
      (s.waitingSlots = [] → s.activeSlot = none → 1 ≤ s.idleTarget → reconcileDrive s =
        { s with drv := { s.drv with span := some (s.drv.span.getD ⟨s.clk.count + 1024, false⟩) } }) ∧
      (s.waitingSlots ≠ [] ∨ s.activeSlot ≠ none ∨ s.idleTarget = 0 →
        reconcileDrive s = { s with drv := { s.drv with span := none } })) ∧
    (s.drv.state ≠ .stopped → s.drv.state ≠ .parked → s.drv.state ≠ .ready → reconcileDrive s = s)

/-- The OPEN entry (R163, R60, R76, R111) at LOAD_SWITCH_PRESSED and CARTRIDGE_CLOSED_FALL, with OPEN_ENTRY_RESUME,
CARTRIDGE_CLOSED_RISE and WRITE_PROTECT_CHANGE (R117): the sequence is gone through at once with no slot ACTIVE, and
after the ACTIVE slot, a RESTORE's too, has ended with NOT_READY otherwise (R126, R133); the two events have no effect
in OPEN and OFFLINE; OPEN is left for STOPPED
at a rise of cartridge closed with the spindle stopped; and every event of the controller is held back while the
sequence waits, and taken after it in its order, as the event it is. The lock requests that wait name the platter
their slots record. A rise of write-protect cuts a sector under write gate on platter C, in FINISHING too, and the
request goes on, or after its last sector ends, with WRITE_PROTECTED; a sector of platter F is not cut (R13). That the
sequence's end is a command of its own is the model's choice: log entry 18; that the request then ends at once, whatever
fetch is in progress, is log entry 39. -/
def Obligations.CartridgeEventsAct : Prop :=
  (∀ (c : Instr) (f : DriveInputs) (s : State), s.drv.openPending = false →
    (c = .loadSwitchPressed ∧ f = s.drv.inp) ∨
      (c = .cartridgeClosedFall ∧ s.drv.inp.cartridgeClosed = true ∧ f = { s.drv.inp with cartridgeClosed := false }) →
    (s.drv.state = .opened ∨ s.drv.state = .offline →
      exec c s = .next (settle s { s with drv := { s.drv with inp := f }, out := [] })) ∧
    (s.drv.state ≠ .opened → s.drv.state ≠ .offline →
      ∃ u, exec c s = .next (settle s u) ∧ u.drv.state = .opened ∧ u.drv.cause = 0 ∧ u.drv.span = none ∧
        u.drv.recovery = false ∧ u.drv.inp = f ∧ u.clk = s.clk ∧ u.eng.abandoned = none ∧
        (s.activeSlot = none → engineSlot s = none → s.eng.phase ≠ .finishing →
          (∀ i, (s.slot i).state = .lockwait → (s.slot i).kind = some .lock →
            (s.slot i).platter = some (recLockPlatter (s.slot i).words)) → OpenDone s u ∧ u.out = []) ∧
        (s.activeSlot ≠ none → u.drv.openPending = true ∧ u.drv.generation = s.drv.generation ∧
          u.drv.mounted = s.drv.mounted ∧ u.intake = s.intake ∧ u.pres = s.pres ∧
          ∀ i, AtWork s i → RequestEnded s u i .notReady))) ∧
  (∀ s : State, s.drv.openPending = true → s.activeSlot = none →
    (∀ i, (s.slot i).state = .lockwait → (s.slot i).kind = some .lock →
      (s.slot i).platter = some (recLockPlatter (s.slot i).words)) →
    ∃ v, exec .openEntryResume s = .next (settle s (s.drv.deferred.foldl takeHeldEvent v)) ∧ OpenDone s v ∧
      v.drv.state = s.drv.state ∧ v.drv.deferred = []) ∧
  (∀ (e : DriveEvent) (s : State), s.drv.openPending = false →
    takeHeldEvent s e = examine (reconcileDrive (driveEvent s e))) ∧
  (∀ s : State, s.drv.openPending = false → s.drv.inp.cartridgeClosed = false → s.drv.state = .opened →
    (s.drv.inp.upToSpeed = false →
      ∃ v, exec .cartridgeClosedRise s = .next (settle s (reconcileDrive v)) ∧ StateEntry s v .stopped none [] ∧
        v.pres = s.pres ∧ v.drv.inp = { s.drv.inp with cartridgeClosed := true }) ∧
    (s.drv.inp.upToSpeed = true → exec .cartridgeClosedRise s = .next (settle s
      { s with drv := { s.drv with inp := { s.drv.inp with cartridgeClosed := true } }, out := [] }))) ∧
  (∀ (c : Instr) (ev : DriveEvent) (f : DriveInputs) (k : Clock) (s : State), InputEvent s c ev f k →
    (s.drv.openPending = true → exec c s = .next (settle s
      { s with clk := k, drv := { s.drv with inp := f, deferred := s.drv.deferred ++ [ev] }, out := [] })) ∧
    (s.drv.openPending = false → exec c s = .next (settle s
      (reconcileDrive (driveEvent { s with clk := k, drv := { s.drv with inp := f }, out := [] } ev))))) ∧
  (∀ (level : Bool) (s : State), s.drv.inp.writeProtect ≠ level →
    (level = false ∨ s.drv.writeGate = false ∨ (∃ k, s.eng.sector = some (.F, k)) →
      exec (.writeProtectChange level) s = .next (settle s
      { s with drv := { s.drv with inp := { s.drv.inp with writeProtect := level } }, out := [] })) ∧
    (∀ i k m, level = true → s.drv.writeGate = true → s.eng.sector = some (.C, k) → engineSlot s = some i →
      s.eng.phase = .inSector → s.eng.ending = none → m = s.eng.m → m + 1 < (s.slot i).sectors →
      ∃ u more, exec (.writeProtectChange level) s = .next (settle s u) ∧ u.drv.writeGate = false ∧
        u.out = .sectorCut .C k :: more ∧ u.eng.written = s.eng.written + 1 ∧
        u.eng.protectSeen = some (s.eng.protectSeen.getD m) ∧ GoesToNext (s.slot i) m s u) ∧
    (∀ i k m, level = true → s.drv.writeGate = true → s.eng.sector = some (.C, k) → engineSlot s = some i →
      s.eng.phase = .inSector → s.eng.ending = none → m = s.eng.m → (s.slot i).sectors ≤ m + 1 →
      (s.eng.buf (m + 1)).state ≠ .good →
      ∃ u, exec (.writeProtectChange level) s = .next (settle s u) ∧ u.drv.writeGate = false ∧
        u.out = [.sectorCut .C k] ∧ (u.slot i).state = .posting ∧ (u.slot i).status = some .writeProtected ∧
        (u.slot i).instant = s.clk.count ∧ u.eng.work = none) ∧
    (∀ k, level = true → s.drv.writeGate = true → s.eng.sector = some (.C, k) → s.eng.phase = .finishing →
      exec (.writeProtectChange level) s = .next (settle s
        { s with
          drv := { s.drv with inp := { s.drv.inp with writeProtect := level }, writeGate := false }
          out := [.sectorCut .C k] })))

/-- The words the part reads and computes. Read: the fields of a request record, as `RecordRead` lists them (R20 to
R23), and the kinds that the rules name together (R24). Computed: the part-owned cells with their offsets (R16 to R19),
the result words with LATE (R26, R27, R137), the notice word (R28), and the data check over one word more (R6), each as
the sum of its fields at their places, with the codes of the drive states, the protocol states, the statuses and the
notice kinds; the residual and the stop position of a request that never was ACTIVE, by the rows of R26, and of one that
the engine ran, by the rows of R130 and R131. -/
def Obligations.WordsHaveTheirLayout : Prop :=
  (∀ r : List Word, RecordRead r (fun k => (r.getD k 0).toNat)) ∧
  (∀ k : Kind, KindsNamed k) ∧
  (∀ (sl : Slot) (f : Kind → Bool), (sl.kind = recKind sl.words) ∧
    (sl.isKind f = true ↔ ∃ k, recKind sl.words = some k ∧ f k = true)) ∧
  (∀ sl : Slot, lockOf sl = ⟨sl.side, recLockPlatter sl.words, recCylinder sl.words, recLastCylinder sl.words,
    recExclusive sl.words⟩) ∧
  (∀ (sl : Slot) (n p : Nat), n = sl.n.getD 0 → sl.sectors = n ∧
    sl.wordsAt p = if p + 1 = n then recCount sl.words - 256 * (n - 1) else 256) ∧
  [DriveState.offline, .stopped, .spinningUp, .recalibrating, .ready, .parked, .opened, .faulted].map DriveState.code =
    List.range 8 ∧
  [Protocol.idle, .proposed .A, .proposed .B, .commitPending].map Protocol.code = List.range 4 ∧
  [NoticeKind.completion, .peer, .drive, .partition].map NoticeKind.code = List.range 4 ∧
  [Status.ok, .expired, .badKind, .badAddress, .badCount, .regionDenied, .noLock, .locked, .deadlock, .overlap,
    .lockTableFull, .lockInUse, .notHeld, .notMounted, .mediumChanged, .writeProtected, .noCursor, .regionChanging,
    .dataCheck, .headerMismatch, .notReady, .driveFault, .memoryTimeout, .compareFailed, .chainLimit].map Status.code =
    List.range 25 ∧
  [StatusCell.drive, .side, .map1, .map2, .partition].map StatusCell.offset = [15, 16, 17, 18, 19] ∧
  (∀ (s : State) (x : Side), cellWord s x .drive = driveCell s.drv ∧
    cellWord s x .side = sideCell (slotIds.countP (fun i => (s.slot i).state != .free && (s.slot i).side == x))
      (s.intake.get x).overrun (s.pres.get x).lost (s.drv.mounted.get x) (s.intake.get x).cursor.isSome ∧
    cellWord s x .map1 = BitVec.ofNat 16 s.map.p1 ∧ cellWord s x .map2 = BitVec.ofNat 16 s.map.p2 ∧
    cellWord s x .partition = partitionCell s.map x) ∧
  (∀ sl : Slot, sl.result 0 = sl.resultWord ∧ sl.result 1 = sl.residual ∧ sl.result 2 = sl.stop) ∧
  (∀ d : Drive, d.cause ≤ 4 → (driveCell d).toNat =
    d.state.code * 4096 + d.inp.writeProtect.toNat * 2048 + d.cause * 256 + d.generation.toNat) ∧
  (∀ (a b c : Nat) (m v : Bool), a ≤ 8 → b ≤ 15 → c ≤ 15 → (sideCell a b c m v).toNat =
    a + b * 16 + c * 256 + m.toNat * 4096 + v.toNat * 8192) ∧
  (∀ (m : RegionMap) (x : Side), m.last.get x ≤ 5 → (partitionCell m x).toNat =
    m.protocol.code + (m.proposal.get x).isSealed.toNat * 4 + (m.proposal.get x).mark1.toNat * 8 +
      (m.proposal.get x).mark2.toNat * 16 + m.last.get x * 256) ∧
  (∀ sl : Slot, sl.rereads ≤ 15 → sl.resultWord.toNat = (sl.status.getD .ok).code + sl.retried.toNat * 32 +
    sl.late.toNat * 64 + sl.touchedFlag.toNat * 128 + sl.rereads * 256) ∧
  (∀ sl : Slot, sl.late = true ↔
    ∃ d, sl.deadline = some d ∧ (sl.passed = true ∨ d = sl.instant ∨ 4095 < (d - sl.instant).toNat)) ∧
  (∀ e : Entry, e.prio ≤ 7 → e.tag ≤ 63 → e.code ≤ 31 → e.word.toNat =
    e.kind.code * 16384 + e.prio * 2048 + e.tag * 32 + e.code) ∧
  (∀ (sl : Slot) (k : Kind) (cursor : Option (Platter × Nat)), sl.kind = some k →
    (k.transfers = true → neverActiveResidual sl = recWord sl.words 5) ∧
    (k.transfers = false → neverActiveResidual sl = 0) ∧
    (k = .read ∨ k = .write ∨ k = .check → (neverActiveStop cursor sl).toNat =
      recCylinder sl.words * 64 + recHead sl.words * 16 + recSector sl.words) ∧
    (k = .contRead ∨ k = .contWrite →
      (∀ p i, sl.platter = some p → sl.start = some i → i < 12800 → DiskAddress (neverActiveStop cursor sl) p i) ∧
      (∀ p i, sl.platter = none ∨ sl.start = none → cursor = some (p, i) → i < 12800 →
        DiskAddress (neverActiveStop cursor sl) p i) ∧
      (sl.platter = none ∨ sl.start = none → cursor = none → neverActiveStop cursor sl = 0)) ∧
    (k = .seek → (neverActiveStop cursor sl).toNat = recCylinder sl.words * 64) ∧
    (k = .lock ∨ k = .unlock → (neverActiveStop cursor sl).toNat =
      recCylinder sl.words * 64 + if recLockPlatter sl.words = .F then 32 else 0) ∧
    (k = .mountAck ∨ k = .restore → neverActiveStop cursor sl = 0)) ∧
  (∀ (sl : Slot) (s : State),
    (∀ f, sl.isKind Kind.diskRead = true → (s.tap.get sl.side).fence = some f →
      residualOf s sl = BitVec.ofNat 16 (recCount sl.words - f.index)) ∧
    (sl.isKind Kind.diskWrite = true → residualOf s sl = BitVec.ofNat 16
      (recCount sl.words - if sl.sectors ≤ s.eng.written then recCount sl.words else 256 * s.eng.written)) ∧
    (sl.kind = some .check → s.eng.m < sl.sectors → residualOf s sl =
      BitVec.ofNat 16 (recCount sl.words - (256 * s.eng.m + s.eng.firstDiff.getD 0))) ∧
    (sl.kind = some .seek ∨ sl.kind = some .restore → residualOf s sl = 0)) ∧
  (∀ (sl : Slot) (p : Platter) (i0 : Nat) (st : Status) (s : State), sl.platter = some p → sl.start = some i0 →
    sl.isKind Kind.transfers = true → i0 + sl.sectors ≤ 12800 →
    (st = .ok → DiskAddress (stopOf s sl st) p (min 12799 (i0 + sl.sectors))) ∧
    (st = .writeProtected → s.eng.protectSeen.getD 0 < sl.sectors →
      DiskAddress (stopOf s sl st) p (i0 + s.eng.protectSeen.getD 0)) ∧
    (st ≠ .ok → st ≠ .writeProtected →
      (∀ f, sl.isKind Kind.diskRead = true → (s.tap.get sl.side).fence = some f → f.index < recCount sl.words →
        f.index / 256 < sl.sectors → DiskAddress (stopOf s sl st) p (i0 + f.index / 256)) ∧
      (sl.isKind Kind.diskWrite = true → s.eng.written < sl.sectors →
        DiskAddress (stopOf s sl st) p (i0 + s.eng.written)) ∧
      (sl.kind = some .check → s.eng.m < sl.sectors → DiskAddress (stopOf s sl st) p (i0 + s.eng.m)))) ∧
  (∀ (sl : Slot) (st : Status) (s : State),
    (sl.kind = some .seek → (stopOf s sl st).toNat = recCylinder sl.words * 64) ∧
    (sl.kind = some .restore → stopOf s sl st = 0)) ∧
  dataCheck [] = 0xFFFF ∧
  ∀ (ws : List Word) (w : Word), dataCheck (ws ++ [w]) =
    (List.range 16).foldl (fun (r : Word) (k : Nat) => if w.getLsbD (15 - k) = r.getLsbD 15 then r <<< 1 else (r <<< 1) ^^^ 0x1021)
      (dataCheck ws)
end

