-- ==== Sys2Proof/Laws/State.lean ====
section
/-! SUPPORT. One lemma for each field of State and each update of it, all true by unfolding, so that no later proof
unfolds a record update; and reading a side's value or a slot after it was replaced. -/

-- One declaration after another: the package is checked as one text, and every thread of its own would hold a stack.
set_option Elab.async false

namespace Sys2Proof

@[simp] theorem Sided.get_set_same {α : Type} (p : Sided α) (x : Side) (v : α) : (p.set x v).get x = v := by
  cases x <;> rfl

@[simp] theorem Sided.get_set_other {α : Type} (p : Sided α) (x : Side) (v : α) :
    (p.set x v).get x.other = p.get x.other := by
  cases x <;> rfl

theorem Sided.get_set {α : Type} (p : Sided α) (x y : Side) (v : α) :
    (p.set x v).get y = if y = x then v else p.get y := by
  cases x <;> cases y <;> rfl

theorem Sided.get_set_ne {α : Type} (p : Sided α) {x y : Side} (v : α) (h : y ≠ x) : (p.set x v).get y = p.get y := by
  rw [Sided.get_set, if_neg h]

@[simp] theorem Sided.get_both {α : Type} (v : α) (x : Side) : (Sided.both v).get x = v := by
  cases x <;> rfl

@[simp] theorem Side.other_other (x : Side) : x.other.other = x := by
  cases x <;> rfl

@[simp] theorem Side.other_ne (x : Side) : x.other ≠ x := by
  cases x <;> decide

@[simp] theorem Side.ne_other (x : Side) : x ≠ x.other := by
  cases x <;> decide

end Sys2Proof

namespace Sys2Proof.Machine

/-! ### State.modTap -/

@[simp] theorem State.modTap_tap (s : State) (x : Side) (f : Tap → Tap) : (s.modTap x f).tap = s.tap.set x (f (s.tap.get x)) := rfl
@[simp] theorem State.modTap_intake (s : State) (x : Side) (f : Tap → Tap) : (s.modTap x f).intake = s.intake := rfl
@[simp] theorem State.modTap_slots (s : State) (x : Side) (f : Tap → Tap) : (s.modTap x f).slots = s.slots := rfl
@[simp] theorem State.modTap_counter (s : State) (x : Side) (f : Tap → Tap) : (s.modTap x f).counter = s.counter := rfl
@[simp] theorem State.modTap_sel (s : State) (x : Side) (f : Tap → Tap) : (s.modTap x f).sel = s.sel := rfl
@[simp] theorem State.modTap_map (s : State) (x : Side) (f : Tap → Tap) : (s.modTap x f).map = s.map := rfl
@[simp] theorem State.modTap_locks (s : State) (x : Side) (f : Tap → Tap) : (s.modTap x f).locks = s.locks := rfl
@[simp] theorem State.modTap_eng (s : State) (x : Side) (f : Tap → Tap) : (s.modTap x f).eng = s.eng := rfl
@[simp] theorem State.modTap_drv (s : State) (x : Side) (f : Tap → Tap) : (s.modTap x f).drv = s.drv := rfl
@[simp] theorem State.modTap_post (s : State) (x : Side) (f : Tap → Tap) : (s.modTap x f).post = s.post := rfl
@[simp] theorem State.modTap_pres (s : State) (x : Side) (f : Tap → Tap) : (s.modTap x f).pres = s.pres := rfl
@[simp] theorem State.modTap_clk (s : State) (x : Side) (f : Tap → Tap) : (s.modTap x f).clk = s.clk := rfl
@[simp] theorem State.modTap_out (s : State) (x : Side) (f : Tap → Tap) : (s.modTap x f).out = s.out := rfl
@[simp] theorem State.modTap_pending (s : State) (x : Side) (f : Tap → Tap) : (s.modTap x f).pending = s.pending := rfl

/-! ### State.modIntake -/

@[simp] theorem State.modIntake_tap (s : State) (x : Side) (f : Intake → Intake) : (s.modIntake x f).tap = s.tap := rfl
@[simp] theorem State.modIntake_intake (s : State) (x : Side) (f : Intake → Intake) : (s.modIntake x f).intake = s.intake.set x (f (s.intake.get x)) := rfl
@[simp] theorem State.modIntake_slots (s : State) (x : Side) (f : Intake → Intake) : (s.modIntake x f).slots = s.slots := rfl
@[simp] theorem State.modIntake_counter (s : State) (x : Side) (f : Intake → Intake) : (s.modIntake x f).counter = s.counter := rfl
@[simp] theorem State.modIntake_sel (s : State) (x : Side) (f : Intake → Intake) : (s.modIntake x f).sel = s.sel := rfl
@[simp] theorem State.modIntake_map (s : State) (x : Side) (f : Intake → Intake) : (s.modIntake x f).map = s.map := rfl
@[simp] theorem State.modIntake_locks (s : State) (x : Side) (f : Intake → Intake) : (s.modIntake x f).locks = s.locks := rfl
@[simp] theorem State.modIntake_eng (s : State) (x : Side) (f : Intake → Intake) : (s.modIntake x f).eng = s.eng := rfl
@[simp] theorem State.modIntake_drv (s : State) (x : Side) (f : Intake → Intake) : (s.modIntake x f).drv = s.drv := rfl
@[simp] theorem State.modIntake_post (s : State) (x : Side) (f : Intake → Intake) : (s.modIntake x f).post = s.post := rfl
@[simp] theorem State.modIntake_pres (s : State) (x : Side) (f : Intake → Intake) : (s.modIntake x f).pres = s.pres := rfl
@[simp] theorem State.modIntake_clk (s : State) (x : Side) (f : Intake → Intake) : (s.modIntake x f).clk = s.clk := rfl
@[simp] theorem State.modIntake_out (s : State) (x : Side) (f : Intake → Intake) : (s.modIntake x f).out = s.out := rfl
@[simp] theorem State.modIntake_pending (s : State) (x : Side) (f : Intake → Intake) : (s.modIntake x f).pending = s.pending := rfl

/-! ### State.modPres -/

@[simp] theorem State.modPres_tap (s : State) (x : Side) (f : Presenter → Presenter) : (s.modPres x f).tap = s.tap := rfl
@[simp] theorem State.modPres_intake (s : State) (x : Side) (f : Presenter → Presenter) : (s.modPres x f).intake = s.intake := rfl
@[simp] theorem State.modPres_slots (s : State) (x : Side) (f : Presenter → Presenter) : (s.modPres x f).slots = s.slots := rfl
@[simp] theorem State.modPres_counter (s : State) (x : Side) (f : Presenter → Presenter) : (s.modPres x f).counter = s.counter := rfl
@[simp] theorem State.modPres_sel (s : State) (x : Side) (f : Presenter → Presenter) : (s.modPres x f).sel = s.sel := rfl
@[simp] theorem State.modPres_map (s : State) (x : Side) (f : Presenter → Presenter) : (s.modPres x f).map = s.map := rfl
@[simp] theorem State.modPres_locks (s : State) (x : Side) (f : Presenter → Presenter) : (s.modPres x f).locks = s.locks := rfl
@[simp] theorem State.modPres_eng (s : State) (x : Side) (f : Presenter → Presenter) : (s.modPres x f).eng = s.eng := rfl
@[simp] theorem State.modPres_drv (s : State) (x : Side) (f : Presenter → Presenter) : (s.modPres x f).drv = s.drv := rfl
@[simp] theorem State.modPres_post (s : State) (x : Side) (f : Presenter → Presenter) : (s.modPres x f).post = s.post := rfl
@[simp] theorem State.modPres_pres (s : State) (x : Side) (f : Presenter → Presenter) : (s.modPres x f).pres = s.pres.set x (f (s.pres.get x)) := rfl
@[simp] theorem State.modPres_clk (s : State) (x : Side) (f : Presenter → Presenter) : (s.modPres x f).clk = s.clk := rfl
@[simp] theorem State.modPres_out (s : State) (x : Side) (f : Presenter → Presenter) : (s.modPres x f).out = s.out := rfl
@[simp] theorem State.modPres_pending (s : State) (x : Side) (f : Presenter → Presenter) : (s.modPres x f).pending = s.pending := rfl

/-! ### State.modSlot -/

@[simp] theorem State.modSlot_tap (s : State) (i : Fin 12) (f : Slot → Slot) : (s.modSlot i f).tap = s.tap := rfl
@[simp] theorem State.modSlot_intake (s : State) (i : Fin 12) (f : Slot → Slot) : (s.modSlot i f).intake = s.intake := rfl
@[simp] theorem State.modSlot_slots (s : State) (i : Fin 12) (f : Slot → Slot) : (s.modSlot i f).slots = s.slots.set i (f s.slots[i]) := rfl
@[simp] theorem State.modSlot_counter (s : State) (i : Fin 12) (f : Slot → Slot) : (s.modSlot i f).counter = s.counter := rfl
@[simp] theorem State.modSlot_sel (s : State) (i : Fin 12) (f : Slot → Slot) : (s.modSlot i f).sel = s.sel := rfl
@[simp] theorem State.modSlot_map (s : State) (i : Fin 12) (f : Slot → Slot) : (s.modSlot i f).map = s.map := rfl
@[simp] theorem State.modSlot_locks (s : State) (i : Fin 12) (f : Slot → Slot) : (s.modSlot i f).locks = s.locks := rfl
@[simp] theorem State.modSlot_eng (s : State) (i : Fin 12) (f : Slot → Slot) : (s.modSlot i f).eng = s.eng := rfl
@[simp] theorem State.modSlot_drv (s : State) (i : Fin 12) (f : Slot → Slot) : (s.modSlot i f).drv = s.drv := rfl
@[simp] theorem State.modSlot_post (s : State) (i : Fin 12) (f : Slot → Slot) : (s.modSlot i f).post = s.post := rfl
@[simp] theorem State.modSlot_pres (s : State) (i : Fin 12) (f : Slot → Slot) : (s.modSlot i f).pres = s.pres := rfl
@[simp] theorem State.modSlot_clk (s : State) (i : Fin 12) (f : Slot → Slot) : (s.modSlot i f).clk = s.clk := rfl
@[simp] theorem State.modSlot_out (s : State) (i : Fin 12) (f : Slot → Slot) : (s.modSlot i f).out = s.out := rfl
@[simp] theorem State.modSlot_pending (s : State) (i : Fin 12) (f : Slot → Slot) : (s.modSlot i f).pending = s.pending := rfl

/-! ### State.modDrv -/

@[simp] theorem State.modDrv_tap (s : State) (f : Drive → Drive) : (s.modDrv f).tap = s.tap := rfl
@[simp] theorem State.modDrv_intake (s : State) (f : Drive → Drive) : (s.modDrv f).intake = s.intake := rfl
@[simp] theorem State.modDrv_slots (s : State) (f : Drive → Drive) : (s.modDrv f).slots = s.slots := rfl
@[simp] theorem State.modDrv_counter (s : State) (f : Drive → Drive) : (s.modDrv f).counter = s.counter := rfl
@[simp] theorem State.modDrv_sel (s : State) (f : Drive → Drive) : (s.modDrv f).sel = s.sel := rfl
@[simp] theorem State.modDrv_map (s : State) (f : Drive → Drive) : (s.modDrv f).map = s.map := rfl
@[simp] theorem State.modDrv_locks (s : State) (f : Drive → Drive) : (s.modDrv f).locks = s.locks := rfl
@[simp] theorem State.modDrv_eng (s : State) (f : Drive → Drive) : (s.modDrv f).eng = s.eng := rfl
@[simp] theorem State.modDrv_drv (s : State) (f : Drive → Drive) : (s.modDrv f).drv = f s.drv := rfl
@[simp] theorem State.modDrv_post (s : State) (f : Drive → Drive) : (s.modDrv f).post = s.post := rfl
@[simp] theorem State.modDrv_pres (s : State) (f : Drive → Drive) : (s.modDrv f).pres = s.pres := rfl
@[simp] theorem State.modDrv_clk (s : State) (f : Drive → Drive) : (s.modDrv f).clk = s.clk := rfl
@[simp] theorem State.modDrv_out (s : State) (f : Drive → Drive) : (s.modDrv f).out = s.out := rfl
@[simp] theorem State.modDrv_pending (s : State) (f : Drive → Drive) : (s.modDrv f).pending = s.pending := rfl

/-! ### State.modEng -/

@[simp] theorem State.modEng_tap (s : State) (f : Engine → Engine) : (s.modEng f).tap = s.tap := rfl
@[simp] theorem State.modEng_intake (s : State) (f : Engine → Engine) : (s.modEng f).intake = s.intake := rfl
@[simp] theorem State.modEng_slots (s : State) (f : Engine → Engine) : (s.modEng f).slots = s.slots := rfl
@[simp] theorem State.modEng_counter (s : State) (f : Engine → Engine) : (s.modEng f).counter = s.counter := rfl
@[simp] theorem State.modEng_sel (s : State) (f : Engine → Engine) : (s.modEng f).sel = s.sel := rfl
@[simp] theorem State.modEng_map (s : State) (f : Engine → Engine) : (s.modEng f).map = s.map := rfl
@[simp] theorem State.modEng_locks (s : State) (f : Engine → Engine) : (s.modEng f).locks = s.locks := rfl
@[simp] theorem State.modEng_eng (s : State) (f : Engine → Engine) : (s.modEng f).eng = f s.eng := rfl
@[simp] theorem State.modEng_drv (s : State) (f : Engine → Engine) : (s.modEng f).drv = s.drv := rfl
@[simp] theorem State.modEng_post (s : State) (f : Engine → Engine) : (s.modEng f).post = s.post := rfl
@[simp] theorem State.modEng_pres (s : State) (f : Engine → Engine) : (s.modEng f).pres = s.pres := rfl
@[simp] theorem State.modEng_clk (s : State) (f : Engine → Engine) : (s.modEng f).clk = s.clk := rfl
@[simp] theorem State.modEng_out (s : State) (f : Engine → Engine) : (s.modEng f).out = s.out := rfl
@[simp] theorem State.modEng_pending (s : State) (f : Engine → Engine) : (s.modEng f).pending = s.pending := rfl

/-! ### State.modPost -/

@[simp] theorem State.modPost_tap (s : State) (f : Posting → Posting) : (s.modPost f).tap = s.tap := rfl
@[simp] theorem State.modPost_intake (s : State) (f : Posting → Posting) : (s.modPost f).intake = s.intake := rfl
@[simp] theorem State.modPost_slots (s : State) (f : Posting → Posting) : (s.modPost f).slots = s.slots := rfl
@[simp] theorem State.modPost_counter (s : State) (f : Posting → Posting) : (s.modPost f).counter = s.counter := rfl
@[simp] theorem State.modPost_sel (s : State) (f : Posting → Posting) : (s.modPost f).sel = s.sel := rfl
@[simp] theorem State.modPost_map (s : State) (f : Posting → Posting) : (s.modPost f).map = s.map := rfl
@[simp] theorem State.modPost_locks (s : State) (f : Posting → Posting) : (s.modPost f).locks = s.locks := rfl
@[simp] theorem State.modPost_eng (s : State) (f : Posting → Posting) : (s.modPost f).eng = s.eng := rfl
@[simp] theorem State.modPost_drv (s : State) (f : Posting → Posting) : (s.modPost f).drv = s.drv := rfl
@[simp] theorem State.modPost_post (s : State) (f : Posting → Posting) : (s.modPost f).post = f s.post := rfl
@[simp] theorem State.modPost_pres (s : State) (f : Posting → Posting) : (s.modPost f).pres = s.pres := rfl
@[simp] theorem State.modPost_clk (s : State) (f : Posting → Posting) : (s.modPost f).clk = s.clk := rfl
@[simp] theorem State.modPost_out (s : State) (f : Posting → Posting) : (s.modPost f).out = s.out := rfl
@[simp] theorem State.modPost_pending (s : State) (f : Posting → Posting) : (s.modPost f).pending = s.pending := rfl

/-! ### State.modMap -/

@[simp] theorem State.modMap_tap (s : State) (f : RegionMap → RegionMap) : (s.modMap f).tap = s.tap := rfl
@[simp] theorem State.modMap_intake (s : State) (f : RegionMap → RegionMap) : (s.modMap f).intake = s.intake := rfl
@[simp] theorem State.modMap_slots (s : State) (f : RegionMap → RegionMap) : (s.modMap f).slots = s.slots := rfl
@[simp] theorem State.modMap_counter (s : State) (f : RegionMap → RegionMap) : (s.modMap f).counter = s.counter := rfl
@[simp] theorem State.modMap_sel (s : State) (f : RegionMap → RegionMap) : (s.modMap f).sel = s.sel := rfl
@[simp] theorem State.modMap_map (s : State) (f : RegionMap → RegionMap) : (s.modMap f).map = f s.map := rfl
@[simp] theorem State.modMap_locks (s : State) (f : RegionMap → RegionMap) : (s.modMap f).locks = s.locks := rfl
@[simp] theorem State.modMap_eng (s : State) (f : RegionMap → RegionMap) : (s.modMap f).eng = s.eng := rfl
@[simp] theorem State.modMap_drv (s : State) (f : RegionMap → RegionMap) : (s.modMap f).drv = s.drv := rfl
@[simp] theorem State.modMap_post (s : State) (f : RegionMap → RegionMap) : (s.modMap f).post = s.post := rfl
@[simp] theorem State.modMap_pres (s : State) (f : RegionMap → RegionMap) : (s.modMap f).pres = s.pres := rfl
@[simp] theorem State.modMap_clk (s : State) (f : RegionMap → RegionMap) : (s.modMap f).clk = s.clk := rfl
@[simp] theorem State.modMap_out (s : State) (f : RegionMap → RegionMap) : (s.modMap f).out = s.out := rfl
@[simp] theorem State.modMap_pending (s : State) (f : RegionMap → RegionMap) : (s.modMap f).pending = s.pending := rfl

/-! ### State.emit -/

@[simp] theorem State.emit_tap (s : State) (o : Output) : (s.emit o).tap = s.tap := rfl
@[simp] theorem State.emit_intake (s : State) (o : Output) : (s.emit o).intake = s.intake := rfl
@[simp] theorem State.emit_slots (s : State) (o : Output) : (s.emit o).slots = s.slots := rfl
@[simp] theorem State.emit_counter (s : State) (o : Output) : (s.emit o).counter = s.counter := rfl
@[simp] theorem State.emit_sel (s : State) (o : Output) : (s.emit o).sel = s.sel := rfl
@[simp] theorem State.emit_map (s : State) (o : Output) : (s.emit o).map = s.map := rfl
@[simp] theorem State.emit_locks (s : State) (o : Output) : (s.emit o).locks = s.locks := rfl
@[simp] theorem State.emit_eng (s : State) (o : Output) : (s.emit o).eng = s.eng := rfl
@[simp] theorem State.emit_drv (s : State) (o : Output) : (s.emit o).drv = s.drv := rfl
@[simp] theorem State.emit_post (s : State) (o : Output) : (s.emit o).post = s.post := rfl
@[simp] theorem State.emit_pres (s : State) (o : Output) : (s.emit o).pres = s.pres := rfl
@[simp] theorem State.emit_clk (s : State) (o : Output) : (s.emit o).clk = s.clk := rfl
@[simp] theorem State.emit_out (s : State) (o : Output) : (s.emit o).out = s.out ++ [o] := rfl
@[simp] theorem State.emit_pending (s : State) (o : Output) : (s.emit o).pending = s.pending := rfl

/-! ### State.begun -/

@[simp] theorem State.begun_tap (s : State) : (s.begun).tap = s.tap := rfl
@[simp] theorem State.begun_intake (s : State) : (s.begun).intake = s.intake := rfl
@[simp] theorem State.begun_slots (s : State) : (s.begun).slots = s.slots := rfl
@[simp] theorem State.begun_counter (s : State) : (s.begun).counter = s.counter := rfl
@[simp] theorem State.begun_sel (s : State) : (s.begun).sel = s.sel := rfl
@[simp] theorem State.begun_map (s : State) : (s.begun).map = s.map := rfl
@[simp] theorem State.begun_locks (s : State) : (s.begun).locks = s.locks := rfl
@[simp] theorem State.begun_eng (s : State) : (s.begun).eng = s.eng := rfl
@[simp] theorem State.begun_drv (s : State) : (s.begun).drv = s.drv := rfl
@[simp] theorem State.begun_post (s : State) : (s.begun).post = s.post := rfl
@[simp] theorem State.begun_pres (s : State) : (s.begun).pres = s.pres := rfl
@[simp] theorem State.begun_clk (s : State) : (s.begun).clk = s.clk := rfl
@[simp] theorem State.begun_out (s : State) : (s.begun).out = [] := rfl
@[simp] theorem State.begun_pending (s : State) : (s.begun).pending = s.pending := rfl

/-! ### Slots -/

theorem State.slot_modSlot (s : State) (i j : Fin 12) (f : Slot → Slot) :
    (s.modSlot i f).slot j = if j = i then f (s.slot i) else s.slot j := by
  unfold State.slot State.modSlot
  by_cases h : j = i
  · subst h
    simp
  · have : (i : Nat) ≠ j := fun e => h (Fin.ext e.symm)
    simp [h, this]

@[simp] theorem State.slot_modSlot_same (s : State) (i : Fin 12) (f : Slot → Slot) :
    (s.modSlot i f).slot i = f (s.slot i) := by
  rw [State.slot_modSlot, if_pos rfl]

theorem State.slot_modSlot_ne (s : State) {i j : Fin 12} (f : Slot → Slot) (h : j ≠ i) :
    (s.modSlot i f).slot j = s.slot j := by
  rw [State.slot_modSlot, if_neg h]

@[simp] theorem State.slot_modTap (s : State) (x : Side) (f : Tap → Tap) (j : Fin 12) : (s.modTap x f).slot j = s.slot j := rfl
@[simp] theorem State.slot_modIntake (s : State) (x : Side) (f : Intake → Intake) (j : Fin 12) : (s.modIntake x f).slot j = s.slot j := rfl
@[simp] theorem State.slot_modPres (s : State) (x : Side) (f : Presenter → Presenter) (j : Fin 12) : (s.modPres x f).slot j = s.slot j := rfl
@[simp] theorem State.slot_modDrv (s : State) (f : Drive → Drive) (j : Fin 12) : (s.modDrv f).slot j = s.slot j := rfl
@[simp] theorem State.slot_modEng (s : State) (f : Engine → Engine) (j : Fin 12) : (s.modEng f).slot j = s.slot j := rfl
@[simp] theorem State.slot_modPost (s : State) (f : Posting → Posting) (j : Fin 12) : (s.modPost f).slot j = s.slot j := rfl
@[simp] theorem State.slot_modMap (s : State) (f : RegionMap → RegionMap) (j : Fin 12) : (s.modMap f).slot j = s.slot j := rfl
@[simp] theorem State.slot_emit (s : State) (o : Output) (j : Fin 12) : (s.emit o).slot j = s.slot j := rfl
@[simp] theorem State.slot_begun (s : State) (j : Fin 12) : (s.begun).slot j = s.slot j := rfl

/-! ### Sides -/

@[simp] theorem State.live_modTap_same (s : State) (x : Side) (f : Tap → Tap) :
    (s.modTap x f).live x = (f (s.tap.get x)).live := by
  simp [State.live]

@[simp] theorem State.live_modIntake (s : State) (x : Side) (f : Intake → Intake) (y : Side) : (s.modIntake x f).live y = s.live y := rfl
@[simp] theorem State.live_modPres (s : State) (x : Side) (f : Presenter → Presenter) (y : Side) : (s.modPres x f).live y = s.live y := rfl
@[simp] theorem State.live_modSlot (s : State) (i : Fin 12) (f : Slot → Slot) (y : Side) : (s.modSlot i f).live y = s.live y := rfl
@[simp] theorem State.live_modDrv (s : State) (f : Drive → Drive) (y : Side) : (s.modDrv f).live y = s.live y := rfl
@[simp] theorem State.live_modEng (s : State) (f : Engine → Engine) (y : Side) : (s.modEng f).live y = s.live y := rfl
@[simp] theorem State.live_modPost (s : State) (f : Posting → Posting) (y : Side) : (s.modPost f).live y = s.live y := rfl
@[simp] theorem State.live_modMap (s : State) (f : RegionMap → RegionMap) (y : Side) : (s.modMap f).live y = s.live y := rfl
@[simp] theorem State.live_emit (s : State) (o : Output) (y : Side) : (s.emit o).live y = s.live y := rfl
@[simp] theorem State.live_begun (s : State) (y : Side) : (s.begun).live y = s.live y := rfl

/-! ### Questions about the slots -/

theorem mem_slotIds (i : Fin 12) : i ∈ slotIds := by
  revert i; decide

theorem slot_of_slots {s t : State} (h : t.slots = s.slots) (i : Fin 12) : t.slot i = s.slot i := by
  unfold State.slot
  rw [h]

/-- The engine's slot is ACTIVE (R112). -/
theorem engineSlot_active {t : State} {i : Fin 12} (h : engineSlot t = some i) : (t.slot i).state = .active := by
  unfold engineSlot at h
  split at h
  · cases h
  · split at h
    · rename_i hc
      cases h
      exact hc.1
    · cases h

end Sys2Proof.Machine
end

