-- ==== Sys2Proof/Laws/Keeps.lean ====
section
/-! SUPPORT. `Keeps s t`: every law of Safety.lean that `s` meets, `t` meets too. It is a preorder, and each primitive
update keeps the laws under the condition its own part sets; the files that follow prove it of every operation once,
so that no claim about an invariant unfolds a command. -/

-- One declaration after another: the package is checked as one text, and every thread of its own would hold a stack.
set_option Elab.async false

namespace Sys2Proof.Machine

/-- Each law that `s` meets, `t` meets, and the same commands wait. -/
structure Keeps (s t : State) : Prop where
  map : MapLaw s.map → MapLaw t.map
  locks : LockLaw s.locks → LockLaw t.locks
  shared : PlacesLaw s ∧ SharedLaw s → SharedLaw t
  oneActive : OneActive s → OneActive t
  places : PlacesLaw s → PlacesLaw t
  slots : (∀ i, SlotLaw (s.slot i)) → ∀ i, SlotLaw (t.slot i)
  intake : (∀ x, IntakeLaw (s.intake.get x)) → ∀ x, IntakeLaw (t.intake.get x)
  presenters : PresentersLaw s → PresentersLaw t
  drive : DriveLaw s.drv → DriveLaw t.drv
  queue : t.pending = s.pending

theorem Keeps.refl (s : State) : Keeps s s := ⟨id, id, And.right, id, id, id, id, id, id, rfl⟩

theorem Keeps.trans {s t u : State} (h : Keeps s t) (k : Keeps t u) : Keeps s u :=
  ⟨k.map ∘ h.map, k.locks ∘ h.locks, fun q => k.shared ⟨h.places q.1, h.shared q⟩, k.oneActive ∘ h.oneActive, k.places ∘ h.places,
    k.slots ∘ h.slots, k.intake ∘ h.intake, k.presenters ∘ h.presenters, k.drive ∘ h.drive, k.queue.trans h.queue⟩

theorem Keeps.ite {c : Prop} [Decidable c] {s t u : State} (ht : Keeps s t) (hu : Keeps s u) :
    Keeps s (if c then t else u) := by
  split
  · exact ht
  · exact hu

theorem Keeps.safe {s t : State} (h : Keeps s t) (k : Safe s) : Safe t :=
  ⟨h.map k.map, h.locks k.locks, h.shared ⟨k.places, k.shared⟩, h.oneActive k.oneActive, h.places k.places, h.slots k.slots,
    h.intake k.intake, h.presenters k.presenters, h.drive k.drive⟩

/-! ### Laws that speak of several parts -/

variable {s t : State}

theorem OneActive.of_slots (h : t.slots = s.slots) (k : OneActive s) : OneActive t := by
  intro i j
  rw [slot_of_slots h, slot_of_slots h]
  exact k i j

/-- The map is read only through its boundaries and the pending commit. -/
theorem commitChanges_of {m n : RegionMap} (hp : n.p1 = m.p1 ∧ n.p2 = m.p2)
    (hc : n.protocol = .commitPending → m.protocol = .commitPending ∧ n.pendingMap = m.pendingMap) {r : Nat × Nat}
    (h : m.commitChanges r = false) : n.commitChanges r = false := by
  unfold RegionMap.commitChanges RegionMap.changing at *
  by_cases c : n.protocol = .commitPending
  · obtain ⟨a, b⟩ := hc c
    rw [a] at h
    rw [b, hp.1, hp.2, c]
    exact h
  · have : (n.protocol == .commitPending) = false := by simpa using c
    rw [this]
    rfl

/-- What the second lock law reads, changed in no way that matters to it. -/
theorem SharedLaw.of {s t : State} (hl : t.locks = s.locks) (hp : t.map.p1 = s.map.p1 ∧ t.map.p2 = s.map.p2)
    (hc : t.map.protocol = .commitPending → s.map.protocol = .commitPending ∧ t.map.pendingMap = s.map.pendingMap)
    (hs : ∀ i, (t.slot i).state = .lockwait → (t.slot i).kind = some .lock → (s.slot i).state = .lockwait ∧
      (t.slot i).words = (s.slot i).words ∧ (t.slot i).touched = (s.slot i).touched) (k : SharedLaw s) : SharedLaw t := by
  refine ⟨fun j l hj => ?_, fun j l hj => ?_, fun i hi hk => ?_⟩
  · rw [hl] at hj
    rw [hp.1, hp.2]
    exact k.held j l hj
  · rw [hl] at hj
    exact commitChanges_of hp hc (k.unchanging j l hj)
  · obtain ⟨a, b, c⟩ := hs i hi hk
    unfold Slot.kind at hk
    rw [b] at hk
    rw [b, c, hp.1, hp.2]
    exact k.waiting i a hk

theorem SharedLaw.of_eq {s t : State} (hl : t.locks = s.locks) (hm : t.map = s.map) (hs : t.slots = s.slots)
    (k : SharedLaw s) : SharedLaw t := by
  refine k.of hl (by rw [hm]; exact ⟨rfl, rfl⟩) (by rw [hm]; exact fun c => ⟨c, rfl⟩) (fun i hi _ => ?_)
  rw [slot_of_slots hs] at hi ⊢
  exact ⟨hi, rfl, rfl⟩

theorem occupied_of_slots (h : t.slots = s.slots) (x : Side) : t.occupied x = s.occupied x := by
  unfold State.occupied
  simp only [slot_of_slots h]

theorem occupied_le {s t : State} {x : Side}
    (h : ∀ i, (t.slot i).state ≠ .free → (t.slot i).side = x → (s.slot i).state ≠ .free ∧ (s.slot i).side = x) :
    t.occupied x ≤ s.occupied x := by
  unfold State.occupied
  refine (List.monotone_filter_right slotIds (fun i hi => ?_)).length_le
  simp only [Bool.and_eq_true, bne_iff_ne, beq_iff_eq] at hi ⊢
  exact h i hi.1 hi.2

/-- The parts that the request table's law reads, with fewer places named. -/
theorem PlacesLaw.of {s t : State} (hs : t.slots = s.slots)
    (hi : ∀ x, ((t.intake.get x).works).Sublist (s.intake.get x).works) (hq : t.post.queue.Sublist s.post.queue)
    (k : PlacesLaw s) : PlacesLaw t := by
  refine ⟨fun x => by rw [occupied_of_slots hs]; exact k.eight x, fun x => ⟨(k.intake x).1.sublist (hi x), fun i m => ?_⟩,
    k.posting.1.sublist (hq.map _), fun e m => ?_⟩
  · rw [slot_of_slots hs]
    exact (k.intake x).2 i ((hi x).subset m)
  · rw [slot_of_slots hs]
    exact k.posting.2 e (hq.subset m)

/-- Two states that agree on the parts the laws speak of. -/
theorem Keeps.of_eq {s t : State} (hm : t.map = s.map) (hl : t.locks = s.locks) (hs : t.slots = s.slots)
    (hi : t.intake = s.intake) (hp : t.pres = s.pres) (ht : t.tap = s.tap) (hd : t.drv = s.drv)
    (hq : t.pending = s.pending) (ho : t.post.queue.Sublist s.post.queue) : Keeps s t := by
  refine ⟨?_, ?_, fun k => .of_eq hl hm hs k.2, .of_slots hs, .of hs (fun x => by rw [hi]) ho, ?_, ?_, ?_, ?_, hq⟩
  · rw [hm]; exact id
  · rw [hl]; exact id
  · intro h i; rw [slot_of_slots hs]; exact h i
  · rw [hi]; exact id
  · intro h x; rw [hp, ht]; exact h x
  · rw [hd]; exact id

/-! ### Primitive updates -/

theorem modEng_keeps (h : Keeps s t) (f : Engine → Engine) : Keeps s (t.modEng f) :=
  h.trans (.of_eq rfl rfl rfl rfl rfl rfl rfl rfl (.refl _))

/-- A change of the posting unit that adds nothing to its queue. -/
theorem modPost_keeps (h : Keeps s t) (f : Posting → Posting)
    (hq : (f t.post).queue.Sublist t.post.queue := by exact List.Sublist.refl _) : Keeps s (t.modPost f) :=
  h.trans (.of_eq rfl rfl rfl rfl rfl rfl rfl rfl hq)

theorem emit_keeps (h : Keeps s t) (o : Output) : Keeps s (t.emit o) :=
  h.trans (.of_eq rfl rfl rfl rfl rfl rfl rfl rfl (.refl _))

theorem out_keeps (h : Keeps s t) (o : List Output) : Keeps s { t with out := o } :=
  h.trans (.of_eq rfl rfl rfl rfl rfl rfl rfl rfl (.refl _))

theorem sel_keeps (h : Keeps s t) (q : Option Selection) : Keeps s { t with sel := q } :=
  h.trans (.of_eq rfl rfl rfl rfl rfl rfl rfl rfl (.refl _))

theorem counter_keeps (h : Keeps s t) (c : Word) : Keeps s { t with counter := c } :=
  h.trans (.of_eq rfl rfl rfl rfl rfl rfl rfl rfl (.refl _))

theorem clk_keeps (h : Keeps s t) (c : Clock) : Keeps s { t with clk := c } :=
  h.trans (.of_eq rfl rfl rfl rfl rfl rfl rfl rfl (.refl _))

/-- A drive's change, where the law of the first state may be used. -/
theorem modDrv_keeps' (h : Keeps s t) {f : Drive → Drive} (hf : DriveLaw s.drv → DriveLaw t.drv → DriveLaw (f t.drv)) :
    Keeps s (t.modDrv f) :=
  ⟨h.map, h.locks, fun k => .of_eq (s := t) rfl rfl rfl (h.shared k), h.oneActive,
    fun k => .of (s := t) rfl (fun _ => .refl _) (.refl _) (h.places k), h.slots, h.intake, h.presenters,
    fun k => hf k (h.drive k), h.queue⟩

theorem modDrv_keeps (h : Keeps s t) {f : Drive → Drive} (hf : DriveLaw t.drv → DriveLaw (f t.drv)) :
    Keeps s (t.modDrv f) := modDrv_keeps' h (fun _ => hf)

/-- What the second lock law asks of a change of the map that is no commit: the boundaries stay, and no new one pends. -/
def MapStays (m n : RegionMap) : Prop :=
  (n.p1 = m.p1 ∧ n.p2 = m.p2) ∧
    (n.protocol = .commitPending → m.protocol = .commitPending ∧ n.pendingMap = m.pendingMap)

theorem modMap_keeps (h : Keeps s t) {f : RegionMap → RegionMap} (hf : MapLaw t.map → MapLaw (f t.map))
    (hs : MapStays t.map (f t.map)) : Keeps s (t.modMap f) :=
  h.trans ⟨hf, id, fun k => .of (s := t) rfl hs.1 hs.2 (fun _ a _ => ⟨a, rfl, rfl⟩) k.2, id, .of rfl (fun _ => .refl _) (.refl _), id, id, id,
    id, rfl⟩

/-- A change of an intake unit that gives it no further slot to work for. -/
theorem modIntake_keeps (h : Keeps s t) (x : Side) {f : Intake → Intake}
    (hf : IntakeLaw (t.intake.get x) → IntakeLaw (f (t.intake.get x)))
    (hw : (f (t.intake.get x)).works.Sublist (t.intake.get x).works := by exact List.Sublist.refl _) :
    Keeps s (t.modIntake x f) := by
  refine h.trans ⟨id, id, fun k => .of_eq (s := t) rfl rfl rfl k.2, id, .of rfl (fun y => ?_) (.refl _), id, fun k y => ?_, id, id, rfl⟩
  · simp only [State.modIntake_intake, Sided.get_set]
    split
    · rename_i e
      rw [e]
      exact hw
    · exact .refl _
  · simp only [State.modIntake_intake, Sided.get_set]
    split
    · exact hf (k x)
    · exact k y

theorem modPres_keeps (h : Keeps s t) (x : Side) {f : Presenter → Presenter}
    (hf : PresenterLaw (t.pres.get x) → PresenterLaw (f (t.pres.get x))) : Keeps s (t.modPres x f) := by
  refine h.trans ⟨id, id, fun k => .of_eq (s := t) rfl rfl rfl k.2, id, .of rfl (fun _ => .refl _) (.refl _), id, id, fun k y => ?_, id, rfl⟩
  simp only [State.modPres_pres, Sided.get_set]
  split
  · rename_i e
    subst e
    exact ⟨hf (k y).1, (k y).2⟩
  · exact k y

/-- A tap's change that may put a notice word under way whose priority is at most 7. -/
theorem modTap_keeps' (h : Keeps s t) (x : Side) {f : Tap → Tap}
    (hf : PresentersLaw t → ∀ e, (f (t.tap.get x)).arb.entry = some e → e.prio ≤ 7) : Keeps s (t.modTap x f) := by
  refine h.trans ⟨id, id, fun k => .of_eq (s := t) rfl rfl rfl k.2, id, .of rfl (fun _ => .refl _) (.refl _), id, id,
    fun k y => ⟨(k y).1, fun e he => ?_⟩, id, rfl⟩
  simp only [State.modTap_tap, Sided.get_set] at he
  split at he
  · rename_i e'
    subst e'
    exact hf k e he
  · exact (k y).2 e he

/-- A tap's change that puts no new notice word under way. -/
theorem modTap_keeps (h : Keeps s t) (x : Side) {f : Tap → Tap}
    (hf : ∀ e, (f (t.tap.get x)).arb.entry = some e → (t.tap.get x).arb.entry = some e) : Keeps s (t.modTap x f) :=
  modTap_keeps' h x (fun k e he => (k x).2 e (hf e he))

/-! ### Changes of a slot -/

/-- Slot `i` is occupied, and no intake unit works for it and the posting queue does not hold it. -/
structure Loose (t : State) (i : Fin 12) : Prop where
  occupied : (t.slot i).state ≠ .free
  intake : ∀ x, i ∉ (t.intake.get x).works
  posting : ∀ e ∈ t.post.queue, e.1 ≠ i

theorem loose_of_state {i : Fin 12} (k : PlacesLaw t)
    (h : (t.slot i).state = .lockwait ∨ (t.slot i).state = .waiting ∨ (t.slot i).state = .active) : Loose t i := by
  refine ⟨fun e => ?_, fun x m => ?_, fun e m q => ?_⟩
  · rw [e] at h
    rcases h with h | h | h <;> cases h
  · rw [((k.intake x).2 i m).1] at h
    rcases h with h | h | h <;> cases h
  · have := k.posting.2 e m
    rw [q] at this
    rw [this] at h
    rcases h with h | h | h <;> cases h

/-- A slot's change, each law that speaks of several slots being kept. -/
theorem setSlot_keeps (h : Keeps s t) (i : Fin 12) {f : Slot → Slot}
    (ha : (f (t.slot i)).state = .active → (t.slot i).state = .active)
    (hl : SlotLaw (t.slot i) → SlotLaw (f (t.slot i)))
    (hs : PlacesLaw s → SharedLaw t → SharedLaw (t.modSlot i f))
    (hp : PlacesLaw s → PlacesLaw t → PlacesLaw (t.modSlot i f)) : Keeps s (t.modSlot i f) := by
  have stays : ∀ j, ((t.modSlot i f).slot j).state = .active → (t.slot j).state = .active := by
    intro j
    rw [State.slot_modSlot]
    split
    · rename_i e
      subst e
      exact ha
    · exact id
  refine ⟨h.map, h.locks, fun k => hs k.1 (h.shared k), fun k a b pa pb => h.oneActive k a b (stays a pa) (stays b pb),
    fun k => hp k (h.places k), fun k j => ?_, h.intake, h.presenters, h.drive, h.queue⟩
  rw [State.slot_modSlot]
  split
  · exact hl (h.slots k i)
  · exact h.slots k j

/-- A slot's change that makes it no waiting LOCK but one that it was. -/
theorem SharedLaw.modSlot {i : Fin 12} {f : Slot → Slot} (k : SharedLaw t)
    (hf : (f (t.slot i)).state = .lockwait → (f (t.slot i)).kind = some .lock → (t.slot i).state = .lockwait ∧
      (f (t.slot i)).words = (t.slot i).words ∧ (f (t.slot i)).touched = (t.slot i).touched) :
    SharedLaw (t.modSlot i f) := by
  refine .of (s := t) rfl ⟨rfl, rfl⟩ (fun c => ⟨c, rfl⟩) (fun j => ?_) k
  rw [State.slot_modSlot]
  split
  · rename_i e
    subst e
    exact hf
  · exact fun a _ => ⟨a, rfl, rfl⟩

/-- A slot's change that leaves it in its state and on its side. -/
theorem PlacesLaw.modSlot {i : Fin 12} {f : Slot → Slot} (k : PlacesLaw t) (hs : (f (t.slot i)).state = (t.slot i).state)
    (hx : (f (t.slot i)).side = (t.slot i).side) : PlacesLaw (t.modSlot i f) := by
  have same : ∀ j, ((t.modSlot i f).slot j).state = (t.slot j).state ∧ ((t.modSlot i f).slot j).side = (t.slot j).side := by
    intro j
    rw [State.slot_modSlot]
    split
    · rename_i e
      subst e
      exact ⟨hs, hx⟩
    · exact ⟨rfl, rfl⟩
  refine ⟨fun x => (occupied_le (fun j a b => ?_)).trans (k.eight x), fun x => ⟨(k.intake x).1, fun j m => ?_⟩,
    k.posting.1, fun e m => ?_⟩
  · rw [(same j).1] at a
    rw [(same j).2] at b
    exact ⟨a, b⟩
  · rw [(same j).1, (same j).2]
    exact (k.intake x).2 j m
  · rw [(same e.1).1]
    exact k.posting.2 e m

/-- A loose slot's change on its side, or to FREE. -/
theorem PlacesLaw.moveSlot {i : Fin 12} {f : Slot → Slot} (k : PlacesLaw t) (hl : Loose t i)
    (hx : (f (t.slot i)).state = .free ∨ (f (t.slot i)).side = (t.slot i).side) : PlacesLaw (t.modSlot i f) := by
  refine ⟨fun x => (occupied_le (fun j a b => ?_)).trans (k.eight x), fun x => ⟨(k.intake x).1, fun j m => ?_⟩,
    k.posting.1, fun e m => ?_⟩
  · rw [State.slot_modSlot] at a b
    split at a
    · rename_i e
      subst e
      rw [if_pos rfl] at b
      rcases hx with q | q
      · exact absurd q a
      · exact ⟨hl.occupied, q ▸ b⟩
    · rename_i e
      rw [if_neg e] at b
      exact ⟨a, b⟩
  · have : j ≠ i := fun e => hl.intake x (e ▸ m)
    rw [State.slot_modSlot, if_neg this]
    exact (k.intake x).2 j m
  · rw [State.slot_modSlot, if_neg (hl.posting e m)]
    exact k.posting.2 e m

/-- A change of a slot's counts and flags that keeps its state, its side, its record and its extent. -/
theorem modSlot_keeps (h : Keeps s t) (i : Fin 12) {f : Slot → Slot} (hl : SlotLaw (t.slot i) → SlotLaw (f (t.slot i)))
    (hf : (f (t.slot i)).state = (t.slot i).state ∧ (f (t.slot i)).side = (t.slot i).side := by exact ⟨rfl, rfl⟩)
    (hw : PlacesLaw s → (t.slot i).state = .lockwait → (f (t.slot i)).words = (t.slot i).words ∧
      (f (t.slot i)).touched = (t.slot i).touched := by exact fun _ _ => ⟨rfl, rfl⟩) : Keeps s (t.modSlot i f) :=
  setSlot_keeps h i (fun e => hf.1 ▸ e) hl (fun k0 k => k.modSlot (fun e _ => ⟨hf.1 ▸ e, hw k0 (hf.1 ▸ e)⟩))
    (fun _ k => k.modSlot hf.1 hf.2)

/-- A loose slot's change on its side, or to FREE, into a state other than ACTIVE and LOCKWAIT. -/
theorem moveSlot_keeps (h : Keeps s t) (i : Fin 12) {f : Slot → Slot} (hl : SlotLaw (t.slot i) → SlotLaw (f (t.slot i)))
    (ha : (f (t.slot i)).state ≠ .active) (hw : (f (t.slot i)).state ≠ .lockwait) (hp : PlacesLaw s → Loose t i)
    (hx : (f (t.slot i)).state = .free ∨ (f (t.slot i)).side = (t.slot i).side) : Keeps s (t.modSlot i f) :=
  setSlot_keeps h i (fun e => absurd e ha) hl (fun _ k => k.modSlot (fun e => absurd e hw)) (fun k0 k => k.moveSlot (hp k0) hx)

end Sys2Proof.Machine
end

