-- ==== Sys2Proof/Laws/Presenter.lean ====
section
/-! SUPPORT. Every operation of a notice presenter keeps the presenter's law (R144 to R147). -/

-- One declaration after another: the package is checked as one text, and every thread of its own would hold a stack.
set_option Elab.async false

namespace Sys2Proof.Machine

/-! ### The queue's order -/

theorem before_iff (e f : Entry) : e.before f = true ↔ e.prio < f.prio ∨ (e.prio = f.prio ∧ e.no < f.no) := by
  simp [Entry.before]

theorem not_before_iff (e f : Entry) : e.before f = false ↔ ¬(e.prio < f.prio ∨ (e.prio = f.prio ∧ e.no < f.no)) := by
  rw [← before_iff]
  simp

theorem mem_insertEntry {e g : Entry} {q : List Entry} : g ∈ insertEntry e q ↔ g = e ∨ g ∈ q := by
  induction q with
  | nil => simp [insertEntry]
  | cons f r ih =>
    unfold insertEntry
    split
    · simp
    · simp [ih]
      tauto

theorem length_insertEntry (e : Entry) (q : List Entry) : (insertEntry e q).length = q.length + 1 := by
  induction q with
  | nil => rfl
  | cons f r ih =>
    unfold insertEntry
    split <;> simp [ih]

theorem sorted_insertEntry {e : Entry} {q : List Entry} (h : q.Pairwise queueOrder) :
    (insertEntry e q).Pairwise queueOrder := by
  induction q with
  | nil => simp [insertEntry]
  | cons f r ih =>
    rw [List.pairwise_cons] at h
    unfold insertEntry
    split
    · rename_i hb
      rw [before_iff] at hb
      refine List.pairwise_cons.2 ⟨fun g hg => ?_, List.pairwise_cons.2 h⟩
      unfold queueOrder
      rw [not_before_iff]
      rcases List.mem_cons.1 hg with rfl | hg
      · omega
      · have := h.1 g hg
        unfold queueOrder at this
        rw [not_before_iff] at this
        omega
    · rename_i hb
      refine List.pairwise_cons.2 ⟨fun g hg => ?_, ih h.2⟩
      rcases mem_insertEntry.1 hg with rfl | hg
      · exact Bool.eq_false_iff.2 hb
      · exact h.1 g hg

/-- An inserted entry takes its place (R145). -/
theorem insertEntry_placed (e : Entry) (q : List Entry) : PlacedIn e q (insertEntry e q) := by
  induction q with
  | nil => exact ⟨[], [], rfl, rfl, by simp, by simp⟩
  | cons f r ih =>
    unfold insertEntry
    split
    · rename_i h
      exact ⟨[], f :: r, rfl, rfl, by simp, by simpa using (before_iff e f).1 h⟩
    · rename_i h
      obtain ⟨a, b, rfl, hr, ha, hb⟩ := ih
      refine ⟨f :: a, b, rfl, by rw [hr]; rfl, fun g hg => ?_, hb⟩
      rcases List.mem_cons.1 hg with rfl | hg
      · have := (not_before_iff e g).1 (by simpa using h); omega
      · exact ha g hg

theorem kindsApart_symm {e f : Entry} (h : kindsApart e f) : kindsApart f e := fun k => k ▸ h k.symm

theorem apart_insertEntry {e : Entry} {q : List Entry} (h : q.Pairwise kindsApart) (he : ∀ f ∈ q, kindsApart e f) :
    (insertEntry e q).Pairwise kindsApart := by
  induction q with
  | nil => simp [insertEntry]
  | cons f r ih =>
    rw [List.pairwise_cons] at h
    unfold insertEntry
    split
    · exact List.pairwise_cons.2 ⟨he, List.pairwise_cons.2 h⟩
    · refine List.pairwise_cons.2 ⟨fun g hg => ?_, ih h.2 (fun g hg => he g (List.mem_cons_of_mem f hg))⟩
      rcases mem_insertEntry.1 hg with rfl | hg
      · exact kindsApart_symm (he f List.mem_cons_self)
      · exact h.1 g hg

/-! ### Making room -/

theorem dropLastCompletion_sublist (q : List Entry) : (dropLastCompletion q).Sublist q := by
  unfold dropLastCompletion
  have := (List.eraseP_sublist (l := q.reverse) (p := fun e => e.kind == .completion)).reverse
  simpa using this

theorem length_dropLastCompletion {q : List Entry} (h : ∃ e ∈ q, e.kind = .completion) :
    (dropLastCompletion q).length + 1 = q.length := by
  obtain ⟨e, he, hk⟩ := h
  unfold dropLastCompletion
  have hr : e ∈ q.reverse := List.mem_reverse.2 he
  have := List.length_eraseP_of_mem (p := fun e : Entry => e.kind == .completion) hr (by simp [hk])
  have hpos : 0 < q.length := List.length_pos_of_mem he
  simp only [List.length_reverse] at this ⊢
  omega

/-- Room is made by the least favoured COMPLETION with the highest number (R146). -/
theorem dropLastCompletion_roomMade {q : List Entry} (hs : q.Pairwise queueOrder)
    (hc : ∃ e ∈ q, e.kind = .completion) : RoomMade q (dropLastCompletion q) := by
  obtain ⟨e, he, hk⟩ := hc
  obtain ⟨c, l1, l2, h1, h2, h3, h4⟩ :=
    List.exists_of_eraseP (p := fun e : Entry => e.kind == .completion) (List.mem_reverse.2 he) (by simp [hk])
  have hq : q = l2.reverse ++ c :: l1.reverse := by simpa using congrArg List.reverse h3
  refine ⟨l2.reverse, c, l1.reverse, hq, ?_, by simpa using h2, fun f hf hfk => ?_⟩
  · unfold dropLastCompletion; rw [h4]; simp
  · rw [hq] at hs hf
    rw [List.pairwise_append] at hs
    simp only [List.mem_append, List.mem_cons] at hf
    rcases hf with hf | rfl | hf
    · have := hs.2.2 f hf c List.mem_cons_self
      unfold queueOrder at this
      rw [not_before_iff] at this
      omega
    · omega
    · exact absurd hfk (by simpa using h1 f (by simpa using hf))

/-- A queue of entries kept apart with no COMPLETION entry holds at most three: one of each other kind. -/
theorem length_le_three {q : List Entry} (h : q.Pairwise kindsApart) (hn : ∀ e ∈ q, e.kind ≠ .completion) :
    q.length ≤ 3 := by
  have hd : (q.map (fun e => e.kind)).Nodup := by
    rw [List.nodup_iff_pairwise_ne, List.pairwise_map]
    refine List.Pairwise.imp_of_mem (fun {a b} ha _ hab he => hn a ha (hab he)) h
  have hs : q.map (fun e => e.kind) ⊆ [.peer, .drive, .partition] := by
    intro k hk
    obtain ⟨e, he, rfl⟩ := List.mem_map.1 hk
    have := hn e he
    cases hk' : e.kind <;> simp_all
  have := (hd.subperm hs).length_le
  simpa using this

theorem exists_completion {q : List Entry} (h : q.Pairwise kindsApart) (hl : 3 < q.length) :
    ∃ e ∈ q, e.kind = .completion := by
  by_contra hc
  push Not at hc
  have := length_le_three h hc
  omega

theorem sat15_le (n : Nat) : sat15 n ≤ 15 := by
  unfold sat15
  omega

variable {p : Presenter}

/-! ### Changes that leave the queue -/

theorem loseOne_law (h : PresenterLaw p) : PresenterLaw p.loseOne := { h with lost := sat15_le _ }

/-- The law with other queue contents that are a part of the old ones. -/
theorem law_sublist (h : PresenterLaw p) {q : List Entry} (hs : q.Sublist p.queue) :
    PresenterLaw { p with queue := q } :=
  { h with
    queueLength := hs.length_le.trans h.queueLength
    sorted := h.sorted.sublist hs
    apart := h.apart.sublist hs
    queuePriorities := fun e he => h.queuePriorities e (hs.subset he) }

/-- The law with other owed writes that are a part of the old ones. -/
theorem law_owed_sublist (h : PresenterLaw p) {o : List OwedWrite} (hs : o.Sublist p.owed) :
    PresenterLaw { p with owed := o } :=
  { h with
    owedPriorities := fun w hw => h.owedPriorities w (hs.subset hw)
    owedLevels := (hs.countP_le).trans h.owedLevels
    owedPlain := (hs.countP_le).trans h.owedPlain
    owedAccept := (hs.countP_le).trans h.owedAccept }

theorem law_shown (h : PresenterLaw p) {sh : Option Entry} (hs : ∀ e, sh = some e → e.prio ≤ 7) :
    PresenterLaw { p with shown := sh } :=
  { h with shownPriority := hs }

theorem law_writing (h : PresenterLaw p) {w : Option Entry} (hs : ∀ e, w = some e → e.prio ≤ 7) :
    PresenterLaw { p with writing := w } :=
  { h with writingPriority := hs }

theorem writingAfterMerge_prio {w : Option Entry} {n : Nat} {e f : Entry} (h : ∀ g, w = some g → g.prio ≤ 7)
    (hf : writingAfterMerge w n e = some f) : f.prio ≤ 7 := by
  obtain ⟨g, hg, rfl⟩ := Option.map_eq_some_iff.1 hf
  have := h g hg
  split <;> exact this

theorem law_presented (h : PresenterLaw p) {pr : Option Entry} (hs : ∀ e, pr = some e → e.prio ≤ 7) :
    PresenterLaw { p with presented := pr } :=
  { h with presentedPriority := hs }

theorem law_nextNo (h : PresenterLaw p) (n : Nat) : PresenterLaw { p with nextNo := n } := { h with }

theorem law_level (h : PresenterLaw p) {l : Nat} (hl : l ≤ 8) : PresenterLaw { p with level := l } :=
  { h with level := hl }

theorem makeRoom_law (h : PresenterLaw p) : PresenterLaw p.makeRoom := by
  unfold Presenter.makeRoom
  split
  · exact law_sublist (loseOne_law h) (dropLastCompletion_sublist _)
  · exact h

theorem makeRoom_queue (p : Presenter) : p.makeRoom.queue.Sublist p.queue := by
  unfold Presenter.makeRoom
  split
  · exact dropLastCompletion_sublist _
  · exact List.Sublist.refl _

theorem makeRoom_length (h : PresenterLaw p) : p.makeRoom.queue.length ≤ 15 := by
  unfold Presenter.makeRoom
  split
  · rename_i hl
    have := length_dropLastCompletion (exists_completion h.apart (by omega))
    have := h.queueLength
    show (dropLastCompletion p.queue).length ≤ 15
    omega
  · omega

/-- An entry put into a queue with room, apart from what is in it. -/
theorem insert_law (h : PresenterLaw p) {e : Entry} (hl : p.queue.length ≤ 15) (hp : e.prio ≤ 7)
    (ha : ∀ f ∈ p.queue, kindsApart e f) : PresenterLaw { p with queue := insertEntry e p.queue } :=
  { h with
    queueLength := by rw [length_insertEntry]; omega
    sorted := sorted_insertEntry h.sorted
    apart := apart_insertEntry h.apart ha
    queuePriorities := fun f hf => (mem_insertEntry.1 hf).elim (fun e => e ▸ hp) (h.queuePriorities f) }

theorem sameKind_none {k : NoticeKind} (h : p.sameKind k = none) : k = .completion ∨ ∀ f ∈ p.queue, f.kind ≠ k := by
  unfold Presenter.sameKind at h
  split at h
  · exact .inl ‹_›
  · exact .inr (fun f hf he => by simpa [he] using List.find?_eq_none.1 h f hf)

theorem sameKind_some {k : NoticeKind} {q : Entry} (h : p.sameKind k = some q) : q ∈ p.queue ∧ q.kind = k := by
  unfold Presenter.sameKind at h
  split at h
  · cases h
  · exact ⟨List.mem_of_find?_eq_some h, by simpa using List.find?_some h⟩

/-- An entry of a kind the queue lacks is kept apart from it. -/
theorem apart_of_none {e : Entry} {q : List Entry} (h : p.sameKind e.kind = none) (hs : q.Sublist p.queue) :
    ∀ f ∈ q, kindsApart e f := by
  intro f hf hk
  rcases sameKind_none h with hc | hc
  · exact hc
  · exact absurd hk.symm (hc f (hs.subset hf))

/-- An entry that takes the place of one of its own kind keeps the law. -/
theorem replace_law (h : PresenterLaw p) {q e : Entry} (hq : q ∈ p.queue) (hk : e.kind = q.kind) (hp : e.prio ≤ 7) :
    PresenterLaw { p with queue := insertEntry e (p.queue.erase q) } := by
  have hlen : (p.queue.erase q).length + 1 = p.queue.length := by
    have := List.length_erase_of_mem hq
    have hpos : 0 < p.queue.length := List.length_pos_of_mem hq
    omega
  have ha : ∀ f ∈ p.queue.erase q, kindsApart e f := by
    intro f hf hkf
    have hperm := List.perm_cons_erase hq
    have hpw : (q :: p.queue.erase q).Pairwise kindsApart := hperm.pairwise h.apart (fun hab => kindsApart_symm hab)
    rw [hk] at hkf ⊢
    exact (List.pairwise_cons.1 hpw).1 f hf hkf
  have h1 := law_sublist h (List.erase_sublist (a := q) (l := p.queue))
  have hql := h.queueLength
  exact insert_law h1 (e := e) (by show (p.queue.erase q).length ≤ 15; omega) hp ha

theorem shownAfterMerge_prio {sh : Option Entry} {old : List Entry} {e f : Entry} (h : ∀ g, sh = some g → g.prio ≤ 7)
    (hf : shownAfterMerge sh old e = some f) : f.prio ≤ 7 := by
  unfold shownAfterMerge at hf
  split at hf
  · cases hf
  · rename_i g
    have hg := h g rfl
    split at hf
    · injection hf with hf
      exact hf ▸ hg
    · split at hf
      · injection hf with hf
        rw [← hf]
        exact hg
      · cases hf

theorem join_law (h : PresenterLaw p) (k : NoticeKind) {prio : Nat} (tag code : Nat) (hp : prio ≤ 7) :
    PresenterLaw (p.join k prio tag code) := by
  unfold Presenter.join
  split
  · rename_i q hq
    obtain ⟨hm, hk⟩ := sameKind_some hq
    have hqp := h.queuePriorities q hm
    dsimp only
    refine law_writing (law_shown (law_nextNo (replace_law h hm ?_ ?_) _)
      (fun g hg => shownAfterMerge_prio h.shownPriority hg)) (fun g hg => writingAfterMerge_prio h.writingPriority hg)
    · split <;> rfl
    · split <;> assumption
  · rename_i hq
    split
    · exact loseOne_law h
    · exact law_nextNo (insert_law (makeRoom_law h) (e := ⟨k, prio, tag, code, p.nextNo⟩) (makeRoom_length h) hp
        (apart_of_none (e := ⟨k, prio, tag, code, p.nextNo⟩) hq (makeRoom_queue p))) _

theorem giveBack_law (h : PresenterLaw p) {e : Entry} (hp : e.prio ≤ 7) : PresenterLaw (p.giveBack e) := by
  unfold Presenter.giveBack
  split
  · rename_i q hq
    obtain ⟨hm, hk⟩ := sameKind_some hq
    have hqp := h.queuePriorities q hm
    dsimp only
    exact law_writing (law_shown (replace_law h hm (by rfl) (by show min e.prio q.prio ≤ 7; omega))
      (fun g hg => shownAfterMerge_prio h.shownPriority hg))
      (fun g hg => writingAfterMerge_prio (fun g' hg' => writingAfterMerge_prio h.writingPriority hg') hg)
  · rename_i hq
    exact insert_law (makeRoom_law h) (makeRoom_length h) hp (apart_of_none hq (makeRoom_queue p))

/-! ### Owed writes -/

theorem countP_filter_false {α : Type} {l : List α} {a b : α → Bool} (h : ∀ x, b x = true → a x = false) :
    (l.filter b).countP a = 0 := by
  rw [List.countP_eq_zero]
  intro x hx
  rw [h x (List.mem_filter.1 hx).2]
  decide

theorem oweLevel_law (h : PresenterLaw p) : PresenterLaw p.oweLevel := by
  have hf : (p.owed.filter OwedWrite.isNotice).Sublist p.owed := List.filter_sublist
  unfold Presenter.oweLevel
  exact { h with
    owedPriorities := by
      intro w hw e he
      rcases List.mem_append.1 hw with hw | hw
      · exact h.owedPriorities w (hf.subset hw) e he
      · rw [List.mem_singleton.1 hw] at he; cases he
    owedLevels := by
      show List.countP _ (_ ++ _) ≤ 1
      rw [List.countP_append, countP_filter_false (fun x hx => by simp [hx])]
      simp [OwedWrite.isNotice]
    owedPlain := by
      show List.countP _ (_ ++ _) ≤ 1
      rw [List.countP_append]
      exact hf.countP_le.trans h.owedPlain
    owedAccept := by
      show List.countP _ (_ ++ _) ≤ 1
      rw [List.countP_append]
      exact hf.countP_le.trans h.owedAccept }

theorem oweNotice_law (h : PresenterLaw p) {e : Option Entry} (hp : ∀ f, e = some f → f.prio ≤ 7) :
    PresenterLaw (p.oweNotice e) := by
  have hf : (p.owed.filter OwedWrite.staysOnNotice).Sublist p.owed := List.filter_sublist
  unfold Presenter.oweNotice
  exact { h with
    owedPriorities := by
      intro w hw f hf'
      rcases List.mem_append.1 hw with hw | hw
      · exact h.owedPriorities w (hf.subset hw) f hf'
      · rw [List.mem_singleton.1 hw] at hf'; exact hp f hf'
    owedLevels := by
      show List.countP _ (_ ++ _) ≤ 1
      rw [List.countP_append]
      exact hf.countP_le.trans h.owedLevels
    owedPlain := by
      show List.countP _ (_ ++ _) ≤ 1
      rw [List.countP_append,
        countP_filter_false (fun x hx => by unfold OwedWrite.plainNotice; simp [hx])]
      simp [OwedWrite.plainNotice, OwedWrite.isNotice, OwedWrite.staysOnNotice]
    owedAccept := by
      show List.countP _ (_ ++ _) ≤ 1
      rw [List.countP_append]
      exact hf.countP_le.trans h.owedAccept }

theorem dropNotices_law (h : PresenterLaw p) : PresenterLaw p.dropNotices :=
  law_owed_sublist h List.filter_sublist

/-! ### Presentation -/

theorem presentHead_law (h : PresenterLaw p) : PresenterLaw p.presentHead := by
  unfold Presenter.presentHead
  split
  · exact h
  · rename_i e r hq
    have he : e.prio ≤ 7 := h.queuePriorities e (by rw [hq]; exact List.mem_cons_self)
    have hs : r.Sublist p.queue := by rw [hq]; exact List.sublist_cons_self e r
    exact oweNotice_law (law_presented (law_sublist h hs) (pr := some e) (fun f hf => by injection hf with hf; exact hf ▸ he))
      (fun f hf => by injection hf with hf; exact hf ▸ he)

theorem examine_law (h : PresenterLaw p) : PresenterLaw p.examine := by
  unfold Presenter.examine
  split
  · exact h
  · split
    · exact presentHead_law h
    · exact h
  · rename_i e hd r hpr hq
    split
    · exact presentHead_law (giveBack_law (law_presented h (pr := none) (by simp)) (h.presentedPriority e hpr))
    · exact h

theorem withdraw_law (h : PresenterLaw p) : PresenterLaw p.withdraw := by
  unfold Presenter.withdraw
  split
  · exact h
  · rename_i e hpr
    split
    · exact oweNotice_law (giveBack_law (law_presented h (pr := none) (by simp)) (h.presentedPriority e hpr)) (by simp)
    · exact h

/-! ### The computer's cycles -/

theorem removeShown_law (h : PresenterLaw p) (sh : Entry) : PresenterLaw (p.removeShown sh) := by
  unfold Presenter.removeShown
  split
  · exact law_sublist h List.filter_sublist
  · rename_i e hpr
    split
    · exact law_presented h (by simp)
    · exact giveBack_law (law_presented (law_sublist h List.filter_sublist) (pr := none) (by simp))
        (h.presentedPriority e hpr)

theorem pushLevel_law (h : PresenterLaw p) : (pushLevel p.level p.stack).length ≤ 8 ∧
    ∀ l ∈ pushLevel p.level p.stack, l ≤ 8 := by
  refine ⟨by unfold pushLevel; exact List.length_take_le _ _, fun l hl => ?_⟩
  have := List.mem_of_mem_take hl
  rcases List.mem_cons.1 this with rfl | hm
  · exact h.level
  · exact h.stackLevels l hm

/-- The NONE of an acceptance owed after every other notice-cell write was dropped. -/
theorem acceptOwe_law (h : PresenterLaw p) (hn : ∀ w ∈ p.owed, w.isNotice = false) :
    PresenterLaw { p with owed := p.owed ++ [OwedWrite.notice none true] } :=
  { h with
    owedPriorities := by
      intro w hw e he
      rcases List.mem_append.1 hw with hw | hw
      · exact h.owedPriorities w hw e he
      · rw [List.mem_singleton.1 hw] at he; cases he
    owedLevels := by
      show List.countP _ (_ ++ _) ≤ 1
      rw [List.countP_append]
      exact h.owedLevels
    owedPlain := by
      show List.countP _ (_ ++ _) ≤ 1
      rw [List.countP_append]
      exact h.owedPlain
    owedAccept := by
      show List.countP _ (_ ++ _) ≤ 1
      rw [List.countP_append, List.countP_eq_zero.2 (fun w hw => by simp [OwedWrite.acceptNone, hn w hw])]
      simp [OwedWrite.acceptNone, OwedWrite.isNotice, OwedWrite.staysOnNotice] }

theorem accept_law (h : PresenterLaw p) {sh : Entry} (hs : sh.prio ≤ 7) : PresenterLaw (p.accept sh) := by
  unfold Presenter.accept
  have h1 := dropNotices_law (removeShown_law h sh)
  have hpush := pushLevel_law h1
  have h2 : PresenterLaw { (p.removeShown sh).dropNotices with
      stack := pushLevel (p.removeShown sh).dropNotices.level (p.removeShown sh).dropNotices.stack, level := sh.prio } :=
    { h1 with level := by show sh.prio ≤ 8; omega, stackLength := hpush.1, stackLevels := hpush.2 }
  have h3 := oweLevel_law h2
  refine examine_law (law_shown (acceptOwe_law h3 ?_) (by simp))
  intro w hw
  rcases List.mem_append.1 hw with hw | hw
  · have hw := (List.mem_filter.1 hw).1
    have := (List.mem_filter.1 hw).2
    simpa using this
  · rw [List.mem_singleton.1 hw]
    rfl

theorem read_law (h : PresenterLaw p) (d : Word) : PresenterLaw (p.read d) := by
  unfold Presenter.read
  split
  · exact h
  · rename_i sh hsh
    split
    · exact accept_law h (h.shownPriority sh hsh)
    · exact h

theorem reOwe_law (h : PresenterLaw p) : PresenterLaw p.reOwe := by
  unfold Presenter.reOwe
  split
  · exact h
  · rename_i e hpr
    exact oweNotice_law h (fun f hf => by injection hf with hf; exact hf ▸ h.presentedPriority e hpr)

theorem endNotice_law (h : PresenterLaw p) : PresenterLaw p.endNotice := by
  unfold Presenter.endNotice
  have h1 : PresenterLaw { p with shown := none } := law_shown h (by simp)
  dsimp only
  split
  · exact reOwe_law h1
  · rename_i l st hst
    have hst' : p.stack = l :: st := hst
    have h2 : PresenterLaw { p with shown := none, level := l, stack := st } :=
      { h1 with
        level := h.stackLevels l (by rw [hst']; exact List.mem_cons_self)
        stackLength := by have := h.stackLength; rw [hst'] at this; simp at this; show st.length ≤ 8; omega
        stackLevels := fun k hk => h.stackLevels k (by rw [hst']; exact List.mem_cons_of_mem l hk) }
    exact reOwe_law (examine_law (withdraw_law (oweLevel_law h2)))

theorem writeLevel_law (h : PresenterLaw p) (v : Word) : PresenterLaw (p.writeLevel v) :=
  examine_law (withdraw_law (law_level h (by show min 8 v.toNat ≤ 8; omega)))

theorem dropAttention_law (h : PresenterLaw p) : PresenterLaw p.dropAttention := by
  unfold Presenter.dropAttention
  have h1 : PresenterLaw { p with queue := p.queue.filter (fun e => !e.isAttention) } := law_sublist h List.filter_sublist
  dsimp only
  split
  · split
    · exact examine_law (oweNotice_law (law_presented h1 (pr := none) (by simp)) (by simp))
    · exact examine_law h1
  · exact examine_law h1

theorem cross_law (h : PresenterLaw p) (v : Word) : PresenterLaw (p.cross v) := by
  unfold Presenter.cross
  split
  · exact examine_law (join_law h .peer 0 0 ‹_›)
  · exact dropAttention_law h

theorem noticeEnded_law (h : PresenterLaw p) (acc answered : Bool) : PresenterLaw (p.noticeEnded acc answered) := by
  have h0 : PresenterLaw { p with writing := none } := law_writing h (by simp)
  unfold Presenter.noticeEnded
  dsimp only
  split
  · exact law_shown h0 h.writingPriority
  · split
    · exact law_shown h0 (by simp)
    · rename_i hn
      have hn' : ∀ w ∈ p.owed, w.isNotice = false := by
        intro w hw
        by_contra hc
        exact hn (List.any_eq_true.2 ⟨w, hw, by simpa using hc⟩)
      have h1 : PresenterLaw { p with writing := none, shown := none } := law_shown h0 (by simp)
      exact { h1 with
        owedPriorities := by
          intro w hw f hf
          rcases List.mem_append.1 hw with hw | hw
          · exact h.owedPriorities w hw f hf
          · rw [List.mem_singleton.1 hw] at hf; exact h.writingPriority f hf
        owedLevels := by
          show List.countP _ (_ ++ _) ≤ 1
          rw [List.countP_append]
          exact h.owedLevels
        owedPlain := by
          show List.countP _ (_ ++ _) ≤ 1
          rw [List.countP_append, List.countP_eq_zero.2 (fun w hw => by simp [OwedWrite.plainNotice, hn' w hw])]
          rw [Nat.zero_add]
          exact List.countP_le_length
        owedAccept := by
          show List.countP _ (_ ++ _) ≤ 1
          rw [List.countP_append, List.countP_eq_zero.2 (fun w hw => by simp [OwedWrite.acceptNone, hn' w hw])]
          rw [Nat.zero_add]
          exact List.countP_le_length }

/-- A grant of the presenter's first owed write. -/
theorem granted_law (h : PresenterLaw p) : PresenterLaw p.granted := by
  refine law_writing (law_owed_sublist h (List.tail_sublist _)) (fun e he => ?_)
  obtain ⟨w, hw, hf⟩ := Option.bind_eq_some_iff.1 he
  exact h.owedPriorities w (List.mem_of_head? hw) e hf

theorem presenterReset_law : PresenterLaw Presenter.reset := by
  constructor <;> simp [Presenter.reset]

end Sys2Proof.Machine
end

