-- ==== Sys2Proof/Laws/Regions.lean ====
section
/-! SUPPORT. The region map's operations and the notices keep every law. -/

-- One declaration after another: the package is checked as one text, and every thread of its own would hold a stack.
set_option Elab.async false

namespace Sys2Proof.Machine

variable {s t : State}

/-! ### Handing over a notice -/

theorem notify_keeps (h : Keeps s t) (x : Side) (k : NoticeKind) {prio : Nat} (tag code : Nat) (hp : prio ≤ 7) :
    Keeps s (notify x k prio tag code t) := by
  unfold notify
  split
  · exact modPres_keeps h x (fun k' => examine_law (join_law k' k tag code hp))
  · exact h

theorem notifyDrive_keeps (h : Keeps s t) (code : Nat) : Keeps s (notifyDrive code t) :=
  notify_keeps (notify_keeps h .A .drive 0 code (by decide)) .B .drive 0 code (by decide)

theorem oweCell_keeps (h : Keeps s t) (x : Side) (c : StatusCell) : Keeps s (oweCell x c t) := by
  unfold oweCell
  split
  · exact modTap_keeps h x (fun _ he => he)
  · exact h

/-! ### The region map -/

theorem outcome_law {m : RegionMap} (h : MapLaw m) (x : Side) {c : Nat} (hc : c ≤ 5) :
    MapLaw { m with last := m.last.set x c } :=
  { h with
    outcomes := fun y => by
      show (m.last.set x c).get y ≤ 5
      rw [Sided.get_set]
      split
      · exact hc
      · exact h.outcomes y }

theorem discard_law {m : RegionMap} (h : MapLaw m) (x : Side) : MapLaw (m.discard x) := by
  obtain ⟨h1, h2, h3, h4, h5, h6, h7⟩ := h
  unfold RegionMap.discard
  refine ⟨h1, h2, h3, ?_, fun y => ?_, ?_, h7⟩
  · dsimp only
    rw [h4]
    split
    · rename_i e
      rw [e]
      exact ⟨fun k => (nomatch k), fun k => (nomatch k)⟩
    · exact Iff.rfl
  · dsimp only
    rw [Sided.get_set]
    by_cases hy : y = x
    · subst hy
      rw [if_pos rfl]
      by_cases hp : m.protocol = .proposed y
      · rw [if_pos hp]
        exact ⟨fun k => (nomatch k), fun k => (nomatch k)⟩
      · rw [if_neg hp]
        exact ⟨fun k => (nomatch k), fun k => absurd k hp⟩
    · rw [if_neg hy, h5 y]
      by_cases hp : m.protocol = .proposed x
      · rw [if_pos hp, hp]
        constructor
        · intro k
          injection k with k
          exact absurd k.symm hy
        · intro k
          cases k
      · rw [if_neg hp]
  · dsimp only
    by_cases hp : m.protocol = .proposed x
    · rw [if_pos hp, if_pos hp]
      exact ⟨fun k => (nomatch k), fun ⟨y, k⟩ => (nomatch k)⟩
    · rw [if_neg hp, if_neg hp]
      exact h6

theorem discardBoth_law {m : RegionMap} (h : MapLaw m) (hn : m.protocol ≠ .commitPending) : MapLaw m.discardBoth := by
  obtain ⟨h1, h2, h3, h4, h5, h6, h7⟩ := h
  unfold RegionMap.discardBoth
  refine ⟨h1, h2, h3, ?_, fun y => ?_, ?_, h7⟩
  · exact ⟨fun k => absurd (h4.1 k) hn, fun k => (nomatch k)⟩
  · cases y <;> exact ⟨fun k => (nomatch k), fun k => (nomatch k)⟩
  · exact ⟨fun k => (nomatch k), fun ⟨y, k⟩ => (nomatch k)⟩

theorem pend_law {m : RegionMap} (h : MapLaw m) {new : Nat × Nat} (hn : new.1 ≤ new.2 ∧ new.2 ≤ 400) :
    MapLaw { m.discardBoth with protocol := .commitPending, pendingMap := some new } := by
  obtain ⟨h1, h2, h3, h4, h5, h6, h7⟩ := h
  unfold RegionMap.discardBoth
  refine ⟨h1, h2, fun n e => ?_, ?_, fun y => ?_, ?_, h7⟩
  · injection e with e
    exact e ▸ hn
  · exact ⟨fun _ => rfl, fun _ => rfl⟩
  · cases y <;> exact ⟨fun k => (nomatch k), fun k => (nomatch k)⟩
  · exact ⟨fun k => (nomatch k), fun ⟨y, k⟩ => (nomatch k)⟩

theorem discard_stays (m : RegionMap) (x : Side) : MapStays m (m.discard x) := by
  unfold RegionMap.discard
  refine ⟨⟨rfl, rfl⟩, fun c => ⟨?_, rfl⟩⟩
  dsimp only at c
  split at c
  · cases c
  · exact c

theorem discardBoth_stays (m : RegionMap) : MapStays m m.discardBoth := ⟨⟨rfl, rfl⟩, fun c => by cases c⟩

/-- A range of Shared that a new map would not change is in the new Shared (R94). -/
theorem stays_shared {m : RegionMap} {new r : Nat × Nat} (hr : r.1 ≤ r.2) (h1 : m.p1 ≤ r.1) (h2 : r.2 < m.p2)
    (hc : m.changing new r = false) : new.1 ≤ r.1 ∧ r.2 < new.2 := by
  unfold RegionMap.changing meetsBelow at hc
  simp only [Bool.or_eq_false_iff, Bool.and_eq_false_iff, decide_eq_false_iff_not] at hc
  omega

theorem giveOutcome_keeps (h : Keeps s t) (x : Side) {c : Nat} (hc : c ≤ 5) : Keeps s (giveOutcome x c t) :=
  notify_keeps (oweCell_keeps (modMap_keeps h (fun k => outcome_law k x hc) ⟨⟨rfl, rfl⟩, fun c => ⟨c, rfl⟩⟩) x .partition)
    x .partition 0 c (by decide)

theorem giveBoth_keeps (h : Keeps s t) {c : Nat} (hc : c ≤ 5) : Keeps s (giveBoth c t) :=
  giveOutcome_keeps (giveOutcome_keeps h .A hc) .B hc

theorem capture_law {m : RegionMap} (h : MapLaw m) (x : Side) (b : Bool) (v : Word) :
    MapLaw
      { m with
        proposal := m.proposal.set x ((m.proposal.get x).capture b v)
        protocol := if (m.proposal.get x).isSealed ∧ m.protocol = .proposed x then .idle else m.protocol
        span := if (m.proposal.get x).isSealed ∧ m.protocol = .proposed x then none else m.span } := by
  have hcap : ∀ p : Proposal, (p.capture b v).isSealed = false := by
    intro p
    unfold Proposal.capture
    split <;> rfl
  have hd := discard_law h x
  obtain ⟨h1, h2, h3, h4, h5, h6, h7⟩ := h
  have hcond : ((m.proposal.get x).isSealed = true ∧ m.protocol = .proposed x) ↔ m.protocol = .proposed x :=
    ⟨fun k => k.2, fun k => ⟨(h5 x).2 k, k⟩⟩
  simp only [hcond]
  refine ⟨h1, h2, h3, hd.pendingState, fun y => ?_, hd.spanState, h7⟩
  have hy := hd.sealedState y
  unfold RegionMap.discard at hy
  dsimp only at hy ⊢
  rw [Sided.get_set] at hy ⊢
  by_cases e : y = x
  · rw [if_pos e] at hy ⊢
    rw [hcap]
    exact hy
  · rw [if_neg e] at hy ⊢
    exact hy

theorem writeProposal_keeps (h : Keeps s t) (x : Side) (b : Bool) (v : Word) : Keeps s (writeProposal x b v t) :=
  modMap_keeps h (fun k => capture_law k x b v) ⟨⟨rfl, rfl⟩, fun c => by
    dsimp only at c
    split at c
    · cases c
    · exact ⟨c, rfl⟩⟩

theorem refuseSeal_keeps (h : Keeps s t) (x : Side) : Keeps s (refuseSeal x t) :=
  giveOutcome_keeps (modMap_keeps h (fun k => discard_law k x) (discard_stays _ x)) x (by decide)

theorem invalid_false {p : Proposal} (h : p.invalid = false) :
    (p.p1.getD 0).toNat ≤ (p.p2.getD 0).toNat ∧ (p.p2.getD 0).toNat ≤ 400 := by
  unfold Proposal.invalid at h
  split at h
  · rename_i a b ha hb
    rw [ha, hb]
    simpa using h
  · cases h

/-- A sound second seal pends its map, which changes no cylinder under a lock (R98). -/
theorem pend_keeps {new : Nat × Nat} (hn : new.1 ≤ new.2 ∧ new.2 ≤ 400) (hl : lockOnChanging new t = false) :
    Keeps t (t.modMap (fun m => { m.discardBoth with protocol := .commitPending, pendingMap := some new })) := by
  refine ⟨fun k => pend_law k hn, id, fun k => ⟨k.2.held, fun j l hj => ?_, k.2.waiting⟩, id,
    .of rfl (fun _ => .refl _) (.refl _), id, id, id, id, rfl⟩
  unfold lockOnChanging at hl
  have hm : some l ∈ t.locks.toList := by
    have hj' : t.locks[j] = some l := hj
    rw [← hj']
    simp
  have := List.any_eq_false.1 hl _ hm
  simp only [Option.any_some, Bool.not_eq_true] at this
  exact this

theorem secondSeal_keeps (h : Keeps s t) {x : Side} (hv : (t.map.proposal.get x).invalid = false)
    (hp : t.map.protocol ≠ .commitPending) : Keeps s (secondSeal x t) := by
  unfold secondSeal
  dsimp only
  split
  · exact giveBoth_keeps (modMap_keeps h (fun k => discardBoth_law k hp) (discardBoth_stays _)) (by decide)
  · split
    · exact giveBoth_keeps (modMap_keeps h (fun k => discardBoth_law k hp) (discardBoth_stays _)) (by decide)
    · rename_i hl
      have h1 := h.trans (pend_keeps (t := t) (invalid_false hv) (Bool.eq_false_iff.2 hl))
      exact h1

theorem firstSeal_law {m : RegionMap} (h : MapLaw m) (hp : m.protocol = .idle) (x : Side) (p : Proposal) (sp : Span) :
    MapLaw
      { m with
        proposal := m.proposal.set x { p with mark1 := false, mark2 := false, isSealed := true }
        protocol := .proposed x
        span := some sp } := by
  obtain ⟨h1, h2, h3, h4, h5, h6, h7⟩ := h
  refine ⟨h1, h2, h3, ?_, fun y => ?_, ?_, h7⟩
  · exact ⟨fun k => absurd (h4.1 k) (by rw [hp]; decide), fun k => (nomatch k)⟩
  · dsimp only
    rw [Sided.get_set]
    by_cases e : y = x
    · rw [if_pos e, e]
      exact ⟨fun _ => rfl, fun _ => rfl⟩
    · rw [if_neg e, h5 y, hp]
      constructor
      · intro k
        cases k
      · intro k
        injection k with k
        exact absurd k.symm e
  · exact ⟨fun _ => ⟨x, rfl⟩, fun _ => rfl⟩

theorem writeSeal_keeps (h : Keeps s t) (x : Side) : Keeps s (writeSeal x t) := by
  unfold writeSeal
  dsimp only
  split
  · exact refuseSeal_keeps h x
  · rename_i hc
    have hv : (t.map.proposal.get x).invalid = false := by
      simp only [Bool.or_eq_true, not_or, Bool.not_eq_true] at hc
      exact hc.2
    split
    · exact refuseSeal_keeps h x
    · rename_i hp
      exact modMap_keeps h (fun k => firstSeal_law k hp x _ _) ⟨⟨rfl, rfl⟩, fun c => by cases c⟩
    · rename_i y hp
      split
      · exact refuseSeal_keeps h x
      · exact secondSeal_keeps h hv (by rw [hp]; exact fun k => (nomatch k))

theorem expireProposal_keeps (h : Keeps s t) (x : Side) : Keeps s (expireProposal x t) :=
  giveOutcome_keeps (modMap_keeps h (fun k => discard_law k x) (discard_stays _ x)) x (by decide)

theorem cursorNone_law {u : Intake} (h : IntakeLaw u) : IntakeLaw { u with cursor := none } :=
  { h with cursor := fun _ k => (nomatch k) }

theorem committed_law {m : RegionMap} (h : MapLaw m) (hp : m.protocol = .commitPending) :
    MapLaw m.committed := by
  unfold RegionMap.committed
  obtain ⟨h1, h2, h3, h4, h5, h6, h7⟩ := h
  have hs := h4.2 hp
  obtain ⟨new, hnew⟩ := Option.isSome_iff_exists.1 hs
  have hb := h3 new hnew
  refine ⟨?_, ?_, ?_, ?_, fun y => ?_, ?_, h7⟩
  · simpa [hnew] using hb.1
  · simpa [hnew] using hb.2
  · intro n k
    cases k
  · exact ⟨fun k => (nomatch k), fun k => (nomatch k)⟩
  · dsimp only
    rw [h5 y, hp]
    exact ⟨fun k => (nomatch k), fun k => (nomatch k)⟩
  · dsimp only
    rw [h6, hp]
    exact ⟨fun ⟨y, k⟩ => (nomatch k), fun ⟨y, k⟩ => (nomatch k)⟩

/-- Shared after a commit still holds what was within it and does not change. -/
theorem committed_shared {r : Nat × Nat} {m : RegionMap} (hp : m.protocol = .commitPending) (hr : r.1 ≤ r.2)
    (h1 : m.p1 ≤ r.1) (h2 : r.2 < m.p2) (hc : m.commitChanges r = false) :
    m.committed.p1 ≤ r.1 ∧ r.2 < m.committed.p2 := by
  unfold RegionMap.committed
  unfold RegionMap.commitChanges at hc
  rw [hp] at hc
  cases hq : m.pendingMap with
  | none => exact ⟨h1, h2⟩
  | some new =>
    rw [hq] at hc
    exact stays_shared hr h1 h2 (by simpa using hc)

/-- The map committed once every slot that touches a changing cylinder is gone (R100). -/
theorem committed_keeps (hp : t.map.protocol = .commitPending) (hd : drained t = true) :
    Keeps t (t.modMap RegionMap.committed) := by
  refine ⟨fun k => committed_law k hp, id, fun k => ⟨fun j l hj => ?_, fun _ _ _ => rfl, fun i hi hk => ?_⟩, id,
    .of rfl (fun _ => .refl _) (.refl _), id, id, id, id, rfl⟩
  · obtain ⟨a, b, c⟩ := k.2.held j l hj
    exact ⟨a, committed_shared hp a b c (k.2.unchanging j l hj)⟩
  · obtain ⟨a, b, c, d⟩ := k.2.waiting i hi hk
    refine ⟨a, b, committed_shared (r := lockRange (t.slot i).words) hp b c d ?_⟩
    have := List.all_eq_true.1 hd i (mem_slotIds i)
    unfold holdsCommit at this
    have hi' : (t.slot i).state = .lockwait := hi
    have ha : (t.slot i).touched = some (lockRange (t.slot i).words) := a
    rw [hi', ha] at this
    simpa using this

theorem commit_keeps (h : Keeps s t) (hp : t.map.protocol = .commitPending) (hd : drained t = true) :
    Keeps s (commit t) := by
  have h1 : Keeps s (t.modMap RegionMap.committed) := h.trans (committed_keeps hp hd)
  have h2 := oweCell_keeps (oweCell_keeps (oweCell_keeps (oweCell_keeps h1 .B .map2) .B .map1) .A .map2) .A .map1
  exact giveBoth_keeps
    (modIntake_keeps (modIntake_keeps h2 .A cursorNone_law) .B cursorNone_law) (by decide)

theorem drainTest_keeps (h : Keeps s t) : Keeps s (drainTest t) := by
  unfold drainTest
  split
  · rename_i hc
    exact commit_keeps h hc.1 hc.2
  · exact h

end Sys2Proof.Machine
end

