-- ==== Sys2Proof/Laws/Locks.lean ====
section
/-! SUPPORT. The request table's moves and the lock table keep every law; in particular no lock is placed where it
overlaps a lock of its own side or conflicts with one of the other (R103). -/

-- One declaration after another: the package is checked as one text, and every thread of its own would hold a stack.
set_option Elab.async false

namespace Sys2Proof.Machine

variable {s t : State}

/-! ### The request table's moves -/

theorem emptySlot_law (n : Nat) : SlotLaw (Slot.empty n) := ⟨Nat.zero_le _, Nat.zero_le _, Nat.zero_le _⟩

/-- A slot that waits or works is loose. -/
theorem Keeps.loose (h : Keeps s t) {i : Fin 12}
    (hi : (t.slot i).state = .lockwait ∨ (t.slot i).state = .waiting ∨ (t.slot i).state = .active) :
    PlacesLaw s → Loose t i := fun k => loose_of_state (h.places k) hi

/-- A loose slot goes to POSTING and into the posting queue. -/
theorem toPosting_keeps (h : Keeps s t) (i : Fin 12) (st : Status) (r p c : Word) (hl : PlacesLaw s → Loose t i) :
    Keeps s (toPosting i st r p c t) := by
  have h1 : Keeps s (t.modSlot i (fun sl => sl.posted st r p c)) :=
    moveSlot_keeps h i (fun k => ⟨k.passCount, k.rereads, k.depth⟩) (fun e => SlotState.noConfusion e)
      (fun e => SlotState.noConfusion e) hl (.inr rfl)
  refine ⟨h1.map, h1.locks, fun k => .of_eq (s := t.modSlot i _) rfl rfl rfl (h1.shared k), h1.oneActive,
    fun k => ⟨(h1.places k).eight, (h1.places k).intake, ?_, ?_⟩, h1.slots, h1.intake, h1.presenters, h1.drive, h1.queue⟩
  · show ((t.post.queue ++ [(i, (t.slot i).tenure)]).map Prod.fst).Nodup
    rw [List.map_append]
    refine List.nodup_append.2 ⟨(h1.places k).posting.1, List.nodup_singleton _, ?_⟩
    rintro a ha b hb rfl
    obtain ⟨e, he, rfl⟩ := List.mem_map.1 ha
    exact (hl k).posting e he (List.mem_singleton.1 hb)
  · intro e he
    rcases List.mem_append.1 he with m | m
    · exact (h1.places k).posting.2 e m
    · rw [List.mem_singleton.1 m]
      show ((t.modSlot i (fun sl => sl.posted st r p c)).slot i).state = _
      rw [State.slot_modSlot_same]
      rfl

theorem postNeverActive_keeps (h : Keeps s t) (i : Fin 12) (st : Status) (hl : PlacesLaw s → Loose t i) :
    Keeps s (postNeverActive i st t) := toPosting_keeps h i st _ _ _ hl

theorem postRecordless_keeps (h : Keeps s t) (i : Fin 12) (st : Status) (hl : PlacesLaw s → Loose t i) :
    Keeps s (postRecordless i st t) := by
  have h1 : Keeps s (t.modSlot i (fun sl => { sl with recordless := true, words := [] })) :=
    setSlot_keeps h i id (fun k => ⟨k.passCount, k.rereads, k.depth⟩) 
      (fun _ k => k.modSlot (fun _ e => absurd (show recKind [] = some .lock from e) (show recKind [] ≠ some .lock by decide)))
      (fun _ k => k.modSlot rfl rfl)
  refine toPosting_keeps h1 i st _ _ _ (fun k => ⟨?_, (hl k).intake, (hl k).posting⟩)
  rw [State.slot_modSlot_same]
  exact (hl k).occupied

theorem freeSlot_keeps (h : Keeps s t) (i : Fin 12) (hl : PlacesLaw s → Loose t i) : Keeps s (freeSlot i t) :=
  moveSlot_keeps h i (fun _ => emptySlot_law _) (fun e => SlotState.noConfusion e) (fun e => SlotState.noConfusion e) hl
    (.inl rfl)

theorem toWaiting_keeps (h : Keeps s t) (i : Fin 12) (hl : PlacesLaw s → Loose t i) : Keeps s (toWaiting i t) :=
  moveSlot_keeps h i (fun k => ⟨k.passCount, k.rereads, k.depth⟩) (fun e => SlotState.noConfusion e)
    (fun e => SlotState.noConfusion e) hl (.inr rfl)

/-- A LOCK whose extent lies in Shared, as its touched cylinders say, and changes in no pending commit. -/
structure LockFits (t : State) (i : Fin 12) : Prop where
  touched : (t.slot i).touched = some (lockRange (t.slot i).words)
  order : recCylinder (t.slot i).words ≤ recLastCylinder (t.slot i).words
  first : t.map.p1 ≤ recCylinder (t.slot i).words
  last : recLastCylinder (t.slot i).words < t.map.p2

/-- A loose slot goes to LOCKWAIT: a read, or a LOCK that fits. -/
theorem toLockwait_keeps (h : Keeps s t) (i : Fin 12) (hl : PlacesLaw s → Loose t i)
    (hk : (t.slot i).kind = some .lock → LockFits t i) : Keeps s (toLockwait i t) := by
  refine setSlot_keeps h i (fun e => SlotState.noConfusion e) (fun k => ⟨k.passCount, k.rereads, k.depth⟩)
    (fun _ k => ⟨k.held, k.unchanging, fun j hj hk' => ?_⟩) (fun k0 k => k.moveSlot (hl k0) (.inr rfl))
  rw [State.slot_modSlot] at hj hk' ⊢
  split at hj
  · rename_i e
    subst e
    rw [if_pos rfl] at hk' ⊢
    obtain ⟨a, b, c, d⟩ := hk hk'
    exact ⟨a, b, c, d⟩
  · rename_i e
    rw [if_neg e] at hk' ⊢
    exact k.waiting j hj hk'

theorem release_arb (t : Tap) : t.release.arb = t.arb := by
  unfold Tap.release
  split <;> rfl

theorem endFence_keeps (h : Keeps s t) (x : Side) : Keeps s (endFence x t) :=
  modTap_keeps h x (fun e he => by rw [← release_arb]; exact he)

theorem touch_keeps (h : Keeps s t) : Keeps s (touch t) := by
  unfold touch
  split
  · exact h
  · exact modSlot_keeps h _ (fun k => ⟨k.passCount, k.rereads, k.depth⟩)

/-! ### Placing and freeing locks -/

theorem mem_held {t : State} {j : Fin 8} {b : Lock} (h : t.locks[j] = some b) : b ∈ t.held := by
  unfold State.held
  refine List.mem_filterMap.2 ⟨some b, ?_, rfl⟩
  rw [← h]
  simp

theorem overlaps_iff (a b : Lock) : a.overlaps b ↔ b.meets a.platter (a.first, a.last) = true := by
  unfold Lock.overlaps Lock.meets rangesMeet
  simp only [Bool.and_eq_true, beq_iff_eq, decide_eq_true_eq]
  constructor
  · exact fun ⟨p, q, r⟩ => ⟨p.symm, r, q⟩
  · exact fun ⟨p, q, r⟩ => ⟨p.symm, r, q⟩

theorem overlaps_symm {a b : Lock} (h : a.overlaps b) : b.overlaps a := ⟨h.1.symm, h.2.2, h.2.1⟩

theorem placeLock_keeps (h : Keeps s t) (k : Fin 8) {l : Lock}
    (ho : overlapsOwn t l.side l.platter (l.first, l.last) = false)
    (hc : lockConflict t l.side.other l.platter (l.first, l.last) l.exclusive = false)
    (hs : PlacesLaw s ∧ SharedLaw s → l.first ≤ l.last ∧ t.map.p1 ≤ l.first ∧ l.last < t.map.p2)
    (hn : t.map.commitChanges (l.first, l.last) = false) : Keeps s (placeLock k l t) := by
  have apart : ∀ b ∈ t.held, (l.side = b.side ∨ l.exclusive = true ∨ b.exclusive = true) → ¬ l.overlaps b := by
    intro b hb hcase hov
    rw [overlaps_iff] at hov
    by_cases hs : b.side = l.side
    · rw [overlapsOwn, List.any_eq_false] at ho
      exact ho b hb (by simp [hs, hov])
    · have hs' : b.side = l.side.other := by
        revert hs
        cases b.side <;> cases l.side <;> simp [Side.other]
      rw [lockConflict, List.any_eq_false] at hc
      refine hc b hb ?_
      rcases hcase with e | e | e
      · exact absurd e.symm hs
      · simp [hs', hov, e]
      · simp [hs', hov, e]
  have get : ∀ n : Fin 8, (placeLock k l t).locks[n] = if n = k then some l else t.locks[n] := by
    intro n
    unfold placeLock
    by_cases e : n = k
    · subst e
      simp
    · have : (k : Nat) ≠ n := fun e' => e (Fin.ext e'.symm)
      simp [e, this]
  refine ⟨h.map, fun k0 i j hij a b ha hb hcase => ?_, fun k0 => ⟨fun n m hm => ?_, fun n m hm => ?_, (h.shared k0).waiting⟩,
    h.oneActive, fun k0 => .of (s := t) rfl (fun _ => .refl _) (.refl _) (h.places k0), h.slots, h.intake, h.presenters,
    h.drive, h.queue⟩
  rotate_left
  · rw [get] at hm
    split at hm
    · cases hm
      exact hs k0
    · exact (h.shared k0).held n m hm
  · rw [get] at hm
    split at hm
    · cases hm
      exact hn
    · exact (h.shared k0).unchanging n m hm
  rw [get] at ha hb
  by_cases hi : i = k
  · rw [if_pos hi] at ha
    injection ha with ha
    subst ha
    rw [if_neg (fun e => hij (hi.trans e.symm))] at hb
    exact apart b (mem_held hb) hcase
  · rw [if_neg hi] at ha
    by_cases hj : j = k
    · rw [if_pos hj] at hb
      injection hb with hb
      subst hb
      refine fun hov => apart a (mem_held ha) ?_ (overlaps_symm hov)
      rcases hcase with e | e | e
      · exact .inl e.symm
      · exact .inr (.inr e)
      · exact .inr (.inl e)
    · rw [if_neg hj] at hb
      exact h.locks k0 i j hij a b ha hb hcase

theorem freeLocks_keeps (h : Keeps s t) (p : Lock → Bool) : Keeps s (freeLocks p t) := by
  have get : ∀ (n : Fin 8) (c : Lock), (freeLocks p t).locks[n] = some c → t.locks[n] = some c := by
    intro n c hn
    unfold freeLocks at hn
    simp only [Fin.getElem_fin, Vector.getElem_map] at hn
    split at hn
    · cases hn
    · exact hn
  exact h.trans ⟨id, fun k i j hij a b ha hb hcase => k i j hij a b (get i a ha) (get j b hb) hcase,
    fun k => ⟨fun n l hn => k.2.held n l (get n l hn), fun n l hn => k.2.unchanging n l (get n l hn), k.2.waiting⟩, id,
    .of rfl (fun _ => .refl _) (.refl _), id, id, id, id, rfl⟩

/-! ### Re-examination and decisions -/

theorem inConflict_false {t : State} {x : Side} {p : Platter} {r : Nat × Nat} {e : Bool} (h : inConflict t x p r e = false) :
    lockConflict t x.other p r e = false := by
  unfold inConflict at h
  rw [Bool.or_eq_false_iff] at h
  exact h.1

theorem examine_keeps (h : Keeps s t) : Keeps s (examine t) := by
  unfold examine
  refine .ite h ?_
  split
  · exact h
  · exact sel_keeps h _

theorem reexamineOne_keeps (h : Keeps s t) (i : Fin 12) : Keeps s (reexamineOne t i) := by
  unfold reexamineOne
  dsimp only
  split
  · exact h
  · rename_i hs
    have hi : (t.slot i).state = .lockwait := not_not.1 hs
    have loose := h.loose (.inl hi)
    have post : ∀ st, Keeps s (postNeverActive i st t) := fun st => postNeverActive_keeps h i st loose
    split
    · rename_i hk
      have hk' : (t.slot i).kind = some .lock := by simpa [Slot.isKind, Option.any_eq_true] using hk
      split
      · exact post _
      · rename_i ho
        split
        · exact post _
        · rename_i hn
          split
          · exact h
          · rename_i hc
            split
            · rename_i k _
              refine placeLock_keeps (l := lockOf (t.slot i)) (post .ok) k
                (Bool.eq_false_iff.2 ho) (inConflict_false (Bool.eq_false_iff.2 hc) :) (fun sh => ?_)
                (Bool.eq_false_iff.2 hn)
              obtain ⟨_, b⟩ := (h.shared sh).waiting i hi hk'
              exact b
            · exact post _
    · split
      · exact h
      · exact examine_keeps (toWaiting_keeps h i loose)

theorem foldl_keeps {α : Type} {f : State → α → State} (hf : ∀ {s t : State} (a : α), Keeps s t → Keeps s (f t a))
    (h : Keeps s t) (l : List α) : Keeps s (l.foldl f t) := by
  induction l generalizing t with
  | nil => exact h
  | cons a r ih => exact ih (hf a h)

theorem reexaminePass_keeps (h : Keeps s t) : Keeps s (reexaminePass t) :=
  foldl_keeps (fun i k => reexamineOne_keeps k i) h _

theorem reexaminePasses_keeps (fuel calls : Nat) (h : Keeps s t) : Keeps s (reexaminePasses fuel calls t) := by
  induction fuel generalizing calls t with
  | zero => exact h
  | succ n ih =>
    cases calls with
    | zero => exact h
    | succ c => exact ih _ (reexaminePass_keeps h)

theorem reexamineFor_keeps (h : Keeps s t) (c : Nat) : Keeps s (reexamineFor c t) := reexaminePasses_keeps _ _ h

theorem reexamine_keeps (h : Keeps s t) : Keeps s (reexamine t) := reexamineFor_keeps h 1

theorem reexamineAfter_keeps (h : Keeps s t) (sl : Slot) : Keeps s (reexamineAfter sl t) := by
  unfold reexamineAfter
  split
  · exact reexamine_keeps h
  · exact h

/-- The decision on a loose LOCK that fits and whose cylinders do not change. -/
theorem decideLock_keeps (h : Keeps s t) (i : Fin 12) (hl : PlacesLaw s → Loose t i) (hf : LockFits t i)
    (hn : t.map.commitChanges (lockRange (t.slot i).words) = false) : Keeps s (decideLock i t) := by
  have post : ∀ st, Keeps s (postNeverActive i st t) := fun st => postNeverActive_keeps h i st hl
  unfold decideLock
  dsimp only
  split
  · exact post _
  · rename_i ho
    split
    · split
      · exact post _
      · split
        · exact post _
        · exact toLockwait_keeps h i hl (fun _ => hf)
    · rename_i hc
      split
      · rename_i k _
        exact placeLock_keeps (l := lockOf (t.slot i)) (post .ok) k
          (Bool.eq_false_iff.2 ho) (inConflict_false (Bool.eq_false_iff.2 hc) :)
          (fun _ => ⟨hf.order, hf.first, hf.last⟩) hn
      · exact post _

theorem decideUnlock_keeps (h : Keeps s t) (i : Fin 12) (hl : PlacesLaw s → Loose t i) : Keeps s (decideUnlock i t) := by
  have post : ∀ st, Keeps s (postNeverActive i st t) := fun st => postNeverActive_keeps h i st hl
  unfold decideUnlock
  dsimp only
  split
  · exact post _
  · split
    · exact post _
    · exact reexamine_keeps (freeLocks_keeps (post .ok) _)

theorem decideBlockedRead_keeps (h : Keeps s t) (i : Fin 12) (hl : PlacesLaw s → Loose t i)
    (hk : (t.slot i).kind ≠ some .lock) : Keeps s (decideBlockedRead i t) := by
  unfold decideBlockedRead
  split
  · exact postNeverActive_keeps h i _ hl
  · exact toLockwait_keeps h i hl (fun e => absurd e hk)

end Sys2Proof.Machine
end

