-- ==== Sys2Proof/Laws/Engine.lean ====
section
/-! SUPPORT. The transfer engine's operations keep every law. -/

-- One declaration after another: the package is checked as one text, and every thread of its own would hold a stack.
set_option Elab.async false

namespace Sys2Proof.Machine

variable {s t : State}

/-- A drive with the same state, cause, idle levels and held events, and a head of the four, keeps its law. -/
theorem driveLaw_of {d e : Drive} (hs : e.state = d.state) (hc : e.cause = d.cause) (hi : e.idle = d.idle)
    (hd : e.deferred = d.deferred) (hh : e.headSel = d.headSel) (h : DriveLaw d) : DriveLaw e :=
  ⟨by rw [hc, hs]; exact h.cause, by rw [hc]; exact h.causeRange, fun x => by rw [hi]; exact h.idle x,
    fun x l => by rw [hd]; exact h.heldIdle x l, by rw [hh]; exact h.head⟩

theorem dropGates_keeps (h : Keeps s t) : Keeps s (dropGates t) := modDrv_keeps h (driveLaw_of rfl rfl rfl rfl rfl)

theorem dropReadGate_keeps (h : Keeps s t) : Keeps s (t.modDrv (fun d => { d with readGate := false })) :=
  modDrv_keeps h (driveLaw_of rfl rfl rfl rfl rfl)

theorem clearEngine_keeps (h : Keeps s t) : Keeps s (clearEngine t) := dropGates_keeps (modEng_keeps h _)

theorem abandonData_entry (t : Tap) (e : Entry) (h : t.abandonData.arb.entry = some e) : t.arb.entry = some e := by
  unfold Tap.abandonData at h
  split at h
  · rename_i p hp
    split at h
    · rename_i j hj
      simp [Arb.entry, hj] at h
    · exact h
  · exact h

theorem endRequest_keeps (h : Keeps s t) (st : Status) (c : Word) : Keeps s (endRequest st c t) := by
  unfold endRequest
  split
  · exact clearEngine_keeps h
  · rename_i i hi
    exact reexamineAfter_keeps (examine_keeps (clearEngine_keeps (modTap_keeps (endFence_keeps
      (toPosting_keeps h i st _ _ c (h.loose (.inr (.inr (engineSlot_active hi))))) _) _
      (abandonData_entry _)))) _

theorem finishEnding_keeps (h : Keeps s t) : Keeps s (finishEnding t) := by
  unfold finishEnding
  split
  · exact h
  · split
    · exact endRequest_keeps h _ _
    · exact h

theorem found_keeps (h : Keeps s t) (st : Status) : Keeps s (found st t) :=
  finishEnding_keeps (modEng_keeps (dropReadGate_keeps h) _)

/-- A change of the drive's write gate, the engine and the outputs. -/
theorem cutDrive_keeps (h : Keeps s t) {u : State} (hd : u.drv = { t.drv with writeGate := false }) (h1 : u.tap = t.tap)
    (h2 : u.intake = t.intake) (h3 : u.slots = t.slots) (h4 : u.map = t.map) (h5 : u.locks = t.locks)
    (h6 : u.post = t.post) (h7 : u.pres = t.pres) (h8 : u.pending = t.pending) : Keeps s u :=
  (modDrv_keeps h (f := fun d => { d with writeGate := false }) (driveLaw_of rfl rfl rfl rfl rfl)).trans
    (.of_eq h4 h5 h3 h2 h7 h1 hd h8 (by rw [h6]; exact .refl _))

theorem cutWrite_keeps (h : Keeps s t) : Keeps s (cutWrite t) := by
  unfold cutWrite
  split
  · exact cutDrive_keeps h rfl rfl rfl rfl rfl rfl rfl rfl rfl
  · exact h

theorem dropWriteGate_keeps (h : Keeps s t) : Keeps s (dropWriteGate t) := by
  unfold dropWriteGate
  split
  · exact cutDrive_keeps h rfl rfl rfl rfl rfl rfl rfl rfl rfl
  · exact h

theorem interrupt_keeps (h : Keeps s t) (st : Status) : Keeps s (interrupt st t) := by
  unfold interrupt
  split
  · split
    · exact h
    · exact finishEnding_keeps (cutWrite_keeps h)
  · exact finishEnding_keeps (modEng_keeps (dropReadGate_keeps (cutWrite_keeps h)) _)

theorem issueRecalibrate_keeps (h : Keeps s t) : Keeps s (issueRecalibrate t) :=
  emit_keeps (modDrv_keeps h (driveLaw_of rfl rfl rfl rfl rfl)) _

theorem issueSeek_keeps (h : Keeps s t) (c : Nat) : Keeps s (issueSeek c t) :=
  emit_keeps (modDrv_keeps h (driveLaw_of rfl rfl rfl rfl rfl)) _

theorem startSeek_keeps (h : Keeps s t) (c : Nat) (r : Bool) : Keeps s (startSeek c r t) :=
  issueSeek_keeps (modEng_keeps h _) c

theorem startRecal_keeps (h : Keeps s t) (c : Nat) : Keeps s (startRecal c t) :=
  issueRecalibrate_keeps (modEng_keeps h _)

theorem headOf_le (p : Platter) (i : Nat) : headOf p i ≤ 3 := by
  unfold headOf evenHead
  cases p <;> split <;> decide

theorem rotate_keeps (h : Keeps s t) (sl : Slot) : Keeps s (rotate sl t) :=
  modDrv_keeps (modEng_keeps h _) (fun k => ⟨k.cause, k.causeRange, k.idle, k.heldIdle, headOf_le _ _⟩)

theorem arrive_keeps (h : Keeps s t) : Keeps s (arrive t) := by
  unfold arrive
  split
  · exact h
  · dsimp only
    split
    · exact found_keeps (modEng_keeps h _) _
    · split
      · exact found_keeps (modEng_keeps h _) _
      · exact rotate_keeps (modEng_keeps h _) _

theorem beginRequest_keeps (h : Keeps s t) : Keeps s (beginRequest t) := by
  unfold beginRequest
  split
  · exact h
  · dsimp only
    split
    · exact arrive_keeps h
    · exact startSeek_keeps h _ _

theorem movementEnded_keeps (h : Keeps s t) : Keeps s (movementEnded t) := by
  unfold movementEnded
  split
  · exact arrive_keeps h
  · split
    · exact arrive_keeps h
    · exact startSeek_keeps h _ _
  · split
    · exact endRequest_keeps h _ _
    · exact h
  · exact h

theorem nextTarget_keeps (h : Keeps s t) (sl : Slot) : Keeps s (nextTarget sl t) := by
  unfold nextTarget
  dsimp only
  split
  · exact startSeek_keeps (modEng_keeps h _) _ _
  · exact rotate_keeps (modEng_keeps h _) _

theorem finishTarget_keeps (h : Keeps s t) (sl : Slot) (st : Status) : Keeps s (finishTarget sl st t) := by
  unfold finishTarget
  split
  · exact nextTarget_keeps h sl
  · exact found_keeps (modEng_keeps h _) st

theorem headerFail_keeps (h : Keeps s t) : Keeps s (headerFail t) := by
  unfold headerFail
  split
  · exact h
  · dsimp only
    split
    · exact startRecal_keeps (modEng_keeps (dropReadGate_keeps h) _) _
    · exact found_keeps (dropReadGate_keeps h) _

theorem countReread_keeps (h : Keeps s t) (i : Fin 12) : Keeps s (countReread i t) := by
  unfold countReread
  split
  · exact h
  · exact modSlot_keeps h i (fun k => ⟨k.passCount, sat15_le _, k.depth⟩)

theorem dataFail_keeps (h : Keeps s t) : Keeps s (dataFail t) := by
  unfold dataFail
  split
  · exact h
  · rename_i i _
    have h1 := countReread_keeps (modEng_keeps (dropReadGate_keeps h) (fun e => e.setBuf e.m (e.buf e.m).dropReceived)) i
    dsimp only
    split
    · exact found_keeps h1 _
    · split
      · exact rotate_keeps (modEng_keeps h1 _) _
      · exact startRecal_keeps (modEng_keeps h1 _) _

theorem dataGood_keeps (h : Keeps s t) (i : Fin 12) : Keeps s (dataGood i t) := by
  unfold dataGood
  dsimp only
  have h1 := dropReadGate_keeps (countReread_keeps h i)
  split
  · exact h1
  · exact modSlot_keeps h1 i (fun k => ⟨k.passCount, k.rereads, k.depth⟩)

theorem judgeRead_keeps (h : Keeps s t) (i : Fin 12) (d : List Word) (c : Option Word) :
    Keeps s (judgeRead i d c t) := by
  unfold judgeRead
  split
  · exact finishTarget_keeps (dataGood_keeps (modEng_keeps h _) i) _ _
  · exact dataFail_keeps h

theorem judgeCheck_keeps (h : Keeps s t) (i : Fin 12) (d : List Word) (c : Option Word) :
    Keeps s (judgeCheck i d c t) := by
  unfold judgeCheck
  split
  · dsimp only
    split
    · exact found_keeps (modEng_keeps (dataGood_keeps h i) _) _
    · exact finishTarget_keeps (modEng_keeps (dataGood_keeps h i) _) _ _
  · exact dataFail_keeps h

theorem sectorWritten_keeps (h : Keeps s t) (i : Fin 12) (b : Bool) : Keeps s (sectorWritten i b t) := by
  unfold sectorWritten
  have h1 := modEng_keeps (dropGates_keeps h) (fun e => { e with written := if b then e.written + 1 else e.written })
  exact Keeps.ite (finishEnding_keeps h1) (finishTarget_keeps (modEng_keeps h1 _) _ _)

theorem stopFinishing_keeps (h : Keeps s t) : Keeps s (stopFinishing t) := clearEngine_keeps (dropWriteGate_keeps h)

theorem earlyMark_keeps (h : Keeps s t) : Keeps s (earlyMark t) := by
  unfold earlyMark
  split
  · exact stopFinishing_keeps h
  · split
    · exact h
    · split
      · exact headerFail_keeps h
      · split
        · exact sectorWritten_keeps (dropWriteGate_keeps h) _ _
        · exact dataFail_keeps h
  · exact h

theorem openTarget_keeps (h : Keeps s t) (sl : Slot) : Keeps s (openTarget sl t) := by
  unfold openTarget
  exact modDrv_keeps (modEng_keeps h _) (fun k => driveLaw_of (d := t.drv) rfl rfl rfl rfl rfl k)

theorem markAtEngine_keeps (h : Keeps s t) (n : Nat) : Keeps s (markAtEngine n t) := by
  unfold markAtEngine
  split
  · exact h
  · dsimp only
    split
    · exact openTarget_keeps h _
    · exact h

theorem openWriteGate_keeps (h : Keeps s t) : Keeps s (openWriteGate t) :=
  modDrv_keeps h (driveLaw_of rfl rfl rfl rfl rfl)

theorem headerMatchedWrite_keeps (h : Keeps s t) (sl : Slot) : Keeps s (headerMatchedWrite sl t) := by
  unfold headerMatchedWrite
  dsimp only
  split
  · exact dropReadGate_keeps (modEng_keeps h _)
  · split
    · exact openWriteGate_keeps (modEng_keeps h _)
    · exact rotate_keeps (dropReadGate_keeps (modEng_keeps h _)) _

theorem judgeHeader_keeps (h : Keeps s t) (hdr chk : Word) : Keeps s (judgeHeader hdr chk t) := by
  unfold judgeHeader
  split
  · exact h
  · split
    · unfold headerFinishing
      split
      · exact .ite (openWriteGate_keeps (modEng_keeps h _)) (dropReadGate_keeps (modEng_keeps h _))
      · exact stopFinishing_keeps h
    · split
      · exact h
      · split
        · exact headerFail_keeps h
        · split
          · exact headerMatchedWrite_keeps h _
          · exact modEng_keeps h _
    · exact h

theorem dataStart_keeps (h : Keeps s t) : Keeps s (dataStart t) := by
  unfold dataStart
  split
  · exact h
  · split
    · split
      · exact modEng_keeps h _
      · exact rotate_keeps (dropReadGate_keeps h) _
    · exact h

theorem sectorOver_keeps (h : Keeps s t) (d : List Word) (c : Option Word) : Keeps s (sectorOver d c t) := by
  unfold sectorOver
  split
  · exact h
  · split
    · exact clearEngine_keeps (out_keeps h _)
    · split
      · exact h
      · split
        · split
          · exact judgeRead_keeps h _ d c
          · exact h
        · split
          · exact judgeRead_keeps h _ d c
          · exact h
        · exact judgeCheck_keeps h _ d c
        · exact sectorWritten_keeps (out_keeps h _) _ _
        · exact sectorWritten_keeps (out_keeps h _) _ _
        · exact h
    · exact h

theorem protectRises_keeps (h : Keeps s t) : Keeps s (protectRises t) := by
  unfold protectRises
  split
  · dsimp only
    split
    · exact dropWriteGate_keeps h
    · split
      · exact sectorWritten_keeps (modEng_keeps (dropWriteGate_keeps h) _) _ _
      · exact dropWriteGate_keeps h
  · exact h

theorem passWord_arb (t : Tap) (j : Nat) : (t.passWord j).arb = t.arb := by
  unfold Tap.passWord
  split
  · rfl
  · dsimp only
    split
    · rw [release_arb]
    · rfl

theorem dataAnswered_keeps (h : Keeps s t) (j : Nat) (d : Word) : Keeps s (dataAnswered j d t) := by
  unfold dataAnswered
  split
  · exact h
  · exact finishEnding_keeps (modEng_keeps (modTap_keeps h _ (fun e he => by rw [← passWord_arb]; exact he)) _)

theorem dataTimedOut_keeps (h : Keeps s t) : Keeps s (dataTimedOut t) := by
  unfold dataTimedOut
  split
  · split
    · exact finishEnding_keeps (modEng_keeps h _)
    · exact finishEnding_keeps h
  · split
    · exact modEng_keeps h _
    · exact interrupt_keeps (modEng_keeps h _) _

theorem reportRestore_keeps (h : Keeps s t) : Keeps s (reportRestore t) := by
  unfold reportRestore
  split
  all_goals first
    | exact h
    | exact interrupt_keeps h _
    | exact endRequest_keeps h _ _

theorem reportDrive_keeps (h : Keeps s t) : Keeps s (reportDrive t) := by
  have h1 : Keeps s (if t.drv.state = .ready then t else t.modEng (fun e => { e with abandoned := none })) :=
    .ite h (modEng_keeps h _)
  unfold reportDrive
  extract_lets u v
  have h2 : Keeps s v := .ite (stopFinishing_keeps h1) h1
  clear_value v
  split
  · exact h2
  · refine .ite (reportRestore_keeps h2) ?_
    split
    · exact h2
    · exact interrupt_keeps h2 _
    · exact interrupt_keeps h2 _

theorem engineFreed_keeps (h : Keeps s t) (i : Fin 12) : Keeps s (engineFreed i t) := by
  unfold engineFreed
  split
  · split
    · exact modEng_keeps h _
    · exact dropGates_keeps (modEng_keeps h _)
  · exact h

end Sys2Proof.Machine
end

