-- ==== Sys2Proof/Laws/Spindle.lean ====
section
/-! SUPPORT. The drive controller's operations and the selector keep every law. -/

-- One declaration after another: the package is checked as one text, and every thread of its own would hold a stack.
set_option Elab.async false

namespace Sys2Proof.Machine

variable {s t : State}

theorem oweDrive_keeps (h : Keeps s t) : Keeps s (oweDrive t) := oweCell_keeps (oweCell_keeps h _ _) _ _

theorem setDrive_keeps (h : Keeps s t) {st : DriveState} {c : Nat} (hc : c ≠ 0 ↔ st = .faulted) (hr : c ≤ 4) :
    Keeps s (setDrive st c t) := by
  have h1 : Keeps s (t.modDrv (fun d => { d with state := st, cause := c, span := none })) :=
    modDrv_keeps h (fun k => ⟨hc, hr, k.idle, k.heldIdle, k.head⟩)
  exact .ite h1 (oweDrive_keeps h1)

theorem startStateSpan_keeps (h : Keeps s t) (k : Nat) : Keeps s (startStateSpan k t) :=
  modDrv_keeps h (driveLaw_of rfl rfl rfl rfl rfl)

theorem enterFaulted_keeps (h : Keeps s t) {c : Nat} (hc : c ≠ 0) (hr : c ≤ 4) : Keeps s (enterFaulted c t) :=
  notifyDrive_keeps (reportDrive_keeps
    (modDrv_keeps (setDrive_keeps h (by simp [hc]) hr) (driveLaw_of rfl rfl rfl rfl rfl))) _

theorem enterRecalibrating_keeps (h : Keeps s t) : Keeps s (enterRecalibrating t) := by
  have h1 := reportDrive_keeps (issueRecalibrate_keeps (startStateSpan_keeps
    (modDrv_keeps (setDrive_keeps h (st := .recalibrating) (c := 0) (by decide) (by decide))
      (f := fun d => { d with homed := false }) (driveLaw_of rfl rfl rfl rfl rfl)) 256))
  exact .ite (enterFaulted_keeps h1 (by decide) (by decide)) h1

theorem enterSpinningUp_keeps (h : Keeps s t) : Keeps s (enterSpinningUp t) := by
  have h1 := reportDrive_keeps (emit_keeps (startStateSpan_keeps
    (setDrive_keeps h (st := .spinningUp) (c := 0) (by decide) (by decide)) 25600) .spindleStart)
  exact .ite (enterFaulted_keeps h1 (by decide) (by decide)) (.ite (enterRecalibrating_keeps h1) h1)

theorem enterReady_keeps (h : Keeps s t) : Keeps s (enterReady t) := by
  have h1 := reportDrive_keeps (modDrv_keeps (setDrive_keeps h (st := .ready) (c := 0) (by decide) (by decide))
    (f := fun d => { d with recovery := false }) (driveLaw_of rfl rfl rfl rfl rfl))
  exact .ite (notifyDrive_keeps h1 3) h1

theorem enterStopped_keeps (h : Keeps s t) : Keeps s (enterStopped t) :=
  reportDrive_keeps (setDrive_keeps h (by decide) (by decide))

theorem enterParked_keeps (h : Keeps s t) : Keeps s (enterParked t) :=
  reportDrive_keeps (emit_keeps (setDrive_keeps h (by decide) (by decide)) _)

theorem enterOffline_keeps (h : Keeps s t) : Keeps s (enterOffline t) :=
  reportDrive_keeps (modDrv_keeps (setDrive_keeps h (by decide) (by decide)) (driveLaw_of rfl rfl rfl rfl rfl))

/-! ### The OPEN entry sequence -/

theorem mediumChanged_keeps (h : Keeps s t) (i : Fin 12) : Keeps s (mediumChanged t i) := by
  unfold mediumChanged
  dsimp only
  split
  · rename_i hc
    exact postNeverActive_keeps h i _ (h.loose (hc.1.elim (fun e => .inr (.inl e)) .inl))
  · exact h

theorem endPlatterC_keeps (h : Keeps s t) : Keeps s (endPlatterC t) := by
  have h1 : Keeps s (slotIds.foldl mediumChanged t) := foldl_keeps (fun a k => mediumChanged_keeps k a) h _
  exact reexamineFor_keeps h1 _

theorem dropCursorC_law {u : Intake} (h : IntakeLaw u) : IntakeLaw (dropCursorC u) :=
  { h with cursor := fun c hc => h.cursor c (by
      rcases hq : u.cursor with _ | q
      · simp [dropCursorC, hq] at hc
      · simp [dropCursorC, hq, Option.filter] at hc
        simp [hc.2]) }

theorem dropCursorC_keeps (h : Keeps s t) (x : Side) : Keeps s (t.modIntake x dropCursorC) :=
  modIntake_keeps h x dropCursorC_law (.refl _)

theorem openRest_keeps (h : Keeps s t) : Keeps s (openRest t) := by
  have h1 : Keeps s (t.modDrv (fun d =>
      { d with generation := d.generation + 1, mounted := .both false, openPending := false })) :=
    modDrv_keeps h (driveLaw_of rfl rfl rfl rfl rfl)
  exact notifyDrive_keeps (dropCursorC_keeps (dropCursorC_keeps
    (reexamine_keeps (freeLocks_keeps (endPlatterC_keeps (oweCell_keeps (oweCell_keeps h1 .A .side) .B .side)) _)) .A) .B) 2

theorem enterOpen_keeps (h : Keeps s t) : Keeps s (enterOpen t) := by
  have h1 := reportDrive_keeps (modDrv_keeps (setDrive_keeps h (st := .opened) (c := 0) (by decide) (by decide))
    (f := fun d => { d with recovery := false }) (driveLaw_of rfl rfl rfl rfl rfl))
  exact .ite (modDrv_keeps h1 (f := fun d => { d with openPending := true }) (driveLaw_of rfl rfl rfl rfl rfl))
    (openRest_keeps h1)

/-! ### Events at the controller -/

theorem readyIfHomed_keeps (h : Keeps s t) : Keeps s (readyIfHomed t) := .ite (enterReady_keeps h) h

theorem abandonedEnded_keeps (h : Keeps s t) : Keeps s (abandonedEnded t) := by
  have h1 : Keeps s (t.modEng (fun e => { e with abandoned := none })) := modEng_keeps h _
  exact .ite h (.ite (beginRequest_keeps h1) h1)

theorem onCylinderRose_keeps (h : Keeps s t) : Keeps s (onCylinderRose t) := by
  have h1 : Keeps s (abandonedEnded (t.modDrv cylinderRecorded)) :=
    abandonedEnded_keeps (modDrv_keeps h (driveLaw_of rfl rfl rfl rfl rfl))
  exact .ite h (readyIfHomed_keeps (.ite (movementEnded_keeps h1) h1))

theorem onCylinderFell_keeps (h : Keeps s t) : Keeps s (onCylinderFell t) := .ite (enterRecalibrating_keeps h) h

theorem powerFell_keeps (h : Keeps s t) : Keeps s (powerFell t) := .ite h (enterOffline_keeps h)

theorem powerRose_keeps (h : Keeps s t) : Keeps s (powerRose t) :=
  .ite (.ite (enterOpen_keeps h) (.ite (enterRecalibrating_keeps h) (enterStopped_keeps h))) h

theorem upToSpeedRose_keeps (h : Keeps s t) : Keeps s (upToSpeedRose t) := .ite (enterRecalibrating_keeps h) h

theorem leaveOpen_keeps (h : Keeps s t) : Keeps s (leaveOpen t) := .ite (enterStopped_keeps h) h

theorem upToSpeedFell_keeps (h : Keeps s t) : Keeps s (upToSpeedFell t) := by
  unfold upToSpeedFell
  split
  all_goals first
    | exact h
    | exact enterSpinningUp_keeps h
    | exact leaveOpen_keeps h

theorem headsFell_keeps (h : Keeps s t) : Keeps s (headsFell t) := .ite (enterRecalibrating_keeps h) h

theorem faultRose_keeps (h : Keeps s t) : Keeps s (faultRose t) := by
  unfold faultRose
  split
  all_goals first
    | exact h
    | exact enterFaulted_keeps h (by decide) (by decide)

theorem faultResetActs_keeps (h : Keeps s t) : Keeps s (faultResetActs t) :=
  .ite (enterRecalibrating_keeps h) (enterSpinningUp_keeps h)

theorem faultFell_keeps (h : Keeps s t) : Keeps s (faultFell t) := .ite (faultResetActs_keeps h) h

theorem faultReset_keeps (h : Keeps s t) : Keeps s (faultReset t) := by
  have h1 : Keeps s ((t.modDrv (fun d => { d with recovery := true })).emit .faultReset) :=
    emit_keeps (modDrv_keeps h (driveLaw_of rfl rfl rfl rfl rfl)) _
  exact .ite (startStateSpan_keeps h1 256) (faultResetActs_keeps h1)

theorem opensDrive_keeps (h : Keeps s t) : Keeps s (opensDrive t) := by
  unfold opensDrive
  split
  all_goals first
    | exact h
    | exact enterOpen_keeps h

theorem setIdle_keeps (h : Keeps s t) (x : Side) {l : Nat} (hl : DriveLaw s.drv → l ≤ 2) : Keeps s (setIdle x l t) :=
  modDrv_keeps' h (fun k0 k => ⟨k.cause, k.causeRange, fun y => by
    simp only [Sided.get_set]
    split
    · exact hl k0
    · exact k.idle y, k.heldIdle, k.head⟩)

theorem driveEvent_keeps (h : Keeps s t) (e : DriveEvent) (he : DriveLaw s.drv → ∀ x l, e = .idleWrite x l → l ≤ 2) :
    Keeps s (driveEvent t e) := by
  cases e with
  | onCylinderRise => exact onCylinderRose_keeps h
  | onCylinderFall => exact onCylinderFell_keeps h
  | powerFall => exact powerFell_keeps h
  | powerRise => exact powerRose_keeps h
  | upToSpeedRise => exact upToSpeedRose_keeps h
  | upToSpeedFall => exact upToSpeedFell_keeps h
  | headsRise => exact readyIfHomed_keeps h
  | headsFall => exact headsFell_keeps h
  | faultRise => exact faultRose_keeps h
  | faultFall => exact faultFell_keeps h
  | loadSwitch => exact opensDrive_keeps h
  | closedFall => exact opensDrive_keeps h
  | closedRise => exact leaveOpen_keeps h
  | idleWrite x l => exact setIdle_keeps h x (fun k => he k x l rfl)

theorem spanWhile_keeps (h : Keeps s t) (w : Bool) (k : Nat) : Keeps s (spanWhile w k t) :=
  .ite (.ite (startStateSpan_keeps h k) h)
    (modDrv_keeps h (f := fun d => { d with span := none }) (driveLaw_of rfl rfl rfl rfl rfl))

theorem reconcileDrive_keeps (h : Keeps s t) : Keeps s (reconcileDrive t) := by
  unfold reconcileDrive
  extract_lets w
  clear_value w
  split
  · split
    · exact enterSpinningUp_keeps h
    · exact h
  · split
    · exact enterRecalibrating_keeps h
    · exact spanWhile_keeps h _ _
  · exact spanWhile_keeps h _ _
  all_goals exact h

theorem takeDriveEvent_keeps (h : Keeps s t) (e : DriveEvent)
    (he : DriveLaw s.drv → ∀ x l, e = .idleWrite x l → l ≤ 2) : Keeps s (takeDriveEvent t e) := by
  unfold takeDriveEvent
  refine .ite (modDrv_keeps' h (fun k0 k => ⟨k.cause, k.causeRange, k.idle, fun x l hl => ?_, k.head⟩))
    (reconcileDrive_keeps (driveEvent_keeps h e he))
  rcases List.mem_append.1 hl with m | m
  · exact k.heldIdle x l m
  · exact he k0 x l (List.mem_singleton.1 m).symm

theorem takeHeldEvents_keeps (es : List DriveEvent) : ∀ {t : State}, Keeps s t →
    (DriveLaw s.drv → ∀ x l, DriveEvent.idleWrite x l ∈ es → l ≤ 2) → Keeps s (es.foldl takeHeldEvent t) := by
  induction es with
  | nil => exact fun h _ => h
  | cons e r ih =>
    intro t h he
    exact ih (examine_keeps (takeDriveEvent_keeps h e (fun k x l q => he k x l (q ▸ List.mem_cons_self))))
      (fun k x l m => he k x l (List.mem_cons_of_mem _ m))

theorem openResumes_keeps (h : Keeps s t) : Keeps s (openResumes t) := by
  have h1 : Keeps s (t.modDrv (fun d => { d with deferred := [] })) :=
    modDrv_keeps h (fun k => ⟨k.cause, k.causeRange, k.idle, fun _ _ m => absurd m List.not_mem_nil, k.head⟩)
  exact takeHeldEvents_keeps _ (openRest_keeps h1) (fun k x l m => (h.drive k).heldIdle x l m)

/-! ### Taking an ACTIVE slot -/

theorem startRequest_keeps (h : Keeps s t) (sl : Slot) : Keeps s (startRequest sl t) := by
  unfold startRequest
  extract_lets u
  have h1 : Keeps s u := .ite (modEng_keeps h _) h
  exact .ite h1 (beginRequest_keeps h1)

theorem restoreReady_keeps (h : Keeps s t) : Keeps s (restoreReady t) := issueRecalibrate_keeps (modEng_keeps h _)

theorem engineTakes_keeps (h : Keeps s t) (i : Fin 12) : Keeps s (engineTakes i t) := by
  unfold engineTakes
  extract_lets sl u
  have h1 : Keeps s u := modEng_keeps h _
  split
  · exact .ite (restoreReady_keeps h1) (startRequest_keeps h1 _)
  · exact .ite (faultReset_keeps (modEng_keeps h1 _)) (interrupt_keeps h1 _)
  · exact interrupt_keeps h1 _

theorem engineReady_keeps (h : Keeps s t) : Keeps s (engineReady t) := by
  unfold engineReady
  split
  · exact h
  · exact .ite (engineTakes_keeps h _) h

theorem decideMountAck_keeps (h : Keeps s t) (i : Fin 12) (hl : PlacesLaw s → Loose t i) : Keeps s (decideMountAck i t) :=
  .ite (postNeverActive_keeps h i _ hl)
    (postNeverActive_keeps (modDrv_keeps h (driveLaw_of rfl rfl rfl rfl rfl)) i _
      (fun k => ⟨(hl k).occupied, (hl k).intake, (hl k).posting⟩))

/-! ### The selector -/

theorem countPass_keeps (h : Keeps s t) (e : Fin 12 × Nat × Nat) : Keeps s (countPass t e) :=
  .ite (modSlot_keeps h e.1 (fun k => ⟨sat15_le _, k.rereads, k.depth⟩)) h

theorem activeSlot_none (h : t.activeSlot = none) (i : Fin 12) : (t.slot i).state ≠ .active := by
  have := List.find?_eq_none.1 h i (mem_slotIds i)
  simpa using this

/-- With no slot ACTIVE, a waiting slot may be made so. -/
theorem makeActive_keeps (h : Keeps s t) (hn : t.activeSlot = none) (i : Fin 12) (hw : (t.slot i).state = .waiting) :
    Keeps s (t.modSlot i (fun sl => { sl with state := .active })) := by
  have only : ∀ j, ((t.modSlot i (fun sl => { sl with state := .active })).slot j).state = .active → j = i := by
    intro j hj
    rw [State.slot_modSlot] at hj
    split at hj
    · assumption
    · exact absurd hj (activeSlot_none hn j)
  refine ⟨h.map, h.locks, fun k => (h.shared k).modSlot (fun e => SlotState.noConfusion e),
    fun _ a b pa pb => (only a pa).trans (only b pb).symm,
    fun k => (h.places k).moveSlot (h.loose (.inr (.inl hw)) k) (.inr rfl), fun k' j => ?_, h.intake, h.presenters,
    h.drive, h.queue⟩
  have k := h.slots k'
  rw [State.slot_modSlot]
  split
  · exact ⟨(k i).passCount, (k i).rereads, (k i).depth⟩
  · exact k j

theorem beginFence_keeps (h : Keeps s t) (i : Fin 12) : Keeps s (beginFence i t) := modTap_keeps h _ (fun _ => id)

theorem countPass_state (u : State) (e : Fin 12 × Nat × Nat) (j : Fin 12) :
    ((countPass u e).slot j).state = (u.slot j).state := by
  unfold countPass
  split
  · rw [State.slot_modSlot]
    split
    · rename_i q
      subst q
      rfl
    · rfl
  · rfl

theorem countPasses_state (c : List (Fin 12 × Nat × Nat)) (u : State) (j : Fin 12) :
    ((c.foldl countPass u).slot j).state = (u.slot j).state := by
  induction c generalizing u with
  | nil => rfl
  | cons e r ih => exact (ih _).trans (countPass_state u e j)

theorem activate_keeps (h : Keeps s t) (i : Fin 12) (c : List (Fin 12 × Nat × Nat)) (hn : t.activeSlot = none)
    (hw : (t.slot i).state = .waiting) : Keeps s (activate i c t) := by
  unfold activate
  refine reexamineAfter_keeps (beginFence_keeps (makeActive_keeps
    (foldl_keeps (fun a k => countPass_keeps k a) (sel_keeps h none) c) (List.find?_eq_none.2 (fun j _ => ?_)) i
    ((countPasses_state c _ i).trans hw)) i) _
  rw [countPasses_state]
  have := activeSlot_none hn j
  exact fun e => this (by rw [beq_iff_eq] at e; exact e)

theorem takeSelection_keeps (h : Keeps s t) : Keeps s (takeSelection t) := by
  unfold takeSelection
  split
  · exact h
  · split
    · rename_i hc
      exact activate_keeps h _ _ hc.2.2 hc.1
    · exact sel_keeps h _

end Sys2Proof.Machine
end

