-- ==== Sys2Proof/Laws/Intake.lean ====
section
/-! SUPPORT. The intake unit's and the posting unit's operations keep every law. -/

-- One declaration after another: the package is checked as one text, and every thread of its own would hold a stack.
set_option Elab.async false

namespace Sys2Proof.Machine

variable {s t : State}

/-! ### The pending list -/

theorem replace_cells (l : List (Fin 8 × Word)) (i : Fin 8) (v : Word) :
    (l.map (fun e => if e.1 = i then (i, v) else e)).map Prod.fst = l.map Prod.fst := by
  induction l with
  | nil => rfl
  | cons e r ih =>
    simp only [List.map_cons, ih]
    congr 1
    split
    · rename_i h; exact h.symm
    · rfl

theorem submit_law {u : Intake} (h : IntakeLaw u) (i : Fin 8) (v : Word) : IntakeLaw (u.submit i v) := by
  unfold Intake.submit
  split
  · split
    · exact ⟨h.cells.sublist (List.filter_sublist.map _), fun e he => h.values e (List.mem_filter.1 he).1, h.overrun,
        h.cursor⟩
    · rename_i hv
      refine ⟨by simp only [Intake.replace, replace_cells]; exact h.cells, ?_, sat15_le _, h.cursor⟩
      intro e he
      obtain ⟨f, hf, rfl⟩ := List.mem_map.1 he
      split
      · exact hv
      · exact h.values f hf
  · rename_i hp
    split
    · exact h
    · rename_i hv
      refine ⟨?_, ?_, h.overrun, h.cursor⟩
      · simp only [List.map_append, List.map_cons, List.map_nil]
        refine List.nodup_append.2 ⟨h.cells, List.nodup_singleton _, ?_⟩
        rintro a ha b hb rfl
        obtain ⟨e, he, rfl⟩ := List.mem_map.1 ha
        exact hp (List.any_eq_true.2 ⟨e, he, by simpa using List.mem_singleton.1 hb⟩)
      · intro e he
        rcases List.mem_append.1 he with m | m
        · exact h.values e m
        · rw [List.mem_singleton.1 m]; exact hv

/-! ### Fetches -/

/-- Slot `i` stands in INTAKE on side `x`, whose intake unit works for it in its fetch alone, or not at all. -/
structure Fetching (t : State) (x : Side) (i : Fin 12) : Prop where
  state : (t.slot i).state = .intake
  side : (t.slot i).side = x
  claim : i ∉ ((t.intake.get x).claim.map Prod.fst).toList
  chains : i ∉ (t.intake.get x).chains

/-- The slot of the fetch in progress. -/
theorem PlacesLaw.fetching (k : PlacesLaw t) {x : Side} {f : Fetch} (hf : (t.intake.get x).fetch = some f) :
    Fetching t x f.slot := by
  obtain ⟨nd, st⟩ := k.intake x
  have m : f.slot ∈ (t.intake.get x).works := by
    unfold Intake.works
    rw [hf]
    simp
  unfold Intake.works at nd
  rw [hf] at nd
  rw [List.nodup_append, List.nodup_append] at nd
  refine ⟨(st _ m).1, (st _ m).2, fun q => nd.2.2 _ q _ (by simp) rfl, fun q => nd.2.1.2.2 _ (by simp) _ q rfl⟩

/-- The slot of the fetch is loose once the fetch is over. -/
theorem Fetching.loose {x : Side} {i : Fin 12} (w : Fetching t x i) (k : PlacesLaw t) : Loose (endFetch x t) i := by
  refine ⟨fun e => ?_, fun y m => ?_, fun e m q => ?_⟩
  · have : (t.slot i).state = .free := e
    rw [w.state] at this
    cases this
  · unfold endFetch at m
    simp only [State.modIntake_intake, Sided.get_set] at m
    split at m
    · unfold Intake.works at m
      simp only [Option.map_none, Option.toList_none, List.nil_append, List.mem_append] at m
      exact m.elim w.claim w.chains
    · have := ((k.intake y).2 i m).2
      rw [w.side] at this
      exact absurd this.symm ‹_›
  · have := k.posting.2 e m
    rw [q, w.state] at this
    cases this

theorem endFetch_keeps (h : Keeps s t) (x : Side) : Keeps s (endFetch x t) :=
  modIntake_keeps h x (fun k => ⟨k.cells, k.values, k.overrun, k.cursor⟩)
    (List.Sublist.append (.refl _) (List.Sublist.append (List.nil_sublist _) (.refl _)))

theorem unfetchable_keeps (h : Keeps s t) (x : Side) (i : Fin 12) (st : Status) (hw : PlacesLaw s → Fetching t x i) :
    Keeps s (unfetchable x i st t) :=
  postRecordless_keeps (endFetch_keeps h x) i st (fun k => (hw k).loose (h.places k))

/-- A fetch begins for a slot that the intake unit works for in no other way. -/
theorem setFetch_keeps (h : Keeps s t) (x : Side) (i : Fin 12) (c : Option (Fin 8)) (hw : PlacesLaw s → Fetching t x i) :
    Keeps s (t.modIntake x (fun u => { u with fetch := some ⟨i, c⟩ })) := by
  refine ⟨h.map, h.locks, fun k => .of_eq (s := t) rfl rfl rfl (h.shared k), h.oneActive,
    fun k0 => ⟨(h.places k0).eight, fun y => ?_, (h.places k0).posting⟩, h.slots, fun q y => ?_, h.presenters, h.drive,
    h.queue⟩
  rotate_left
  · have := h.intake q y
    simp only [State.modIntake_intake, Sided.get_set]
    split
    · rename_i e
      subst e
      exact ⟨this.cells, this.values, this.overrun, this.cursor⟩
    · exact this
  have k := h.places k0
  have w := hw k0
  simp only [State.modIntake_intake, Sided.get_set]
  split
  · rename_i e
    subst e
    obtain ⟨nd, st⟩ := k.intake y
    unfold Intake.works at nd st ⊢
    rw [List.nodup_append, List.nodup_append] at nd
    refine ⟨List.nodup_append.2 ⟨nd.1, List.nodup_append.2 ⟨List.nodup_singleton _, nd.2.1.2.1, ?_⟩, ?_⟩, fun j m => ?_⟩
    · rintro a ha b hb rfl
      rw [List.mem_singleton.1 ha] at hb
      exact w.chains hb
    · rintro a ha b hb rfl
      rcases List.mem_append.1 hb with m | m
      · rw [List.mem_singleton.1 m] at ha
        exact w.claim ha
      · exact nd.2.2 a ha a (List.mem_append_right _ m) rfl
    · rcases List.mem_append.1 m with m | m
      · exact st j (List.mem_append_left _ m)
      · rcases List.mem_append.1 m with m | m
        · rw [List.mem_singleton.1 m]
          exact ⟨w.state, w.side⟩
        · exact st j (List.mem_append_right _ (List.mem_append_right _ m))
  · exact k.intake y

theorem startReads_keeps (h : Keeps s t) (x : Side) (i : Fin 12) (hw : PlacesLaw s → Fetching t x i) :
    Keeps s (startReads x i t) :=
  .ite (unfetchable_keeps h x i _ hw) (setFetch_keeps h x i none hw)

theorem withdrawClearing_keeps (h : Keeps s t) (x : Side) (i : Fin 8) (g : Bool) : Keeps s (withdrawClearing x i g t) := by
  unfold withdrawClearing
  split
  · exact h
  · rename_i f hf
    exact .ite (startReads_keeps h x _ (fun k => (h.places k).fetching hf)) h

theorem submitCell_keeps (h : Keeps s t) (x : Side) (i : Fin 8) (v : Word) : Keeps s (submitCell x i v t) := by
  have works : ∀ u : Intake, (u.submit i v).works = u.works := fun u => by
    unfold Intake.submit
    split <;> split <;> rfl
  have h1 : Keeps s (t.modIntake x (fun u => u.submit i v)) :=
    modIntake_keeps h x (fun k => submit_law k i v) (by rw [works])
  exact .ite (withdrawClearing_keeps h1 x i _) h1

/-! ### Takes -/

/-- The places a take leaves: the head gone from the list. -/
theorem tail_law {u : Intake} (h : IntakeLaw u) {e : Fin 8 × Word} {rest : List (Fin 8 × Word)} (hl : u.list = e :: rest)
    (c : Option (Fin 12 × Fin 8)) (f : Option Fetch) : IntakeLaw { u with list := rest, claim := c, fetch := f } := by
  refine ⟨?_, fun e' he => h.values e' (by rw [hl]; exact List.mem_cons_of_mem _ he), h.overrun, h.cursor⟩
  have := h.cells
  rw [hl] at this
  exact (List.nodup_cons.1 this).2

theorem occupied_succ {t : State} {k : Fin 12} {f : Slot → Slot} (x : Side) :
    (t.modSlot k f).occupied x ≤ t.occupied x + 1 := by
  unfold State.occupied
  have nd : (slotIds.filter (fun i => ((t.modSlot k f).slot i).state != .free &&
      ((t.modSlot k f).slot i).side == x)).Nodup := List.Nodup.filter _ (by decide)
  refine (nd.subperm (l₂ := k :: slotIds.filter (fun i => (t.slot i).state != .free && (t.slot i).side == x))
    (fun i hi => ?_)).length_le
  by_cases e : i = k
  · exact e ▸ List.mem_cons_self
  · have := (List.mem_filter.1 hi).2
    rw [State.slot_modSlot, if_neg e] at this
    exact List.mem_cons_of_mem _ (List.mem_filter.2 ⟨mem_slotIds i, this⟩)

theorem lowestFree_state {t : State} {k : Fin 12} (h : t.lowestFree = some k) : (t.slot k).state = .free := by
  simpa using List.find?_some h

theorem claimSlot_keeps (h : Keeps s t) (x : Side) (hm : mayTake t x = true) : Keeps s (claimSlot x t) := by
  unfold claimSlot
  split
  · rename_i k e rest hk hl
    have hk := lowestFree_state hk
    unfold mayTake Intake.idle at hm
    simp only [Bool.and_eq_true, decide_eq_true_eq, Option.isNone_iff_eq_none, List.isEmpty_iff] at hm
    obtain ⟨⟨⟨⟨_, hf, hc⟩, hch⟩, ho⟩, _⟩ := hm
    have ne : ∀ {j : Fin 12} {st : SlotState}, (t.slot j).state = st → st ≠ .free → j ≠ k := by
      intro j st a b e
      rw [e, hk] at a
      exact b a.symm
    refine ⟨h.map, h.locks, fun q => .of_eq (s := t.modSlot k (fun sl => sl.claimed x 0)) rfl rfl rfl
        ((h.shared q).modSlot (fun e => SlotState.noConfusion e)),
      fun q i j hi hj => ?_, fun q => ⟨fun y => ?_, fun y => ?_, (h.places q).posting.1, fun p m => ?_⟩, fun q j => ?_,
      fun q y => ?_, h.presenters, h.drive, h.queue⟩
    · have st : ∀ j, (((t.modSlot k (fun sl => sl.claimed x 0)).slot j).state = .active) → (t.slot j).state = .active := by
        intro j hj
        rw [State.slot_modSlot] at hj
        split at hj
        · cases hj
        · exact hj
      exact h.oneActive q i j (st i hi) (st j hj)
    · by_cases e : y = x
      · exact (occupied_succ (t := t) (k := k) (f := fun sl => sl.claimed x 0) y).trans (by rw [e]; exact ho)
      · refine (occupied_le (s := t) (fun j a b => ?_)).trans ((h.places q).eight y)
        have a : ((t.modSlot k (fun sl => sl.claimed x 0)).slot j).state ≠ .free := a
        have b : ((t.modSlot k (fun sl => sl.claimed x 0)).slot j).side = y := b
        rw [State.slot_modSlot] at a b
        split at a
        · rename_i q
          rw [if_pos q] at b
          exact absurd b.symm e
        · rename_i q
          rw [if_neg q] at b
          exact ⟨a, b⟩
    · have k0 := (h.places q).intake y
      simp only [State.modIntake_intake, State.modSlot_intake, Sided.get_set]
      split
      · rename_i e
        subst e
        unfold Intake.works
        dsimp only
        rw [hf, hch]
        refine ⟨List.nodup_singleton _, fun i m => ?_⟩
        have : i = k := by simpa using m
        subst this
        rw [State.slot_modIntake, State.slot_modSlot_same]
        exact ⟨rfl, rfl⟩
      · refine ⟨k0.1, fun i m => ?_⟩
        rw [State.slot_modIntake, State.slot_modSlot, if_neg (ne (k0.2 i m).1 (by decide))]
        exact k0.2 i m
    · rw [State.slot_modIntake, State.slot_modSlot, if_neg (ne ((h.places q).posting.2 p m) (by decide))]
      exact (h.places q).posting.2 p m
    · rw [State.slot_modIntake, State.slot_modSlot]
      split
      · exact ⟨Nat.zero_le _, Nat.zero_le _, Nat.zero_le _⟩
      · exact h.slots q j
    · have := h.intake q y
      show IntakeLaw ((t.intake.set x _).get y)
      rw [Sided.get_set]
      split
      · rename_i e
        subst e
        exact ⟨this.cells, this.values, this.overrun, this.cursor⟩
      · exact this
  · exact h

/-- A slot that the intake unit works for, in a list of works in one piece. -/
theorem PlacesLaw.loose_after (k : PlacesLaw t) {x : Side} {i : Fin 12} {f : Intake → Intake}
    (hi : (t.slot i).state = .intake) (hx : (t.slot i).side = x) (hn : i ∉ (f (t.intake.get x)).works) :
    Loose (t.modIntake x f) i := by
  refine ⟨fun e => ?_, fun y m => ?_, fun e m q => ?_⟩
  · have : (t.slot i).state = .free := e
    rw [hi] at this
    cases this
  · simp only [State.modIntake_intake, Sided.get_set] at m
    split at m
    · exact hn m
    · have := ((k.intake y).2 i m).2
      rw [hx] at this
      exact absurd this.symm ‹_›
  · have := k.posting.2 e m
    rw [q, hi] at this
    cases this

/-- The slot of a claim is not in the works behind it. -/
theorem PlacesLaw.claimed (k : PlacesLaw t) {x : Side} {i : Fin 12} {n : Fin 8}
    (hc : (t.intake.get x).claim = some (i, n)) : (t.slot i).state = .intake ∧ (t.slot i).side = x ∧
      i ∉ ((t.intake.get x).fetch.map Fetch.slot).toList ++ (t.intake.get x).chains := by
  obtain ⟨nd, st⟩ := k.intake x
  unfold Intake.works at nd st
  rw [hc] at nd st
  refine ⟨(st i (by simp)).1, (st i (by simp)).2, ?_⟩
  rw [List.nodup_append] at nd
  exact fun m => nd.2.2 i (by simp) i m rfl

theorem removeHead_keeps (h : Keeps s t) (x : Side) {k : Fin 12} {i : Fin 8} {q : Word} {rest : List (Fin 8 × Word)}
    (hc : (t.intake.get x).claim = some (k, i)) (hl : (t.intake.get x).list = (i, q) :: rest) :
    Keeps s (removeHead x k i q rest t) := by
  refine modIntake_keeps (modSlot_keeps h k (fun l => ⟨l.passCount, l.rereads, l.depth⟩)) x
    (fun l => tail_law l hl _ _) ?_
  unfold Intake.works
  simp only [State.modSlot_intake]
  rw [hc]
  exact List.Sublist.cons_cons k (List.sublist_append_right _ _)

theorem claimFreed_keeps (h : Keeps s t) (x : Side) {k : Fin 12} {i : Fin 8}
    (hc : (t.intake.get x).claim = some (k, i)) :
    Keeps s (freeSlot k (t.modIntake x (fun u => { u with claim := none }))) := by
  refine freeSlot_keeps (modIntake_keeps h x (fun l => ⟨l.cells, l.values, l.overrun, l.cursor⟩) ?_) k (fun q => ?_)
  · exact List.Sublist.append (List.nil_sublist _) (.refl _)
  · obtain ⟨a, b, c⟩ := (h.places q).claimed hc
    refine (h.places q).loose_after a b ?_
    unfold Intake.works
    simpa using c

theorem claimReturned_keeps (h : Keeps s t) (x : Side) : Keeps s (claimReturned x t) := by
  unfold claimReturned
  split
  · exact h
  · rename_i k i hc
    split
    · rename_i j q rest hl
      split
      · rename_i e
        subst e
        exact removeHead_keeps h x hc hl
      · exact claimFreed_keeps h x hc
    · exact claimFreed_keeps h x hc

/-! ### Chain fetches -/

/-- A loose slot in INTAKE behind the chain fetches that wait. -/
theorem joinChains_keeps (h : Keeps s t) (x : Side) (i : Fin 12)
    (hw : PlacesLaw s → Loose t i ∧ (t.slot i).state = .intake ∧ (t.slot i).side = x) :
    Keeps s (t.modIntake x (fun u => { u with chains := u.chains ++ [i] })) := by
  refine ⟨h.map, h.locks, fun k => .of_eq (s := t) rfl rfl rfl (h.shared k), h.oneActive,
    fun k0 => ⟨(h.places k0).eight, fun y => ?_, (h.places k0).posting⟩, h.slots, fun q y => ?_, h.presenters, h.drive,
    h.queue⟩
  · have k := (h.places k0).intake y
    obtain ⟨l, a, b⟩ := hw k0
    simp only [State.modIntake_intake, Sided.get_set]
    split
    · rename_i e
      subst e
      have ho : ({ t.intake.get y with chains := (t.intake.get y).chains ++ [i] } : Intake).works =
          (t.intake.get y).works ++ [i] := by
        unfold Intake.works
        simp only [List.append_assoc]
      rw [ho]
      refine ⟨List.nodup_append.2 ⟨k.1, List.nodup_singleton _, ?_⟩, fun j m => ?_⟩
      · rintro p hp q hq rfl
        exact l.intake y (List.mem_singleton.1 hq ▸ hp)
      · rcases List.mem_append.1 m with m | m
        · exact k.2 j m
        · rw [List.mem_singleton.1 m]
          exact ⟨a, b⟩
    · exact k
  · have := h.intake q y
    simp only [State.modIntake_intake, Sided.get_set]
    split
    · rename_i e
      subst e
      exact ⟨this.cells, this.values, this.overrun, this.cursor⟩
    · exact this

theorem handChain_keeps (h : Keeps s t) (x : Side) (i : Fin 12)
    (hw : PlacesLaw s → Loose t i ∧ (t.slot i).state = .intake ∧ (t.slot i).side = x) : Keeps s (handChain x i t) := by
  unfold handChain
  split
  · rename_i hc
    have hc1 := hc.1
    unfold Intake.idle at hc1
    simp only [Bool.and_eq_true, Option.isNone_iff_eq_none] at hc1
    exact startReads_keeps h x i (fun q => ⟨(hw q).2.1, (hw q).2.2, by simp [hc1.2], by simp [hc.2]⟩)
  · exact joinChains_keeps h x i hw

theorem startChain_keeps (h : Keeps s t) (x : Side) : Keeps s (startChain x t) := by
  unfold startChain
  split
  · exact h
  · rename_i i r hc
    refine startReads_keeps (modIntake_keeps h x (fun l => ⟨l.cells, l.values, l.overrun, l.cursor⟩) ?_) x i (fun q => ?_)
    · unfold Intake.works
      rw [hc]
      exact List.Sublist.append (.refl _) (List.Sublist.append (.refl _) (List.sublist_cons_self _ _))
    · obtain ⟨nd, st⟩ := (h.places q).intake x
      unfold Intake.works at nd st
      rw [hc] at nd st
      rw [List.nodup_append, List.nodup_append] at nd
      have m : i ∈ ((t.intake.get x).claim.map Prod.fst).toList ++ (((t.intake.get x).fetch.map Fetch.slot).toList ++ i :: r) := by
        simp
      refine ⟨(st i m).1, (st i m).2, ?_, ?_⟩
      · simp only [State.modIntake_intake, Sided.get_set_same]
        exact fun q => nd.2.2 i q i (by simp) rfl
      · simp only [State.modIntake_intake, Sided.get_set_same]
        exact (List.nodup_cons.1 nd.2.1.2.1).1

/-! ### Acceptance -/

theorem cursorAfter_bound {k : Kind} {r : List Word} {c : Option (Platter × Nat)} (hc : ∀ q, c = some q → q.2 < 12800) :
    ∀ q, cursorAfter k r c = some q → q.2 < 12800 := by
  intro q hq
  unfold cursorAfter at hq
  split at hq
  · obtain ⟨e, _, h2⟩ := Option.bind_eq_some_iff.1 hq
    split at h2
    · rename_i hlt
      cases h2
      exact hlt
    · cases h2
  · exact hc q hq

theorem dispatch_keeps (h : Keeps s t) (i : Fin 12) (k : Kind) (hl : PlacesLaw s → Loose t i)
    (hk : (t.slot i).kind = some k)
    (hf : k = .lock → LockFits t i ∧ t.map.commitChanges (lockRange (t.slot i).words) = false) :
    Keeps s (dispatch i k t) := by
  have read : k ≠ .lock → Keeps s (if readBlocked t (t.slot i) then decideBlockedRead i t else toWaiting i t) :=
    fun e => .ite (decideBlockedRead_keeps h i hl (by rw [hk]; exact fun q => e (Option.some.inj q)))
      (toWaiting_keeps h i hl)
  cases k
  case lock => exact decideLock_keeps h i hl (hf rfl).1 (hf rfl).2
  case unlock => exact decideUnlock_keeps h i hl
  case mountAck => exact decideMountAck_keeps h i hl
  case read => exact read (by decide)
  case check => exact read (by decide)
  case contRead => exact read (by decide)
  all_goals exact toWaiting_keeps h i hl

/-- A LOCK record that the nine steps pass lies in Shared and outside the cylinders that change (R25). -/
theorem validate_lock {s : State} {x : Side} {r : List Word} (hk : recKind r = some .lock) (h : validate s x r = none) :
    recCylinder r ≤ recLastCylinder r ∧ s.map.p1 ≤ recCylinder r ∧ recLastCylinder r < s.map.p2 ∧
      s.map.commitChanges (lockRange r) = false := by
  have touched : touchedOf .lock r (s.intake.get x).cursor = some (lockRange r) := by
    simp [touchedOf, Kind.transfers, Kind.locks]
  unfold validate at h
  rw [hk] at h
  dsimp only at h
  split at h; · cases h
  rename_i h1
  split at h; · cases h
  split at h; · cases h
  split at h; · cases h
  split at h; · cases h
  split at h; · cases h
  rename_i h7
  split at h; · cases h
  rename_i h8
  unfold badCount at h1
  unfold regionDenied at h7
  unfold regionChanging at h8
  rw [touched] at h7 h8
  simp [Kind.transfers, Kind.locks] at h1
  simp [RegionMap.leavesShared, lockRange] at h7
  simp at h8
  exact ⟨h1, h7.1, h7.2, h8⟩

theorem accept_keeps (h : Keeps s t) (x : Side) (i : Fin 12) (k : Kind) (hl : PlacesLaw s → Loose t i)
    (hi : PlacesLaw s → (t.slot i).state = .intake) (hk : (t.slot i).kind = some k)
    (hv : validate t x (t.slot i).words = none) : Keeps s (accept x i k t) := by
  unfold accept
  extract_lets c r u v
  have same : v.slot i = (t.slot i).accepted k c u.counter u.clk.count := State.slot_modSlot_same u i _
  have h1 : Keeps s v := setSlot_keeps (counter_keeps h _) i id (fun l => ⟨Nat.zero_le _, l.rereads, l.depth⟩)
    (fun q l => l.modSlot (fun e _ => by
      have : (t.slot i).state = .lockwait := e
      rw [hi q] at this
      cases this)) (fun _ l => l.modSlot rfl rfl)
  refine dispatch_keeps (modIntake_keeps h1 x (fun l =>
    ⟨l.cells, l.values, l.overrun, cursorAfter_bound (fun q hq => l.cursor q hq)⟩)) i k (fun q => ⟨?_, fun y m => ?_, ?_⟩) ?_ ?_
  · show (v.slot i).state ≠ .free
    rw [same]
    exact (hl q).occupied
  · simp only [State.modIntake_intake, Sided.get_set] at m
    split at m
    · rename_i e
      subst e
      exact (hl q).intake y m
    · exact (hl q).intake y m
  · exact (hl q).posting
  · show (v.slot i).kind = _
    rw [same]
    exact hk
  · intro e
    subst e
    obtain ⟨a, b, d, f⟩ := validate_lock hk hv
    have words : (v.slot i).words = (t.slot i).words := by rw [same]; rfl
    refine ⟨⟨?_, ?_, ?_, ?_⟩, ?_⟩
    · show (v.slot i).touched = some (lockRange (v.slot i).words)
      rw [same]
      simp [Slot.accepted, touchedOf, Kind.transfers, Kind.locks]
    · show recCylinder (v.slot i).words ≤ recLastCylinder (v.slot i).words
      rw [words]
      exact a
    · show t.map.p1 ≤ recCylinder (v.slot i).words
      rw [words]
      exact b
    · show recLastCylinder (v.slot i).words < t.map.p2
      rw [words]
      exact d
    · show t.map.commitChanges (lockRange (v.slot i).words) = false
      rw [words]
      exact f

theorem recordFetched_keeps (h : Keeps s t) (x : Side) (i : Fin 12) (hw : PlacesLaw s → Fetching t x i) :
    Keeps s (recordFetched x i t) := by
  unfold recordFetched
  have h1 : Keeps s (endFetch x t) := endFetch_keeps h x
  have hl : PlacesLaw s → Loose (endFetch x t) i := fun q => (hw q).loose (h.places q)
  have post : ∀ st, Keeps s (postNeverActive i st (endFetch x t)) := fun st => postNeverActive_keeps h1 i st hl
  refine .ite (post _) ?_
  split
  · exact post _
  · split
    · exact accept_keeps h1 x i _ hl (fun q => (hw q).state) ‹_› ‹_›
    · exact post _

theorem wordFetched_keeps (h : Keeps s t) (x : Side) (i : Fin 12) (d : Word) (hw : PlacesLaw s → Fetching t x i) :
    Keeps s (wordFetched x i d t) := by
  have h1 : Keeps s (t.modSlot i (fun sl => { sl with words := sl.words ++ [d] })) :=
    modSlot_keeps h i (fun l => ⟨l.passCount, l.rereads, l.depth⟩) (hw := fun q e => by
      rw [(hw q).state] at e
      cases e)
  refine .ite (recordFetched_keeps h1 x i (fun q => ?_)) h1
  obtain ⟨a, b, c, d'⟩ := hw q
  exact ⟨by rw [State.slot_modSlot_same]; exact a, by rw [State.slot_modSlot_same]; exact b, c, d'⟩

/-! ### Posting -/

theorem postNotice_keeps (h : Keeps s t) (sl : Slot) (b : Bool) : Keeps s (postNotice sl b t) := by
  unfold postNotice
  refine .ite (notify_keeps h _ _ _ _ (by decide)) ?_
  split
  · exact notify_keeps h _ _ _ _ ‹_›
  · exact h

/-- A notice changes neither the slots nor the places they stand in. -/
theorem postNotice_places (t : State) (sl : Slot) (b : Bool) :
    (postNotice sl b t).slots = t.slots ∧ (postNotice sl b t).intake = t.intake ∧ (postNotice sl b t).post = t.post := by
  unfold postNotice notify
  split
  · split <;> exact ⟨rfl, rfl, rfl⟩
  · split
    · split <;> exact ⟨rfl, rfl, rfl⟩
    · exact ⟨rfl, rfl, rfl⟩

theorem postChain_keeps (h : Keeps s t) (i : Fin 12) (b : Bool) (hl : PlacesLaw s → Loose t i) :
    Keeps s (postChain i b t) := by
  unfold postChain
  extract_lets sl
  split
  · rename_i hf
    have hd : (t.slot i).depth < 64 := by
      have := hf
      simp only [followsLink, Bool.and_eq_true, decide_eq_true_eq] at this
      exact this.2
    have h1 : Keeps s (t.modSlot i Slot.chained) :=
      moveSlot_keeps h i (fun _ => ⟨Nat.zero_le _, Nat.zero_le _, hd⟩) (fun e => SlotState.noConfusion e)
        (fun e => SlotState.noConfusion e) hl (.inr rfl)
    refine handChain_keeps h1 _ _ (fun q => ⟨⟨?_, (hl q).intake, (hl q).posting⟩, ?_, ?_⟩)
    · rw [State.slot_modSlot_same]
      exact fun e => SlotState.noConfusion e
    · rw [State.slot_modSlot_same]
      rfl
    · rw [State.slot_modSlot_same]
      rfl
  · exact freeSlot_keeps h i hl

/-- The current slot is the head of the posting queue. -/
theorem currentSlot_head {t : State} {i : Fin 12} (h : currentSlot t = some i) :
    ∃ n r, t.post.queue = (i, n) :: r := by
  unfold currentSlot at h
  split at h
  · rename_i e r _ hq
    cases h
    exact ⟨e.2, r, hq⟩
  · cases h

theorem finishPosting_keeps (h : Keeps s t) (i : Fin 12) (hq : ∃ n r, t.post.queue = (i, n) :: r) :
    Keeps s (finishPosting i t) := by
  obtain ⟨n, r, hq⟩ := hq
  obtain ⟨ps, pi, pp⟩ := postNotice_places t (t.slot i) t.post.timeoutSeen
  refine postChain_keeps (modPost_keeps (postNotice_keeps h _ _) _ (List.tail_sublist _)) i _ (fun k0 => ?_)
  have k := h.places k0
  have nd := k.posting.1
  rw [hq] at nd
  have hi : (t.slot i).state = .posting := k.posting.2 (i, n) (by rw [hq]; exact List.mem_cons_self)
  refine ⟨?_, fun y m => ?_, fun e m => ?_⟩
  · rw [State.slot_modPost, slot_of_slots ps, hi]
    exact fun e => SlotState.noConfusion e
  · rw [State.modPost_intake, pi] at m
    have := ((k.intake y).2 i m).1
    rw [hi] at this
    cases this
  · have m' : e ∈ r := by
      have : e ∈ (postNotice (t.slot i) t.post.timeoutSeen t).post.queue.tail := m
      rw [pp, hq] at this
      exact this
    rintro rfl
    exact (List.nodup_cons.1 nd).1 (show e.1 ∈ r.map Prod.fst from List.mem_map_of_mem m')

theorem enterSignal_keeps (h : Keeps s t) (i : Fin 12) (hq : ∃ n r, t.post.queue = (i, n) :: r) :
    Keeps s (enterSignal i t) :=
  .ite (finishPosting_keeps h i hq) (modPost_keeps h _)

theorem startPosting_keeps (h : Keeps s t) : Keeps s (startPosting t) := by
  unfold startPosting
  split
  · exact h
  · rename_i i n r hq
    exact .ite (finishPosting_keeps (modPost_keeps h _) i ⟨n, r, hq⟩) (modPost_keeps h _)

theorem wordWritten_keeps (h : Keeps s t) : Keeps s (wordWritten t) := by
  unfold wordWritten
  split
  · exact h
  · exact .ite (modPost_keeps h _) (enterSignal_keeps (modPost_keeps h _) _ (currentSlot_head ‹_›))

theorem pairWritten_keeps (h : Keeps s t) : Keeps s (pairWritten t) := by
  unfold pairWritten
  split
  · exact h
  · exact finishPosting_keeps h _ (currentSlot_head ‹_›)

theorem postingTimedOut_keeps (h : Keeps s t) : Keeps s (postingTimedOut t) := by
  unfold postingTimedOut
  split
  · exact h
  · exact finishPosting_keeps (modPost_keeps h _) _ (currentSlot_head ‹_›)

end Sys2Proof.Machine
end

