-- ==== Sys2Proof/Laws/Tap.lean ====
section
/-! SUPPORT. The taps' operations, and the end of every command, keep every law. -/

-- One declaration after another: the package is checked as one text, and every thread of its own would hold a stack.
set_option Elab.async false

namespace Sys2Proof.Machine

variable {s t : State}

theorem arrival_keeps (h : Keeps s t) (x : Side) (dir : Dir) (a : Addr) (d : Word) : Keeps s (arrival x dir a d t) := by
  unfold arrival
  refine .ite (.ite ?_ ?_) ?_
  · exact modTap_keeps h x (fun _ => id)
  · exact touch_keeps (modTap_keeps h x (fun _ => id))
  · exact modTap_keeps h x (fun _ => id)

theorem grantPart_keeps (h : Keeps s t) (x : Side) (p : PartCycle)
    (hp : PresentersLaw t → ∀ e, (Arb.part p).entry = some e → e.prio ≤ 7) : Keeps s (grantPart x p t) := by
  have h1 : Keeps s (t.modTap x (fun t => { t with arb := .part p })) := modTap_keeps' h x hp
  unfold grantPart
  split
  · exact modPres_keeps h1 x granted_law
  · exact modPres_keeps h1 x granted_law
  · exact modTap_keeps h1 x (fun _ => id)
  · exact h1

theorem grantComputer_keeps (h : Keeps s t) (x : Side) (c : CompCycle) : Keeps s (grantComputer x c t) :=
  modTap_keeps h x (fun e he => by simp [Arb.entry] at he)

theorem part_entry {p : PartCycle} {e : Entry} : (Arb.part p).entry = some e ↔ ∃ a, p.kind = .notice (some e) a := by
  unfold Arb.entry
  dsimp only
  split
  · rename_i e' a hk
    simp [hk]
  · rename_i hk
    constructor
    · intro hh; cases hh
    · rintro ⟨a, ha⟩; exact absurd ha (hk _ _)

theorem engineAsks_kind {x : Side} {p : PartCycle} (h : engineAsks t x = some p) : ∃ j, p.kind = .data j := by
  unfold engineAsks at h
  split at h
  · dsimp only at h
    split at h
    · cases h
    · split at h
      · exact ⟨_, by cases h; rfl⟩
      · split at h
        · exact ⟨_, by cases h; rfl⟩
        · cases h
  · cases h

theorem postingAsks_kind {x : Side} {p : PartCycle} (h : postingAsks t x = some p) :
    p.kind = .pairRead ∨ ∃ k, p.kind = .result k := by
  unfold postingAsks at h
  split at h
  · cases h
  · dsimp only at h
    split at h
    · cases h
    · split at h
      · exact .inr ⟨_, by cases h; rfl⟩
      · exact .inl (by cases h; rfl)
      · cases h

theorem intakeAsks_kind {x : Side} {p : PartCycle} (h : intakeAsks t x = some p) :
    (∃ i, p.kind = .clearing i) ∨ ∃ k, p.kind = .fetch k := by
  unfold intakeAsks at h
  split at h
  · cases h
  · exact .inl ⟨_, by cases h; rfl⟩
  · exact .inr ⟨_, by cases h; rfl⟩

theorem statusAsks_kind {x : Side} {p : PartCycle} (h : statusAsks t x = some p) : ∃ c, p.kind = .status c := by
  unfold statusAsks at h
  obtain ⟨c, _, rfl⟩ := Option.map_eq_some_iff.1 h
  exact ⟨c, rfl⟩

theorem presenterAsks_kind {x : Side} {p : PartCycle} (h : presenterAsks t x = some p) {e : Option Entry} {a : Bool}
    (hk : p.kind = .notice e a) : ∃ r, (t.pres.get x).owed = .notice e a :: r := by
  unfold presenterAsks at h
  split at h
  · cases h
  · cases h; cases hk
  · rename_i r hr
    cases h
    cases hk
    exact ⟨_, hr⟩

theorem partAsks_entry {x : Side} {p : PartCycle} (h : partAsks t x = some p) (hl : PresentersLaw t) :
    ∀ e, (Arb.part p).entry = some e → e.prio ≤ 7 := by
  intro e he
  obtain ⟨a, hk⟩ := part_entry.1 he
  unfold partAsks at h
  rcases Option.or_eq_some_iff.1 h with h | ⟨_, h⟩
  · obtain ⟨j, hj⟩ := engineAsks_kind h
    rw [hj] at hk; cases hk
  · rcases Option.or_eq_some_iff.1 h with h | ⟨_, h⟩
    · rcases postingAsks_kind h with hj | ⟨k, hj⟩ <;> rw [hj] at hk <;> cases hk
    · rcases Option.or_eq_some_iff.1 h with h | ⟨_, h⟩
      · rcases intakeAsks_kind h with ⟨k, hj⟩ | ⟨k, hj⟩ <;> rw [hj] at hk <;> cases hk
      · rcases Option.or_eq_some_iff.1 h with h | ⟨_, h⟩
        · obtain ⟨r, hr⟩ := presenterAsks_kind h hk
          exact (hl x).1.owedPriorities _ (by rw [hr]; exact List.mem_cons_self) e rfl
        · obtain ⟨c, hj⟩ := statusAsks_kind h
          rw [hj] at hk; cases hk

theorem urgentAsks_engine {x : Side} {p : PartCycle} (h : urgentAsks t x = some p) : engineAsks t x = some p := by
  unfold urgentAsks at h
  split at h
  · cases h
  · exact (Option.filter_eq_some_iff.1 h).1

theorem arbitrate_keeps (h : Keeps s t) (x : Side) : Keeps s (arbitrate x t) := by
  unfold arbitrate
  extract_lets u
  split
  · exact modTap_keeps h x (fun e he => by
      obtain ⟨a, hk⟩ := part_entry.1 he
      cases hk)
  · split
    · rename_i p hp
      refine grantPart_keeps h x p (fun _ e he => ?_)
      obtain ⟨a, hk⟩ := part_entry.1 he
      split at hp
      · obtain ⟨j, hj⟩ := engineAsks_kind (urgentAsks_engine hp)
        rw [hj] at hk; cases hk
      · cases hp
    · exact grantComputer_keeps h x _
    · split
      · rename_i p hp
        split at hp
        · exact grantPart_keeps h x p (partAsks_entry hp)
        · cases hp
      · exact h
  · exact h
  · exact h

theorem oweIfChanged_keeps (h : Keeps s t) (s0 : State) (x : Side) (c : StatusCell) :
    Keeps s (oweIfChanged s0 x c t) := .ite h (oweCell_keeps h x c)

theorem oweChangedOn_keeps (h : Keeps s t) (s0 : State) (x : Side) : Keeps s (oweChangedOn s0 x t) :=
  oweIfChanged_keeps (oweIfChanged_keeps (oweIfChanged_keeps (oweIfChanged_keeps (oweIfChanged_keeps h _ _ _) _ _ _)
    _ _ _) _ _ _) _ _ _

theorem oweChanged_keeps (h : Keeps s t) (s0 : State) : Keeps s (oweChanged s0 t) :=
  oweChangedOn_keeps (oweChangedOn_keeps h s0 .A) s0 .B

/-- The end of a command keeps every law. -/
theorem settle_keeps (h : Keeps s t) (s0 : State) : Keeps s (settle s0 t) :=
  arbitrate_keeps (arbitrate_keeps (oweChanged_keeps (examine_keeps (drainTest_keeps (reconcileDrive_keeps
    (engineReady_keeps h)))) s0) .A) .B

theorem begun_keeps (s : State) : Keeps s s.begun := out_keeps (.refl s) []

/-- A command with an effect that keeps the laws keeps them. -/
theorem run_keeps {f : State → State} (hf : Keeps s (f s.begun)) {t : State} (h : run f s = .next t) : Keeps s t := by
  cases h
  exact settle_keeps hf s

theorem runIf_keeps {c : Bool} {f : State → State} (hf : c = true → Keeps s (f s.begun)) {t : State}
    (h : runIf c f s = .next t) : Keeps s t := by
  unfold runIf at h
  split at h
  · exact run_keeps (hf ‹_›) h
  · cases h
    exact begun_keeps s

end Sys2Proof.Machine
end

