-- ==== Sys2Proof/Laws/Commands.lean ====
section
/-! SUPPORT. The resets, the deliveries and ends of cycles, ticks, marks and drive inputs keep every law: what each
command does of its own, with the lemmas of Tap.lean for `run` and `runIf` and those here for `onWatched` and
`onPart`. -/

-- One declaration after another: the package is checked as one text, and every thread of its own would hold a stack.
set_option Elab.async false

namespace Sys2Proof.Machine

variable {s t : State}

/-! ### Part reset and side reset -/

theorem intakeReset_law : IntakeLaw Intake.reset :=
  ⟨List.nodup_nil, fun _ h => absurd h List.not_mem_nil, by decide, fun _ h => by cases h⟩

theorem becomeLive_keeps (h : Keeps s t) (x : Side) : Keeps s (becomeLive x t) :=
  modPres_keeps (modTap_keeps h x (fun _ => id)) x (fun k => oweNotice_law k (fun _ e => by cases e))

theorem outOfReset_keeps (h : Keeps s t) (x : Side) (b : Bool) : Keeps s (outOfReset x b t) :=
  .ite h (becomeLive_keeps h x)

theorem driveStateAtReset_keeps (h : Keeps s t) (hc : t.drv.cause = 0) : Keeps s (driveStateAtReset t) := by
  have set : ∀ st : DriveState, st ≠ .faulted → Keeps s (t.modDrv (fun d => { d with state := st })) := fun st hs =>
    modDrv_keeps h (fun k => ⟨by simp [hc, hs], k.causeRange, k.idle, k.heldIdle, k.head⟩)
  refine .ite h (.ite (set .opened (by decide)) (.ite (enterRecalibrating_keeps h)
    (reconcileDrive_keeps (set .stopped (by decide)))))

theorem presReset_keeps (h : Keeps s t) : Keeps s (resetPresenters t) :=
  h.trans ⟨id, id, fun k => .of_eq (s := t) rfl rfl rfl k.2, id, fun k => .of (s := t) rfl (fun _ => .refl _) (.refl _) k, id, id,
    fun k x => ⟨by cases x <;> exact presenterReset_law, (k x).2⟩, id, rfl⟩

theorem cleared_slot (i : Fin 12) (swA swB : BitVec 13) (a b : Bool) (inp : DriveInputs)
    (r : Sided (Option CompCycle) × List Output) : (t.cleared swA swB a b inp r).slot i = Slot.empty 0 := by
  show (Vector.replicate 12 (Slot.empty 0))[i] = _
  simp

theorem driveReset_law (inp : DriveInputs) : DriveLaw (.reset inp) :=
  ⟨by simp [Drive.reset], by simp [Drive.reset], fun x => by cases x <;> simp [Drive.reset, Sided.both, Sided.get],
    fun _ _ h => absurd h List.not_mem_nil, by simp [Drive.reset]⟩

theorem partResetTap_entry (sw : BitVec 13) (b : Bool) (c : Option CompCycle) :
    (Tap.partReset sw b c).arb.entry = none := rfl

theorem mapReset_law : MapLaw RegionMap.reset :=
  ⟨by decide, by decide, (fun n hn => by cases hn), by decide,
    fun x => by cases x <;> simp [RegionMap.reset, Proposal.discarded, Sided.both, Sided.get],
    by simp [RegionMap.reset], fun x => by cases x <;> simp [RegionMap.reset, Sided.both, Sided.get]⟩

theorem no_locks {k : Fin 8} {l : Lock} (h : (Vector.replicate 8 (none : Option Lock))[k] = some l) : False := by
  simp at h

theorem cleared_keeps (h : Keeps s t) (swA swB : BitVec 13) (a b : Bool) (inp : DriveInputs)
    (r : Sided (Option CompCycle) × List Output) : Keeps s (t.cleared swA swB a b inp r) := by
  refine ⟨fun _ => mapReset_law, fun _ i j _ p q hp => (no_locks hp).elim,
    fun _ => ⟨fun k l hk => (no_locks hk).elim, fun k l hk => (no_locks hk).elim, fun i hi => ?_⟩,
    fun _ i j hi => ?_, fun _ => ⟨fun x => ?_, fun x => ?_, List.nodup_nil, fun _ m => absurd m List.not_mem_nil⟩,
    fun _ i => ?_, fun _ x => ?_, fun _ x => ?_, fun _ => driveReset_law inp, h.queue⟩
  · rw [cleared_slot] at hi; cases hi
  · rw [cleared_slot] at hi; cases hi
  · unfold State.occupied
    simp only [cleared_slot]
    exact Nat.zero_le _
  · cases x <;> exact ⟨List.nodup_nil, fun _ m => absurd m List.not_mem_nil⟩
  · rw [cleared_slot]; exact emptySlot_law 0
  · cases x <;> exact intakeReset_law
  · cases x <;> exact ⟨presenterReset_law, fun _ h => by cases h⟩

/-- What passes while a part reset is in progress: a cycle left in a tap was there at its beginning, unchanged, or came
in it and was not examined; and nothing is put out but words that the memory returned (R29, R46). -/
theorem passCycles_leaves {es : List ResetCycle} : ∀ {cs : Sided (Option CompCycle)}
    {r : Sided (Option CompCycle) × List Output}, passCycles cs es = some r →
    (∀ x c, r.1.get x = some c → cs.get x = some c ∨ c.watch = .none) ∧
    ∀ o ∈ r.2, ∃ x d, o = .readReturned x d := by
  induction es with
  | nil =>
    rintro cs r ⟨⟩
    exact ⟨fun _ _ h => .inl h, fun _ h => absurd h List.not_mem_nil⟩
  | cons e es ih =>
    intro cs r h
    cases e with
    | arrival x dir a d =>
      simp only [passCycles] at h
      split at h
      · cases h
      · refine ⟨fun y c hc => ?_, (ih h).2⟩
        rcases (ih h).1 y c hc with k | k
        · by_cases e : y = x
          · subst e; rw [Sided.get_set_same] at k; cases k; exact .inr rfl
          · rw [Sided.get_set_ne _ _ e] at k; exact .inl k
        · exact .inr k
    | ended x d =>
      simp only [passCycles] at h
      split at h
      · exact ih h
      · obtain ⟨q, hq, rfl⟩ := Option.map_eq_some_iff.1 h
        refine ⟨fun y c hc => ?_, fun o ho => ?_⟩
        · rcases (ih hq).1 y c hc with k | k
          · by_cases e : y = x
            · subst e; rw [Sided.get_set_same] at k; cases k
            · rw [Sided.get_set_ne _ _ e] at k; exact .inl k
          · exact .inr k
        · rcases List.mem_append.1 ho with m | m
          · unfold returned at m
            split at m
            · exact ⟨_, _, List.mem_singleton.1 m⟩
            · cases m
          · exact (ih hq).2 o m

/-- PART_RESET answers a next state exactly where the cycles that pass in it do not overlap. -/
theorem execPartReset_next {swA swB : BitVec 13} {a b : Bool} {inp : ResetInputs}
    (h : execPartReset swA swB a b inp s = .next t) :
    ∃ r, passCycles s.cycles inp.cycles = some r ∧ t = settle s (partReset swA swB a b inp.drive r s.begun) := by
  unfold execPartReset at h
  split at h
  · cases h
  · cases h
    exact ⟨_, ‹_›, rfl⟩

theorem partReset_keeps (h : Keeps s t) (swA swB : BitVec 13) (a b : Bool) (inp : DriveInputs)
    (r : Sided (Option CompCycle) × List Output) : Keeps s (partReset swA swB a b inp r t) :=
  outOfReset_keeps (outOfReset_keeps (presReset_keeps
    (driveStateAtReset_keeps (cleared_keeps h swA swB a b inp r) rfl)) .A a) .B b

theorem sideResetArb_entry (a : Arb) (e : Entry) (h : a.sideReset.entry = some e) : a.entry = some e := by
  cases a <;> exact h

theorem engineFreed_keeps' (h : Keeps s t) (x : Side) : Keeps s (tellEngine x t) := by
  unfold tellEngine
  split
  · exact h
  · exact .ite (engineFreed_keeps h _) h

theorem tellEngine_places (t : State) (x : Side) :
    (tellEngine x t).slots = t.slots ∧ (tellEngine x t).intake = t.intake ∧ (tellEngine x t).post = t.post := by
  unfold tellEngine engineFreed dropGates
  repeat' split
  all_goals exact ⟨rfl, rfl, rfl⟩

/-- No intake unit and no posting works for side `x`'s slots any more. -/
structure Released (t : State) (x : Side) : Prop where
  intake : (t.intake.get x).works = []
  posting : ∀ e ∈ t.post.queue, t.slotOf x e.1 = false

theorem Released.loose {x : Side} (r : Released t x) (k : PlacesLaw t) {i : Fin 12} (hi : t.slotOf x i = true) :
    Loose t i := by
  have h := hi
  unfold State.slotOf at h
  simp only [Bool.and_eq_true, bne_iff_ne, beq_iff_eq] at h
  refine ⟨h.1, fun y m => ?_, fun e m q => ?_⟩
  · have e := ((k.intake y).2 i m).2
    rw [h.2] at e
    subst e
    rw [r.intake] at m
    cases m
  · rw [← q, r.posting e m] at hi
    cases hi

theorem Released.freeSlot {x : Side} (r : Released t x) (i : Fin 12) : Released (freeSlot i t) x := by
  refine ⟨r.intake, fun e m => ?_⟩
  unfold State.slotOf Machine.freeSlot
  rw [State.slot_modSlot]
  split
  · rfl
  · exact r.posting e m

theorem freeSlots_keeps (l : List (Fin 12)) (x : Side) :
    ∀ {t : State}, Keeps s t → Released t x → Keeps s (l.foldl (freeIfOf x) t) := by
  induction l with
  | nil => exact fun h _ => h
  | cons i r ih =>
    intro t h q
    rw [List.foldl_cons]
    by_cases c : t.slotOf x i = true
    · have e : freeIfOf x t i = freeSlot i t := if_pos c
      rw [e]
      exact ih (freeSlot_keeps h i (fun k => q.loose (h.places k) c)) (q.freeSlot i)
    · have e : freeIfOf x t i = t := if_neg c
      rw [e]
      exact ih h q

theorem resetSlots_keeps (h : Keeps s t) (x : Side) (hw : (t.intake.get x).works = []) : Keeps s (resetSlots x t) := by
  obtain ⟨ps, pi, pp⟩ := tellEngine_places t x
  unfold resetSlots
  dsimp only
  refine examine_keeps (freeSlots_keeps _ x (modPost_keeps (engineFreed_keeps' h x) _ List.filter_sublist)
    ⟨?_, fun e m => ?_⟩)
  · rw [State.modPost_intake, pi]
    exact hw
  · have := (List.mem_filter.1 m).2
    unfold State.slotOf at this ⊢
    rw [State.slot_modPost, slot_of_slots ps]
    exact Bool.not_inj (by simpa using this)

theorem sideResetDrive_law (x : Side) {d : Drive} (k : DriveLaw d) : DriveLaw (d.sideReset x) :=
  ⟨k.cause, k.causeRange, fun y => by
    show (d.idle.set x 0).get y ≤ 2
    rw [Sided.get_set]
    split
    · exact Nat.zero_le _
    · exact k.idle y, fun y l m => k.heldIdle y l (List.mem_filter.1 m).1, k.head⟩

theorem sideReset_keeps (h : Keeps s t) (x : Side) : Keeps s (sideReset x t) := by
  unfold sideReset
  have h1 : Keeps s (t.modTap x Tap.sideReset) := modTap_keeps h x (fun e he => by
    have := sideResetArb_entry _ e he
    rwa [release_arb] at this)
  have h2 := modPres_keeps (modIntake_keeps h1 x (f := fun _ => .reset) (fun _ => intakeReset_law) (List.nil_sublist _)) x
    (f := fun _ => .reset) (fun _ => presenterReset_law)
  have h3 := modMap_keeps (resetSlots_keeps h2 x (by simp [Intake.reset, Intake.works])) (f := fun m => m.discard x)
    (fun k => discard_law k x) (discard_stays _ x)
  have h4 := modDrv_keeps h3 (f := fun d => d.sideReset x) (sideResetDrive_law x)
  exact notify_keeps (reexamine_keeps (freeLocks_keeps h4 _)) _ _ _ _ (by decide)

/-! ### Computer cycles -/

theorem endComputer_keeps (h : Keeps s t) (x : Side) (c : CompCycle) (d : Word) (wt : Nat) :
    Keeps s (endComputer x c d wt t) :=
  out_keeps (modDrv_keeps (modTap_keeps h x (fun e he => by cases he)) (driveLaw_of rfl rfl rfl rfl rfl)) _

theorem onWatched_keeps {x : Side} {d : Word} {wt : Nat} {w : Watch → Bool} {f : CompCycle → State → State}
    (hf : ∀ c u, Keeps s u → Keeps s (f c u)) (h : onWatched x d wt w f s = .next t) : Keeps s t := by
  unfold onWatched at h
  split at h
  · cases h
    exact begun_keeps s
  · refine runIf_keeps (fun _ => ?_) h
    have h1 := fun c => endComputer_keeps (begun_keeps s) x c d wt
    exact .ite (hf _ _ (h1 _)) (h1 _)

theorem idleWrite_keeps (h : Keeps s t) (x : Side) (v : Word) : Keeps s (idleWrite x v t) :=
  takeDriveEvent_keeps h _ (fun _ y l e => by cases e; exact Nat.min_le_left _ _)

/-! ### Part cycles -/

theorem endPart_keeps (h : Keeps s t) (x : Side) (wt : Nat) : Keeps s (endPart x wt t) :=
  modDrv_keeps (modTap_keeps h x (fun e he => by cases he)) (driveLaw_of rfl rfl rfl rfl rfl)

theorem onPart_keeps {x : Side} {wt : Nat} {k : CycleKind → Bool} {f : PartCycle → State → State}
    (hf : ∀ p u, (s.tap.get x).arb = .part p → Keeps s u → Keeps s (f p u))
    (h : onPart x wt k f s = .next t) : Keeps s t := by
  unfold onPart at h
  split at h
  · cases h
    exact begun_keeps s
  · rename_i p hp
    refine runIf_keeps (fun _ => ?_) h
    have h1 := endPart_keeps (begun_keeps s) x wt
    refine .ite h1 (hf _ _ ?_ h1)
    unfold partCycle at hp
    split at hp
    · rename_i hq
      cases hp
      exact hq
    · cases hp

theorem clearingEnded_keeps (h : Keeps s t) (x : Side) : Keeps s (clearingEnded x t) := by
  unfold clearingEnded
  split
  · exact h
  · rename_i hf
    exact .ite (startReads_keeps h x _ (fun k => (h.places k).fetching hf)) h

theorem fetchRead_keeps (h : Keeps s t) (x : Side) (d : Word) : Keeps s (fetchRead x d t) := by
  unfold fetchRead
  split
  · exact h
  · rename_i hf
    exact wordFetched_keeps h x _ d (fun k => (h.places k).fetching hf)

theorem fetchTimedOut_keeps (h : Keeps s t) (x : Side) : Keeps s (fetchTimedOut x t) := by
  unfold fetchTimedOut
  split
  · exact h
  · rename_i hf
    exact unfetchable_keeps h x _ _ (fun k => (h.places k).fetching hf)

theorem deadlineReached_keeps (h : Keeps s t) (i : Fin 12) : Keeps s (deadlineReached i t) := by
  unfold deadlineReached
  extract_lets b u
  have h1 : Keeps s u := modSlot_keeps h i (fun l => ⟨l.passCount, l.rereads, l.depth⟩)
  split
  · rename_i c
    refine reexamineAfter_keeps (postNeverActive_keeps h1 i _ (h1.loose ?_)) _
    have same : (u.slot i).state = (t.slot i).state := by rw [State.slot_modSlot_same]
    rw [same]
    exact c.1.elim (fun e => .inr (.inl e)) .inl
  · exact h1

theorem pairReadAnswered_keeps (h : Keeps s t) (x : Side) (d : Word) (p : PartCycle) :
    Keeps s (pairReadAnswered x d p t) := by
  unfold pairReadAnswered
  split
  · exact h
  · exact modTap_keeps h x (fun e he => by cases he)

theorem noticeWriteEnded_keeps (h : Keeps s t) (x : Side) (b : Bool) (k : CycleKind) :
    Keeps s (noticeWriteEnded x b k t) := by
  unfold noticeWriteEnded
  split
  · exact modPres_keeps h x (fun l => noticeEnded_law l _ b)
  · exact h

theorem dataEnded_keeps (h : Keeps s t) (d : Word) (k : CycleKind) : Keeps s (dataEnded d k t) := by
  unfold dataEnded
  split
  · exact dataAnswered_keeps h _ d
  · exact h

theorem timedOut_keeps (h : Keeps s t) (x : Side) (k : CycleKind) : Keeps s (timedOut x k t) := by
  unfold timedOut
  split
  · exact dataTimedOut_keeps h
  · exact postingTimedOut_keeps h
  · exact postingTimedOut_keeps h
  · exact postingTimedOut_keeps h
  · exact clearingEnded_keeps h x
  · exact fetchTimedOut_keeps h x
  · exact noticeWriteEnded_keeps h x false _
  · exact h
  · exact h

/-! ### The slot clock, sectors and spans -/

theorem tick_keeps (h : Keeps s t) : Keeps s (tick t) := by
  have hs : ∀ i, (tick t).slot i = { t.slot i with span := (t.slot i).span.map (Span.tick (t.clk.count + 1)) } := by
    intro i
    show (t.slots.map _)[i] = _
    simp [State.slot]
  refine h.trans ⟨fun k => ?_, id, fun k => .of (s := t) rfl ⟨rfl, rfl⟩ (fun c => ⟨c, rfl⟩) (fun i hi _ => ?_) k.2,
    fun k i j hi hj => ?_, fun k => ⟨fun x => ?_, fun x => ⟨(k.intake x).1, fun i m => ?_⟩, k.posting.1, fun e m => ?_⟩,
    fun k i => ?_, id, id, fun k => ?_, rfl⟩
  · exact ⟨k.ordered, k.bounded, k.pendingOrdered, k.pendingState, k.sealedState, by simp [tick]; exact k.spanState, k.outcomes⟩
  · rw [hs] at hi ⊢
    exact ⟨hi, rfl, rfl⟩
  · rw [hs] at hi hj
    exact k i j hi hj
  · have : (tick t).occupied x = t.occupied x := by
      unfold State.occupied
      simp only [hs]
    rw [this]
    exact k.eight x
  · rw [hs]
    exact (k.intake x).2 i m
  · rw [hs]
    exact k.posting.2 e m
  · rw [hs]
    exact ⟨(k i).passCount, (k i).rereads, (k i).depth⟩
  · exact driveLaw_of (d := t.drv) rfl rfl rfl rfl rfl k

theorem recordMark_keeps (h : Keeps s t) (n : BitVec 4) : Keeps s (recordMark n t) :=
  modDrv_keeps h (driveLaw_of rfl rfl rfl rfl rfl)

theorem markTick_keeps (h : Keeps s t) : Keeps s (markTick t) := by
  unfold markTick
  split
  · exact tick_keeps h
  · exact h

theorem markArrives_keeps (h : Keeps s t) (n : BitVec 4) : Keeps s (markArrives n t) :=
  markAtEngine_keeps (markTick_keeps (earlyMark_keeps (recordMark_keeps h n))) _

theorem atWordTime_keeps (h : Keeps s t) (w : Nat) : Keeps s (atWordTime w t) :=
  modDrv_keeps h (driveLaw_of rfl rfl rfl rfl rfl)

theorem seekTimedOut_keeps (h : Keeps s t) : Keeps s (seekTimedOut t) :=
  .ite (enterFaulted_keeps h (by decide) (by decide)) (startRecal_keeps h _)

theorem abandonedTimedOut_keeps (h : Keeps s t) : Keeps s (abandonedTimedOut t) := by
  unfold abandonedTimedOut
  split
  · exact h
  · rename_i m _
    have hc : m.1.cause ≠ 0 ∧ m.1.cause ≤ 4 := by cases m.1 <;> simp [Movement.cause]
    exact enterFaulted_keeps (modEng_keeps h _) hc.1 hc.2

/-! ### The drive's inputs -/

theorem setInput_keeps (h : Keeps s t) (f : DriveInputs → DriveInputs) : Keeps s (setInput f t) :=
  modDrv_keeps h (driveLaw_of rfl rfl rfl rfl rfl)

theorem inputEvent_keeps (h : Keeps s t) (f : DriveInputs → DriveInputs) (e : DriveEvent)
    (he : ∀ x l, e ≠ .idleWrite x l) : Keeps s (inputEvent f e t) :=
  takeDriveEvent_keeps (setInput_keeps h f) e (fun _ x l q => absurd q (he x l))

theorem setSource_keeps (h : Keeps s t) (c : ClockSource) : Keeps s (setSource c t) := clk_keeps h _

theorem protectChanges_keeps (h : Keeps s t) (b : Bool) : Keeps s (protectChanges b t) :=
  .ite (protectRises_keeps (setInput_keeps h _)) (setInput_keeps h _)

end Sys2Proof.Machine
end

