-- ==== Sys2Proof/Laws/Ends.lean ====
section
/-! SUPPORT. `EndFrame` (Safety.lean) is a preorder, and each operation that the end of a command makes is in it: what the
engine, the drive controller, the drain test, the selector, the status cells and the arbiters leave as it was. -/

-- One declaration after another: the package is checked as one text, and every thread of its own would hold a stack.
set_option Elab.async false

namespace Sys2Proof.Machine

theorem SlotFollows.refl (a : Slot) : SlotFollows a a :=
  ⟨fun _ _ => rfl, .inl, .inl, rfl, rfl, rfl, rfl, ⟨rfl, rfl, rfl, rfl⟩, rfl, ⟨rfl, rfl⟩, rfl, rfl⟩

theorem SlotFollows.trans {a b c : Slot} (h : SlotFollows a b) (k : SlotFollows b c) : SlotFollows a c := by
  refine ⟨fun p q => ?_, fun p => ?_, fun p => ?_, k.tenure.trans h.tenure, k.side.trans h.side,
    k.address.trans h.address, k.words.trans h.words, ?_, k.seq.trans h.seq,
    ⟨k.deadline.1.trans h.deadline.1, k.deadline.2.trans h.deadline.2⟩, k.depth.trans h.depth,
    k.passCount.trans h.passCount⟩
  · have hb := h.others p q
    subst hb
    exact k.others p q
  · rcases h.active p with hb | hb
    · exact k.active hb
    · exact .inr (by rw [k.others (by rw [hb]; decide) (by rw [hb]; decide)]; exact hb)
  · rcases h.lockwait p with hb | hb | hb
    · exact k.lockwait hb
    · exact .inr (.inl (by rw [k.others (by rw [hb]; decide) (by rw [hb]; decide)]; exact hb))
    · exact .inr (.inr (by rw [k.others (by rw [hb]; decide) (by rw [hb]; decide)]; exact hb))
  · exact ⟨k.extent.1.trans h.extent.1, k.extent.2.1.trans h.extent.2.1, k.extent.2.2.1.trans h.extent.2.2.1,
      k.extent.2.2.2.trans h.extent.2.2.2⟩

theorem EndFrame.refl (s : State) : EndFrame s s :=
  ⟨rfl, rfl, rfl, fun _ => rfl, fun _ => ⟨rfl, rfl⟩, fun _ => ⟨rfl, rfl, rfl, rfl, rfl⟩, fun _ => ⟨rfl, rfl⟩,
    ⟨rfl, rfl, rfl, rfl, rfl, rfl, rfl, rfl, rfl⟩, ⟨[], by simp⟩, fun _ _ h => h, fun _ => rfl, rfl,
    fun _ => .refl _⟩

theorem EndFrame.trans {s t u : State} (h : EndFrame s t) (k : EndFrame t u) : EndFrame s u := by
  obtain ⟨m, hm⟩ := h.posting
  obtain ⟨n, hn⟩ := k.posting
  have hd := h.drive
  have kd := k.drive
  refine ⟨k.counter.trans h.counter, k.clock.trans h.clock, k.pending.trans h.pending, fun p => ?_, fun x => ?_,
    fun x => ?_, fun x => ?_, ?_, ⟨m ++ n, by rw [hn, hm]; simp⟩, fun i l p => k.locks i l (h.locks i l p), fun p => ?_,
    k.proposals.trans h.proposals, fun i => (h.slots i).trans (k.slots i)⟩
  · have := h.selection p
    exact (k.selection (by rw [this]; exact p)).trans this
  · exact ⟨(k.taps x).1.trans (h.taps x).1, (k.taps x).2.trans (h.taps x).2⟩
  · have a := h.intake x
    have b := k.intake x
    exact ⟨b.1.trans a.1, b.2.1.trans a.2.1, b.2.2.1.trans a.2.2.1, b.2.2.2.1.trans a.2.2.2.1,
      b.2.2.2.2.trans a.2.2.2.2⟩
  · exact ⟨(k.levels x).1.trans (h.levels x).1, (k.levels x).2.trans (h.levels x).2⟩
  · exact ⟨kd.1.trans hd.1, kd.2.1.trans hd.2.1, kd.2.2.1.trans hd.2.2.1, kd.2.2.2.1.trans hd.2.2.2.1,
      kd.2.2.2.2.1.trans hd.2.2.2.2.1, kd.2.2.2.2.2.1.trans hd.2.2.2.2.2.1,
      kd.2.2.2.2.2.2.1.trans hd.2.2.2.2.2.2.1, kd.2.2.2.2.2.2.2.1.trans hd.2.2.2.2.2.2.2.1,
      kd.2.2.2.2.2.2.2.2.trans hd.2.2.2.2.2.2.2.2⟩
  · have := h.map p
    rw [← this] at p
    exact (k.map p).trans this

theorem EndFrame.ite {c : Prop} [Decidable c] {s t u : State} (ht : EndFrame s t) (hu : EndFrame s u) :
    EndFrame s (if c then t else u) := by
  split
  · exact ht
  · exact hu

variable {s t : State}

/-! ### Primitive updates -/

/-- Two states that agree on everything the frame speaks of. -/
theorem EndFrame.of_eq (h1 : t.tap = s.tap) (h2 : t.intake = s.intake) (h3 : t.slots = s.slots) (h4 : t.counter = s.counter)
    (h5 : t.sel = s.sel) (h6 : t.map = s.map) (h7 : t.locks = s.locks) (h8 : t.drv = s.drv) (h9 : t.post = s.post)
    (h10 : t.pres = s.pres) (h11 : t.clk = s.clk) (h12 : t.pending = s.pending) : EndFrame s t := by
  have hslot : ∀ i, t.slot i = s.slot i := fun i => by unfold State.slot; rw [h3]
  exact ⟨h4, h11, h12, fun _ => h5, fun x => by rw [h1]; exact ⟨rfl, rfl⟩, fun x => by rw [h2]; exact ⟨rfl, rfl, rfl, rfl, rfl⟩,
    fun x => by rw [h10]; exact ⟨rfl, rfl⟩, by rw [h8]; exact ⟨rfl, rfl, rfl, rfl, rfl, rfl, rfl, rfl, rfl⟩,
    ⟨[], by rw [h9]; simp⟩, fun k l h => by rw [h7]; exact h, fun _ => h6, by rw [h6],
    fun i => by rw [hslot]; exact .refl _⟩

theorem modEng_ends (h : EndFrame s t) (f : Engine → Engine) : EndFrame s (t.modEng f) :=
  h.trans (.of_eq rfl rfl rfl rfl rfl rfl rfl rfl rfl rfl rfl rfl)

theorem emit_ends (h : EndFrame s t) (o : Output) : EndFrame s (t.emit o) :=
  h.trans (.of_eq rfl rfl rfl rfl rfl rfl rfl rfl rfl rfl rfl rfl)

/-- A drive's change that leaves what the frame names. -/
theorem modDrv_ends (h : EndFrame s t) {f : Drive → Drive}
    (hf : (f t.drv).mark = t.drv.mark ∧ (f t.drv).cyl = t.drv.cyl ∧ (f t.drv).generation = t.drv.generation
      ∧ (f t.drv).mounted = t.drv.mounted ∧ (f t.drv).idle = t.drv.idle ∧ (f t.drv).inp = t.drv.inp
      ∧ (f t.drv).wordTime = t.drv.wordTime ∧ (f t.drv).openPending = t.drv.openPending
      ∧ (f t.drv).deferred = t.drv.deferred) : EndFrame s (t.modDrv f) :=
  h.trans ⟨rfl, rfl, rfl, fun _ => rfl, fun _ => ⟨rfl, rfl⟩, fun _ => ⟨rfl, rfl, rfl, rfl, rfl⟩, fun _ => ⟨rfl, rfl⟩, hf,
    ⟨[], by simp⟩, fun _ _ h => h, fun _ => rfl, rfl, fun _ => .refl _⟩

theorem modTap_ends (h : EndFrame s t) (x : Side) {f : Tap → Tap}
    (hf : (f (t.tap.get x)).base = (t.tap.get x).base ∧ (f (t.tap.get x)).live = (t.tap.get x).live) :
    EndFrame s (t.modTap x f) := by
  refine h.trans ⟨rfl, rfl, rfl, fun _ => rfl, fun y => ?_, fun _ => ⟨rfl, rfl, rfl, rfl, rfl⟩, fun _ => ⟨rfl, rfl⟩,
    ⟨rfl, rfl, rfl, rfl, rfl, rfl, rfl, rfl, rfl⟩, ⟨[], by simp⟩, fun _ _ h => h, fun _ => rfl, rfl, fun _ => .refl _⟩
  simp only [State.modTap_tap, Sided.get_set]
  split
  · rename_i e
    subst e
    exact hf
  · exact ⟨rfl, rfl⟩

theorem modPres_ends (h : EndFrame s t) (x : Side) {f : Presenter → Presenter}
    (hf : (f (t.pres.get x)).level = (t.pres.get x).level ∧ (f (t.pres.get x)).stack = (t.pres.get x).stack) :
    EndFrame s (t.modPres x f) := by
  refine h.trans ⟨rfl, rfl, rfl, fun _ => rfl, fun _ => ⟨rfl, rfl⟩, fun _ => ⟨rfl, rfl, rfl, rfl, rfl⟩, fun y => ?_,
    ⟨rfl, rfl, rfl, rfl, rfl, rfl, rfl, rfl, rfl⟩, ⟨[], by simp⟩, fun _ _ h => h, fun _ => rfl, rfl, fun _ => .refl _⟩
  simp only [State.modPres_pres, Sided.get_set]
  split
  · rename_i e
    subst e
    exact hf
  · exact ⟨rfl, rfl⟩

theorem modSlot_ends (h : EndFrame s t) (i : Fin 12) {f : Slot → Slot} (hf : SlotFollows (t.slot i) (f (t.slot i))) :
    EndFrame s (t.modSlot i f) := by
  refine h.trans ⟨rfl, rfl, rfl, fun _ => rfl, fun _ => ⟨rfl, rfl⟩, fun _ => ⟨rfl, rfl, rfl, rfl, rfl⟩, fun _ => ⟨rfl, rfl⟩,
    ⟨rfl, rfl, rfl, rfl, rfl, rfl, rfl, rfl, rfl⟩, ⟨[], by simp⟩, fun _ _ h => h, fun _ => rfl, rfl, fun j => ?_⟩
  rw [State.slot_modSlot]
  split
  · rename_i e
    subst e
    exact hf
  · exact .refl _

theorem cursors_ends (h : EndFrame s t) (x : Side) {f : Intake → Intake}
    (hf : (f (t.intake.get x)).list = (t.intake.get x).list ∧ (f (t.intake.get x)).overrun = (t.intake.get x).overrun
      ∧ (f (t.intake.get x)).fetch = (t.intake.get x).fetch ∧ (f (t.intake.get x)).chains = (t.intake.get x).chains
      ∧ (f (t.intake.get x)).claim = (t.intake.get x).claim) :
    EndFrame s (t.modIntake x f) := by
  refine h.trans ⟨rfl, rfl, rfl, fun _ => rfl, fun _ => ⟨rfl, rfl⟩, fun y => ?_, fun _ => ⟨rfl, rfl⟩,
    ⟨rfl, rfl, rfl, rfl, rfl, rfl, rfl, rfl, rfl⟩, ⟨[], by simp⟩, fun _ _ h => h, fun _ => rfl, rfl, fun _ => .refl _⟩
  simp only [State.modIntake_intake, Sided.get_set]
  split
  · rename_i e
    subst e
    exact hf
  · exact ⟨rfl, rfl, rfl, rfl, rfl⟩

theorem sel_ends (h : EndFrame s t) (hn : t.sel = none) (q : Option Selection) : EndFrame s { t with sel := q } :=
  h.trans ⟨rfl, rfl, rfl, fun p => by (rw [hn] at p; cases p), fun _ => ⟨rfl, rfl⟩, fun _ => ⟨rfl, rfl, rfl, rfl, rfl⟩,
    fun _ => ⟨rfl, rfl⟩, ⟨rfl, rfl, rfl, rfl, rfl, rfl, rfl, rfl, rfl⟩, ⟨[], by simp⟩, fun _ _ h => h, fun _ => rfl, rfl,
    fun _ => .refl _⟩

/-! ### Requests and locks -/

theorem posted_follows {sl : Slot} (h : sl.state = .active ∨ sl.state = .lockwait) (st : Status) (r p c : Word) :
    SlotFollows sl (sl.posted st r p c) := by
  refine ⟨fun a b => ?_, fun _ => .inr rfl, fun _ => .inr (.inr rfl), rfl, rfl, rfl, rfl, ⟨rfl, rfl, rfl, rfl⟩, rfl,
    ⟨rfl, rfl⟩, rfl, rfl⟩
  rcases h with h | h
  · exact absurd h a
  · exact absurd h b

theorem modPost_ends (h : EndFrame s t) (more : List (Fin 12 × Nat)) :
    EndFrame s (t.modPost (fun p => { p with queue := p.queue ++ more })) :=
  h.trans ⟨rfl, rfl, rfl, fun _ => rfl, fun _ => ⟨rfl, rfl⟩, fun _ => ⟨rfl, rfl, rfl, rfl, rfl⟩, fun _ => ⟨rfl, rfl⟩,
    ⟨rfl, rfl, rfl, rfl, rfl, rfl, rfl, rfl, rfl⟩, ⟨more, rfl⟩, fun _ _ h => h, fun _ => rfl, rfl, fun _ => .refl _⟩

theorem toPosting_ends (h : EndFrame s t) {i : Fin 12} (hi : (t.slot i).state = .active ∨ (t.slot i).state = .lockwait)
    (st : Status) (r p c : Word) : EndFrame s (toPosting i st r p c t) :=
  modPost_ends (modSlot_ends h i (posted_follows hi st r p c)) _

theorem postNeverActive_ends (h : EndFrame s t) {i : Fin 12} (hi : (t.slot i).state = .lockwait) (st : Status) :
    EndFrame s (postNeverActive i st t) := toPosting_ends h (.inr hi) st _ _ _

theorem toWaiting_ends (h : EndFrame s t) {i : Fin 12} (hi : (t.slot i).state = .lockwait) :
    EndFrame s (toWaiting i t) :=
  modSlot_ends h i ⟨fun _ b => absurd hi b, fun a => by (rw [hi] at a; cases a), fun _ => .inr (.inl rfl), rfl, rfl, rfl, rfl,
    ⟨rfl, rfl, rfl, rfl⟩, rfl, ⟨rfl, rfl⟩, rfl, rfl⟩

theorem endFence_ends (h : EndFrame s t) (x : Side) : EndFrame s (endFence x t) :=
  modTap_ends h x (by unfold Tap.release; split <;> exact ⟨rfl, rfl⟩)

theorem placeLock_ends (h : EndFrame s t) {k : Fin 8} (hk : t.locks[k] = none) (l : Lock) :
    EndFrame s (placeLock k l t) := by
  refine h.trans ⟨rfl, rfl, rfl, fun _ => rfl, fun _ => ⟨rfl, rfl⟩, fun _ => ⟨rfl, rfl, rfl, rfl, rfl⟩, fun _ => ⟨rfl, rfl⟩,
    ⟨rfl, rfl, rfl, rfl, rfl, rfl, rfl, rfl, rfl⟩, ⟨[], by simp [placeLock]⟩, fun j m hj => ?_, fun _ => rfl, rfl, fun _ => .refl _⟩
  have hne : k.val ≠ j.val := fun e => by
    have : k = j := Fin.ext e
    rw [this, hj] at hk
    cases hk
  show (t.locks.set k (some l))[j] = some m
  simpa [Vector.getElem_set_ne, hne] using hj

theorem freeEntry_none {k : Fin 8} (h : t.freeEntry = some k) : t.locks[k] = none := by
  have := List.find?_some h
  simpa using this

theorem examine_ends (h : EndFrame s t) : EndFrame s (examine t) := by
  unfold examine
  split
  · exact h
  · rename_i hc
    split
    · exact h
    · refine sel_ends h ?_ _
      have := not_or.1 hc
      simpa using this.2

theorem reexamineOne_ends (h : EndFrame s t) (i : Fin 12) : EndFrame s (reexamineOne t i) := by
  unfold reexamineOne
  extract_lets sl p r
  split
  · exact h
  · rename_i hs
    have hi : (t.slot i).state = .lockwait := not_not.1 hs
    refine .ite (.ite (postNeverActive_ends h hi _) (.ite (postNeverActive_ends h hi _) (.ite h ?_)))
      (.ite h (examine_ends (toWaiting_ends h hi)))
    split
    · rename_i k hk
      exact placeLock_ends (postNeverActive_ends h hi _) (freeEntry_none hk) _
    · exact postNeverActive_ends h hi _

theorem foldl_ends {α : Type} {f : State → α → State} (hf : ∀ {t : State} (a : α), EndFrame s t → EndFrame s (f t a))
    (l : List α) : ∀ {t : State}, EndFrame s t → EndFrame s (l.foldl f t) := by
  induction l with
  | nil => exact fun h => h
  | cons a r ih => exact fun h => ih (hf a h)

theorem reexaminePasses_ends (fuel : Nat) : ∀ {t : State} (calls : Nat), EndFrame s t →
    EndFrame s (reexaminePasses fuel calls t) := by
  induction fuel with
  | zero => exact fun _ h => h
  | succ n ih =>
    intro t calls h
    cases calls with
    | zero => exact h
    | succ c => exact ih _ (foldl_ends (fun i k => reexamineOne_ends k i) _ h)

theorem reexamineFor_ends (h : EndFrame s t) (c : Nat) : EndFrame s (reexamineFor c t) := reexaminePasses_ends _ _ h

theorem reexamine_ends (h : EndFrame s t) : EndFrame s (reexamine t) := reexamineFor_ends h 1

theorem reexamineAfter_ends (h : EndFrame s t) (sl : Slot) : EndFrame s (reexamineAfter sl t) :=
  .ite (reexamine_ends h) h

/-! ### The engine -/

theorem dropGates_ends (h : EndFrame s t) : EndFrame s (dropGates t) :=
  modDrv_ends h ⟨rfl, rfl, rfl, rfl, rfl, rfl, rfl, rfl, rfl⟩

theorem dropReadGate_ends (h : EndFrame s t) : EndFrame s (t.modDrv (fun d => { d with readGate := false })) :=
  modDrv_ends h ⟨rfl, rfl, rfl, rfl, rfl, rfl, rfl, rfl, rfl⟩

theorem clearEngine_ends (h : EndFrame s t) : EndFrame s (clearEngine t) := dropGates_ends (modEng_ends h _)

theorem abandonData_page (t : Tap) : t.abandonData.base = t.base ∧ t.abandonData.live = t.live := by
  unfold Tap.abandonData
  split
  · split <;> exact ⟨rfl, rfl⟩
  · exact ⟨rfl, rfl⟩

theorem endRequest_ends (h : EndFrame s t) (st : Status) (c : Word) : EndFrame s (endRequest st c t) := by
  unfold endRequest
  split
  · exact clearEngine_ends h
  · rename_i i hi
    exact reexamineAfter_ends (examine_ends (clearEngine_ends (modTap_ends (endFence_ends
      (toPosting_ends h (.inl (engineSlot_active hi)) st _ _ c) _) _ (abandonData_page _)))) _

theorem finishEnding_ends (h : EndFrame s t) : EndFrame s (finishEnding t) := by
  unfold finishEnding
  split
  · exact h
  · exact .ite (endRequest_ends h _ _) h

theorem found_ends (h : EndFrame s t) (st : Status) : EndFrame s (found st t) :=
  finishEnding_ends (modEng_ends (dropReadGate_ends h) _)

theorem cutDrive_ends (h : EndFrame s t) {u : State} (hd : u.drv = { t.drv with writeGate := false })
    (h1 : u.tap = t.tap) (h2 : u.intake = t.intake) (h3 : u.slots = t.slots) (h4 : u.counter = t.counter)
    (h5 : u.sel = t.sel) (h6 : u.map = t.map) (h7 : u.locks = t.locks) (h9 : u.post = t.post)
    (h10 : u.pres = t.pres) (h11 : u.clk = t.clk) (h12 : u.pending = t.pending) : EndFrame s u :=
  (modDrv_ends h (f := fun d => { d with writeGate := false }) ⟨rfl, rfl, rfl, rfl, rfl, rfl, rfl, rfl, rfl⟩).trans
    (.of_eq h1 h2 h3 h4 h5 h6 h7 hd h9 h10 h11 h12)

theorem cutWrite_ends (h : EndFrame s t) : EndFrame s (cutWrite t) := by
  unfold cutWrite
  exact .ite (cutDrive_ends h rfl rfl rfl rfl rfl rfl rfl rfl rfl rfl rfl rfl) h

theorem dropWriteGate_ends (h : EndFrame s t) : EndFrame s (dropWriteGate t) := by
  unfold dropWriteGate
  exact .ite (cutDrive_ends h rfl rfl rfl rfl rfl rfl rfl rfl rfl rfl rfl rfl) h

theorem interrupt_ends (h : EndFrame s t) (st : Status) : EndFrame s (interrupt st t) := by
  unfold interrupt
  split
  · exact .ite h (finishEnding_ends (cutWrite_ends h))
  · exact finishEnding_ends (modEng_ends (dropReadGate_ends (cutWrite_ends h)) _)

theorem issueRecalibrate_ends (h : EndFrame s t) : EndFrame s (issueRecalibrate t) :=
  emit_ends (modDrv_ends h ⟨rfl, rfl, rfl, rfl, rfl, rfl, rfl, rfl, rfl⟩) _

theorem issueSeek_ends (h : EndFrame s t) (c : Nat) : EndFrame s (issueSeek c t) :=
  emit_ends (modDrv_ends h ⟨rfl, rfl, rfl, rfl, rfl, rfl, rfl, rfl, rfl⟩) _

theorem startSeek_ends (h : EndFrame s t) (c : Nat) (r : Bool) : EndFrame s (startSeek c r t) :=
  issueSeek_ends (modEng_ends h _) c

theorem rotate_ends (h : EndFrame s t) (sl : Slot) : EndFrame s (rotate sl t) :=
  modDrv_ends (modEng_ends h _) ⟨rfl, rfl, rfl, rfl, rfl, rfl, rfl, rfl, rfl⟩

theorem arrive_ends (h : EndFrame s t) : EndFrame s (arrive t) := by
  unfold arrive
  split
  · exact h
  · extract_lets sl b u
    have h1 : EndFrame s u := modEng_ends h _
    exact .ite (found_ends h1 _) (.ite (found_ends h1 _) (rotate_ends h1 _))

theorem beginRequest_ends (h : EndFrame s t) : EndFrame s (beginRequest t) := by
  unfold beginRequest
  split
  · exact h
  · exact .ite (arrive_ends h) (startSeek_ends h _ _)

theorem stopFinishing_ends (h : EndFrame s t) : EndFrame s (stopFinishing t) := clearEngine_ends (dropWriteGate_ends h)

theorem reportRestore_ends (h : EndFrame s t) : EndFrame s (reportRestore t) := by
  unfold reportRestore
  split
  all_goals first
    | exact h
    | exact interrupt_ends h _
    | exact endRequest_ends h _ _

theorem reportDrive_ends (h : EndFrame s t) : EndFrame s (reportDrive t) := by
  unfold reportDrive
  extract_lets u v
  have h1 : EndFrame s u := .ite h (modEng_ends h _)
  have h2 : EndFrame s v := .ite (stopFinishing_ends h1) h1
  clear_value v
  split
  · exact h2
  · refine .ite (reportRestore_ends h2) ?_
    split
    · exact h2
    · exact interrupt_ends h2 _
    · exact interrupt_ends h2 _

/-! ### Notices and cells -/

theorem makeRoom_levels (p : Presenter) : p.makeRoom.level = p.level ∧ p.makeRoom.stack = p.stack := by
  unfold Presenter.makeRoom
  split <;> exact ⟨rfl, rfl⟩

theorem join_levels (p : Presenter) (k : NoticeKind) (a b c : Nat) :
    (p.join k a b c).level = p.level ∧ (p.join k a b c).stack = p.stack := by
  unfold Presenter.join
  split
  · exact ⟨rfl, rfl⟩
  · split
    · exact ⟨rfl, rfl⟩
    · exact makeRoom_levels p

theorem giveBack_levels (p : Presenter) (e : Entry) : (p.giveBack e).level = p.level ∧ (p.giveBack e).stack = p.stack := by
  unfold Presenter.giveBack
  split
  · exact ⟨rfl, rfl⟩
  · exact makeRoom_levels p

theorem presentHead_levels (p : Presenter) : p.presentHead.level = p.level ∧ p.presentHead.stack = p.stack := by
  unfold Presenter.presentHead
  split <;> exact ⟨rfl, rfl⟩

theorem examine_levels (p : Presenter) : p.examine.level = p.level ∧ p.examine.stack = p.stack := by
  unfold Presenter.examine
  split
  · exact ⟨rfl, rfl⟩
  · split
    · exact presentHead_levels p
    · exact ⟨rfl, rfl⟩
  · rename_i e _ _ _ _
    split
    · have a := presentHead_levels (Presenter.giveBack { p with presented := none } e)
      have b := giveBack_levels { p with presented := none } e
      exact ⟨a.1.trans b.1, a.2.trans b.2⟩
    · exact ⟨rfl, rfl⟩

theorem notify_ends (h : EndFrame s t) (x : Side) (k : NoticeKind) (a b c : Nat) : EndFrame s (notify x k a b c t) := by
  unfold notify
  refine .ite (modPres_ends h x ?_) h
  have l := examine_levels ((t.pres.get x).join k a b c)
  have m := join_levels (t.pres.get x) k a b c
  exact ⟨l.1.trans m.1, l.2.trans m.2⟩

theorem notifyDrive_ends (h : EndFrame s t) (c : Nat) : EndFrame s (notifyDrive c t) :=
  notify_ends (notify_ends h _ _ _ _ _) _ _ _ _ _

theorem oweCell_ends (h : EndFrame s t) (x : Side) (c : StatusCell) : EndFrame s (oweCell x c t) := by
  unfold oweCell
  exact .ite (modTap_ends h x ⟨rfl, rfl⟩) h

/-! ### The drive controller -/

theorem oweDrive_ends (h : EndFrame s t) : EndFrame s (oweDrive t) := oweCell_ends (oweCell_ends h _ _) _ _

theorem setDrive_ends (h : EndFrame s t) (st : DriveState) (c : Nat) : EndFrame s (setDrive st c t) := by
  have h1 : EndFrame s (t.modDrv (fun d => { d with state := st, cause := c, span := none })) :=
    modDrv_ends h ⟨rfl, rfl, rfl, rfl, rfl, rfl, rfl, rfl, rfl⟩
  exact .ite h1 (oweDrive_ends h1)

theorem startStateSpan_ends (h : EndFrame s t) (k : Nat) : EndFrame s (startStateSpan k t) :=
  modDrv_ends h ⟨rfl, rfl, rfl, rfl, rfl, rfl, rfl, rfl, rfl⟩

theorem enterFaulted_ends (h : EndFrame s t) (c : Nat) : EndFrame s (enterFaulted c t) :=
  notifyDrive_ends (reportDrive_ends
    (modDrv_ends (setDrive_ends h .faulted c) ⟨rfl, rfl, rfl, rfl, rfl, rfl, rfl, rfl, rfl⟩)) _

theorem enterRecalibrating_ends (h : EndFrame s t) : EndFrame s (enterRecalibrating t) := by
  have h1 := reportDrive_ends (issueRecalibrate_ends (startStateSpan_ends
    (modDrv_ends (setDrive_ends h .recalibrating 0) (f := fun d => { d with homed := false })
      ⟨rfl, rfl, rfl, rfl, rfl, rfl, rfl, rfl, rfl⟩) 256))
  exact .ite (enterFaulted_ends h1 4) h1

theorem enterSpinningUp_ends (h : EndFrame s t) : EndFrame s (enterSpinningUp t) := by
  have h1 := reportDrive_ends (emit_ends (startStateSpan_ends (setDrive_ends h .spinningUp 0) 25600) .spindleStart)
  exact .ite (enterFaulted_ends h1 4) (.ite (enterRecalibrating_ends h1) h1)

theorem faultResetActs_ends (h : EndFrame s t) : EndFrame s (faultResetActs t) :=
  .ite (enterRecalibrating_ends h) (enterSpinningUp_ends h)

theorem faultReset_ends (h : EndFrame s t) : EndFrame s (faultReset t) := by
  have h1 : EndFrame s ((t.modDrv (fun d => { d with recovery := true })).emit .faultReset) :=
    emit_ends (modDrv_ends h ⟨rfl, rfl, rfl, rfl, rfl, rfl, rfl, rfl, rfl⟩) _
  exact .ite (startStateSpan_ends h1 256) (faultResetActs_ends h1)

theorem spanWhile_ends (h : EndFrame s t) (w : Bool) (k : Nat) : EndFrame s (spanWhile w k t) :=
  .ite (.ite (startStateSpan_ends h k) h)
    (modDrv_ends h (f := fun d => { d with span := none }) ⟨rfl, rfl, rfl, rfl, rfl, rfl, rfl, rfl, rfl⟩)

theorem reconcileDrive_ends (h : EndFrame s t) : EndFrame s (reconcileDrive t) := by
  unfold reconcileDrive
  extract_lets w
  clear_value w
  split
  · split
    · exact enterSpinningUp_ends h
    · exact h
  · split
    · exact enterRecalibrating_ends h
    · exact spanWhile_ends h _ _
  · exact spanWhile_ends h _ _
  all_goals exact h

theorem startRequest_ends (h : EndFrame s t) (sl : Slot) : EndFrame s (startRequest sl t) := by
  unfold startRequest
  extract_lets u
  have h1 : EndFrame s u := .ite (modEng_ends h _) h
  exact .ite h1 (beginRequest_ends h1)

theorem restoreReady_ends (h : EndFrame s t) : EndFrame s (restoreReady t) := issueRecalibrate_ends (modEng_ends h _)

theorem engineTakes_ends (h : EndFrame s t) (i : Fin 12) : EndFrame s (engineTakes i t) := by
  unfold engineTakes
  extract_lets sl u
  have h1 : EndFrame s u := modEng_ends h _
  split
  · exact .ite (restoreReady_ends h1) (startRequest_ends h1 _)
  · exact .ite (faultReset_ends (modEng_ends h1 _)) (interrupt_ends h1 _)
  · exact interrupt_ends h1 _

theorem engineReady_ends (h : EndFrame s t) : EndFrame s (engineReady t) := by
  unfold engineReady
  split
  · exact h
  · exact .ite (engineTakes_ends h _) h

/-! ### The commit, the selector and the arbiters -/

/-- The map's change by a commit that was pending: the frame then leaves the map open, its proposals excepted. -/
theorem modMap_ends (h : EndFrame s t) (hp : s.map.protocol = .commitPending) {f : RegionMap → RegionMap}
    (hf : (f t.map).proposal = t.map.proposal) : EndFrame s (t.modMap f) :=
  ⟨h.counter, h.clock, h.pending, h.selection, h.taps, h.intake, h.levels, h.drive, h.posting, h.locks,
    fun n => absurd hp n, hf.trans h.proposals, h.slots⟩

theorem giveOutcome_ends (h : EndFrame s t) (hp : s.map.protocol = .commitPending) (x : Side) (c : Nat) :
    EndFrame s (giveOutcome x c t) := notify_ends (oweCell_ends (modMap_ends h hp rfl) _ _) _ _ _ _ _

theorem commit_ends (h : EndFrame s t) (hp : s.map.protocol = .commitPending) : EndFrame s (commit t) := by
  unfold commit
  extract_lets u v
  have h1 : EndFrame s u := modMap_ends h hp rfl
  have h2 : EndFrame s v := oweCell_ends (oweCell_ends (oweCell_ends (oweCell_ends h1 _ _) _ _) _ _) _ _
  exact giveOutcome_ends (giveOutcome_ends (cursors_ends (cursors_ends h2 .A ⟨rfl, rfl, rfl, rfl, rfl⟩) .B ⟨rfl, rfl, rfl, rfl, rfl⟩)
    hp .A 1) hp .B 1

theorem drainTest_ends (h : EndFrame s t) : EndFrame s (drainTest t) := by
  unfold drainTest
  split
  · rename_i hc
    refine commit_ends h ?_
    by_contra hn
    rw [h.map hn] at hc
    exact hn hc.1
  · exact h

theorem oweIfChanged_ends (h : EndFrame s t) (s0 : State) (x : Side) (c : StatusCell) :
    EndFrame s (oweIfChanged s0 x c t) := .ite h (oweCell_ends h x c)

theorem oweChangedOn_ends (h : EndFrame s t) (s0 : State) (x : Side) : EndFrame s (oweChangedOn s0 x t) :=
  oweIfChanged_ends (oweIfChanged_ends (oweIfChanged_ends (oweIfChanged_ends (oweIfChanged_ends h _ _ _) _ _ _) _ _ _)
    _ _ _) _ _ _

theorem grantPart_ends (h : EndFrame s t) (x : Side) (p : PartCycle) : EndFrame s (grantPart x p t) := by
  have h1 : EndFrame s (t.modTap x (fun t => { t with arb := .part p })) := modTap_ends h x ⟨rfl, rfl⟩
  unfold grantPart
  split
  · exact modPres_ends h1 x ⟨rfl, rfl⟩
  · exact modPres_ends h1 x ⟨rfl, rfl⟩
  · exact modTap_ends h1 x ⟨rfl, rfl⟩
  · exact h1

theorem arbitrate_ends (h : EndFrame s t) (x : Side) : EndFrame s (arbitrate x t) := by
  unfold arbitrate
  extract_lets u
  split
  · exact modTap_ends h x ⟨rfl, rfl⟩
  · split
    · exact grantPart_ends h x _
    · exact modTap_ends h x ⟨rfl, rfl⟩
    · split
      · exact grantPart_ends h x _
      · exact h
  · exact h
  · exact h

end Sys2Proof.Machine
end

