-- ==== Sys2Proof/Laws/Moves.lean ====
section
/-! SUPPORT. Once for each shared operation, everything it can change: `TableMoves` for what a re-examination does,
`EngineMoves` for what the end of a request and a report of the drive state do, and the drive controller's own fields
after each state's entry. Later claims cite these and unfold none of the operations. -/

-- One declaration after another: the package is checked as one text, and every thread of its own would hold a stack.
set_option Elab.async false

namespace Sys2Proof.Machine

variable {s t u : State}

/-! ### The re-examination of the lock-wait order -/

/-- What moves of LOCKWAIT slots can change: slots that were in LOCKWAIT, entries that become their locks, the posting
queue's tail, and the selection where none is outstanding. -/
structure TableMoves (s t : State) : Prop where
  rest : t = { s with slots := t.slots, locks := t.locks, sel := t.sel, post := { s.post with queue := t.post.queue } }
  sel : s.sel.isSome = true → t.sel = s.sel
  slots : ∀ i, t.slot i = s.slot i ∨ (s.slot i).state = .lockwait ∧ ((t.slot i).state = .posting ∨ (t.slot i).state = .waiting)
    ∧ (t.slot i).side = (s.slot i).side ∧ (t.slot i).tenure = (s.slot i).tenure ∧ (t.slot i).words = (s.slot i).words
  queue : ∃ more, t.post.queue = s.post.queue ++ more ∧ ∀ e ∈ more, (s.slot e.1).state = .lockwait
  locks : ∀ (k : Fin 8) (l : Lock), t.locks[k] = some l →
    s.locks[k] = some l ∨ ∃ i, (s.slot i).state = .lockwait ∧ (s.slot i).kind = some .lock ∧ l = lockOf (s.slot i)

theorem TableMoves.refl (s : State) : TableMoves s s :=
  ⟨rfl, fun _ => rfl, fun _ => .inl rfl, ⟨[], (List.append_nil _).symm, fun _ h => absurd h List.not_mem_nil⟩,
    fun _ _ => .inl⟩

/-- A selection outstanding stays through both of two changes. -/
theorem sel_trans {s t u : State} (h : s.sel.isSome = true → t.sel = s.sel) (k : t.sel.isSome = true → u.sel = t.sel)
    (p : s.sel.isSome = true) : u.sel = s.sel := by
  have e := h p
  exact (k (by rw [e]; exact p)).trans e

/-- A slot that a move left in LOCKWAIT was not moved. -/
theorem TableMoves.stays (h : TableMoves s t) {i : Fin 12} (hi : (t.slot i).state = .lockwait) : t.slot i = s.slot i := by
  rcases h.slots i with e | ⟨_, e | e, _⟩
  · exact e
  · rw [hi] at e; cases e
  · rw [hi] at e; cases e

theorem TableMoves.trans (h : TableMoves s t) (k : TableMoves t u) : TableMoves s u := by
  have was : ∀ i, (t.slot i).state = .lockwait → (s.slot i).state = .lockwait := fun i hi => by rw [← h.stays hi]; exact hi
  refine ⟨by rw [k.rest, h.rest], sel_trans h.sel k.sel, fun i => ?_, ?_, fun j l hl => ?_⟩
  · rcases k.slots i with e | e
    · rw [e]; exact h.slots i
    · have := h.stays e.1
      rw [this] at e
      exact .inr e
  · obtain ⟨m, hm, wm⟩ := h.queue
    obtain ⟨n, hn, wn⟩ := k.queue
    refine ⟨m ++ n, by rw [hn, hm, List.append_assoc], fun e he => ?_⟩
    rcases List.mem_append.1 he with a | a
    · exact wm e a
    · exact was _ (wn e a)
  · rcases k.locks j l hl with a | ⟨i, hi, e⟩
    · exact h.locks j l a
    · rw [h.stays hi] at e
      exact .inr ⟨i, was i hi, e⟩

theorem toPosting_slot (s : State) (i j : Fin 12) (st : Status) (r p c : Word) :
    (toPosting i st r p c s).slot j = if j = i then (s.slot i).posted st r p c else s.slot j := by
  unfold toPosting
  rw [State.slot_modPost, State.slot_modSlot]

theorem toPosting_queue (s : State) (i : Fin 12) (st : Status) (r p c : Word) :
    (toPosting i st r p c s).post.queue = s.post.queue ++ [(i, (s.slot i).tenure)] := rfl

theorem postNeverActive_moves {i : Fin 12} (hi : (s.slot i).state = .lockwait) (st : Status) :
    TableMoves s (postNeverActive i st s) := by
  refine ⟨rfl, fun _ => rfl, fun j => ?_, ⟨[(i, (s.slot i).tenure)], rfl, fun e he => ?_⟩, fun _ _ => .inl⟩
  · unfold postNeverActive
    rw [toPosting_slot]
    split
    · rename_i e
      subst e
      exact .inr ⟨hi, .inl rfl, rfl, rfl, rfl⟩
    · exact .inl rfl
  · rw [List.mem_singleton.1 he]; exact hi

theorem placeLock_locks (k : Fin 8) (l : Lock) (j : Fin 8) (m : Lock) (h : (placeLock k l s).locks[j] = some m) :
    s.locks[j] = some m ∨ m = l := by
  have : (placeLock k l s).locks[j] = if k.val = j.val then some l else s.locks[j] := by simp [placeLock, Vector.getElem_set]
  rw [this] at h
  split at h
  · cases h; exact .inr rfl
  · exact .inl h

/-- An examination can change the selection alone, where none is outstanding. -/
theorem examine_moves (s : State) : TableMoves s (examine s) := by
  have stays : ∀ q, (s.sel.isSome = true → q = s.sel) → TableMoves s { s with sel := q } := fun q hq =>
    ⟨rfl, hq, fun _ => .inl rfl, ⟨[], (List.append_nil _).symm, fun _ h => absurd h List.not_mem_nil⟩, fun _ _ => .inl⟩
  unfold examine
  split
  · exact .refl s
  · rename_i hc
    split
    · exact .refl s
    · exact stays _ (fun p => absurd p (not_or.1 hc).2)

theorem reexamineOne_moves (s : State) (i : Fin 12) : TableMoves s (reexamineOne s i) := by
  unfold reexamineOne
  simp only
  split
  · exact .refl s
  · rename_i hs
    have hs : (s.slot i).state = .lockwait := Classical.not_not.1 hs
    have p := postNeverActive_moves hs
    split
    · rename_i hk
      have hk : (s.slot i).kind = some .lock := by
        unfold Slot.isKind at hk
        cases h : (s.slot i).kind <;> simp_all
      split
      · exact p _
      · split
        · exact p _
        · split
          · exact .refl s
          · split
            · have o := p .ok
              refine ⟨o.rest ▸ rfl, o.sel, o.slots, o.queue, fun j l hl => ?_⟩
              rcases placeLock_locks _ _ j l hl with e | e
              · exact .inl e
              · exact .inr ⟨i, hs, hk, e⟩
            · exact p _
    · split
      · exact .refl s
      · refine TableMoves.trans (t := toWaiting i s) ⟨rfl, fun _ => rfl, fun j => ?_,
          ⟨[], (List.append_nil _).symm, fun _ h => absurd h List.not_mem_nil⟩, fun _ _ => .inl⟩ (examine_moves _)
        by_cases hj : j = i
        · subst hj
          exact .inr ⟨hs, .inr (by simp [toWaiting]), by simp [toWaiting]⟩
        · exact .inl (State.slot_modSlot_ne s _ hj)

theorem foldl_moves (l : List (Fin 12)) : ∀ s, TableMoves s (l.foldl reexamineOne s) := by
  induction l with
  | nil => exact .refl
  | cons i r ih => exact fun s => (reexamineOne_moves s i).trans (ih _)

theorem reexaminePasses_moves (fuel : Nat) : ∀ (calls : Nat) (s : State), TableMoves s (reexaminePasses fuel calls s) := by
  induction fuel with
  | zero => exact fun _ => .refl
  | succ n ih =>
    intro calls s
    cases calls with
    | zero => exact .refl s
    | succ c => exact (foldl_moves _ s).trans (ih _ _)

theorem countP_disjoint {α : Type} {p q r : α → Bool} (l : List α) (hp : ∀ a ∈ l, p a = true → r a = true ∧ q a = false)
    (hq : ∀ a ∈ l, q a = true → r a = true) : l.countP p + l.countP q ≤ l.countP r := by
  induction l with
  | nil => exact Nat.le_refl _
  | cons a t ih =>
    have := ih (fun b m => hp b (List.mem_cons_of_mem _ m)) (fun b m => hq b (List.mem_cons_of_mem _ m))
    have hpa := hp a List.mem_cons_self
    have hqa := hq a List.mem_cons_self
    simp only [List.countP_cons]
    cases hp' : p a <;> cases hq' : q a <;> cases hr' : r a <;> simp [hp', hq', hr'] at hpa hqa ⊢ <;> omega

/-- The slots that left LOCKWAIT ungranted no longer wait there, and no further slot waits. -/
theorem lockWaiters_after (h : TableMoves s t) : slotIds.countP (leftUngranted s t) + t.lockWaiters ≤ s.lockWaiters := by
  refine countP_disjoint _ (fun i _ hi => ?_) (fun i _ hi => ?_)
  · unfold leftUngranted at hi
    simp only [Bool.and_eq_true, Bool.or_eq_true, beq_iff_eq] at hi
    refine ⟨by simp [hi.1], ?_⟩
    rcases hi.2 with e | ⟨e, _⟩ <;> rw [e] <;> rfl
  · have e : (t.slot i).state = .lockwait := by simpa using hi
    rw [← h.stays e]
    exact hi

/-- `fuel` bounds the passes without cutting any off: further fuel changes nothing. -/
theorem reexaminePasses_fuel (fuel : Nat) : ∀ (calls : Nat) (s : State), calls + s.lockWaiters ≤ fuel →
    reexaminePasses (fuel + 1) calls s = reexaminePasses fuel calls s := by
  induction fuel with
  | zero =>
    intro calls s h
    have : calls = 0 := by omega
    subst this
    rfl
  | succ n ih =>
    intro calls s h
    cases calls with
    | zero => rfl
    | succ c =>
      have := lockWaiters_after (foldl_moves (lockWaitOrder s) s)
      exact ih _ _ (by unfold reexaminePass; omega)

theorem reexamineFor_moves (c : Nat) (s : State) : TableMoves s (reexamineFor c s) := reexaminePasses_moves _ _ s

theorem reexamine_moves (s : State) : TableMoves s (reexamine s) := reexamineFor_moves 1 s

theorem reexamineAfter_moves (sl : Slot) (s : State) : TableMoves s (reexamineAfter sl s) := by
  unfold reexamineAfter
  split
  · exact reexamine_moves s
  · exact .refl s

/-- The selector's examination and the re-examination at a departure from ACTIVE (R77). -/
theorem departure_moves (sl : Slot) (s : State) : TableMoves s (reexamineAfter sl (examine s)) :=
  (examine_moves s).trans (reexamineAfter_moves sl _)

/-! ### The end of a request and the reports of the drive state -/

/-- What the engine's endings can change: the fence and the data cycle of a tap, slots and locks by moves to POSTING
and the re-examination, its own state, the two gates, the posting queue's tail, a cut sector put out, and the
selection where none is outstanding. -/
structure EngineMoves (s t : State) : Prop where
  rest : t = { s with
    tap := t.tap, slots := t.slots, locks := t.locks, sel := t.sel, eng := t.eng, out := t.out
    drv := { s.drv with readGate := t.drv.readGate, writeGate := t.drv.writeGate }
    post := { s.post with queue := t.post.queue } }
  sel : s.sel.isSome = true → t.sel = s.sel
  out : ∃ cut, t.out = s.out ++ cut ∧ ∀ o ∈ cut, ∃ p i, o = .sectorCut p i

theorem EngineMoves.refl (s : State) : EngineMoves s s :=
  ⟨rfl, fun _ => rfl, [], (List.append_nil _).symm, fun _ h => absurd h List.not_mem_nil⟩

theorem EngineMoves.trans (h : EngineMoves s t) (k : EngineMoves t u) : EngineMoves s u := by
  obtain ⟨h1, h2, c, hc, wc⟩ := h
  obtain ⟨k1, k2, d, hd, wd⟩ := k
  refine ⟨by rw [k1, h1], sel_trans h2 k2, c ++ d, by rw [hd, hc, List.append_assoc], fun o ho => ?_⟩
  rcases List.mem_append.1 ho with a | a
  · exact wc o a
  · exact wd o a

theorem EngineMoves.ite {c : Prop} [Decidable c] (h : EngineMoves s t) (k : EngineMoves s u) :
    EngineMoves s (if c then t else u) := by
  split
  · exact h
  · exact k

theorem EngineMoves.of_out (h : t = { s with
    tap := t.tap, slots := t.slots, locks := t.locks, sel := t.sel, eng := t.eng, out := t.out
    drv := { s.drv with readGate := t.drv.readGate, writeGate := t.drv.writeGate }
    post := { s.post with queue := t.post.queue } }) (ho : t.out = s.out)
    (hs : s.sel.isSome = true → t.sel = s.sel := by exact fun _ => rfl) : EngineMoves s t :=
  ⟨h, hs, [], by rw [ho, List.append_nil], fun _ h => absurd h List.not_mem_nil⟩

theorem modEng_moves (h : EngineMoves s t) (f : Engine → Engine) : EngineMoves s (t.modEng f) := h.trans (.of_out rfl rfl)

theorem modTap_moves (h : EngineMoves s t) (x : Side) (f : Tap → Tap) : EngineMoves s (t.modTap x f) :=
  h.trans (.of_out rfl rfl)

theorem dropReadGate_moves (h : EngineMoves s t) : EngineMoves s (t.modDrv (fun d => { d with readGate := false })) :=
  h.trans (.of_out rfl rfl)

theorem clearEngine_moves (h : EngineMoves s t) : EngineMoves s (clearEngine t) := h.trans (.of_out rfl rfl)

theorem toPosting_moves (h : EngineMoves s t) (i : Fin 12) (st : Status) (r p c : Word) :
    EngineMoves s (toPosting i st r p c t) := h.trans (.of_out rfl rfl)

theorem TableMoves.engine (h : TableMoves s t) : EngineMoves s t := .of_out (by rw [h.rest]) (by rw [h.rest]) h.sel

theorem endRequest_moves (h : EngineMoves s t) (st : Status) (c : Word) : EngineMoves s (endRequest st c t) := by
  unfold endRequest
  split
  · exact clearEngine_moves h
  · exact (clearEngine_moves (modTap_moves (modTap_moves (toPosting_moves h _ _ _ _ _) _ _) _ _)).trans
      (departure_moves _ _).engine

theorem finishEnding_moves (h : EngineMoves s t) : EngineMoves s (finishEnding t) := by
  unfold finishEnding
  split
  · exact h
  · exact .ite (endRequest_moves h _ _) h

theorem sectorCuts (q : Option (Platter × Nat)) (o : Output)
    (h : o ∈ (q.map (fun q => Output.sectorCut q.1 q.2)).toList) : ∃ p i, o = .sectorCut p i := by
  cases q with
  | none => exact absurd h List.not_mem_nil
  | some q => exact ⟨q.1, q.2, List.mem_singleton.1 h⟩

theorem cutWrite_moves (h : EngineMoves s t) : EngineMoves s (cutWrite t) := by
  unfold cutWrite
  split
  · exact h.trans ⟨rfl, fun _ => rfl, _, rfl, sectorCuts _⟩
  · exact h

theorem dropWriteGate_moves (h : EngineMoves s t) : EngineMoves s (dropWriteGate t) := by
  unfold dropWriteGate
  split
  · exact h.trans ⟨rfl, fun _ => rfl, _, rfl, sectorCuts _⟩
  · exact h

theorem stopFinishing_moves (h : EngineMoves s t) : EngineMoves s (stopFinishing t) :=
  clearEngine_moves (dropWriteGate_moves h)

theorem interrupt_moves (h : EngineMoves s t) (st : Status) : EngineMoves s (interrupt st t) := by
  unfold interrupt
  split
  · exact .ite h (finishEnding_moves (cutWrite_moves h))
  · exact finishEnding_moves (modEng_moves (dropReadGate_moves (cutWrite_moves h)) _)

theorem found_moves (h : EngineMoves s t) (st : Status) : EngineMoves s (found st t) :=
  finishEnding_moves (modEng_moves (dropReadGate_moves h) _)

theorem reportRestore_moves (h : EngineMoves s t) : EngineMoves s (reportRestore t) := by
  unfold reportRestore
  split
  · exact interrupt_moves h _
  · exact h
  · exact interrupt_moves h _
  · exact endRequest_moves h _ _
  · exact h
  · exact h
  · exact interrupt_moves h _

theorem reportDrive_moves (s : State) : EngineMoves s (reportDrive s) := by
  unfold reportDrive
  simp only
  have a : EngineMoves s (if s.drv.state = .ready then s else s.modEng (fun e => { e with abandoned := none })) :=
    .ite (.refl s) (modEng_moves (.refl s) _)
  generalize (if s.drv.state = .ready then s else s.modEng (fun e => { e with abandoned := none })) = u at a
  have b : EngineMoves s (if u.eng.phase = .finishing ∧ u.drv.state ≠ .ready then stopFinishing u else u) :=
    .ite (stopFinishing_moves a) a
  generalize (if u.eng.phase = .finishing ∧ u.drv.state ≠ .ready then stopFinishing u else u) = v at b
  split
  · exact b
  · split
    · exact reportRestore_moves b
    · split
      · exact b
      · exact interrupt_moves b _
      · exact interrupt_moves b _

/-- The drive controller's fields after a report: its gates only may differ. -/
theorem reportDrive_drv (s : State) : (reportDrive s).drv =
    { s.drv with readGate := (reportDrive s).drv.readGate, writeGate := (reportDrive s).drv.writeGate } := by
  conv => lhs; rw [(reportDrive_moves s).rest]

/-! ### Part-owned cells and notices -/

/-- What noting an owed cell and handing over a notice can change: which cells are owed, and the presenters. -/
structure CellMoves (s t : State) : Prop where
  rest : t = { s with tap := t.tap, pres := t.pres }
  taps : ∀ x, t.tap.get x = { s.tap.get x with owed := (t.tap.get x).owed }

theorem CellMoves.refl (s : State) : CellMoves s s := ⟨rfl, fun _ => rfl⟩

theorem CellMoves.trans (h : CellMoves s t) (k : CellMoves t u) : CellMoves s u :=
  ⟨by rw [k.rest, h.rest], fun x => by rw [k.taps x, h.taps x]⟩

theorem oweCell_moves (x : Side) (c : StatusCell) (s : State) : CellMoves s (oweCell x c s) := by
  unfold oweCell
  split
  · exact ⟨rfl, fun y => by cases x <;> cases y <;> rfl⟩
  · exact .refl s

theorem oweDrive_moves (s : State) : CellMoves s (oweDrive s) := (oweCell_moves .A .drive s).trans (oweCell_moves .B .drive _)

theorem notify_moves (x : Side) (k : NoticeKind) (p g c : Nat) (s : State) : CellMoves s (notify x k p g c s) := by
  unfold notify
  split
  · exact ⟨rfl, fun _ => rfl⟩
  · exact .refl s

theorem notifyDrive_moves (c : Nat) (s : State) : CellMoves s (notifyDrive c s) :=
  (notify_moves .A .drive 1 0 c s).trans (notify_moves .B .drive 1 0 c _)

theorem giveOutcome_map (x : Side) (c : Nat) (s : State) :
    (giveOutcome x c s).map = { s.map with last := s.map.last.set x c } := by
  unfold giveOutcome
  rw [(notify_moves _ _ _ _ _ _).rest]
  show (oweCell x .partition (s.modMap _)).map = _
  rw [(oweCell_moves _ _ _).rest]
  rfl

/-! ### Entering the drive states -/

/-- The drive state set, and the rest of the state by what is owed. -/
theorem setDrive_moves (st : DriveState) (c : Nat) (s : State) :
    CellMoves (s.modDrv (fun d => { d with state := st, cause := c, span := none })) (setDrive st c s) := by
  unfold setDrive
  simp only
  split
  · exact .refl _
  · exact oweDrive_moves _

theorem setDrive_drv (st : DriveState) (c : Nat) (s : State) :
    (setDrive st c s).drv = { s.drv with state := st, cause := c, span := none } := by
  rw [(setDrive_moves st c s).rest]
  rfl

/-- What a change of the drive state can change: all but the intake units, the acceptance counter, a selection
outstanding, the region map, the slot clock, the queue of commands and the posting under way. -/
structure DriveMoves (s t : State) : Prop where
  rest : t = { s with
    tap := t.tap, slots := t.slots, locks := t.locks, sel := t.sel, eng := t.eng, out := t.out, drv := t.drv
    pres := t.pres, post := { s.post with queue := t.post.queue } }
  sel : s.sel.isSome = true → t.sel = s.sel := by exact fun _ => rfl

theorem DriveMoves.refl (s : State) : DriveMoves s s := ⟨rfl, fun _ => rfl⟩

theorem DriveMoves.trans (h : DriveMoves s t) (k : DriveMoves t u) : DriveMoves s u :=
  ⟨by rw [k.rest, h.rest], sel_trans h.sel k.sel⟩

theorem DriveMoves.ite {c : Prop} [Decidable c] (h : DriveMoves s t) (k : DriveMoves s u) :
    DriveMoves s (if c then t else u) := by
  split
  · exact h
  · exact k

theorem EngineMoves.drive (h : EngineMoves s t) : DriveMoves s t := ⟨by rw [h.rest], h.sel⟩

theorem CellMoves.drive (h : CellMoves s t) : DriveMoves s t := ⟨by rw [h.rest], fun _ => by rw [h.rest]⟩

theorem modDrv_moves (h : DriveMoves s t) (f : Drive → Drive) : DriveMoves s (t.modDrv f) := h.trans ⟨rfl, fun _ => rfl⟩

theorem emit_moves (h : DriveMoves s t) (o : Output) : DriveMoves s (t.emit o) := h.trans ⟨rfl, fun _ => rfl⟩

theorem setDriveState_moves (h : DriveMoves s t) (st : DriveState) (c : Nat) : DriveMoves s (setDrive st c t) :=
  (modDrv_moves h _).trans (setDrive_moves st c t).drive

theorem reported_moves (h : DriveMoves s t) : DriveMoves s (reportDrive t) := h.trans (reportDrive_moves t).drive

theorem notified_moves (h : DriveMoves s t) (c : Nat) : DriveMoves s (notifyDrive c t) := h.trans (notifyDrive_moves c t).drive

theorem notifyDrive_drv (c : Nat) (s : State) : (notifyDrive c s).drv = s.drv := by rw [(notifyDrive_moves c s).rest]

theorem enterFaulted_moves (h : DriveMoves s t) (c : Nat) : DriveMoves s (enterFaulted c t) :=
  notified_moves (reported_moves (modDrv_moves (setDriveState_moves h _ _) _)) _

/-- FAULTED: the state, the cause, the span and recovery; the gates as the engine's ending leaves them (R161). -/
theorem enterFaulted_drv (c : Nat) (s : State) : ∃ r w, (enterFaulted c s).drv =
    { s.drv with state := .faulted, cause := c, span := none, recovery := false, readGate := r, writeGate := w } := by
  have e := reportDrive_drv ((setDrive .faulted c s).modDrv (fun d => { d with recovery := false }))
  simp only [State.modDrv_drv, setDrive_drv] at e
  exact ⟨_, _, (notifyDrive_drv _ _).trans e⟩

theorem enterRecalibrating_moves (h : DriveMoves s t) : DriveMoves s (enterRecalibrating t) := by
  have a := reported_moves (emit_moves (modDrv_moves (modDrv_moves (modDrv_moves
    (setDriveState_moves h .recalibrating 0) (fun d => { d with homed := false }))
    (fun d => { d with span := some (spanFrom t.clk.count 256) }))
    (fun d => { d with move := some .recalibrate, markSeen := false })) .recalibrate)
  have ck : (setDrive .recalibrating 0 t).clk = t.clk := by rw [(setDrive_moves _ _ _).rest]; rfl
  unfold enterRecalibrating startStateSpan issueRecalibrate
  simp only [State.modDrv_clk, ck]
  exact .ite (enterFaulted_moves a _) a

/-- RECALIBRATING: the recalibrate issued takes the place of any movement, with the span of 256 slots; or FAULTED for the
fault input (R157). -/
theorem enterRecalibrating_drv (s : State) : ∃ r w, (enterRecalibrating s).drv =
    if s.drv.inp.fault then
      { s.drv with
        state := .faulted, cause := 4, span := none, recovery := false, homed := false, move := some .recalibrate
        markSeen := false, readGate := r, writeGate := w }
    else
      { s.drv with
        state := .recalibrating, cause := 0, span := some (spanFrom s.clk.count 256), homed := false
        move := some .recalibrate, markSeen := false, readGate := r, writeGate := w } := by
  have ck : (setDrive .recalibrating 0 s).clk = s.clk := by rw [(setDrive_moves _ _ _).rest]; rfl
  unfold enterRecalibrating startStateSpan issueRecalibrate
  simp only [State.modDrv_clk, ck]
  have e := reportDrive_drv ((((setDrive .recalibrating 0 s).modDrv (fun d => { d with homed := false })).modDrv
    (fun d => { d with span := some (spanFrom s.clk.count 256) })).modDrv
      (fun d => { d with move := some .recalibrate, markSeen := false }) |>.emit .recalibrate)
  generalize reportDrive ((((setDrive .recalibrating 0 s).modDrv (fun d => { d with homed := false })).modDrv
    (fun d => { d with span := some (spanFrom s.clk.count 256) })).modDrv
      (fun d => { d with move := some .recalibrate, markSeen := false }) |>.emit .recalibrate) = v at *
  simp only [State.emit_drv, State.modDrv_drv, setDrive_drv] at e
  have f : v.drv.inp.fault = s.drv.inp.fault := by rw [e]
  rw [f]
  split
  · obtain ⟨r, w, k⟩ := enterFaulted_drv 4 v
    exact ⟨r, w, by rw [k, e]⟩
  · exact ⟨_, _, e⟩

theorem enterSpinningUp_moves (h : DriveMoves s t) : DriveMoves s (enterSpinningUp t) := by
  have a := reported_moves (emit_moves (modDrv_moves
    (setDriveState_moves h .spinningUp 0) (fun d => { d with span := some (spanFrom t.clk.count 25600) })) .spindleStart)
  have ck : (setDrive .spinningUp 0 t).clk = t.clk := by rw [(setDrive_moves _ _ _).rest]; rfl
  unfold enterSpinningUp startStateSpan
  simp only [ck]
  exact .ite (enterFaulted_moves a _) (.ite (enterRecalibrating_moves a) a)

/-- SPINNING_UP with its span of 25600 slots; FAULTED for the fault input; RECALIBRATING for a spindle at speed (R157). -/
theorem enterSpinningUp_drv (s : State) : ∃ r w, (enterSpinningUp s).drv =
    if s.drv.inp.fault then
      { s.drv with state := .faulted, cause := 4, span := none, recovery := false, readGate := r, writeGate := w }
    else if s.drv.inp.upToSpeed then
      { s.drv with
        state := .recalibrating, cause := 0, span := some (spanFrom s.clk.count 256), homed := false
        move := some .recalibrate, markSeen := false, readGate := r, writeGate := w }
    else
      { s.drv with
        state := .spinningUp, cause := 0, span := some (spanFrom s.clk.count 25600), readGate := r, writeGate := w } := by
  have ck : (setDrive .spinningUp 0 s).clk = s.clk := by rw [(setDrive_moves _ _ _).rest]; rfl
  unfold enterSpinningUp startStateSpan
  simp only [ck]
  have e := reportDrive_drv (((setDrive .spinningUp 0 s).modDrv
    (fun d => { d with span := some (spanFrom s.clk.count 25600) })).emit .spindleStart)
  have c : (reportDrive (((setDrive .spinningUp 0 s).modDrv
    (fun d => { d with span := some (spanFrom s.clk.count 25600) })).emit .spindleStart)).clk = s.clk := by
    rw [(reportDrive_moves _).rest]
    exact ck
  generalize reportDrive (((setDrive .spinningUp 0 s).modDrv
    (fun d => { d with span := some (spanFrom s.clk.count 25600) })).emit .spindleStart) = v at *
  simp only [State.emit_drv, State.modDrv_drv, setDrive_drv] at e
  have f : v.drv.inp.fault = s.drv.inp.fault := by rw [e]
  have g : v.drv.inp.upToSpeed = s.drv.inp.upToSpeed := by rw [e]
  rw [f, g]
  split
  · obtain ⟨r, w, k⟩ := enterFaulted_drv 4 v
    exact ⟨r, w, by rw [k, e]⟩
  · rename_i nf
    split
    · obtain ⟨r, w, k⟩ := enterRecalibrating_drv v
      rw [f, if_neg nf] at k
      exact ⟨r, w, by rw [k, e, c]⟩
    · exact ⟨_, _, e⟩

theorem enterReady_moves (h : DriveMoves s t) : DriveMoves s (enterReady t) := by
  have a := reported_moves (modDrv_moves (setDriveState_moves h .ready 0) (fun d => { d with recovery := false }))
  unfold enterReady
  exact .ite (notified_moves a _) a

theorem enterReady_drv (s : State) : ∃ r w, (enterReady s).drv =
    { s.drv with state := .ready, cause := 0, span := none, recovery := false, readGate := r, writeGate := w } := by
  have e := reportDrive_drv ((setDrive .ready 0 s).modDrv (fun d => { d with recovery := false }))
  simp only [State.modDrv_drv, setDrive_drv] at e
  refine ⟨_, _, Eq.trans ?_ e⟩
  unfold enterReady
  simp only
  split
  · exact notifyDrive_drv _ _
  · rfl

theorem enterStopped_moves (h : DriveMoves s t) : DriveMoves s (enterStopped t) :=
  reported_moves (setDriveState_moves h .stopped 0)

theorem enterStopped_drv (s : State) : ∃ r w, (enterStopped s).drv =
    { s.drv with state := .stopped, cause := 0, span := none, readGate := r, writeGate := w } := by
  have e := reportDrive_drv (setDrive .stopped 0 s)
  simp only [setDrive_drv] at e
  exact ⟨_, _, e⟩

theorem enterParked_moves (h : DriveMoves s t) : DriveMoves s (enterParked t) :=
  reported_moves (emit_moves (setDriveState_moves h .parked 0) _)

theorem enterParked_drv (s : State) : ∃ r w, (enterParked s).drv =
    { s.drv with state := .parked, cause := 0, span := none, readGate := r, writeGate := w } := by
  have e := reportDrive_drv ((setDrive .parked 0 s).emit .headRetract)
  simp only [State.emit_drv, setDrive_drv] at e
  exact ⟨_, _, e⟩

theorem enterOffline_moves (h : DriveMoves s t) : DriveMoves s (enterOffline t) :=
  reported_moves (modDrv_moves (setDriveState_moves h .offline 0) _)

theorem enterOffline_drv (s : State) : ∃ r w, (enterOffline s).drv =
    { s.drv with state := .offline, cause := 0, span := none, recovery := false, readGate := r, writeGate := w } := by
  have e := reportDrive_drv ((setDrive .offline 0 s).modDrv (fun d => { d with recovery := false }))
  simp only [State.modDrv_drv, setDrive_drv] at e
  exact ⟨_, _, e⟩

theorem spanWhile_moves (h : DriveMoves s t) (w : Bool) (k : Nat) : DriveMoves s (spanWhile w k t) := by
  unfold spanWhile startStateSpan
  exact .ite (.ite (modDrv_moves h _) h) (modDrv_moves h _)

theorem reconcileDrive_moves (h : DriveMoves s t) : DriveMoves s (reconcileDrive t) := by
  unfold reconcileDrive
  simp only
  split
  · exact .ite (enterSpinningUp_moves h) h
  · exact .ite (enterRecalibrating_moves h) (spanWhile_moves h _ _)
  · exact spanWhile_moves h _ _
  · exact h
  · exact h
  · exact h
  · exact h
  · exact h

end Sys2Proof.Machine
end

