-- ==== Sys2Proof/Laws/Endings.lean ====
section
/-! SUPPORT. The end of a request once for all its causes: what `endRequest` hands over (R129 to R131), and that an
interruption of a request at work, a report of the drive state and an entry to a drive state end it so. -/

-- One declaration after another: the package is checked as one text, and every thread of its own would hold a stack.
set_option Elab.async false

namespace Sys2Proof.Machine

variable {s t u : State} {i : Fin 12}

/-- Two states give a request the same residual and stop position. -/
structure SameResult (s t : State) : Prop where
  slots : t.slots = s.slots
  fences : ∀ x, (t.tap.get x).fence = (s.tap.get x).fence
  engine : t.eng.written = s.eng.written ∧ t.eng.firstDiff = s.eng.firstDiff ∧ t.eng.target = s.eng.target
    ∧ t.eng.protectSeen = s.eng.protectSeen

theorem SameResult.slot (h : SameResult s t) (i : Fin 12) : t.slot i = s.slot i := by
  show t.slots[i] = s.slots[i]
  rw [h.slots]

theorem SameResult.index (h : SameResult s t) (sl : Slot) : transferIndex t sl = transferIndex s sl := by
  unfold transferIndex
  rw [h.fences]

theorem SameResult.m (h : SameResult s t) : t.eng.m = s.eng.m := by
  unfold Engine.m
  rw [h.engine.2.2.1]

theorem SameResult.residual (h : SameResult s t) (sl : Slot) : residualOf t sl = residualOf s sl := by
  unfold residualOf wordsMoved
  rw [h.index, h.m, h.engine.1, h.engine.2.1]

theorem SameResult.stop (h : SameResult s t) (sl : Slot) (st : Status) : stopOf t sl st = stopOf s sl st := by
  unfold stopOf firstIncomplete
  rw [h.index, h.m, h.engine.1, h.engine.2.2.2]

theorem engineSlot_congr (hs : t.slots = s.slots) (hw : t.eng.work = s.eng.work) : engineSlot t = engineSlot s := by
  unfold engineSlot State.slot
  rw [hs, hw]

theorem dataInFlight_congr {x : Side} (h : (t.tap.get x).arb = (s.tap.get x).arb) : dataInFlight t x = dataInFlight s x := by
  unfold dataInFlight
  rw [h]

/-- Everything the hand-over of a result does. -/
structure HandedOver (s t : State) (i : Fin 12) (st : Status) (c : Word) : Prop where
  slot : t.slot i = (s.slot i).posted st (residualOf s (s.slot i)) (stopOf s (s.slot i) st) c
  queue : ∃ more, t.post.queue = s.post.queue ++ (i, (s.slot i).tenure) :: more
  fence : (t.tap.get (s.slot i).side).fence = none
  otherTap : t.tap.get (s.slot i).side.other = s.tap.get (s.slot i).side.other
  engine : t.eng = Engine.cleared s.eng.abandoned
  drive : t.drv = { s.drv with readGate := false, writeGate := false }
  others : ∀ j, j ≠ i → (s.slot j).state ≠ .lockwait → t.slot j = s.slot j
  rest : t = { s with
    tap := t.tap, slots := t.slots, locks := t.locks, sel := t.sel, eng := t.eng, drv := t.drv
    post := { s.post with queue := t.post.queue } }
  sel : s.sel.isSome = true → t.sel = s.sel

theorem endRequest_over (h : engineSlot s = some i) (st : Status) (c : Word) : HandedOver s (endRequest st c s) i st c := by
  unfold endRequest
  simp only [h]
  have a := departure_moves (s.slot i) (clearEngine ((endFence (s.slot i).side
    (toPosting i st (residualOf s (s.slot i)) (stopOf s (s.slot i) st) c s)).modTap (s.slot i).side Tap.abandonData))
  generalize hw : clearEngine ((endFence (s.slot i).side
    (toPosting i st (residualOf s (s.slot i)) (stopOf s (s.slot i) st) c s)).modTap (s.slot i).side Tap.abandonData) = w at a
  generalize reexamineAfter (s.slot i) (examine w) = t at a
  have ws : ∀ j, w.slot j = if j = i then (s.slot i).posted st (residualOf s (s.slot i)) (stopOf s (s.slot i) st) c
      else s.slot j := fun j => by
    rw [← toPosting_slot, ← hw]
    rfl
  have keep : ∀ j, (w.slot j).state ≠ .lockwait → t.slot j = w.slot j := fun j hj => by
    rcases a.slots j with e | e
    · exact e
    · exact absurd e.1 hj
  have wi : w.slot i = (s.slot i).posted st (residualOf s (s.slot i)) (stopOf s (s.slot i) st) c := by rw [ws, if_pos rfl]
  have wt : t.tap = w.tap := by rw [a.rest]
  have fenceGone : ∀ (t : Tap), t.abandonData.fence = t.fence := fun t => by
    unfold Tap.abandonData
    split
    · split <;> rfl
    · rfl
  have wsel : w.sel = s.sel := by rw [← hw]; rfl
  refine ⟨?_, ?_, ?_, ?_, ?_, ?_, fun j hj hl => ?_, ?_, fun p => (a.sel (by rw [wsel]; exact p)).trans wsel⟩
  · rw [keep i (by rw [wi]; exact fun h => SlotState.noConfusion h), wi]
  · obtain ⟨more, e, _⟩ := a.queue
    refine ⟨more, ?_⟩
    rw [e, ← hw]
    show (s.post.queue ++ [_]) ++ more = _
    rw [List.append_assoc]
    rfl
  · rw [wt, ← hw]
    simp [clearEngine, dropGates, endFence, State.modTap, fenceGone]
  · rw [wt, ← hw]
    simp [clearEngine, dropGates, endFence, State.modTap]
    rfl
  · rw [a.rest, ← hw]
    rfl
  · rw [a.rest, ← hw]
    rfl
  · have : w.slot j = s.slot j := by rw [ws, if_neg hj]
    rw [keep j (by rw [this]; exact hl), this]
  · have wr : w = { s with tap := w.tap, slots := w.slots, eng := w.eng, drv := w.drv, post := { s.post with queue := w.post.queue } } := by
      rw [← hw]
      rfl
    conv => lhs; rw [a.rest, wr]
    rw [wt, show t.eng = w.eng by rw [a.rest], show t.drv = w.drv by rw [a.rest]]

/-! ### Interruptions -/

/-- From `s` to `t` nothing has changed that the end of the request depends on. -/
structure SameWork (s t : State) : Prop where
  result : SameResult s t
  work : t.eng.work = s.eng.work ∧ t.eng.phase = s.eng.phase ∧ t.eng.ending = s.eng.ending
  cycles : ∀ x, (t.tap.get x).arb = (s.tap.get x).arb
  gate : t.drv.writeGate = s.drv.writeGate
  clock : t.clk.count = s.clk.count
  queue : t.post.queue = s.post.queue

theorem SameWork.refl (s : State) : SameWork s s :=
  ⟨⟨rfl, fun _ => rfl, rfl, rfl, rfl, rfl⟩, ⟨rfl, rfl, rfl⟩, fun _ => rfl, rfl, rfl, rfl⟩

theorem SameWork.trans (h : SameWork s t) (k : SameWork t u) : SameWork s u where
  result := ⟨k.result.slots.trans h.result.slots, fun x => (k.result.fences x).trans (h.result.fences x),
    k.result.engine.1.trans h.result.engine.1, k.result.engine.2.1.trans h.result.engine.2.1,
    k.result.engine.2.2.1.trans h.result.engine.2.2.1, k.result.engine.2.2.2.trans h.result.engine.2.2.2⟩
  work := ⟨k.work.1.trans h.work.1, k.work.2.1.trans h.work.2.1, k.work.2.2.trans h.work.2.2⟩
  cycles := fun x => (k.cycles x).trans (h.cycles x)
  gate := k.gate.trans h.gate
  clock := k.clock.trans h.clock
  queue := k.queue.trans h.queue

theorem SameWork.engineSlot (h : SameWork s t) : engineSlot t = engineSlot s :=
  engineSlot_congr h.result.slots h.work.1

theorem SameWork.atWork (h : SameWork s t) (w : AtWork s i) : AtWork t i where
  slot := h.engineSlot.trans w.slot
  phase := by rw [h.work.2.1]; exact w.phase
  ending := h.work.2.2.trans w.ending
  cycle := fun p j hp hj => w.cycle p j (by rw [← h.cycles, ← h.result.slot]; exact hp) hj

theorem SameWork.ended (h : SameWork s t) {st : Status} (r : RequestEnded t u i st) : RequestEnded s u i st where
  posted := by rw [← h.result.slot i]; exact r.posted
  result := fun g => by
    rw [r.result (by rw [h.gate]; exact g), h.result.slot i, h.result.residual, h.result.stop, h.clock]
  queue := by rw [← h.result.slot i, ← h.queue]; exact r.queue
  fence := by rw [← h.result.slot i]; exact r.fence
  engine := r.engine
  gates := r.gates

theorem AtWork.idle (w : AtWork s i) : dataInFlight s (s.slot i).side = false := by
  unfold dataInFlight
  split
  · rename_i p hp
    split
    · rename_i j hj
      rw [w.cycle p j hp hj]
      rfl
    · rfl
  · rfl

/-- The ending of a request handed over at once, from a state with the same result. -/
theorem HandedOver.requestEnded {st : Status} {c : Word} (h : HandedOver t u i st c) (hs : t.slots = s.slots)
    (hr : s.drv.writeGate = false → SameResult s t) (hq : t.post.queue = s.post.queue) (hc : c = s.clk.count) :
    RequestEnded s u i st := by
  have e : t.slot i = s.slot i := by
    show t.slots[i] = s.slots[i]
    rw [hs]
  refine ⟨by rw [h.slot, e]; exact ⟨rfl, rfl, rfl⟩, fun g => ?_, by rw [← hq, ← e]; exact h.queue,
    by rw [← e]; exact h.fence, by rw [h.engine]; exact ⟨rfl, rfl, rfl⟩, by rw [h.drive]; exact ⟨rfl, rfl⟩⟩
  rw [h.slot, e, (hr g).residual, (hr g).stop, hc]
  rfl

theorem cutWrite_keeps_parts (s : State) : (cutWrite s).slots = s.slots ∧ (cutWrite s).tap = s.tap ∧ (cutWrite s).post = s.post
    ∧ (cutWrite s).clk = s.clk ∧ (cutWrite s).eng = { s.eng with written := (cutWrite s).eng.written }
    ∧ (cutWrite s).drv.writeGate = false ∧ (s.drv.writeGate = false → cutWrite s = s) := by
  unfold cutWrite
  split
  · rename_i h
    exact ⟨rfl, rfl, rfl, rfl, rfl, rfl, fun g => absurd h (by rw [g]; exact Bool.false_ne_true)⟩
  · rename_i h
    exact ⟨rfl, rfl, rfl, rfl, rfl, Bool.eq_false_iff.2 h, fun _ => rfl⟩

/-- A decided interruption is handed over when no data cycle and no sector under write gate holds it up. -/
theorem finishEnding_eq {st : Status} {c : Word} (h : engineSlot s = some i) (he : s.eng.ending = some ⟨st, c, false⟩)
    (hd : dataInFlight s (s.slot i).side = false) (hw : s.drv.writeGate = false) :
    finishEnding s = endRequest st c s := by
  have r : endingReady s ⟨st, c, false⟩ = true := by
    simp [endingReady, engineSide, h, hd, hw]
  unfold finishEnding
  rw [he]
  exact if_pos r

theorem interrupt_over (hs : engineSlot s = some i) (he : s.eng.ending = none)
    (hd : dataInFlight s (s.slot i).side = false) (st : Status) : ∃ v, HandedOver v (interrupt st s) i st s.clk.count ∧
    v.slots = s.slots ∧ (s.drv.writeGate = false → SameResult s v) ∧ v.post.queue = s.post.queue
    ∧ v.eng.abandoned = s.eng.abandoned := by
  obtain ⟨c1, c2, c3, c4, c5, c6, c7⟩ := cutWrite_keeps_parts s
  unfold interrupt
  rw [he]
  simp only
  let v := ((cutWrite s).modDrv (fun d => { d with readGate := false })).modEng
    (fun e => { e with ending := some ⟨st, s.clk.count, false⟩, phase := .idle, span := none })
  have vs : v.slots = s.slots := c1
  have ve : engineSlot v = some i := by
    rw [← hs]
    refine engineSlot_congr c1 ?_
    show (cutWrite s).eng.work = s.eng.work
    rw [c5]
  have vd : dataInFlight v (v.slot i).side = false := by
    rw [← hd]
    have e : v.slot i = s.slot i := by
      show v.slots[i] = s.slots[i]
      rw [vs]
    rw [e]
    exact dataInFlight_congr (by rw [show v.tap = (cutWrite s).tap from rfl, c2])
  have fe : finishEnding v = endRequest st s.clk.count v := finishEnding_eq ve rfl vd c6
  refine ⟨v, ?_, vs, fun g => ?_, by show (cutWrite s).post.queue = _; rw [c3], by show (cutWrite s).eng.abandoned = _; rw [c5]⟩
  · show HandedOver v (finishEnding v) i st s.clk.count
    rw [fe]
    exact endRequest_over ve _ _
  · have := c7 g
    refine ⟨vs, fun x => ?_, ?_⟩
    · show ((cutWrite s).tap.get x).fence = _
      rw [this]
    · show (cutWrite s).eng.written = _ ∧ (cutWrite s).eng.firstDiff = _ ∧ (cutWrite s).eng.target = _
        ∧ (cutWrite s).eng.protectSeen = _
      rw [this]
      exact ⟨rfl, rfl, rfl, rfl⟩

/-- An interruption ends a request at work (R129). -/
theorem interrupt_ended (w : AtWork s i) (st : Status) : RequestEnded s (interrupt st s) i st := by
  obtain ⟨v, h, a, b, c, _⟩ := interrupt_over w.slot w.ending w.idle st
  exact h.requestEnded a b c rfl

/-! ### Reports of the drive state -/

theorem endRequest_abandoned (st : Status) (c : Word) (s : State) : (endRequest st c s).eng.abandoned = s.eng.abandoned := by
  unfold endRequest
  split
  · rfl
  · simp only
    rw [(departure_moves _ _).rest]
    rfl

theorem finishEnding_abandoned (s : State) : (finishEnding s).eng.abandoned = s.eng.abandoned := by
  unfold finishEnding
  split
  · rfl
  · split
    · exact endRequest_abandoned _ _ _
    · rfl

theorem cutWrite_abandoned (s : State) : (cutWrite s).eng.abandoned = s.eng.abandoned := by
  unfold cutWrite
  split <;> rfl

theorem interrupt_abandoned (st : Status) (s : State) : (interrupt st s).eng.abandoned = s.eng.abandoned := by
  unfold interrupt
  split
  · split
    · rfl
    · rw [finishEnding_abandoned, cutWrite_abandoned]
  · rw [finishEnding_abandoned]
    exact cutWrite_abandoned s

theorem reportRestore_abandoned (s : State) : (reportRestore s).eng.abandoned = s.eng.abandoned := by
  unfold reportRestore
  split
  · exact interrupt_abandoned _ _
  · rfl
  · exact interrupt_abandoned _ _
  · exact endRequest_abandoned _ _ _
  · rfl
  · rfl
  · exact interrupt_abandoned _ _

theorem stopFinishing_abandoned (s : State) : (stopFinishing s).eng.abandoned = s.eng.abandoned := by
  unfold stopFinishing dropWriteGate
  split <;> rfl

/-- No movement is abandoned once the drive has left READY (R115). -/
theorem reportDrive_abandoned (h : s.drv.state ≠ .ready) : (reportDrive s).eng.abandoned = none := by
  unfold reportDrive
  simp only [if_neg h]
  have a : (s.modEng (fun e => { e with abandoned := none })).eng.abandoned = none := rfl
  generalize s.modEng (fun e => { e with abandoned := none }) = v at a
  have b : (if v.eng.phase = .finishing ∧ v.drv.state ≠ .ready then stopFinishing v else v).eng.abandoned = none := by
    split
    · rw [stopFinishing_abandoned]; exact a
    · exact a
  generalize (if v.eng.phase = .finishing ∧ v.drv.state ≠ .ready then stopFinishing v else v) = w at b
  split
  · exact b
  · split
    · rw [reportRestore_abandoned]; exact b
    · split
      · exact b
      · rw [interrupt_abandoned]; exact b
      · rw [interrupt_abandoned]; exact b

theorem sameWork_abandoned (s : State) : SameWork s (s.modEng (fun e => { e with abandoned := none })) :=
  ⟨⟨rfl, fun _ => rfl, rfl, rfl, rfl, rfl⟩, ⟨rfl, rfl, rfl⟩, fun _ => rfl, rfl, rfl, rfl⟩

/-- What a report of another state than READY comes to for a request at work (R115, R126, R133). -/
theorem reportDrive_atWork (w : AtWork s i) (h : s.drv.state ≠ .ready) :
    reportDrive s = if (s.slot i).kind = some .restore then
        reportRestore (s.modEng (fun e => { e with abandoned := none }))
      else if s.drv.state = .faulted then interrupt .driveFault (s.modEng (fun e => { e with abandoned := none }))
      else interrupt .notReady (s.modEng (fun e => { e with abandoned := none })) := by
  have v := (sameWork_abandoned s).atWork w
  have nf : ¬ ((s.modEng (fun e => { e with abandoned := none })).eng.phase = .finishing ∧
      (s.modEng (fun e => { e with abandoned := none })).drv.state ≠ .ready) := fun hh => w.phase hh.1
  unfold reportDrive
  simp only [if_neg h, if_neg nf, v.slot]
  show (if (s.slot i).kind = some .restore then _ else match s.drv.state with | .ready => _ | .faulted => _ | _ => _) = _
  congr 1
  split
  · rename_i e; exact absurd e h
  · rename_i e; rw [if_pos e]
  · rename_i a b; rw [if_neg b]

/-- A report of FAULTED ends a request at work with DRIVE_FAULT, and one of another state than READY ends one that is no
RESTORE with NOT_READY (R126, R133). -/
theorem reportDrive_ended (w : AtWork s i) (h : s.drv.state ≠ .ready) :
    (s.drv.state = .faulted → RequestEnded s (reportDrive s) i .driveFault) ∧
    (s.drv.state ≠ .faulted → (s.slot i).kind ≠ some .restore → RequestEnded s (reportDrive s) i .notReady) := by
  have same := sameWork_abandoned s
  have v := same.atWork w
  rw [reportDrive_atWork w h]
  constructor
  · intro hf
    split
    · have : reportRestore (s.modEng (fun e => { e with abandoned := none })) =
          interrupt .driveFault (s.modEng (fun e => { e with abandoned := none })) := by
        unfold reportRestore
        rw [show (s.modEng (fun e => { e with abandoned := none })).drv.state = .faulted from hf]
      rw [this]
      exact same.ended (interrupt_ended v _)
    · exact same.ended (interrupt_ended v _)
  · intro hf hk
    rw [if_neg hk, if_neg hf]
    exact same.ended (interrupt_ended v _)

/-- A RESTORE taken in FAULTED runs on at a report of RECALIBRATING or SPINNING_UP (R133). -/
theorem reportDrive_runsOn (w : AtWork s i) (hk : (s.slot i).kind = some .restore) (hr : s.eng.restore = some .faulted)
    (hs : s.drv.state = .recalibrating ∨ s.drv.state = .spinningUp) :
    reportDrive s = s.modEng (fun e => { e with abandoned := none }) := by
  rw [reportDrive_atWork w (by rcases hs with e | e <;> rw [e] <;> exact DriveState.noConfusion), if_pos hk]
  unfold reportRestore
  rw [show (s.modEng (fun e => { e with abandoned := none })).eng.restore = some .faulted from hr]
  rcases hs with e | e <;> rw [show (s.modEng (fun e => { e with abandoned := none })).drv.state = _ from e]

/-- A report of a state other than READY and FAULTED to a RESTORE at work (R133). -/
theorem reportDrive_restore (w : AtWork s i) (hf : s.drv.state ≠ .faulted) (hk : (s.slot i).kind = some .restore) :
    RestoreReported s (reportDrive s) s.drv.state i := by
  have v := (sameWork_abandoned s).atWork w
  refine ⟨fun hr h => ?_, fun hr => ⟨fun h => ?_, fun h => ?_⟩⟩
  · rw [reportDrive_atWork w h, if_pos hk]
    have : reportRestore (s.modEng (fun e => { e with abandoned := none })) =
        interrupt .notReady (s.modEng (fun e => { e with abandoned := none })) := by
      unfold reportRestore
      rw [show (s.modEng (fun e => { e with abandoned := none })).eng.restore = some .ready from hr]
      cases e : s.drv.state <;> simp_all
    rw [this]
    exact (sameWork_abandoned s).ended (interrupt_ended v _)
  · rw [reportDrive_atWork w (by rcases h with e | e <;> rw [e] <;> exact DriveState.noConfusion), if_pos hk]
    have : reportRestore (s.modEng (fun e => { e with abandoned := none })) =
        interrupt .notReady (s.modEng (fun e => { e with abandoned := none })) := by
      unfold reportRestore
      rw [show (s.modEng (fun e => { e with abandoned := none })).eng.restore = some .faulted from hr]
      rcases h with e | e <;> rw [show (s.modEng (fun e => { e with abandoned := none })).drv.state = _ from e]
    rw [this]
    exact (sameWork_abandoned s).ended (interrupt_ended v _)
  · rw [reportDrive_runsOn w hk hr h]
    exact ⟨rfl, rfl⟩

end Sys2Proof.Machine
end

