-- ==== Sys2Proof/Laws/Buffers.lean ====
section
/-! SUPPORT. The two sector buffers, the words that pass between them and memory, and how a sector is found ended. -/

-- One declaration after another: the package is checked as one text, and every thread of its own would hold a stack.
set_option Elab.async false

namespace Sys2Proof.Machine

/-! ### One buffer set, the other kept -/

theorem buf_setBuf (e : Engine) (p b) : (e.setBuf p b).buf p = b := by unfold Engine.setBuf Engine.buf; split <;> rfl

theorem buf_setBuf_next (e : Engine) (p b) : (e.setBuf p b).buf (p+1) = e.buf (p+1) := by
  unfold Engine.setBuf Engine.buf; split <;> (split <;> first | rfl | omega)

theorem setBuf_fields (e : Engine) (p b) : (e.setBuf p b).target = e.target ∧ (e.setBuf p b).work = e.work ∧
    (e.setBuf p b).rereads = e.rereads ∧ (e.setBuf p b).recalibrated = e.recalibrated ∧
    (e.setBuf p b).written = e.written ∧ (e.setBuf p b).ending = e.ending ∧
    (e.setBuf p b).protectSeen = e.protectSeen ∧ (e.setBuf p b).firstDiff = e.firstDiff ∧ (e.setBuf p b).m = e.m := by
  unfold Engine.setBuf Engine.m; split <;> exact ⟨rfl,rfl,rfl,rfl,rfl,rfl,rfl,rfl,rfl⟩

theorem anyGood_of (e : Engine) (m : Nat) : e.anyGood = ((e.buf m).state == .good || (e.buf (m+1)).state ==
    .good) := by
  unfold Engine.anyGood Engine.buf
  by_cases h : m % 2 = 0
  · rw [if_pos h, if_neg (by omega)]
  · rw [if_neg h, if_pos (by omega), Bool.or_comm]

theorem buf_of {e f : Engine} (h0 : e.buf0 = f.buf0) (h1 : e.buf1 = f.buf1) (p) : e.buf p = f.buf p := by
    unfold Engine.buf; rw [h0, h1]

theorem buf_setBuf_two (e : Engine) (m b) : (e.setBuf (m+2) b).buf m = b := by
  unfold Engine.setBuf Engine.buf; split <;> (split <;> first | rfl | omega)

theorem buf_setBuf_two_next (e : Engine) (m b) : (e.setBuf (m+2) b).buf (m+1) = e.buf (m+1) := by
  unfold Engine.setBuf Engine.buf; split <;> (split <;> first | rfl | omega)

theorem refill_buf (e : Engine) (m n) : (e.refill m n).buf m = if m + 2 < n then ⟨.filling, m+2, 0, []⟩
    else ⟨.empty, 0, 0, []⟩ := by
  unfold Engine.refill Engine.fill; split
  · rw [buf_setBuf_two]
  · rw [buf_setBuf]; rfl

theorem refill_next (e : Engine) (m n) : (e.refill m n).buf (m+1) = e.buf (m+1) := by
  unfold Engine.refill Engine.fill; split
  · rw [buf_setBuf_two_next]
  · rw [buf_setBuf_next]

theorem refill_fields (e : Engine) (m n) : (e.refill m n).work = e.work ∧ (e.refill m n).written = e.written ∧
    (e.refill m n).m = e.m ∧ (e.refill m n).target = e.target ∧ (e.refill m n).firstDiff = e.firstDiff ∧
    (e.refill m n).ending = e.ending ∧ (e.refill m n).protectSeen = e.protectSeen := by
  unfold Engine.refill Engine.fill; split
  · obtain ⟨a,b,c,d,f,g,h,k,l⟩ := setBuf_fields e (m+2) ⟨.filling, m+2, 0, []⟩; exact ⟨b,f,l,a,k,g,h⟩
  · obtain ⟨a,b,c,d,f,g,h,k,l⟩ := setBuf_fields e m .none; exact ⟨b,f,l,a,k,g,h⟩

/-! ### Words that pass -/

theorem setBuf_rest (e : Engine) (p b) : (e.setBuf p b).target = e.target ∧ (e.setBuf p b).phase = e.phase ∧
    (e.setBuf p b).ending = e.ending ∧ (e.setBuf p b).work = e.work := by
  unfold Engine.setBuf; split <;> exact ⟨rfl,rfl,rfl,rfl⟩

theorem stored_eq (e : Engine) (sl p) : e.stored sl p = e.setBuf p (if (e.buf p).moved + 1 < sl.wordsAt p then
    { e.buf p with moved := (e.buf p).moved + 1 } else .none) := by
  unfold Engine.stored; simp only; split <;> rfl

theorem fetched_rest (e : Engine) (sl p d) : (e.fetched sl p d).target = e.target ∧
    (e.fetched sl p d).phase = e.phase ∧ (e.fetched sl p d).ending = e.ending := by
  unfold Engine.fetched Engine.fill
  simp only
  split
  · have := setBuf_rest e p { e.buf p with words := (e.buf p).words ++ [d] }; exact ⟨this.1, this.2.1, this.2.2.1⟩
  · split
    · have a := setBuf_rest e p { e.buf p with words := (e.buf p).words ++ [d], state := .full }
      have b := setBuf_rest (e.setBuf p { e.buf p with words := (e.buf p).words ++ [d], state := .full }) (p+1)
          ⟨.filling, p+1, 0, []⟩
      exact ⟨b.1.trans a.1, b.2.1.trans a.2.1, b.2.2.1.trans a.2.2.1⟩
    · have := setBuf_rest e p { e.buf p with words := (e.buf p).words ++ [d], state := .full }; exact ⟨this.1,
        this.2.1, this.2.2.1⟩

theorem passWord_spec (t : Tap) (f : Fence) (j : Nat) (h : t.fence = some f) : (t.passWord j).fence = some
    { f with index := f.index + 1 } ∧ (t.passWord j).arb = t.arb ∧
    (∀ c, t.held = some c → wordIndex f c.addr = some j → (t.passWord j).held = none ∧ (t.passWord j).comp = some c) ∧
    ((∀ c, t.held = some c → wordIndex f c.addr ≠ some j) → (t.passWord j).held = t.held ∧
        (t.passWord j).comp = t.comp) := by
  unfold Tap.passWord
  simp only [h]
  cases hh : t.held with
  | none => simp
  | some c =>
    by_cases q : wordIndex f c.addr = some j
    · simp [q, Tap.release]
    · simp [q]

theorem dataAnswered_eq (j : Nat) (d : Word) (s : State) (i : Fin 12) (h : engineSlot s = some i) :
    dataAnswered j d s = finishEnding ((s.modTap (s.slot i).side (fun t => t.passWord j)).modEng (fun e => if
        (s.slot i).isKind Kind.diskRead then e.stored (s.slot i) (j / 256)
        else e.fetched (s.slot i) (j / 256) d)) := by
  unfold dataAnswered; simp only [h]

theorem finishEnding_none {s : State} (h : s.eng.ending = none) : finishEnding s = s := by unfold finishEnding; rw [h]

/-! ### A found ending, and a target that ends -/

/-- The state in which a found ending stands. -/
def foundState (st : Status) (s : State) : State :=
  (s.modDrv (fun d => { d with readGate := false })).modEng
      (fun e => { e with ending := some ⟨st, s.clk.count, true⟩, phase := .draining, span := none })

theorem found_waits (st : Status) (s : State) (h : s.eng.anyGood = true) : found st s = foundState st s := by
  have e1 : (foundState st s).eng.ending = some ⟨st, s.clk.count, true⟩ := rfl
  have e2 : (foundState st s).eng.anyGood = true := h
  show finishEnding (foundState st s) = _
  unfold finishEnding
  rw [e1]
  simp only [endingReady, if_true, e2, Bool.not_true, Bool.false_eq_true, if_false]

theorem found_over (st : Status) (s : State) (i : Fin 12) (hi : engineSlot s = some i) (h : s.eng.anyGood = false) :
    HandedOver (foundState st s) (found st s) i st s.clk.count := by
  have e1 : (foundState st s).eng.ending = some ⟨st, s.clk.count, true⟩ := rfl
  have e2 : (foundState st s).eng.anyGood = false := h
  have fe : found st s = endRequest st s.clk.count (foundState st s) := by
    show finishEnding (foundState st s) = _
    unfold finishEnding
    rw [e1]
    simp only [endingReady, if_true, e2, Bool.not_false]
  have ev : engineSlot (foundState st s) = some i := hi
  rw [fe]
  exact endRequest_over ev st s.clk.count

/-- The engine past its last target. -/
def lastState (v : State) : State := v.modEng (fun e =>
    { e with target := some (e.m + 1), rereads := 0, recalibrated := false, sector := none })

theorem finishTarget_eq (sl st) (v : State) : finishTarget sl st v = if v.eng.m + 1 < sl.sectors
    then nextTarget sl v else found st (lastState v) := rfl

theorem dataGood_eq (i : Fin 12) (v : State) : dataGood i v = if v.eng.rereads = 0 then v.modDrv (fun d =>
    { d with readGate := false })
    else (v.modDrv (fun d => { d with readGate := false })).modSlot i (fun sl =>
        { sl with retried := true, rereads := min 15 (sl.rereads + 1) }) := by
  unfold dataGood countReread
  by_cases h : v.eng.rereads = 0
  · simp only [h, if_true]; rw [if_pos (by exact h)]
  · simp only [h, if_false]
    rw [if_neg (by exact h)]
    simp only [State.modSlot, State.modDrv, sat15]
    congr 1
    ext j hj
    simp [Vector.getElem_set]

/-! ### Comparing words -/

theorem firstDifference_none {data ws : List Word} {r} : firstDifference data ws r = none ↔ ∀ k, k < r →
    data.getD k 0 = ws.getD k 0 := by
  unfold firstDifference
  rw [List.find?_eq_none]
  simp

theorem firstDifference_some {data ws : List Word} {r k} (hk : k < r) (hd : data.getD k 0 ≠ ws.getD k 0) (hl : ∀
    l, l < k → data.getD l 0 = ws.getD l 0) : firstDifference data ws r = some k := by
  unfold firstDifference
  cases h : (List.range r).find? (fun k => data.getD k 0 != ws.getD k 0) with
  | none =>
    rw [List.find?_eq_none] at h
    exact absurd (h k (by simpa using hk)) (by simpa using hd)
  | some j =>
    have h1 := List.find?_some h
    rw [List.find?_range_eq_some] at h
    have : j = k := by
      by_contra hne
      rcases Nat.lt_or_gt_of_ne hne with q | q
      · have := hl j q; rw [this] at h1; simp at h1
      · have := h.2.2 k q; simp at this; exact hd this
    rw [this]

end Sys2Proof.Machine
end

