-- ==== Sys2Proof/Laws/Entries.lean ====
section
/-! SUPPORT. An entry to each drive state once: what `enterX` gives is a `StateEntry` or a `FaultEntry` of the state
before (R126, R157 to R164). -/

-- One declaration after another: the package is checked as one text, and every thread of its own would hold a stack.
set_option Elab.async false

namespace Sys2Proof.Machine

variable {s t u w : State}

/-! ### Notices and owed cells -/

theorem live_notify (x : Side) (k : NoticeKind) (p g c : Nat) (s : State) (y : Side) : (notify x k p g c s).live y = s.live y := by
  unfold notify
  split <;> rfl

theorem notify_pres (x : Side) (k : NoticeKind) (p g c : Nat) (s : State) (y : Side) :
    (notify x k p g c s).pres.get y = if x = y ∧ s.live y = true then ((s.pres.get y).join k p g c).examine else s.pres.get y := by
  unfold notify
  split
  · rename_i h
    by_cases e : x = y
    · subst e
      simp [State.modPres, h]
    · rw [if_neg (fun q => e q.1)]
      exact Sided.get_set_ne _ _ (Ne.symm e)
  · rename_i h
    by_cases e : x = y
    · subst e
      simp [h]
    · simp [e]

theorem notifyDrive_pres (c : Nat) (s : State) (y : Side) :
    (notifyDrive c s).pres.get y = if s.live y then ((s.pres.get y).join .drive 1 0 c).examine else s.pres.get y := by
  unfold notifyDrive
  rw [notify_pres, live_notify, notify_pres]
  cases y <;> simp

theorem oweCell_pres (x : Side) (c : StatusCell) (s : State) : (oweCell x c s).pres = s.pres := by
  unfold oweCell
  split <;> rfl

theorem setDrive_pres (st : DriveState) (c : Nat) (s : State) : (setDrive st c s).pres = s.pres := by
  unfold setDrive
  simp only
  split
  · rfl
  · exact (oweCell_pres _ _ _).trans (oweCell_pres _ _ _)

theorem notifyDrive_out (c : Nat) (s : State) : (notifyDrive c s).out = s.out := by rw [(notifyDrive_moves c s).rest]

/-! ### Before the report -/

/-- `w` is `s` with the drive state `st` set, and what the entry did to the drive before its report. -/
structure Entering (s w : State) (st : DriveState) (cause : Nat) (span : Option Span) (out : List Output) : Prop where
  rest : w = { s with tap := w.tap, drv := w.drv, out := out }
  taps : ∀ x, w.tap.get x = { s.tap.get x with owed := (w.tap.get x).owed }
  state : w.drv.state = st ∧ w.drv.cause = cause ∧ w.drv.span = span
  drive : w.drv.cyl = s.drv.cyl ∧ w.drv.mark = s.drv.mark ∧ w.drv.generation = s.drv.generation ∧
    w.drv.mounted = s.drv.mounted ∧ w.drv.idle = s.drv.idle
  gate : w.drv.writeGate = s.drv.writeGate

theorem setDrive_entering (st : DriveState) (c : Nat) (s : State) : Entering s (setDrive st c s) st c none s.out := by
  have m := setDrive_moves st c s
  have d := setDrive_drv st c s
  have p := setDrive_pres st c s
  generalize setDrive st c s = v at *
  refine ⟨?_, m.taps, by rw [d]; exact ⟨rfl, rfl, rfl⟩, by rw [d]; exact ⟨rfl, rfl, rfl, rfl, rfl⟩, by rw [d]⟩
  conv => lhs; rw [m.rest]
  rw [p, d]
  rfl

theorem Entering.mod {st : DriveState} {c : Nat} {sp : Option Span} {o : List Output} (h : Entering s w st c sp o)
    {f : Drive → Drive} {sp' : Option Span} (hf : (f w.drv).state = w.drv.state ∧ (f w.drv).cause = w.drv.cause ∧ (f w.drv).span = sp')
    (hd : (f w.drv).cyl = w.drv.cyl ∧ (f w.drv).mark = w.drv.mark ∧ (f w.drv).generation = w.drv.generation ∧
      (f w.drv).mounted = w.drv.mounted ∧ (f w.drv).idle = w.drv.idle ∧ (f w.drv).writeGate = w.drv.writeGate) :
    Entering s (w.modDrv f) st c sp' o where
  rest := by
    show ({ w with drv := f w.drv } : State) = _
    rw [h.rest]
    rfl
  taps := h.taps
  state := ⟨hf.1.trans h.state.1, hf.2.1.trans h.state.2.1, hf.2.2⟩
  drive := ⟨hd.1.trans h.drive.1, hd.2.1.trans h.drive.2.1, hd.2.2.1.trans h.drive.2.2.1, hd.2.2.2.1.trans h.drive.2.2.2.1,
    hd.2.2.2.2.1.trans h.drive.2.2.2.2⟩
  gate := hd.2.2.2.2.2.trans h.gate

theorem Entering.emit {st : DriveState} {c : Nat} {sp : Option Span} {o : List Output} (h : Entering s w st c sp o) (p : Output) :
    Entering s (w.emit p) st c sp (o ++ [p]) where
  rest := by
    show ({ w with out := w.out ++ [p] } : State) = _
    rw [show w.out = o by rw [h.rest]]
    conv => lhs; rw [h.rest]
    rfl
  taps := h.taps
  state := h.state
  drive := h.drive
  gate := h.gate

theorem Entering.same {st : DriveState} {c : Nat} {sp : Option Span} {o : List Output} (h : Entering s w st c sp o) :
    SameWork s w := by
  have e := h.rest
  refine ⟨⟨by rw [e], fun x => by rw [h.taps x], by rw [e]; exact ⟨rfl, rfl, rfl, rfl⟩⟩, by rw [e]; exact ⟨rfl, rfl, rfl⟩,
    fun x => by rw [h.taps x], h.gate, by rw [e], by rw [e]⟩

theorem Entering.live {st : DriveState} {c : Nat} {sp : Option Span} {o : List Output} (h : Entering s w st c sp o) (y : Side) :
    w.live y = s.live y := by
  unfold State.live
  rw [h.taps y]

/-! ### What the report leaves -/

theorem reportDrive_slots (s : State) (i : Fin 12) (ha : (s.slot i).state ≠ .active) (hl : (s.slot i).state ≠ .lockwait) :
    (reportDrive s).slot i = s.slot i := ((reportDrive_ends (.refl s)).slots i).others ha hl

theorem Entering.frame {st : DriveState} {c : Nat} {sp : Option Span} {o : List Output} (h : Entering s w st c sp o) :
    DriveFrame s (reportDrive w) := by
  have m := (reportDrive_moves w).rest
  have ws : ∀ i, w.slot i = s.slot i := h.same.result.slot
  have ss : w.sel = s.sel := by rw [h.rest]
  refine ⟨?_, fun p => ((reportDrive_moves w).sel (by rw [ss]; exact p)).trans ss, ?_, fun i ha hl => ?_⟩
  · rw [m, h.rest]
    exact ⟨rfl, rfl, rfl, rfl⟩
  · rw [reportDrive_drv]
    exact h.drive
  · rw [← ws i] at ha hl ⊢
    exact reportDrive_slots w i ha hl

/-- The report after an entry to a state other than FAULTED. -/
theorem Entering.entry {st : DriveState} {sp : Option Span} {o : List Output} (h : Entering s w st 0 sp o)
    (hf : st ≠ .faulted) : StateEntry s (reportDrive w) st sp o where
  state := by rw [reportDrive_drv]; exact h.state
  out := by
    obtain ⟨cut, hc, wc⟩ := (reportDrive_moves w).out
    exact ⟨cut, by rw [hc, show w.out = o by rw [h.rest]], wc⟩
  request := fun hr i a hk => by
    have q := (reportDrive_ended (h.same.atWork a) (by rw [h.state.1]; exact hr)).2 (by rw [h.state.1]; exact hf)
      (by rw [h.same.result.slot i]; exact hk)
    exact h.same.ended q
  restore := fun i a hk => by
    have q := reportDrive_restore (h.same.atWork a) (by rw [h.state.1]; exact hf) (by rw [h.same.result.slot i]; exact hk)
    have e : w.eng = s.eng := by rw [h.rest]
    rw [h.state.1] at q
    refine ⟨fun hr hs => h.same.ended (q.1 (by rw [e]; exact hr) hs), fun hr => ?_⟩
    have q := q.2 (by rw [e]; exact hr)
    rw [e, h.same.result.slot i] at q
    exact ⟨fun hs => h.same.ended (q.1 hs), q.2⟩
  abandoned := fun hr => reportDrive_abandoned (by rw [h.state.1]; exact hr)
  frame := h.frame

theorem DriveFrame.cells (h : DriveFrame s t) (k : CellMoves t u) : DriveFrame s u := by
  have e := k.rest
  refine ⟨by rw [e]; exact h.blocks, by rw [e]; exact h.selection, by rw [e]; exact h.drive, fun i ha hl => ?_⟩
  have : u.slot i = t.slot i := by rw [e]; rfl
  rw [this]
  exact h.slots i ha hl

theorem RequestEnded.cells {i : Fin 12} {st : Status} (h : RequestEnded s t i st) (k : CellMoves t u) :
    RequestEnded s u i st := by
  have e := k.rest
  have sl : u.slot i = t.slot i := by rw [e]; rfl
  refine ⟨by rw [sl]; exact h.posted, by rw [sl]; exact h.result, by rw [e]; exact h.queue, ?_, by rw [e]; exact h.engine,
    by rw [e]; exact h.gates⟩
  rw [k.taps]
  exact h.fence

/-- FAULTED entered (R161). -/
theorem enterFaulted_entry (c : Nat) (s : State) : FaultEntry s (enterFaulted c s) c := by
  have e : Entering s ((setDrive .faulted c s).modDrv (fun d => { d with recovery := false })) .faulted c none s.out :=
    (setDrive_entering .faulted c s).mod ⟨rfl, rfl, (setDrive_entering .faulted c s).state.2.2⟩ ⟨rfl, rfl, rfl, rfl, rfl, rfl⟩
  obtain ⟨r, g, d⟩ := enterFaulted_drv c s
  have k : enterFaulted c s = notifyDrive 1 (reportDrive ((setDrive .faulted c s).modDrv (fun d => { d with recovery := false }))) :=
    rfl
  generalize (setDrive .faulted c s).modDrv (fun d => { d with recovery := false }) = w at *
  have m := notifyDrive_moves 1 (reportDrive w)
  refine ⟨by rw [d]; exact ⟨rfl, rfl, rfl, rfl⟩, fun y => ?_, fun i a => ?_, ?_, ?_⟩
  · rw [k, notifyDrive_pres]
    have l : (reportDrive w).live y = s.live y := by rw [← e.live y]; exact ((reportDrive_ends (.refl w)).taps y).2
    have p : (reportDrive w).pres = s.pres := by rw [(reportDrive_moves w).rest, e.rest]
    rw [l, p]
  · rw [k]
    have q := (reportDrive_ended (e.same.atWork a) (by rw [e.state.1]; exact fun h => DriveState.noConfusion h)).1 e.state.1
    exact (e.same.ended q).cells m
  · rw [k, m.rest]
    exact reportDrive_abandoned (by rw [e.state.1]; exact fun h => DriveState.noConfusion h)
  · rw [k]
    exact e.frame.cells m

/-! ### No write gate, no cut -/

theorem cutWrite_closed (h : s.drv.writeGate = false) : cutWrite s = s := by
  unfold cutWrite
  rw [h]
  rfl

theorem endRequest_out (st : Status) (c : Word) (s : State) : (endRequest st c s).out = s.out := by
  unfold endRequest
  split
  · rfl
  · simp only
    rw [(departure_moves _ _).rest]
    rfl

theorem finishEnding_out (s : State) : (finishEnding s).out = s.out := by
  unfold finishEnding
  split
  · rfl
  · split
    · exact endRequest_out _ _ _
    · rfl

theorem interrupt_out (h : s.drv.writeGate = false) (st : Status) : (interrupt st s).out = s.out := by
  unfold interrupt
  rw [cutWrite_closed h]
  split
  · split
    · rfl
    · exact finishEnding_out _
  · exact finishEnding_out _

theorem stopFinishing_closed (h : s.drv.writeGate = false) :
    (stopFinishing s).out = s.out ∧ (stopFinishing s).drv.writeGate = false := by
  unfold stopFinishing dropWriteGate
  rw [h]
  exact ⟨rfl, rfl⟩

theorem reportDrive_out (h : s.drv.writeGate = false) : (reportDrive s).out = s.out := by
  unfold reportDrive
  simp only
  have a : (if s.drv.state = .ready then s else s.modEng (fun e => { e with abandoned := none })).out = s.out ∧
      (if s.drv.state = .ready then s else s.modEng (fun e => { e with abandoned := none })).drv.writeGate = false := by
    split <;> exact ⟨rfl, h⟩
  generalize (if s.drv.state = .ready then s else s.modEng (fun e => { e with abandoned := none })) = v at a
  have b : (if v.eng.phase = .finishing ∧ v.drv.state ≠ .ready then stopFinishing v else v).out = s.out ∧
      (if v.eng.phase = .finishing ∧ v.drv.state ≠ .ready then stopFinishing v else v).drv.writeGate = false := by
    split
    · rw [(stopFinishing_closed a.2).1]; exact ⟨a.1, (stopFinishing_closed a.2).2⟩
    · exact a
  generalize (if v.eng.phase = .finishing ∧ v.drv.state ≠ .ready then stopFinishing v else v) = w at b
  split
  · exact b.1
  · split
    · unfold reportRestore
      split
      · rw [interrupt_out b.2]; exact b.1
      · exact b.1
      · rw [interrupt_out b.2]; exact b.1
      · rw [endRequest_out]; exact b.1
      · exact b.1
      · exact b.1
      · rw [interrupt_out b.2]; exact b.1
    · split
      · exact b.1
      · rw [interrupt_out b.2]; exact b.1
      · rw [interrupt_out b.2]; exact b.1

theorem enterFaulted_out (c : Nat) (h : s.drv.writeGate = false) : (enterFaulted c s).out = s.out := by
  have e : Entering s ((setDrive .faulted c s).modDrv (fun d => { d with recovery := false })) .faulted c none s.out :=
    (setDrive_entering .faulted c s).mod ⟨rfl, rfl, (setDrive_entering .faulted c s).state.2.2⟩ ⟨rfl, rfl, rfl, rfl, rfl, rfl⟩
  show (notifyDrive 1 (reportDrive _)).out = _
  rw [notifyDrive_out, reportDrive_out (e.gate.trans h), e.rest]

/-! ### The entries -/

theorem entering_span {st : DriveState} {c : Nat} {sp : Option Span} {o : List Output} (h : Entering s w st c sp o) (k : Nat) :
    Entering s (startStateSpan k w) st c (some (spanFrom s.clk.count k)) o := by
  have : w.clk = s.clk := by rw [h.rest]
  exact h.mod ⟨rfl, rfl, by rw [this]⟩ ⟨rfl, rfl, rfl, rfl, rfl, rfl⟩

/-- RECALIBRATING before its report: recalibrate issued, with its span. -/
def beforeRecal (s : State) : State :=
  issueRecalibrate (startStateSpan 256 ((setDrive .recalibrating 0 s).modDrv (fun d => { d with homed := false })))

theorem beforeRecal_entering (s : State) :
    Entering s (beforeRecal s) .recalibrating 0 (some (spanFrom s.clk.count 256)) (s.out ++ [.recalibrate]) := by
  have a := setDrive_entering .recalibrating 0 s
  have b : Entering s ((setDrive .recalibrating 0 s).modDrv (fun d => { d with homed := false })) .recalibrating 0 none s.out :=
    a.mod ⟨rfl, rfl, a.state.2.2⟩ ⟨rfl, rfl, rfl, rfl, rfl, rfl⟩
  have c := entering_span b 256
  exact (c.mod (f := fun d => { d with move := some .recalibrate, markSeen := false })
    ⟨rfl, rfl, c.state.2.2⟩ ⟨rfl, rfl, rfl, rfl, rfl, rfl⟩).emit .recalibrate

theorem beforeRecal_inp (s : State) : (reportDrive (beforeRecal s)).drv.inp = s.drv.inp := by
  rw [reportDrive_drv]
  show (setDrive .recalibrating 0 s).drv.inp = _
  rw [setDrive_drv]

theorem enterRecalibrating_eq (s : State) : enterRecalibrating s =
    if s.drv.inp.fault then enterFaulted 4 (reportDrive (beforeRecal s)) else reportDrive (beforeRecal s) := by
  rw [← beforeRecal_inp s]
  rfl

/-- SPINNING_UP before its report: spindle start issued, with the spin-up span. -/
def beforeSpin (s : State) : State := (startStateSpan 25600 (setDrive .spinningUp 0 s)).emit .spindleStart

theorem beforeSpin_entering (s : State) :
    Entering s (beforeSpin s) .spinningUp 0 (some (spanFrom s.clk.count 25600)) (s.out ++ [.spindleStart]) :=
  (entering_span (setDrive_entering .spinningUp 0 s) 25600).emit .spindleStart

theorem beforeSpin_inp (s : State) : (reportDrive (beforeSpin s)).drv.inp = s.drv.inp := by
  rw [reportDrive_drv]
  show (setDrive .spinningUp 0 s).drv.inp = _
  rw [setDrive_drv]

theorem enterSpinningUp_eq (s : State) : enterSpinningUp s =
    if s.drv.inp.fault then enterFaulted 4 (reportDrive (beforeSpin s))
    else if s.drv.inp.upToSpeed then enterRecalibrating (reportDrive (beforeSpin s)) else reportDrive (beforeSpin s) := by
  rw [← beforeSpin_inp s]
  rfl

/-- RECALIBRATING entered with no fault input (R157). -/
theorem enterRecalibrating_after (h : s.drv.inp.fault = false) :
    StateEntry s (enterRecalibrating s) .recalibrating (some ⟨s.clk.count + 256, false⟩) (s.out ++ [.recalibrate]) := by
  rw [enterRecalibrating_eq, h, if_neg Bool.false_ne_true]
  exact (beforeRecal_entering s).entry (fun h => DriveState.noConfusion h)

theorem enterRecalibrating_entry (h : s.drv.inp.fault = false) (ho : s.out = []) :
    StateEntry s (enterRecalibrating s) .recalibrating (some ⟨s.clk.count + 256, false⟩) [.recalibrate] := by
  have e := enterRecalibrating_after h
  rw [ho] at e
  exact e

theorem enterRecalibrating_faulted (h : s.drv.inp.fault = true) :
    (enterRecalibrating s).drv.state = .faulted ∧ (enterRecalibrating s).drv.cause = 4 := by
  obtain ⟨r, w, d⟩ := enterRecalibrating_drv s
  rw [d, h]
  exact ⟨rfl, rfl⟩

theorem enterSpinningUp_entry (h : s.drv.inp.fault = false) (hu : s.drv.inp.upToSpeed = false) (ho : s.out = []) :
    StateEntry s (enterSpinningUp s) .spinningUp (some ⟨s.clk.count + 25600, false⟩) [.spindleStart] := by
  have d := beforeSpin_entering s
  rw [ho] at d
  rw [enterSpinningUp_eq, h, hu]
  exact d.entry (fun h => DriveState.noConfusion h)

theorem enterSpinningUp_faulted (h : s.drv.inp.fault = true) :
    (enterSpinningUp s).drv.state = .faulted ∧ (enterSpinningUp s).drv.cause = 4 := by
  obtain ⟨r, w, d⟩ := enterSpinningUp_drv s
  rw [d, h]
  exact ⟨rfl, rfl⟩

theorem enterFaulted_grows (c : Nat) (s : State) : ∃ cut, (enterFaulted c s).out = s.out ++ cut := by
  have e : Entering s ((setDrive .faulted c s).modDrv (fun d => { d with recovery := false })) .faulted c none s.out :=
    (setDrive_entering .faulted c s).mod ⟨rfl, rfl, (setDrive_entering .faulted c s).state.2.2⟩ ⟨rfl, rfl, rfl, rfl, rfl, rfl⟩
  obtain ⟨cut, h, -⟩ := (reportDrive_moves ((setDrive .faulted c s).modDrv (fun d => { d with recovery := false }))).out
  refine ⟨cut, ?_⟩
  show (notifyDrive 1 (reportDrive _)).out = _
  rw [notifyDrive_out, h, e.rest]

/-- An entry that issues the pulse `o` and finds the fault input asserted (R157). -/
theorem Entering.found {st : DriveState} {c : Nat} {sp : Option Span} {o : Output} (h : Entering s w st c sp (s.out ++ [o]))
    (ho : s.out = []) : FaultFound s (enterFaulted 4 (reportDrive w)) o := by
  have f := enterFaulted_entry 4 (reportDrive w)
  obtain ⟨cut, hc, -⟩ := (reportDrive_moves w).out
  obtain ⟨cut', hc'⟩ := enterFaulted_grows 4 (reportDrive w)
  have l : ∀ y, (reportDrive w).live y = s.live y := fun y => by rw [← h.live y]; exact ((reportDrive_ends (.refl w)).taps y).2
  have p : (reportDrive w).pres = s.pres := by rw [(reportDrive_moves w).rest, h.rest]
  refine ⟨f.state.1, f.state.2.1, f.state.2.2.1, f.state.2.2.2, ⟨cut ++ cut', ?_⟩, fun y => by rw [f.notices, l, p]⟩
  rw [hc', hc, show w.out = s.out ++ [o] by rw [h.rest], ho]
  simp

theorem enterRecalibrating_found (h : s.drv.inp.fault = true) (ho : s.out = []) :
    FaultFound s (enterRecalibrating s) .recalibrate := by
  rw [enterRecalibrating_eq, h, if_pos rfl]
  exact (beforeRecal_entering s).found ho

theorem enterSpinningUp_found (h : s.drv.inp.fault = true) (ho : s.out = []) :
    FaultFound s (enterSpinningUp s) .spindleStart := by
  rw [enterSpinningUp_eq, h, if_pos rfl]
  exact (beforeSpin_entering s).found ho

/-- A report to an engine that has no work. -/
theorem reportDrive_none (h : engineSlot s = none) (hp : s.eng.phase ≠ .finishing) :
    ∃ ab, reportDrive s = s.modEng (fun e => { e with abandoned := ab }) := by
  unfold reportDrive
  by_cases c : s.drv.state = .ready
  · exact ⟨s.eng.abandoned, by simp [c, h]; rfl⟩
  · refine ⟨none, ?_⟩
    have : engineSlot (s.modEng (fun e => { e with abandoned := none })) = none := h
    simp [c, hp, this]

/-- A request that has ended stays ended when RECALIBRATING is entered after it. -/
theorem RequestEnded.recal {i : Fin 12} {st : Status} (h : RequestEnded s t i st) (hf : t.drv.inp.fault = false) :
    RequestEnded s (enterRecalibrating t) i st := by
  have e := beforeRecal_entering t
  have he : engineSlot (beforeRecal t) = none := by
    unfold engineSlot
    rw [e.same.work.1, h.engine.1]
  obtain ⟨ab, r⟩ := reportDrive_none he (by rw [e.same.work.2.1, h.engine.2.1]; exact fun k => Phase.noConfusion k)
  have g : (beforeRecal t).drv.readGate = t.drv.readGate ∧ (beforeRecal t).drv.writeGate = t.drv.writeGate := by
    unfold beforeRecal issueRecalibrate startStateSpan
    simp [setDrive_drv]
  rw [enterRecalibrating_eq, hf, if_neg Bool.false_ne_true, r]
  have sl : (beforeRecal t).slot i = t.slot i := e.same.result.slot i
  refine ⟨?_, fun w => ?_, ?_, ?_, ?_, ?_⟩
  · rw [State.slot_modEng, sl]; exact h.posted
  · rw [State.slot_modEng, sl]; exact h.result w
  · show ∃ more, (beforeRecal t).post.queue = _
    rw [e.same.queue]; exact h.queue
  · show ((beforeRecal t).tap.get _).fence = none
    rw [e.taps]; exact h.fence
  · exact ⟨e.same.work.1.trans h.engine.1, e.same.work.2.1.trans h.engine.2.1, e.same.work.2.2.trans h.engine.2.2⟩
  · exact ⟨g.1.trans h.gates.1, g.2.trans h.gates.2⟩

theorem DriveFrame.trans (h : DriveFrame s t) (k : DriveFrame t u) : DriveFrame s u where
  blocks := ⟨k.blocks.1.trans h.blocks.1, k.blocks.2.1.trans h.blocks.2.1, k.blocks.2.2.1.trans h.blocks.2.2.1,
    k.blocks.2.2.2.trans h.blocks.2.2.2⟩
  selection := sel_trans h.selection k.selection
  drive := ⟨k.drive.1.trans h.drive.1, k.drive.2.1.trans h.drive.2.1, k.drive.2.2.1.trans h.drive.2.2.1,
    k.drive.2.2.2.1.trans h.drive.2.2.2.1, k.drive.2.2.2.2.trans h.drive.2.2.2.2⟩
  slots := fun i a l => by rw [k.slots i (by rw [h.slots i a l]; exact a) (by rw [h.slots i a l]; exact l), h.slots i a l]

/-- SPINNING_UP entered while the spindle is at speed goes on to RECALIBRATING (R157). -/
theorem enterSpinningUp_atSpeed (h : s.drv.inp.fault = false) (hu : s.drv.inp.upToSpeed = true) (ho : s.out = [])
    (hw : s.drv.writeGate = false) : StateEntry s (enterSpinningUp s) .recalibrating (some ⟨s.clk.count + 256, false⟩)
      [.spindleStart, .recalibrate] := by
  have d := beforeSpin_entering s
  have v := d.entry (fun h => DriveState.noConfusion h)
  have vo : (reportDrive (beforeSpin s)).out = [.spindleStart] := by
    rw [reportDrive_out (d.gate.trans hw), show (beforeSpin s).out = s.out ++ [.spindleStart] by rw [d.rest], ho]
    rfl
  have vf : (reportDrive (beforeSpin s)).drv.inp.fault = false := by rw [beforeSpin_inp, h]
  have vc : (reportDrive (beforeSpin s)).clk = s.clk := by rw [(reportDrive_moves _).rest, d.rest]
  have k := enterRecalibrating_after vf
  rw [enterSpinningUp_eq, h, hu, if_neg Bool.false_ne_true, if_pos rfl]
  rw [vc, vo] at k
  refine ⟨k.state, k.out, fun _ i a hk => (v.request (fun e => DriveState.noConfusion e) i a hk).recal vf,
    fun i a hk => ⟨fun hr _ => ((v.restore i a hk).1 hr (fun e => DriveState.noConfusion e)).recal vf, fun hr =>
      ⟨fun h => (by rcases h with e | e <;> cases e), fun _ => ?_⟩⟩, k.abandoned, v.frame.trans k.frame⟩
  have e : (beforeSpin s).eng = s.eng := by rw [d.rest]
  have sl := d.same.result.slot i
  have r := reportDrive_runsOn (d.same.atWork a) (by rw [sl]; exact hk) (by rw [e]; exact hr) (.inr d.state.1)
  rw [r] at k ⊢
  have q := ((k.restore i ((sameWork_abandoned _).atWork (d.same.atWork a)) (by rw [State.slot_modEng, sl]; exact hk)).2
    (by show (beforeSpin s).eng.restore = _; rw [e]; exact hr)).2 (.inl rfl)
  rw [State.slot_modEng, sl] at q
  refine ⟨q.1, q.2.trans ?_⟩
  show ({ (beforeSpin s).eng with abandoned := none } : Engine) = _
  rw [e]

theorem enterStopped_entry (s : State) : StateEntry s (enterStopped s) .stopped none s.out :=
  (setDrive_entering .stopped 0 s).entry (fun h => DriveState.noConfusion h)

theorem enterParked_entry (s : State) : StateEntry s (enterParked s) .parked none (s.out ++ [.headRetract]) :=
  ((setDrive_entering .parked 0 s).emit .headRetract).entry (fun h => DriveState.noConfusion h)

theorem enterOffline_entry (s : State) : StateEntry s (enterOffline s) .offline none s.out :=
  ((setDrive_entering .offline 0 s).mod (f := fun d => { d with recovery := false }) ⟨rfl, rfl, (setDrive_entering .offline 0 s).state.2.2⟩
    ⟨rfl, rfl, rfl, rfl, rfl, rfl⟩).entry (fun h => DriveState.noConfusion h)

theorem reportDrive_pres (s : State) : (reportDrive s).pres = s.pres := by rw [(reportDrive_moves s).rest]

theorem enterStopped_pres (s : State) : (enterStopped s).pres = s.pres := (reportDrive_pres _).trans (setDrive_pres _ _ _)

theorem enterParked_pres (s : State) : (enterParked s).pres = s.pres := by
  unfold enterParked
  rw [reportDrive_pres, State.emit_pres, setDrive_pres]

theorem enterOffline_pres (s : State) : (enterOffline s).pres = s.pres := by
  unfold enterOffline
  rw [reportDrive_pres, State.modDrv_pres, setDrive_pres]

theorem enterRecalibrating_pres (h : s.drv.inp.fault = false) : (enterRecalibrating s).pres = s.pres := by
  unfold enterRecalibrating
  simp only
  have f : (reportDrive (issueRecalibrate (startStateSpan 256
      ((setDrive .recalibrating 0 s).modDrv (fun d => { d with homed := false }))))).drv.inp.fault = false := by
    rw [reportDrive_drv]
    show (setDrive .recalibrating 0 s).drv.inp.fault = false
    rw [setDrive_drv]
    exact h
  rw [f, if_neg Bool.false_ne_true, reportDrive_pres]
  unfold issueRecalibrate startStateSpan
  simp only [State.emit_pres, State.modDrv_pres, setDrive_pres]

theorem enterSpinningUp_pres (h : s.drv.inp.fault = false) (hu : s.drv.inp.upToSpeed = false) :
    (enterSpinningUp s).pres = s.pres := by
  unfold enterSpinningUp
  simp only
  have f : (reportDrive ((startStateSpan 25600 (setDrive .spinningUp 0 s)).emit .spindleStart)).drv.inp = s.drv.inp := by
    rw [reportDrive_drv]
    show (setDrive .spinningUp 0 s).drv.inp = _
    rw [setDrive_drv]
  rw [f, h, hu, if_neg Bool.false_ne_true, if_neg Bool.false_ne_true, reportDrive_pres]
  unfold startStateSpan
  simp only [State.emit_pres, State.modDrv_pres, setDrive_pres]

theorem enterReady_pres (s : State) (y : Side) : (enterReady s).pres.get y =
    if s.drv.recovery && s.live y then ((s.pres.get y).join .drive 1 0 3).examine else s.pres.get y := by
  unfold enterReady
  simp only
  have p : (reportDrive ((setDrive .ready 0 s).modDrv (fun d => { d with recovery := false }))).pres = s.pres := by
    rw [reportDrive_pres, State.modDrv_pres, setDrive_pres]
  have l : (reportDrive ((setDrive .ready 0 s).modDrv (fun d => { d with recovery := false }))).live y = s.live y := by
    have a : ((setDrive .ready 0 s).modDrv (fun d => { d with recovery := false })).live y = s.live y :=
      (setDrive_entering .ready 0 s).live y
    rw [← a]
    exact ((reportDrive_ends (.refl _)).taps y).2
  cases hr : s.drv.recovery
  · rw [if_neg (by simp), p]
    simp
  · rw [if_pos rfl, notifyDrive_pres, l, p]
    simp

end Sys2Proof.Machine
end

