-- ==== Sys2Proof/Laws/ExecKeeps.lean ====
section
/-! SUPPORT. Every command keeps every law: one lemma per constructor of Instr, and their case split. -/

-- One declaration after another: the package is checked as one text, and every thread of its own would hold a stack.
set_option Elab.async false

namespace Sys2Proof.Machine

variable {s t : State}

theorem exec_partReset_keeps {swA swB a i inp} (h : exec (.partReset swA swB a i inp) s = .next t) : Keeps s t := by
  obtain ⟨r, -, rfl⟩ := execPartReset_next h
  exact settle_keeps (partReset_keeps (begun_keeps s) swA swB a i inp.drive r) s

theorem exec_initAsserted_keeps {x} (h : exec (.initAsserted x) s = .next t) : Keeps s t := by
  have b := begun_keeps s
  simp only [exec, execInitAsserted] at h
  refine runIf_keeps (fun _ => ?_) h
  exact sideReset_keeps b x

theorem exec_initReleased_keeps {x} (h : exec (.initReleased x) s = .next t) : Keeps s t := by
  have b := begun_keeps s
  simp only [exec, execInitReleased] at h
  refine runIf_keeps (fun _ => ?_) h
  exact setIdle_keeps (becomeLive_keeps b x) x (fun _ => Nat.zero_le _)

theorem exec_computerCycleArrival_keeps {x dir a d} (h : exec (.computerCycleArrival x dir a d) s =
    .next t) : Keeps s t := by
  have b := begun_keeps s
  simp only [exec, execComputerCycleArrival] at h
  split at h
  · cases h
  · refine run_keeps ?_ h
    exact arrival_keeps b x dir a d

theorem exec_holdTimerExpiry_keeps {x} (h : exec (.holdTimerExpiry x) s = .next t) : Keeps s t := by
  have b := begun_keeps s
  simp only [exec, execHoldTimerExpiry] at h
  refine runIf_keeps (fun _ => ?_) h
  exact touch_keeps (modTap_keeps b x (fun e he => by rwa [release_arb] at he))

theorem exec_computerCycleEnd_keeps {x d wt} (h : exec (.computerCycleEnd x d wt) s = .next t) : Keeps s t := by
  have b := begun_keeps s
  simp only [exec, execComputerCycleEnd] at h
  exact onWatched_keeps (fun _ _ k => k) h

theorem exec_unwatchedCellWrite_keeps {x wt} (h : exec (.unwatchedCellWrite x wt) s = .next t) : Keeps s t := by
  have b := begun_keeps s
  simp only [exec, execUnwatchedCellWrite] at h
  exact onWatched_keeps (fun _ _ k => k) h

theorem exec_submissionCellWrite_keeps {x wt} (h : exec (.submissionCellWrite x wt) s = .next t) : Keeps s t := by
  have b := begun_keeps s
  simp only [exec, execSubmissionCellWrite] at h
  refine onWatched_keeps (fun c u k => ?_) h
  cases c.watch.cell with
  | none => exact k
  | some i => exact submitCell_keeps k x i _

theorem exec_levelCellWrite_keeps {x wt} (h : exec (.levelCellWrite x wt) s = .next t) : Keeps s t := by
  have b := begun_keeps s
  simp only [exec, execLevelCellWrite] at h
  exact onWatched_keeps (fun c _ k => modPres_keeps k x (fun l => writeLevel_law l c.data)) h

theorem exec_noticeCellRead_keeps {x d wt} (h : exec (.noticeCellRead x d wt) s = .next t) : Keeps s t := by
  have b := begun_keeps s
  simp only [exec, execNoticeCellRead] at h
  exact onWatched_keeps (fun _ _ k => modPres_keeps k x (fun l => read_law l d)) h

theorem exec_endOfNotice_keeps {x wt} (h : exec (.endOfNotice x wt) s = .next t) : Keeps s t := by
  have b := begun_keeps s
  simp only [exec, execEndOfNotice] at h
  exact onWatched_keeps (fun _ _ k => modPres_keeps k x endNotice_law) h

theorem exec_crossCellWrite_keeps {x wt} (h : exec (.crossCellWrite x wt) s = .next t) : Keeps s t := by
  have b := begun_keeps s
  simp only [exec, execCrossCellWrite] at h
  exact onWatched_keeps (fun c _ k => .ite (modPres_keeps k x.other (fun l => cross_law l c.data)) k) h

theorem exec_idleCellWrite_keeps {x wt} (h : exec (.idleCellWrite x wt) s = .next t) : Keeps s t := by
  have b := begun_keeps s
  simp only [exec, execIdleCellWrite] at h
  exact onWatched_keeps (fun c _ k => idleWrite_keeps k x c.data) h

theorem exec_proposalCellWrite_keeps {x wt} (h : exec (.proposalCellWrite x wt) s = .next t) : Keeps s t := by
  have b := begun_keeps s
  simp only [exec, execProposalCellWrite] at h
  refine onWatched_keeps (fun c u k => ?_) h
  cases c.watch.proposalCell with
  | none => exact k
  | some i => exact writeProposal_keeps k x i _

theorem exec_sealCellWrite_keeps {x wt} (h : exec (.sealCellWrite x wt) s = .next t) : Keeps s t := by
  have b := begun_keeps s
  simp only [exec, execSealCellWrite] at h
  exact onWatched_keeps (fun _ _ k => writeSeal_keeps k x) h

theorem exec_proposalExpiry_keeps (h : exec .proposalExpiry s = .next t) : Keeps s t := by
  have b := begun_keeps s
  simp only [exec, execProposalExpiry] at h
  split at h
  · cases h
    exact b
  · refine run_keeps ?_ h
    exact expireProposal_keeps b _

theorem exec_take_keeps {x} (h : exec (.take x) s = .next t) : Keeps s t := by
  have b := begun_keeps s
  simp only [exec, execTake] at h
  split at h
  · exact run_keeps (claimReturned_keeps b x) h
  · exact runIf_keeps (fun m => claimSlot_keeps b x m) h

theorem exec_chainFetchStart_keeps {x} (h : exec (.chainFetchStart x) s = .next t) : Keeps s t := by
  have b := begun_keeps s
  simp only [exec, execChainFetchStart] at h
  refine runIf_keeps (fun _ => ?_) h
  exact startChain_keeps b x

theorem exec_clearingWriteEnd_keeps {x a wt} (h : exec (.clearingWriteEnd x a wt) s = .next t) : Keeps s t := by
  have b := begun_keeps s
  simp only [exec, execClearingWriteEnd] at h
  exact onPart_keeps (fun _ _ _ k => clearingEnded_keeps k x) h

theorem exec_recordFetchReadEnd_keeps {x d wt} (h : exec (.recordFetchReadEnd x d wt) s = .next t) : Keeps s t := by
  have b := begun_keeps s
  simp only [exec, execRecordFetchReadEnd] at h
  exact onPart_keeps (fun _ _ _ k => fetchRead_keeps k x d) h

theorem exec_selectionTaken_keeps (h : exec .selectionTaken s = .next t) : Keeps s t := by
  have b := begun_keeps s
  simp only [exec, execSelectionTaken] at h
  refine runIf_keeps (fun _ => ?_) h
  exact takeSelection_keeps b

theorem exec_deadlineEvent_keeps {i} (h : exec (.deadlineEvent i) s = .next t) : Keeps s t := by
  have b := begun_keeps s
  simp only [exec, execDeadlineEvent] at h
  refine runIf_keeps (fun _ => ?_) h
  exact deadlineReached_keeps b i

theorem exec_postingStart_keeps (h : exec .postingStart s = .next t) : Keeps s t := by
  have b := begun_keeps s
  simp only [exec, execPostingStart] at h
  refine runIf_keeps (fun _ => ?_) h
  exact startPosting_keeps b

theorem exec_resultWordWriteEnd_keeps {x wt} (h : exec (.resultWordWriteEnd x wt) s = .next t) : Keeps s t := by
  have b := begun_keeps s
  simp only [exec, execResultWordWriteEnd] at h
  exact onPart_keeps (fun _ _ _ k => wordWritten_keeps k) h

theorem exec_signalPairReadEnd_keeps {x d wt} (h : exec (.signalPairReadEnd x d wt) s = .next t) : Keeps s t := by
  have b := begun_keeps s
  simp only [exec, execSignalPairReadEnd] at h
  exact onPart_keeps (fun p _ _ k => pairReadAnswered_keeps k x d p) h

theorem exec_signalPairEnd_keeps {x a wt} (h : exec (.signalPairEnd x a wt) s = .next t) : Keeps s t := by
  have b := begun_keeps s
  simp only [exec, execSignalPairEnd] at h
  refine onPart_keeps (fun _ _ _ k => ?_) h
  cases a
  · exact postingTimedOut_keeps k
  · exact pairWritten_keeps k

theorem exec_memoryTimeout_keeps {x wt} (h : exec (.memoryTimeout x wt) s = .next t) : Keeps s t := by
  have b := begun_keeps s
  simp only [exec, execMemoryTimeout] at h
  exact onPart_keeps (fun p _ _ k => timedOut_keeps k x p.kind) h

theorem exec_noticeCellWriteEnd_keeps {x a wt} (h : exec (.noticeCellWriteEnd x a wt) s = .next t) : Keeps s t := by
  have b := begun_keeps s
  simp only [exec, execNoticeCellWriteEnd] at h
  exact onPart_keeps (fun p _ _ k => noticeWriteEnded_keeps k x a p.kind) h

theorem exec_levelCellWriteEnd_keeps {x a wt} (h : exec (.levelCellWriteEnd x a wt) s = .next t) : Keeps s t := by
  have b := begun_keeps s
  simp only [exec, execLevelCellWriteEnd] at h
  exact onPart_keeps (fun _ _ _ k => k) h

theorem exec_statusWriteEnd_keeps {x a wt} (h : exec (.statusWriteEnd x a wt) s = .next t) : Keeps s t := by
  have b := begun_keeps s
  simp only [exec, execStatusWriteEnd] at h
  exact onPart_keeps (fun _ _ _ k => k) h

theorem exec_dataCycleEnd_keeps {x d wt} (h : exec (.dataCycleEnd x d wt) s = .next t) : Keeps s t := by
  have b := begun_keeps s
  simp only [exec, execDataCycleEnd] at h
  exact onPart_keeps (fun _ _ _ k => dataEnded_keeps k d _) h

theorem exec_slotTimerTick_keeps (h : exec .slotTimerTick s = .next t) : Keeps s t := by
  have b := begun_keeps s
  simp only [exec, execSlotTimerTick] at h
  refine runIf_keeps (fun _ => ?_) h
  exact tick_keeps b

theorem exec_sectorMark_keeps {n} (h : exec (.sectorMark n) s = .next t) : Keeps s t := by
  have b := begun_keeps s
  simp only [exec, execSectorMark] at h
  refine run_keeps ?_ h
  exact markArrives_keeps b n

theorem exec_indexRise_keeps (h : exec .indexRise s = .next t) : Keeps s t := by
  have b := begun_keeps s
  simp only [exec, execIndexRise] at h
  refine runIf_keeps (fun _ => ?_) h
  exact setSource_keeps b _

theorem exec_headerJudged_keeps {hdr chk} (h : exec (.headerJudged hdr chk) s = .next t) : Keeps s t := by
  have b := begun_keeps s
  simp only [exec, execHeaderJudged] at h
  refine run_keeps ?_ h
  exact judgeHeader_keeps (atWordTime_keeps b _) _ _

theorem exec_sectorDataStart_keeps (h : exec .sectorDataStart s = .next t) : Keeps s t := by
  have b := begun_keeps s
  simp only [exec, execSectorDataStart] at h
  refine run_keeps ?_ h
  exact dataStart_keeps (atWordTime_keeps b _)

theorem exec_sectorEnd_keeps {d chk} (h : exec (.sectorEnd d chk) s = .next t) : Keeps s t := by
  have b := begun_keeps s
  simp only [exec, execSectorEnd] at h
  refine run_keeps ?_ h
  exact sectorOver_keeps (atWordTime_keeps b _) _ _

theorem exec_onCylinderRise_keeps (h : exec .onCylinderRise s = .next t) : Keeps s t := by
  have b := begun_keeps s
  simp only [exec, execOnCylinderRise] at h
  refine runIf_keeps (fun _ => ?_) h
  exact inputEvent_keeps b _ _ (fun _ _ q => by cases q)

theorem exec_onCylinderFall_keeps (h : exec .onCylinderFall s = .next t) : Keeps s t := by
  have b := begun_keeps s
  simp only [exec, execOnCylinderFall] at h
  refine runIf_keeps (fun _ => ?_) h
  exact inputEvent_keeps b _ _ (fun _ _ q => by cases q)

theorem exec_seekSpanEnd_keeps (h : exec .seekSpanEnd s = .next t) : Keeps s t := by
  have b := begun_keeps s
  simp only [exec, execSeekSpanEnd] at h
  refine runIf_keeps (fun _ => ?_) h
  exact seekTimedOut_keeps b

theorem exec_engineRecalSpanEnd_keeps (h : exec .engineRecalSpanEnd s = .next t) : Keeps s t := by
  have b := begun_keeps s
  simp only [exec, execEngineRecalSpanEnd] at h
  refine runIf_keeps (fun _ => ?_) h
  exact enterFaulted_keeps b (by decide) (by decide)

theorem exec_abandonedMovementSpanEnd_keeps (h : exec .abandonedMovementSpanEnd s = .next t) : Keeps s t := by
  have b := begun_keeps s
  simp only [exec, execAbandonedMovementSpanEnd] at h
  refine runIf_keeps (fun _ => ?_) h
  exact abandonedTimedOut_keeps b

theorem exec_powerPresentFall_keeps (h : exec .powerPresentFall s = .next t) : Keeps s t := by
  have b := begun_keeps s
  simp only [exec, execPowerPresentFall] at h
  refine runIf_keeps (fun _ => ?_) h
  exact inputEvent_keeps (setSource_keeps b _) _ _ (fun _ _ q => by cases q)

theorem exec_powerPresentRise_keeps (h : exec .powerPresentRise s = .next t) : Keeps s t := by
  have b := begun_keeps s
  simp only [exec, execPowerPresentRise] at h
  refine runIf_keeps (fun _ => ?_) h
  exact inputEvent_keeps b _ _ (fun _ _ q => by cases q)

theorem exec_upToSpeedRise_keeps (h : exec .upToSpeedRise s = .next t) : Keeps s t := by
  have b := begun_keeps s
  simp only [exec, execUpToSpeedRise] at h
  refine runIf_keeps (fun _ => ?_) h
  exact inputEvent_keeps b _ _ (fun _ _ q => by cases q)

theorem exec_upToSpeedFall_keeps (h : exec .upToSpeedFall s = .next t) : Keeps s t := by
  have b := begun_keeps s
  simp only [exec, execUpToSpeedFall] at h
  refine runIf_keeps (fun _ => ?_) h
  exact inputEvent_keeps (setSource_keeps b _) _ _ (fun _ _ q => by cases q)

theorem exec_headsLoadedRise_keeps (h : exec .headsLoadedRise s = .next t) : Keeps s t := by
  have b := begun_keeps s
  simp only [exec, execHeadsLoadedRise] at h
  refine runIf_keeps (fun _ => ?_) h
  exact inputEvent_keeps b _ _ (fun _ _ q => by cases q)

theorem exec_headsLoadedFall_keeps (h : exec .headsLoadedFall s = .next t) : Keeps s t := by
  have b := begun_keeps s
  simp only [exec, execHeadsLoadedFall] at h
  refine runIf_keeps (fun _ => ?_) h
  exact inputEvent_keeps b _ _ (fun _ _ q => by cases q)

theorem exec_writeProtectChange_keeps {l} (h : exec (.writeProtectChange l) s = .next t) : Keeps s t := by
  have b := begun_keeps s
  simp only [exec, execWriteProtectChange] at h
  refine runIf_keeps (fun _ => ?_) h
  exact protectChanges_keeps b l

theorem exec_faultRise_keeps (h : exec .faultRise s = .next t) : Keeps s t := by
  have b := begun_keeps s
  simp only [exec, execFaultRise] at h
  refine runIf_keeps (fun _ => ?_) h
  exact inputEvent_keeps b _ _ (fun _ _ q => by cases q)

theorem exec_faultFall_keeps (h : exec .faultFall s = .next t) : Keeps s t := by
  have b := begun_keeps s
  simp only [exec, execFaultFall] at h
  refine runIf_keeps (fun _ => ?_) h
  exact inputEvent_keeps b _ _ (fun _ _ q => by cases q)

theorem exec_faultResetSpanEnd_keeps (h : exec .faultResetSpanEnd s = .next t) : Keeps s t := by
  have b := begun_keeps s
  simp only [exec, execFaultResetSpanEnd] at h
  refine runIf_keeps (fun _ => ?_) h
  exact enterFaulted_keeps b (by decide) (by decide)

theorem exec_loadSwitchPressed_keeps (h : exec .loadSwitchPressed s = .next t) : Keeps s t := by
  have b := begun_keeps s
  simp only [exec, execLoadSwitchPressed] at h
  refine run_keeps ?_ h
  exact takeDriveEvent_keeps b _ (fun _ _ _ q => by cases q)

theorem exec_cartridgeClosedFall_keeps (h : exec .cartridgeClosedFall s = .next t) : Keeps s t := by
  have b := begun_keeps s
  simp only [exec, execCartridgeClosedFall] at h
  refine runIf_keeps (fun _ => ?_) h
  exact inputEvent_keeps b _ _ (fun _ _ q => by cases q)

theorem exec_cartridgeClosedRise_keeps (h : exec .cartridgeClosedRise s = .next t) : Keeps s t := by
  have b := begun_keeps s
  simp only [exec, execCartridgeClosedRise] at h
  refine runIf_keeps (fun _ => ?_) h
  exact inputEvent_keeps b _ _ (fun _ _ q => by cases q)

theorem exec_openEntryResume_keeps (h : exec .openEntryResume s = .next t) : Keeps s t := by
  have b := begun_keeps s
  simp only [exec, execOpenEntryResume] at h
  refine runIf_keeps (fun _ => ?_) h
  exact openResumes_keeps b

theorem exec_spinUpTimeout_keeps (h : exec .spinUpTimeout s = .next t) : Keeps s t := by
  have b := begun_keeps s
  simp only [exec, execSpinUpTimeout] at h
  refine runIf_keeps (fun _ => ?_) h
  exact enterFaulted_keeps b (by decide) (by decide)

theorem exec_recalibrateTimeout_keeps (h : exec .recalibrateTimeout s = .next t) : Keeps s t := by
  have b := begun_keeps s
  simp only [exec, execRecalibrateTimeout] at h
  refine runIf_keeps (fun _ => ?_) h
  exact enterFaulted_keeps b (by decide) (by decide)

theorem exec_parkDelayEnd_keeps (h : exec .parkDelayEnd s = .next t) : Keeps s t := by
  have b := begun_keeps s
  simp only [exec, execParkDelayEnd] at h
  refine runIf_keeps (fun _ => ?_) h
  exact enterParked_keeps b

theorem exec_spinDownDelayEnd_keeps (h : exec .spinDownDelayEnd s = .next t) : Keeps s t := by
  have b := begun_keeps s
  simp only [exec, execSpinDownDelayEnd] at h
  refine runIf_keeps (fun _ => ?_) h
  exact enterStopped_keeps (emit_keeps b _)

theorem exec_keeps (c : Instr) (h : exec c s = .next t) : Keeps s t := by
  cases c with
  | partReset swA swB a i inp => exact exec_partReset_keeps h
  | initAsserted x => exact exec_initAsserted_keeps h
  | initReleased x => exact exec_initReleased_keeps h
  | computerCycleArrival x dir a d => exact exec_computerCycleArrival_keeps h
  | holdTimerExpiry x => exact exec_holdTimerExpiry_keeps h
  | computerCycleEnd x d wt => exact exec_computerCycleEnd_keeps h
  | unwatchedCellWrite x wt => exact exec_unwatchedCellWrite_keeps h
  | submissionCellWrite x wt => exact exec_submissionCellWrite_keeps h
  | levelCellWrite x wt => exact exec_levelCellWrite_keeps h
  | noticeCellRead x d wt => exact exec_noticeCellRead_keeps h
  | endOfNotice x wt => exact exec_endOfNotice_keeps h
  | crossCellWrite x wt => exact exec_crossCellWrite_keeps h
  | idleCellWrite x wt => exact exec_idleCellWrite_keeps h
  | proposalCellWrite x wt => exact exec_proposalCellWrite_keeps h
  | sealCellWrite x wt => exact exec_sealCellWrite_keeps h
  | proposalExpiry => exact exec_proposalExpiry_keeps h
  | take x => exact exec_take_keeps h
  | chainFetchStart x => exact exec_chainFetchStart_keeps h
  | clearingWriteEnd x a wt => exact exec_clearingWriteEnd_keeps h
  | recordFetchReadEnd x d wt => exact exec_recordFetchReadEnd_keeps h
  | selectionTaken => exact exec_selectionTaken_keeps h
  | deadlineEvent i => exact exec_deadlineEvent_keeps h
  | postingStart => exact exec_postingStart_keeps h
  | resultWordWriteEnd x wt => exact exec_resultWordWriteEnd_keeps h
  | signalPairReadEnd x d wt => exact exec_signalPairReadEnd_keeps h
  | signalPairEnd x a wt => exact exec_signalPairEnd_keeps h
  | memoryTimeout x wt => exact exec_memoryTimeout_keeps h
  | noticeCellWriteEnd x a wt => exact exec_noticeCellWriteEnd_keeps h
  | levelCellWriteEnd x a wt => exact exec_levelCellWriteEnd_keeps h
  | statusWriteEnd x a wt => exact exec_statusWriteEnd_keeps h
  | dataCycleEnd x d wt => exact exec_dataCycleEnd_keeps h
  | slotTimerTick => exact exec_slotTimerTick_keeps h
  | sectorMark n => exact exec_sectorMark_keeps h
  | indexRise => exact exec_indexRise_keeps h
  | headerJudged hdr chk => exact exec_headerJudged_keeps h
  | sectorDataStart => exact exec_sectorDataStart_keeps h
  | sectorEnd d chk => exact exec_sectorEnd_keeps h
  | onCylinderRise => exact exec_onCylinderRise_keeps h
  | onCylinderFall => exact exec_onCylinderFall_keeps h
  | seekSpanEnd => exact exec_seekSpanEnd_keeps h
  | engineRecalSpanEnd => exact exec_engineRecalSpanEnd_keeps h
  | abandonedMovementSpanEnd => exact exec_abandonedMovementSpanEnd_keeps h
  | powerPresentFall => exact exec_powerPresentFall_keeps h
  | powerPresentRise => exact exec_powerPresentRise_keeps h
  | upToSpeedRise => exact exec_upToSpeedRise_keeps h
  | upToSpeedFall => exact exec_upToSpeedFall_keeps h
  | headsLoadedRise => exact exec_headsLoadedRise_keeps h
  | headsLoadedFall => exact exec_headsLoadedFall_keeps h
  | writeProtectChange l => exact exec_writeProtectChange_keeps h
  | faultRise => exact exec_faultRise_keeps h
  | faultFall => exact exec_faultFall_keeps h
  | faultResetSpanEnd => exact exec_faultResetSpanEnd_keeps h
  | loadSwitchPressed => exact exec_loadSwitchPressed_keeps h
  | cartridgeClosedFall => exact exec_cartridgeClosedFall_keeps h
  | cartridgeClosedRise => exact exec_cartridgeClosedRise_keeps h
  | openEntryResume => exact exec_openEntryResume_keeps h
  | spinUpTimeout => exact exec_spinUpTimeout_keeps h
  | recalibrateTimeout => exact exec_recalibrateTimeout_keeps h
  | parkDelayEnd => exact exec_parkDelayEnd_keeps h
  | spinDownDelayEnd => exact exec_spinDownDelayEnd_keeps h

end Sys2Proof.Machine
end

