-- ==== Sys2Proof/Laws/Presenting.lean ====
section
/-! SUPPORT. What examining, withdrawing and giving back do to the presenter, and what an outcome of the region map
gives each side. -/

-- One declaration after another: the package is checked as one text, and every thread of its own would hold a stack.
set_option Elab.async false

namespace Sys2Proof.Machine

/-! ### Giving an entry back -/

theorem insertEntry_head (e : Entry) (q : List Entry) : ∀ h r, insertEntry e q = h :: r → h.prio ≤ e.prio := by
  intro h r hh
  cases q with
  | nil => cases hh; exact Nat.le_refl _
  | cons f t =>
    unfold insertEntry at hh
    split at hh
    · cases hh; exact Nat.le_refl _
    · rename_i hb
      cases hh
      simp [before_iff] at hb
      omega

theorem makeRoom_fields (p : Presenter) : p.makeRoom.presented = p.presented ∧ p.makeRoom.shown = p.shown ∧
    p.makeRoom.owed = p.owed ∧ p.makeRoom.level = p.level ∧ p.makeRoom.stack = p.stack := by
  unfold Presenter.makeRoom; split <;> simp [Presenter.loseOne]

theorem giveBack_fields (p : Presenter) (e) : (p.giveBack e).presented = p.presented ∧
    (p.giveBack e).owed = p.owed ∧ (p.giveBack e).level = p.level ∧ (p.giveBack e).stack = p.stack ∧
    (∀ h r, (p.giveBack e).queue = h :: r → h.prio ≤ e.prio) ∧ ((p.giveBack e).queue ≠ []) := by
  have ne : ∀ e q, insertEntry e q ≠ [] := by intro e q; cases q <;> simp [insertEntry]; split <;> simp
  unfold Presenter.giveBack; split
  · refine ⟨rfl, rfl, rfl, rfl, fun h r hh => ?_, ne _ _⟩
    exact (insertEntry_head _ _ h r hh).trans (Nat.min_le_left _ _)
  · have := makeRoom_fields p
    refine ⟨this.1, this.2.2.1, this.2.2.2.1, this.2.2.2.2, fun h r hh => insertEntry_head _ _ h r hh, ne _ _⟩

theorem giveBack_no (p : Presenter) (e : Entry) (n : Nat) (he : e.no ≠ n) (hq : ∀ f ∈ p.queue,
    f.no ≠ n) : ∀ f ∈ (p.giveBack e).queue, f.no ≠ n := by
  unfold Presenter.giveBack; split
  · rename_i q hk
    intro f hf
    rcases mem_insertEntry.1 hf with rfl | hf
    · simp only; split
      · exact he
      · exact hq _ (sameKind_some hk).1
    · exact hq _ (List.mem_of_mem_erase hf)
  · intro f hf
    rcases mem_insertEntry.1 hf with rfl | hf
    · exact he
    · exact hq _ ((makeRoom_queue p).subset hf)

theorem giveBack_att (p : Presenter) (e : Entry) (he : ¬ (e.kind = .peer ∧ e.code = 0)) (hq : ∀ f ∈ p.queue,
    ¬ (f.kind = .peer ∧ f.code = 0)) : ∀ f ∈ (p.giveBack e).queue, ¬ (f.kind = .peer ∧ f.code = 0) := by
  unfold Presenter.giveBack; split
  · rename_i q hk
    intro f hf
    rcases mem_insertEntry.1 hf with rfl | hf
    · exact hq q (sameKind_some hk).1
    · exact hq _ (List.mem_of_mem_erase hf)
  · intro f hf
    rcases mem_insertEntry.1 hf with rfl | hf
    · exact he
    · exact hq _ ((makeRoom_queue p).subset hf)

/-! ### Examining and withdrawing -/

theorem examine_spec (p : Presenter) : p.examine.level = p.level ∧ p.examine.stack = p.stack ∧
    p.examine.shown = (p.examine.shown) ∧
    (∀ e, p.presented = some e → ∃ f, p.examine.presented = some f ∧ f.prio ≤ e.prio ∧ (p.examine = p ∨
        OwedWrite.notice (some f) false ∈ p.examine.owed)) ∧
    (p.presented = none → p.examine.shown = p.shown ∧ ((p.examine = p ∧ ∀ h r, p.queue = h :: r →
        p.level ≤ h.prio) ∨ ∃ f r, p.queue = f :: r ∧ f.prio < p.level ∧ p.examine.presented = some f ∧
        p.examine.queue = r ∧ OwedWrite.notice (some f) false ∈ p.examine.owed)) := by
  refine ⟨(examine_levels p).1, (examine_levels p).2, rfl, ?_, ?_⟩
  · intro e he
    unfold Presenter.examine
    split
    · exact ⟨e, he, Nat.le_refl _, .inl rfl⟩
    · rename_i a _; rw [he] at a; cases a
    · rename_i e' h r a hq
      rw [he] at a; cases a
      split
      · have g := giveBack_fields { p with presented := none } e
        generalize ({ p with presented := none } : Presenter).giveBack e = v at *
        unfold Presenter.presentHead
        cases hv : v.queue with
        | nil => exact absurd hv g.2.2.2.2.2
        | cons f t => exact ⟨f, rfl, g.2.2.2.2.1 f t hv, .inr (by simp [Presenter.oweNotice])⟩
      · exact ⟨e, he, Nat.le_refl _, .inl rfl⟩
  · intro hn
    unfold Presenter.examine
    split
    · rename_i hq; exact ⟨rfl, .inl ⟨rfl, fun h r hh => by rw [hq] at hh; cases hh⟩⟩
    · rename_i h r a hq
      split
      · rename_i hl
        unfold Presenter.presentHead
        rw [hq]
        exact ⟨rfl, .inr ⟨h, r, rfl, hl, rfl, rfl, by simp [Presenter.oweNotice]⟩⟩
      · rename_i hl
        exact ⟨rfl, .inl ⟨rfl, fun h' r' hh => by rw [hq] at hh; cases hh; omega⟩⟩
    · rename_i a _; rw [hn] at a; cases a

theorem withdraw_spec (p : Presenter) : p.withdraw.level = p.level ∧ p.withdraw.stack = p.stack ∧
    (∀ e, p.presented = some e → e.prio < p.level → p.withdraw = p) ∧ (p.presented = none → p.withdraw = p) ∧
    (∀ e, p.presented = some e → p.level ≤ e.prio → p.withdraw.presented = none) := by
  cases h : p.presented with
  | none =>
    have : p.withdraw = p := by unfold Presenter.withdraw; rw [h]
    rw [this]
    exact ⟨rfl, rfl, (fun _ e => by cases e), fun _ => rfl, (fun _ e => by cases e)⟩
  | some e =>
    have g := giveBack_fields { p with presented := none } e
    by_cases hl : p.level ≤ e.prio
    · have : p.withdraw = (({ p with presented := none } : Presenter).giveBack e).oweNotice none := by
        unfold Presenter.withdraw; rw [h]; exact if_pos hl
      rw [this]
      refine ⟨g.2.2.1, g.2.2.2.1, fun e' he hlt => ?_, (fun a => by cases a), fun e' he hp => g.1⟩
      cases he; omega
    · have : p.withdraw = p := by unfold Presenter.withdraw; rw [h]; exact if_neg hl
      rw [this]
      refine ⟨rfl, rfl, fun _ _ _ => rfl, fun _ => rfl, fun e' he hp => ?_⟩
      cases he; omega

theorem withdraw_examine_spec (p : Presenter) : (∀ e, p.withdraw.examine.presented = some e → e.prio < p.level) ∧
    p.withdraw.examine.level = p.level ∧ p.withdraw.examine.stack = p.stack ∧
   (p.presented = none → p.withdraw.examine.shown = p.shown) ∧ (p.withdraw.examine.presented = none → ∀ e r,
       p.withdraw.examine.queue = e :: r → p.level ≤ e.prio) := by
  obtain ⟨w1, w2, w3, w4, w5⟩ := withdraw_spec p
  obtain ⟨e1, e2, _, e3, e4⟩ := examine_spec p.withdraw
  have hn : p.withdraw.presented = none → (∀ e, p.withdraw.examine.presented = some e → e.prio < p.level) ∧
      (p.withdraw.examine.presented = none → ∀ e r, p.withdraw.examine.queue = e :: r → p.level ≤ e.prio) := by
    intro h
    rcases (e4 h).2 with ⟨a, b⟩ | ⟨f, r, a, b, c, d, _⟩
    · rw [a]
      exact ⟨(fun e he => by rw [h] at he; cases he), fun _ e r hh => w1 ▸ b e r hh⟩
    · exact ⟨fun e he => by rw [c] at he; cases he; rw [← w1]; exact b, fun he => by rw [c] at he; cases he⟩
  refine ⟨?_, e1.trans w1, e2.trans w2, ?_, ?_⟩
  · intro e he
    cases h : p.presented with
    | none => exact (hn (by rw [w4 h]; exact h)).1 e he
    | some f =>
      by_cases hl : f.prio < p.level
      · rw [w3 f h hl] at he e3
        obtain ⟨g, a, b, _⟩ := e3 f h
        rw [a] at he; cases he; omega
      · exact (hn (w5 f h (by omega))).1 e he
  · intro h
    rw [w4 h] at e4 ⊢
    exact (e4 h).1
  · intro h
    cases hp : p.withdraw.presented with
    | none => exact (hn hp).2 h
    | some f => obtain ⟨g, a, _⟩ := e3 f hp; rw [a] at h; cases h

theorem examine_no (p : Presenter) (n : Nat) (hp : ∀ f, p.presented = some f → f.no ≠ n) (hq : ∀ f ∈ p.queue,
    f.no ≠ n) : ∀ f ∈ p.examine.presented.toList ++ p.examine.queue, f.no ≠ n := by
  have base : ∀ q : Presenter, q.presented = none → (∀ f ∈ q.queue, f.no ≠ n) →
      ∀ f ∈ q.presentHead.presented.toList ++ q.presentHead.queue, f.no ≠ n := by
    intro q hn hq
    unfold Presenter.presentHead
    split
    · rename_i h; rw [hn, h]; intro f hf; cases hf
    · rename_i h t e
      intro f hf
      have : f ∈ h :: t := hf
      rw [← e] at this; exact hq f this
  have self : ∀ f ∈ p.presented.toList ++ p.queue, f.no ≠ n := by
    intro f hf
    rcases List.mem_append.1 hf with a | a
    · rw [Option.mem_toList] at a; exact hp f a
    · exact hq f a
  unfold Presenter.examine
  split
  · exact self
  · rename_i a _; split
    · exact base p a hq
    · exact self
  · rename_i e _ _ a _; split
    · exact base _ (giveBack_fields { p with presented := none } e).1 (giveBack_no _ _ _ (hp e a) hq)
    · exact self

theorem presentHead_all (P : Entry → Prop) (p : Presenter) (hp : ∀ e, p.presented = some e →
    P e) (hq : ∀ e ∈ p.queue, P e) : (∀ e, p.presentHead.presented = some e → P e) ∧ (∀ e ∈ p.presentHead.queue,
    P e) := by
  unfold Presenter.presentHead; split
  · exact ⟨hp, hq⟩
  · rename_i h r e
    refine ⟨fun f hf => ?_, fun f hf => ?_⟩
    · cases hf; exact hq _ (by rw [e]; exact List.mem_cons_self)
    · exact hq _ (by rw [e]; exact List.mem_cons_of_mem _ hf)

theorem examine_att (p : Presenter) (hp : ∀ f, p.presented = some f → ¬ (f.kind = .peer ∧
    f.code = 0)) (hq : ∀ f ∈ p.queue, ¬ (f.kind = .peer ∧ f.code = 0)) :
   (∀ f ∈ p.examine.queue, ¬ (f.kind = .peer ∧ f.code = 0)) ∧ ∀ f, p.examine.presented = some f →
       ¬ (f.kind = .peer ∧ f.code = 0) := by
  unfold Presenter.examine; split
  · exact ⟨hq, hp⟩
  · split
    · have := presentHead_all (fun f => ¬ (f.kind = .peer ∧ f.code = 0)) p hp hq; exact ⟨this.2, this.1⟩
    · exact ⟨hq, hp⟩
  · rename_i e _ _ a _
    split
    · have := presentHead_all (fun f => ¬ (f.kind = .peer ∧ f.code =
        0)) (({ p with presented := none } : Presenter).giveBack e) (fun f hf => by simp [(giveBack_fields _
        _).1] at hf) (giveBack_att _ _ (hp e a) hq)
      exact ⟨this.2, this.1⟩
    · exact ⟨hq, hp⟩

theorem examine_owed_sublist (p : Presenter) (l : Nat) (h : [OwedWrite.level l,
    .notice none true].Sublist p.owed) : [OwedWrite.level l, .notice none true].Sublist p.examine.owed := by
  have ow : ∀ q : Presenter, q.owed = p.owed → [OwedWrite.level l, .notice none true].Sublist q.presentHead.owed := by
    intro q hq
    unfold Presenter.presentHead; split
    · rw [hq]; exact h
    · simp only [Presenter.oweNotice, hq]
      have this : [OwedWrite.level l, .notice none true].Sublist (p.owed.filter OwedWrite.staysOnNotice) :=
          h.filter OwedWrite.staysOnNotice
      exact this.trans (List.sublist_append_left _ _)
  unfold Presenter.examine; split
  · exact h
  · split
    · exact ow p rfl
    · exact h
  · split
    · exact ow _ (giveBack_fields _ _).2.1
    · exact h

/-! ### Outcomes of the region map -/

theorem giveOutcome_spec (x : Side) (k : Nat) (s : State) (hl : s.live x = true) :
   (giveOutcome x k s).map = { s.map with last := s.map.last.set x k } ∧
       (giveOutcome x k s).pres = s.pres.set x ((s.pres.get x).join .partition 2 0 k).examine ∧
   (giveOutcome x k s).intake = s.intake ∧ (giveOutcome x k s).slots = s.slots ∧
       (giveOutcome x k s).locks = s.locks ∧ (giveOutcome x k s).drv = s.drv ∧ (∀ y,
       (giveOutcome x k s).live y = s.live y) := by
  unfold giveOutcome oweCell notify
  have a : (s.modMap (fun m => { m with last := m.last.set x k })).live x = true := hl
  have b : ((s.modMap (fun m => { m with last := m.last.set x k })).modTap x (fun t =>
      { t with owed := t.owed.owe .partition })).live x = true := by
    simp [State.live] at hl ⊢; exact hl
  rw [if_pos a, if_pos b]
  refine ⟨rfl, rfl, rfl, rfl, rfl, rfl, fun y => ?_⟩
  simp [State.live, Sided.get_set]; split <;> simp_all

theorem giveOutcome_fields (x : Side) (k : Nat) (s : State) :
   (giveOutcome x k s).map = { s.map with last := s.map.last.set x k } ∧
       (giveOutcome x k s).pres = (if s.live x then s.pres.set x ((s.pres.get x).join .partition 2 0 k).examine
       else s.pres) ∧
   (giveOutcome x k s).intake = s.intake ∧ (giveOutcome x k s).slots = s.slots ∧
       (giveOutcome x k s).locks = s.locks ∧ (giveOutcome x k s).drv = s.drv ∧ (∀ y,
       (giveOutcome x k s).live y = s.live y) := by
  cases h : s.live x with
  | true => simpa using giveOutcome_spec x k s h
  | false =>
    unfold giveOutcome oweCell notify
    have a : (s.modMap (fun m => { m with last := m.last.set x k })).live x = false := h
    simp [a]

theorem giveBoth_spec (k : Nat) (s : State) :
   (giveBoth k s).map = { s.map with last := .both k } ∧ (∀ y, s.live y = true →
       (giveBoth k s).pres.get y = ((s.pres.get y).join .partition 2 0 k).examine) ∧
   (giveBoth k s).intake = s.intake ∧ (giveBoth k s).slots = s.slots ∧ (giveBoth k s).locks = s.locks ∧
       (giveBoth k s).drv = s.drv ∧ (∀ y, (giveBoth k s).live y = s.live y) := by
  unfold giveBoth
  have a := giveOutcome_fields .A k s
  generalize giveOutcome .A k s = v at *
  have b := giveOutcome_fields .B k v
  generalize giveOutcome .B k v = w at *
  obtain ⟨a1,a2,a3,a4,a5,a6,a7⟩ := a
  obtain ⟨b1,b2,b3,b4,b5,b6,b7⟩ := b
  refine ⟨?_, fun y hy => ?_, b3.trans a3, b4.trans a4, b5.trans a5, b6.trans a6, fun y => (b7 y).trans (a7 y)⟩
  · rw [b1, a1]; rfl
  · cases y
    · rw [b2]; split <;> simp [a2, hy, Sided.get, Sided.set]
    · rw [b2, a7, hy, if_pos rfl, a2]; split <;> simp [Sided.get, Sided.set]

theorem oweCell_owed (x y : Side) (c) (s : State) : ((oweCell x c s).tap.get y).owed = if y = x ∧ s.live x
    then (s.tap.get y).owed.owe c else (s.tap.get y).owed := by
  unfold oweCell; split
  · rename_i h; simp only [State.modTap_tap, Sided.get_set]; split <;> simp_all
  · rename_i h; simp [h]

theorem oweCell_live (x y : Side) (c) (s : State) : (oweCell x c s).live y = s.live y := by
  unfold oweCell; split
  · simp only [State.live, State.modTap_tap, Sided.get_set]; split <;> simp_all
  · rfl

theorem giveOutcome_owed (x y : Side) (k) (s : State) : ((giveOutcome x k s).tap.get y).owed = if y = x ∧
    s.live x then (s.tap.get y).owed.owe .partition else (s.tap.get y).owed := by
  unfold giveOutcome
  have : ∀ u : State, (notify x .partition 2 0 k u).tap = u.tap := by intro u; unfold notify; split <;> rfl
  rw [this, oweCell_owed]; rfl

/-! ### Records and their words -/

theorem startReads_spec (x : Side) (i : Fin 12) (s : State) :
    startReads x i s = if 65532 < (s.slot i).q.toNat then
      { s with intake := s.intake.set x { s.intake.get x with fetch := none },
               slots := s.slots.set i
                   { s.slot i with
                     recordless := true, words := [], state := .posting, status := some .badAddress, residual := 0
                     stop := 0, instant := s.clk.count, span := none },
               post := { s.post with queue := s.post.queue ++ [(i, (s.slot i).tenure)] } }
     else { s with intake := s.intake.set x { s.intake.get x with fetch := some ⟨i, none⟩ } } := by
  unfold startReads
  split
  · simp only [unfetchable, postRecordless, toPosting, endFetch, State.modSlot, State.modIntake, State.modPost,
      Slot.posted, State.slot]
    simp
  · rfl

theorem toPosting_spec (i st a b c) (s : State) : toPosting i st a b c s =
    { s with
      slots := s.slots.set i ((s.slot i).posted st a b c)
      post := { s.post with queue := s.post.queue ++ [(i, (s.slot i).tenure)] } } := rfl

theorem validate_congr {s t : State} (x : Side) (r : List Word) (h1 : (t.intake.get x).cursor =
    (s.intake.get x).cursor) (h2 : t.drv.mounted = s.drv.mounted) (h3 : t.map = s.map) (h4 : t.locks = s.locks) :
   validate t x r = validate s x r := by
  unfold validate notMounted regionDenied regionChanging lockMissing coveredBy State.held
  rw [h1, h2, h3, h4]

theorem wordFetched_last (x : Side) (k : Fin 12) (d : Word) (wt : Nat) (s : State) (h : (s.slot k).words.length =
    11) :
   ∃ z, wordFetched x k d (s.ended x wt []) = (if (s.slot k).depth = 64 then postNeverActive k .chainLimit z
       else match validate s x ((s.slot k).words ++ [d]) with
        | some st => postNeverActive k st z
        | none => match recKind ((s.slot k).words ++ [d]) with
            | some k' => accept x k k' z
            | none => postNeverActive k .badKind z) ∧
     z = { s.ended x wt [] with
       slots := s.slots.set k { s.slot k with words := (s.slot k).words ++ [d] }
       intake := s.intake.set x { s.intake.get x with fetch := none } } ∧
     z.slot k = { s.slot k with words := (s.slot k).words ++ [d] } := by
  refine ⟨endFetch x ((s.ended x wt []).modSlot k (fun sl => { sl with words := sl.words ++ [d] })), ?_, rfl, ?_⟩
  · have sl : ((s.ended x wt []).modSlot k (fun sl => { sl with words := sl.words ++ [d] })).slot k =
      { s.slot k with words := (s.slot k).words ++ [d] } := by
      rw [State.slot_modSlot_same]; rfl
    unfold wordFetched
    simp only [sl, List.length_append, List.length_singleton]
    rw [if_pos (by omega)]
    unfold recordFetched
    simp only
    have se : (endFetch x ((s.ended x wt []).modSlot k (fun sl =>
        { sl with words := sl.words ++ [d] }))).slot k = { s.slot k with words := (s.slot k).words ++ [d] } := sl
    have val : ∀ r, validate (endFetch x ((s.ended x wt []).modSlot k (fun sl =>
        { sl with words := sl.words ++ [d] }))) x r = validate s x r := by
      intro r
      exact validate_congr x r (by simp [endFetch, State.ended]) rfl rfl rfl
    generalize endFetch x ((s.ended x wt []).modSlot k (fun sl => { sl with words := sl.words ++ [d] })) = z at *
    simp only [se, val, Slot.kind] <;> rfl
  · show ((s.ended x wt []).modSlot k (fun sl => { sl with words := sl.words ++ [d] })).slot k = _
    rw [State.slot_modSlot_same]; rfl

theorem follows_false {sl : Slot} {t : Bool} (h : t = true ∨ sl.recordless = true ∨ recLink sl.words = 0 ∨
    64 ≤ sl.depth ∨
        recLinkCondition sl.words = 0 ∨ (recLinkCondition sl.words = 2 ∧ sl.status ≠ some .ok) ∨
        (recLinkCondition sl.words = 3 ∧ sl.status = some .ok)) : followsLink sl t = false := by
  unfold followsLink linkMet
  rcases h with h | h | h | h | h | ⟨h, h'⟩ | ⟨h, h'⟩
  · simp [h]
  · simp [h]
  · simp [h]
  · have : ¬ sl.depth < 64 := by omega
    simp [this]
  · simp [h]
  · simp [h, h']
  · simp [h, h']

theorem follows_true {sl : Slot} (hr : sl.recordless = false) (hl : recLink sl.words ≠ 0) (hd : sl.depth < 64)
    (h : recLinkCondition sl.words = 1 ∨ (recLinkCondition sl.words = 2 ∧ sl.status = some .ok) ∨
        (recLinkCondition sl.words = 3 ∧ sl.status ≠ some .ok)) : followsLink sl false = true := by
  unfold followsLink linkMet
  rcases h with h | ⟨h, h'⟩ | ⟨h, h'⟩
  · simp [hr, hd, h]; exact hl
  · simp [hr, hd, h, h']; exact hl
  · have : (sl.status != some .ok) = true := by simpa using h'
    simp [hr, hd, h, this]; exact hl

theorem postNotice_rest (sl t) (s : State) : postNotice sl t s = { s with pres := (postNotice sl t s).pres } := by
  unfold postNotice notify; split <;> split <;> (try split) <;> rfl

/-! ### Fenced words and header words -/

theorem wordIndex_iff (f : Fence) (a : Addr) (j : Nat) : wordIndex f a = some j ↔ j < f.count ∧
    a.toNat = f.buffer + j + f.stride * (j / 256) := by
  unfold wordIndex
  split
  · rename_i h; simp; intro _; have := Nat.zero_le (f.stride * (j/256)); omega
  · rename_i h
    simp only
    generalize ho : a.toNat - f.buffer = off
    have ha : a.toNat = f.buffer + off := by omega
    have hp : 0 < 256 + f.stride := by omega
    have hm := Nat.div_add_mod off (256 + f.stride)
    have hlt := Nat.mod_lt off hp
    generalize hq : off / (256 + f.stride) = q at *
    generalize hr : off % (256 + f.stride) = r at *
    constructor
    · intro h
      split at h
      · rename_i c
        cases h
        refine ⟨c.2, ?_⟩
        have : (q * 256 + r) / 256 = q := by omega
        rw [this, ha, ← hm]; ring
      · cases h
    · rintro ⟨h1, h2⟩
      have hj := Nat.div_add_mod j 256
      have hj2 := Nat.mod_lt j (show 0 < 256 by omega)
      have e : off = (256 + f.stride) * (j / 256) + j % 256 := by
        have : off = j + f.stride * (j / 256) := by omega
        rw [this]; nlinarith
      have : q = j / 256 := by
        rw [← hq, e, Nat.mul_add_div hp, Nat.div_eq_of_lt (Nat.lt_of_lt_of_le hj2 (Nat.le_add_right _ _)),
            Nat.add_zero]
      have : r = j % 256 := by
        rw [← hr, e, Nat.mul_add_mod, Nat.mod_eq_of_lt (Nat.lt_of_lt_of_le hj2 (Nat.le_add_right _ _))]
      have hjj : q * 256 + r = j := by omega
      rw [if_pos ⟨by omega, by omega⟩, hjj]

theorem append_toNat {m n} (a : BitVec m) (b : BitVec n) : (a ++ b).toNat = a.toNat * 2^n + b.toNat := by
  rw [BitVec.toNat_append, ← Nat.shiftLeft_add_eq_or_of_lt b.isLt, Nat.shiftLeft_eq]

theorem header_toNat (c h s : Nat) (hc : c < 512) (hh : h < 4) (hs : s < 16) : (0x8000 ||| addressWord c h s :
    Word).toNat = 32768 + c * 64 + h * 16 + s := by
  have e : (addressWord c h s).toNat = c * 64 + h * 16 + s := by
    unfold addressWord
    rw [append_toNat, append_toNat, append_toNat]
    simp only [BitVec.toNat_ofNat]
    norm_num
    omega
  rw [BitVec.toNat_or, e]
  have : (0x8000 : Word).toNat = 1 <<< 15 := by decide
  rw [this, ← Nat.shiftLeft_add_eq_or_of_lt (by omega)]
  omega

theorem field_toNat (w : Word) (lo len : Nat) : field w lo len = w.toNat / 2^lo % 2^len := by
  unfold field; rw [BitVec.extractLsb'_toNat, Nat.shiftRight_eq_div_pow]

end Sys2Proof.Machine
end

