-- ==== Sys2Proof/Laws/Running.lean ====
section
/-! SUPPORT. What `onWatched`, `onPart` and `runIf` answer where their cycle or premise stands: the equation a
command's statement starts from. -/

-- One declaration after another: the package is checked as one text, and every thread of its own would hold a stack.
set_option Elab.async false

namespace Sys2Proof.Machine

/-! ### A command whose premise stands -/

theorem runIf_true {c : Bool} {f : State → State} {s : State} (h : c = true) : runIf c f s =
    .next (settle s (f s.begun)) := by
  simp [runIf, h, run]

theorem onWatched_eq {s : State} {x d wt w f} {c : CompCycle} (h : (s.tap.get x).arb =
    .computer c) (hw : w c.watch = true) :
    onWatched x d wt w f s = .next (settle s (if s.live x then f c (s.ended x wt (returned x c d))
        else s.ended x wt (returned x c d))) := by
  have : computerCycle s x = some c := by simp [computerCycle, h]
  simp [onWatched, this, runIf, hw, run]
  rfl

theorem onPart_eq {s : State} {x wt k f} {p : PartCycle} (h : (s.tap.get x).arb = .part p) (hk : k p.kind = true) :
    onPart x wt k f s = .next (settle s (if p.abandoned then s.ended x wt [] else f p (s.ended x wt []))) := by
  have : partCycle s x = some p := by simp [partCycle, h]
  simp [onPart, this, runIf, hk, run, afterEnd]
  rfl

/-! ### A watched cycle that works on a presenter -/

theorem watched_pres {s : State} {x y w wt} {c : CompCycle} (h1 : (s.tap.get x).arb = .computer c) (h4 : c.dir =
    .write) (h5 : s.live x = true) {k : Watch → Bool} {f : CompCycle → Presenter → Presenter}
   (hk : k c.watch = true) : onWatched x w wt k (fun c s => s.modPres y (f c)) s = .next (settle s
       { s.ended x wt [] with pres := s.pres.set y (f c (s.pres.get y)) }) := by
  rw [onWatched_eq h1 hk, if_pos h5]
  have : returned x c w = [] := by simp [returned, h4]
  rw [this]; rfl

theorem read_pres {s : State} {x w wt} {c : CompCycle} (h1 : (s.tap.get x).arb = .computer c) (h4 : c.dir =
    .read) (h5 : s.live x = true) {k : Watch → Bool} {f : CompCycle → Presenter → Presenter}
   (hk : k c.watch = true) : onWatched x w wt k (fun c s => s.modPres x (f c)) s = .next (settle s
       { s.ended x wt [.readReturned x w] with pres := s.pres.set x (f c (s.pres.get x)) }) := by
  rw [onWatched_eq h1 hk, if_pos h5]
  have : returned x c w = [.readReturned x w] := by simp [returned, h4]
  rw [this]; rfl

/-! ### Counting, freeing and choosing slots -/

theorem freeIfOf_rest (x) (s : State) (i) : freeIfOf x s i = { s with slots := (freeIfOf x s i).slots } := by
  unfold freeIfOf; split <;> rfl

theorem freeIfOf_slot (x) (s : State) (i j) : (freeIfOf x s i).slot j = if j = i ∧ s.slotOf x j
    then Slot.empty (s.slot j).tenure else s.slot j := by
  unfold freeIfOf; split
  · unfold freeSlot; rw [State.slot_modSlot]; split <;> simp_all
  · split
    · rename_i h; obtain ⟨rfl, h⟩ := h; contradiction
    · rfl

theorem foldl_free_rest (x) (l : List (Fin 12)) : ∀ s : State, (l.foldl (freeIfOf x) s) =
    { s with slots := (l.foldl (freeIfOf x) s).slots } := by
  induction l with
  | nil => intro s; rfl
  | cons i r ih =>
    intro s
    have a := ih (freeIfOf x s i)
    have b := freeIfOf_rest x s i
    rw [List.foldl_cons]
    generalize List.foldl (freeIfOf x) (freeIfOf x s i) r = w at *
    rw [a, b]

theorem foldl_free (x) (l : List (Fin 12)) : ∀ (s : State) j, (l.foldl (freeIfOf x) s).slot j = if j ∈ l ∧
    s.slotOf x j then Slot.empty (s.slot j).tenure else s.slot j := by
  induction l with
  | nil => intro s j; simp
  | cons i r ih =>
    intro s j
    rw [List.foldl_cons, ih (freeIfOf x s i)]
    unfold State.slotOf
    rw [freeIfOf_slot]
    unfold State.slotOf
    by_cases h : j = i ∧ (((s.slot j).state != .free && (s.slot j).side == x) = true)
    · rw [if_pos h]; obtain ⟨rfl, h⟩ := h; simp [Slot.empty]; intro k; simp at h; exact absurd h.2 (k h.1)
    · rw [if_neg h]
      by_cases k : j = i
      · have : ((s.slot j).state != .free && (s.slot j).side == x) = false := by simpa [k] using h
        simp [this]
      · simp [k]

theorem engineFreed_rest (i) (s : State) : (engineFreed i s) =
    { s with
      eng := (engineFreed i s).eng
      drv := { s.drv with readGate := (engineFreed i s).drv.readGate, writeGate := (engineFreed i s).drv.writeGate } } := by
  unfold engineFreed; split
  · split <;> rfl
  · rfl

theorem tellEngine_rest (x) (s : State) : (tellEngine x s) =
    { s with
      eng := (tellEngine x s).eng
      drv := { s.drv with readGate := (tellEngine x s).drv.readGate, writeGate := (tellEngine x s).drv.writeGate } } := by
  unfold tellEngine; split
  · rfl
  · split
    · exact engineFreed_rest _ _
    · rfl

theorem countPass_rest (s : State) (e) : countPass s e = { s with slots := (countPass s e).slots } := by
  unfold countPass; split <;> rfl

theorem foldl_count_rest (l : List (Fin 12 × Nat × Nat)) : ∀ s : State, l.foldl countPass s =
    { s with slots := (l.foldl countPass s).slots } := by
  induction l with
  | nil => intro s; rfl
  | cons e r ih =>
    intro s
    have a := ih (countPass s e); have b := countPass_rest s e
    rw [List.foldl_cons]
    generalize List.foldl countPass (countPass s e) r = w at *
    rw [a, b]

theorem countPass_slot (s : State) (e : Fin 12 × Nat × Nat) (j) : (countPass s e).slot j = if e = (j,
    (s.slot j).wait) ∧ (s.slot j).state = .waiting then
    { s.slot j with passCount := min 15 ((s.slot j).passCount + 1) } else s.slot j := by
  unfold countPass; split
  · rename_i h
    rw [State.slot_modSlot]
    by_cases hj : j = e.1
    · subst hj; rw [if_pos rfl, if_pos ⟨by rw [h.2], h.1⟩]; rfl
    · rw [if_neg hj, if_neg]; rintro ⟨q, _⟩; rw [q] at hj; exact hj rfl
  · rename_i h
    rw [if_neg]; rintro ⟨q, w⟩; rw [q] at h; exact h ⟨w, rfl⟩

theorem foldl_count (l : List (Fin 12 × Nat × Nat)) : ∀ (s : State) (j n), n = l.countP (fun e => e == (j,
    (s.slot j).wait)) →
    (l.foldl countPass s).slot j = if (s.slot j).state = .waiting ∧ 0 < n then
        { s.slot j with passCount := min 15 ((s.slot j).passCount + n) } else s.slot j := by
  induction l with
  | nil => intro s j n h; simp at h; simp [h]
  | cons e r ih =>
    intro s j n h
    rw [List.foldl_cons]
    have te : ((countPass s e).slot j).wait = (s.slot j).wait := by rw [countPass_slot]; split <;> rfl
    have st : ((countPass s e).slot j).state = (s.slot j).state := by rw [countPass_slot]; split <;> rfl
    rw [ih (countPass s e) j _ rfl, te, st]
    rw [List.countP_cons] at h
    generalize r.countP (fun e => e == (j, (s.slot j).wait)) = m at h ⊢
    rw [countPass_slot]
    by_cases w : (s.slot j).state = .waiting
    · by_cases q : e = (j, (s.slot j).wait)
      · rw [if_pos (⟨q, w⟩ : _ ∧ _)]
        simp [q] at h
        subst h
        by_cases hm : 0 < m
        · simp [w, hm]; omega
        · have : m = 0 := by omega
          subst this; simp [w]
      · simp [q] at h
        subst h
        simp [q]
    · simp [w]

/-! ### The order of choice -/

theorem choose_none (s : State) : ∀ l, s.choose l = none → l = [] := by
  intro l; cases l with
  | nil => intro _; rfl
  | cons i r => unfold State.choose; split <;> [skip; split] <;> simp

theorem ahead_iff (s : State) (i j) : s.ahead i j = true ↔ s.tier i < s.tier j ∨ (s.tier i = s.tier j ∧
    (s.rank i < s.rank j ∨ (s.rank i = s.rank j ∧ s.older i j = true))) := by
  simp [State.ahead]

theorem older_iff (s : State) (i j) : s.older i j = true ↔ s.age j < s.age i ∨ (s.age i = s.age j ∧ i < j) := by
  simp [State.older]

theorem ahead_trans (s : State) {i j k} (h : s.ahead i j = true) (h' : s.ahead j k = true) : s.ahead i k = true := by
  rw [ahead_iff, older_iff] at *; omega

theorem ahead_total (s : State) {i j} (h : ¬ s.ahead i j = true) (hn : i ≠ j) : s.ahead j i = true := by
  rw [ahead_iff, older_iff] at *
  have : i.val ≠ j.val := fun h => hn (Fin.ext h)
  omega

theorem choose_spec (s : State) : ∀ l i, s.choose l = some i → i ∈ l ∧ ∀ j ∈ l, j ≠ i → s.ahead i j = true := by
  intro l; induction l with
  | nil => intro i h; simp [State.choose] at h
  | cons a r ih =>
    intro i h
    unfold State.choose at h
    split at h
    · rename_i hr; have := choose_none s r hr; subst this; cases h; simp;
    · rename_i j hr
      obtain ⟨m, f⟩ := ih j hr
      split at h
      · rename_i ha; cases h
        refine ⟨List.mem_cons_of_mem _ m, fun k hk hn => ?_⟩
        rcases List.mem_cons.1 hk with h | h
        · subst h; exact ha
        · exact f k h hn
      · rename_i ha; cases h
        refine ⟨List.mem_cons_self, fun k hk hn => ?_⟩
        rcases List.mem_cons.1 hk with h | h
        · exact absurd h hn
        · by_cases e : a = j
          · subst e; exact f k h hn
          · have := ahead_total s ha (Ne.symm e)
            by_cases e2 : k = j
            · subst e2; exact this
            · exact ahead_trans s this (f k h e2)

/-! ### Locks and ranges -/

theorem meets_iff (h : Lock) (p : Platter) (r : Nat × Nat) : h.meets p r = true ↔ h.platter = p ∧ h.first ≤ r.2 ∧
    r.1 ≤ h.last := by
  simp [Lock.meets, rangesMeet]

theorem touches_iff (sl : Slot) (p : Platter) (q : Nat × Nat) : sl.touches p q = true ↔ sl.platter = some p ∧
    ∃ r, sl.touched = some r ∧ r.1 ≤ q.2 ∧ q.1 ≤ r.2 := by
  cases h : sl.touched <;> simp [Slot.touches, rangesMeet, h]
  intro _; exact and_comm

theorem slotIds_mem (i : Fin 12) : i ∈ slotIds := by revert i; decide

theorem lockConflict_iff (s : State) (y : Side) (p q e) : lockConflict s y p q e = true ↔ ∃ h ∈ s.held,
    h.side = y ∧ (h.exclusive = true ∨ e = true) ∧ h.platter = p ∧ h.first ≤ q.2 ∧ q.1 ≤ h.last := by
  simp only [lockConflict, List.any_eq_true, Bool.and_eq_true, Bool.or_eq_true, beq_iff_eq, meets_iff]
  constructor
  · rintro ⟨h, a, ⟨b, c⟩, d⟩; exact ⟨h, a, b, c.symm, d⟩
  · rintro ⟨h, a, b, c, d⟩; exact ⟨h, a, ⟨b, c.symm⟩, d⟩

theorem isLock_iff (sl : Slot) : sl.isKind (· == .lock) = true ↔ sl.kind = some .lock := by
  cases h : sl.kind <;> simp [Slot.isKind, h]

theorem freeEntry_eq_some (s : State) (k : Fin 8) (h : s.locks[k] = none) (h' : ∀ j : Fin 8, j < k →
    s.locks[j] ≠ none) : s.freeEntry = some k := by
  unfold State.freeEntry
  have e : ([0, 1, 2, 3, 4, 5, 6, 7] : List (Fin 8)) = List.finRange 8 := by decide
  rw [e]
  cases hf : (List.finRange 8).find? (fun k => (s.locks[k]).isNone) with
  | none => rw [List.find?_eq_none] at hf; have := hf k (List.mem_finRange k); rw [h] at this; simp at this
  | some j =>
    congr 1
    rw [List.find?_eq_some_iff_getElem] at hf
    obtain ⟨hp, n, hn, e1, e2⟩ := hf
    have ej : j.val = n := by rw [← e1]; simp
    rcases lt_trichotomy j k with hlt | heq | hgt
    · have := h' j hlt; rw [Option.isNone_iff_eq_none] at hp; exact absurd hp this
    · exact heq
    · have := e2 k.val (by rw [← ej]; exact hgt)
      simp at this
      have w : s.locks[k] = none := h
      simp at w; rw [w] at this; simp at this

theorem freeEntry_eq_none (s : State) (h : ∀ k : Fin 8, s.locks[k] ≠ none) : s.freeEntry = none := by
  unfold State.freeEntry
  rw [List.find?_eq_none]
  intro k _; have := h k; cases hk : s.locks[k] <;> simp_all

end Sys2Proof.Machine
end

