-- ==== Sys2Proof/WellFormed.lean ====
section
/-! DEFINITION. What a command must meet to describe an event that can take place: a word time lies within a slot of 320
word times (R1's table, section 1.1), and at most 256 data words are received in a sector (R7). -/

namespace Sys2Proof

/-- `wt` counts word times from a sector mark: 0 to 319. -/
def wordTimeOk (wt : Nat) : Bool := decide (wt < 320)

/-- The operands a command carries lie in the ranges the spec gives them. -/
def Instr.wf : Instr → Bool
  | .computerCycleEnd _ _ wt => wordTimeOk wt
  | .unwatchedCellWrite _ wt => wordTimeOk wt
  | .submissionCellWrite _ wt => wordTimeOk wt
  | .levelCellWrite _ wt => wordTimeOk wt
  | .noticeCellRead _ _ wt => wordTimeOk wt
  | .endOfNotice _ wt => wordTimeOk wt
  | .crossCellWrite _ wt => wordTimeOk wt
  | .idleCellWrite _ wt => wordTimeOk wt
  | .proposalCellWrite _ wt => wordTimeOk wt
  | .sealCellWrite _ wt => wordTimeOk wt
  | .clearingWriteEnd _ _ wt => wordTimeOk wt
  | .recordFetchReadEnd _ _ wt => wordTimeOk wt
  | .resultWordWriteEnd _ wt => wordTimeOk wt
  | .signalPairReadEnd _ _ wt => wordTimeOk wt
  | .signalPairEnd _ _ wt => wordTimeOk wt
  | .memoryTimeout _ wt => wordTimeOk wt
  | .noticeCellWriteEnd _ _ wt => wordTimeOk wt
  | .levelCellWriteEnd _ _ wt => wordTimeOk wt
  | .statusWriteEnd _ _ wt => wordTimeOk wt
  | .dataCycleEnd _ _ wt => wordTimeOk wt
  | .sectorEnd data _ => decide (data.length ≤ 256)
  | .partReset _ _ _ _ _ | .initAsserted _ | .initReleased _ | .computerCycleArrival _ _ _ _ | .holdTimerExpiry _
  | .proposalExpiry | .take _ | .chainFetchStart _ | .selectionTaken | .deadlineEvent _ | .postingStart | .slotTimerTick
  | .sectorMark _ | .indexRise | .headerJudged _ _ | .sectorDataStart | .onCylinderRise | .onCylinderFall | .seekSpanEnd
  | .engineRecalSpanEnd | .abandonedMovementSpanEnd | .powerPresentFall | .powerPresentRise | .upToSpeedRise
  | .upToSpeedFall | .headsLoadedRise | .headsLoadedFall | .writeProtectChange _ | .faultRise | .faultFall
  | .faultResetSpanEnd | .loadSwitchPressed | .cartridgeClosedFall | .cartridgeClosedRise | .openEntryResume
  | .spinUpTimeout | .recalibrateTimeout | .parkDelayEnd | .spinDownDelayEnd => true

end Sys2Proof
end

