-- ==== Sys2Proof/Tests/Slice0.lean ====
section
/-! SUPPORT. The model's own tests: ill-formed commands refused, the words and worked examples of the spec, one small step
for each command, and for each statement with hypotheses a witness that meets them. -/

open Sys2Proof Sys2Proof.Machine

-- One theorem after another: elaborated side by side, the kernel's evaluations would each wait on a thread of its own.
set_option Elab.async false

namespace Sys2Proof.Tests

/-! ### Small states -/

/-- What `f` reads after command `c`; none after a fault or a refusal. -/
def after {α : Type} (c : Instr) (s : State) (f : State → α) : Option α :=
  match exec c s with
  | .next t => some (f t)
  | .fault _ | .refused _ => none

/-- Both sides live, the drive READY at cylinder 0 with the clock at 100 on MARKS, and nothing asked for. -/
def base : State :=
  { State.reset with
    tap := ⟨Tap.reset 1024 true, Tap.reset 2048 true⟩
    drv := { State.reset.drv with state := .ready, inp := ⟨true, true, true, true, false, false, true⟩ }
    clk := ⟨100, .marks⟩ }

/-- `s` with slot `i` holding `sl`. -/
def withSlot (i : Fin 12) (sl : Slot) (s : State) : State := { s with slots := s.slots.set i sl }

/-- `s` with side `x`'s computer cycle in progress, watched as `w`. -/
def comp (x : Side) (w : Watch) (dir : Dir) (v : Word) (s : State) : State :=
  { s with tap := s.tap.set x { s.tap.get x with arb := .computer ⟨dir, 0, v, w⟩ } }

/-- `s` with a part cycle for `k` in progress on side `x`. -/
def part (x : Side) (k : CycleKind) (s : State) : State :=
  { s with tap := s.tap.set x { s.tap.get x with arb := .part ⟨k, .read, 0, 0, false⟩ } }

/-- A record's words 0 to 11 with buffer 4096 and the words named: 0, 1, 2, 5, 6 and 7. -/
def recordOf (w0 w1 w2 w5 w6 w7 : Word) : List Word := [w0, w1, w2, 0, 4096, w5, w6, w7, 0, 0, 0, 0]

/-- Side `x`'s slot in state `st` with the record `r`, at sector `i` of platter F for `n` sectors. -/
def slotOf (st : SlotState) (x : Side) (r : List Word) (i n : Nat) : Slot :=
  { Slot.empty 1 with
    state := st, side := x, words := r, platter := some .F, start := some i, n := some n
    touched := some (i / 32, (i + n - 1) / 32), seq := some 1, q := 1000 }

/-- A READ (or the kind of bits 15 to 12 of `w0`) of one sector of platter F on cylinder 0, head 2, sector 5. -/
def oneSector (w0 : Word) : List Word := recordOf w0 0 37 256 0 0

/-- `s` with the drive controller changed by `f`. -/
def drvWith (f : Drive → Drive) (s : State) : State := { s with drv := f s.drv }

/-- `s` with the engine changed by `f`. -/
def engWith (f : Engine → Engine) (s : State) : State := { s with eng := f s.eng }

/-- The engine at work for slot 0, in phase `ph` at its first sector. -/
def working (ph : Phase) (s : State) : State :=
  engWith (fun e => { e with work := some (0, 1), phase := ph, target := some 0, begun := true }) s

/-- `base` with slot 0 ACTIVE for side A with record `r` of `n` sectors from sector 5 of cylinder 0, fenced and at
work. -/
def active (ph : Phase) (r : List Word) (n : Nat) : State :=
  let s := working ph (withSlot 0 (slotOf .active .A r 5 n) base)
  { s with tap := s.tap.set .A { s.tap.get .A with fence := (s.slot 0).fence } }

theorem comp_watched {x : Side} {w : Watch} {v : Word} {s : State} (h : s.live x = true) :
    watchedAs (comp x w .write v s) x w v := by
  cases x <;> exact ⟨_, rfl, rfl, rfl, rfl, h⟩

theorem part_for {x : Side} {k : CycleKind} {s : State} : cycleFor (part x k s) x k := by
  cases x <;> exact ⟨_, rfl, rfl, rfl⟩

theorem free_not_computer {t : Tap} (h : t.arb = .free) : ∀ c, t.arb ≠ .computer c := by simp [h]

theorem next_of_after {α : Type} {c : Instr} {s : State} {f : State → α} {a : α} (h : after c s f = some a) :
    ∃ t, exec c s = .next t := by
  unfold after at h
  split at h
  · exact ⟨_, ‹_›⟩
  · cases h
  · cases h

/-! ### Well-formed commands -/

theorem test_wf_word_time : (Instr.levelCellWrite .A 320).wf = false ∧ (Instr.levelCellWrite .A 319).wf = true := by decide

theorem test_wf_every_cycle_end : ∀ c ∈ [Instr.computerCycleEnd .A 0 320, .unwatchedCellWrite .A 320,
    .submissionCellWrite .A 320, .noticeCellRead .A 0 320, .endOfNotice .A 320, .crossCellWrite .A 320,
    .idleCellWrite .A 320, .proposalCellWrite .A 320, .sealCellWrite .A 320, .clearingWriteEnd .A true 320,
    .recordFetchReadEnd .A 0 320, .resultWordWriteEnd .A 320, .signalPairReadEnd .A 0 320, .signalPairEnd .A true 320,
    .memoryTimeout .A 320, .noticeCellWriteEnd .A true 320, .levelCellWriteEnd .A true 320, .statusWriteEnd .A true 320,
    .dataCycleEnd .A 0 320], c.wf = false := by decide

theorem test_wf_too_many_words : (Instr.sectorEnd (List.replicate 257 0) none).wf = false := by decide +kernel

/-! ### Words of the spec -/

/-- Section 2.7's worked example. -/
theorem test_notice_words : [(⟨.drive, 1, 0, 2, 0⟩ : Entry), ⟨.completion, 3, 17, 14, 0⟩, ⟨.peer, 1, 0, 1, 0⟩,
    ⟨.completion, 7, 63, 22, 0⟩].map Entry.word = [0x8802, 0x1A2E, 0x4801, 0x3FF6] := by decide

/-- R82's table at the ends of its rows. -/
theorem test_seek_estimates : [0, 1, 25, 26, 375, 376, 399].map seekEstimate = [0, 4, 4, 5, 18, 19, 19] := by decide

/-- R83's example: S = 5 and C = 120, reads of the sectors 9, 6 and 5. -/
theorem test_access_costs : [9, 6, 5].map (fun k => (slotOf .waiting .A (oneSector 0) (120 * 32 + k) 1).accessCost 120 5) =
    [3, 0, 15] := by decide +kernel

/-! ### One small step for each command -/

/-- R165, R157, R156: up to speed and closed at part reset makes RECALIBRATING with the recalibrate pulse. -/
theorem test_PART_RESET : after (.partReset 32 64 false true ⟨⟨true, true, false, false, false, false, true⟩, []⟩) base
    (fun t => (t.drv.state, t.out, (t.tap.get .A).base, t.live .A, t.live .B, t.clk)) =
      some (.recalibrating, [.recalibrate], 1024, true, false, ⟨0, .timer⟩) := by decide +kernel

/-- R29, R46: while a part reset is in progress side A's read ends and its word is returned, its write of the level cell
is not examined, and side B's cycle in progress goes on. -/
theorem test_PART_RESET_cycles : after (.partReset 32 64 false false
      ⟨.low, [.ended .A 0x1234, .arrival .A .write 1032 7]⟩) (comp .B .none .read 0 (comp .A .noticeRead .read 0 base))
    (fun t => (t.out, (t.tap.get .A).arb, (t.tap.get .B).arb)) =
      some ([.readReturned .A 0x1234], .computer ⟨.write, 1032, 7, .none⟩, .computer ⟨.read, 0, 0, .none⟩) := by
  decide +kernel

/-- R75, R154: the side's slot is freed; the other side gets PEER code 1 at priority 1. -/
theorem test_INIT_ASSERTED : after (.initAsserted .A) (withSlot 3 (slotOf .waiting .A (oneSector 0) 5 1) base)
    (fun t => (t.live .A, (t.slot 3).state, (t.pres.get .B).queue.map Entry.word)) =
      some (false, .free, [0x4801]) := by decide +kernel

/-- R16: the five cells are owed; the arbiter, with nothing else asked for, grants the notice cell's NONE first (R34,
R155). -/
theorem test_INIT_RELEASED : after (.initReleased .A) State.reset
    (fun t => (t.live .A, (t.tap.get .A).owed, (t.tap.get .A).arb)) =
      some (true, ⟨true, true, true, true, true⟩, .part ⟨.notice none false, .write, 9, 0xFFFF, false⟩) := by decide +kernel

/-- R31: a write at page offset 8 is the level cell's, and the free arbiter grants it. -/
theorem test_COMPUTER_CYCLE_ARRIVAL : after (.computerCycleArrival .A .write 1032 3) base (fun t => (t.tap.get .A).arb) =
    some (.computer ⟨.write, 1032, 3, .level⟩) := by decide +kernel

/-- R40: in REPORT mode a write to a fenced word passes and sets TOUCHED. -/
theorem test_fence_touch : after (.computerCycleArrival .A .write 4351 0) (active .rotating (oneSector 0) 1)
    (fun t => (t.slot 0).touchedFlag) = some true ∧
    after (.computerCycleArrival .A .write 4352 0) (active .rotating (oneSector 0) 1) (fun t => (t.slot 0).touchedFlag) =
      some false := by decide +kernel

/-- R41: at the hold timer's end the held cycle goes on and TOUCHED is set. -/
theorem test_HOLD_TIMER_EXPIRY : after (.holdTimerExpiry .A)
    (let s := active .rotating (oneSector 0) 1
     { s with tap := s.tap.set .A { s.tap.get .A with held := some ⟨.read, 4096, 0, .none⟩ } })
    (fun t => ((t.tap.get .A).held, (t.slot 0).touchedFlag)) = some (none, true) := by decide +kernel

/-- R29: a read's word goes to the computer as the memory returned it. -/
theorem test_COMPUTER_CYCLE_END : after (.computerCycleEnd .A 0x1234 7) (comp .A .none .read 0 base)
    (fun t => (t.out, (t.tap.get .A).arb)) = some ([.readReturned .A 0x1234], .free) := by decide +kernel

/-- R16: a computer's write of a part-owned cell is not undone. -/
theorem test_UNWATCHED_CELL_WRITE : after (.unwatchedCellWrite .A 0) (comp .A .partOwned .write 7 base)
    (fun t => (t.tap.get .A, t.out)) = some (base.tap.get .A, []) := by decide +kernel

/-- R48: a nonzero write to a pending cell replaces its value in its place, and counts an overrun. -/
theorem test_SUBMISSION_CELL_WRITE : after (.submissionCellWrite .A 0) (comp .A (.submission 2) .write 77
    { base with intake := base.intake.set .A ⟨[(2, 5), (0, 6)], 14, none, none, [], none⟩ })
    (fun t => ((t.intake.get .A).list, (t.intake.get .A).overrun)) = some ([(2, 77), (0, 6)], 15) := by decide +kernel

/-- R48: a write of 0 withdraws. -/
theorem test_withdrawal : after (.submissionCellWrite .A 0) (comp .A (.submission 2) .write 0
    { base with intake := base.intake.set .A ⟨[(2, 5), (0, 6)], 15, none, none, [], none⟩ })
    (fun t => ((t.intake.get .A).list, (t.intake.get .A).overrun)) = some ([(0, 6)], 15) := by decide +kernel

/-- A presenter with the level `l` and one queued PEER notice of priority 3. -/
def quiet (l : Nat) : Presenter := ⟨[⟨.peer, 3, 0, 0, 0⟩], none, none, none, l, [], [], 0, 1⟩

/-- A presenter that shows that PEER notice, with level 5 and the saved levels `st`. -/
def showing (st : List Nat) : Presenter :=
  ⟨[], some ⟨.peer, 3, 0, 0, 0⟩, some ⟨.peer, 3, 0, 0, 0⟩, none, 5, st, [], 0, 1⟩

/-- R151: 9 is taken as 8, and the notice is presented. -/
theorem test_LEVEL_CELL_WRITE : after (.levelCellWrite .A 0)
    (comp .A .level .write 9 { base with pres := base.pres.set .A (quiet 3) })
    (fun t => ((t.pres.get .A).level, (t.pres.get .A).presented.map Entry.word)) = some (8, some 0x5800) := by decide +kernel

/-- R148: at level 3 a notice of priority 3 is not presented. -/
theorem test_level_not_below : after (.levelCellWrite .A 0)
    (comp .A .level .write 3 { base with pres := base.pres.set .A (quiet 0) })
    (fun t => ((t.pres.get .A).level, (t.pres.get .A).presented)) = some (3, none) := by decide +kernel

/-- R149: the read accepts the notice; L is pushed and becomes 3. -/
theorem test_NOTICE_CELL_READ : after (.noticeCellRead .A 0x5800 0)
    (comp .A .noticeRead .read 0 { base with pres := base.pres.set .A (showing [7]) })
    (fun t => ((t.pres.get .A).level, (t.pres.get .A).stack, (t.pres.get .A).presented, (t.pres.get .A).shown, t.out)) =
      some (3, [5, 7], none, none, [.readReturned .A 0x5800]) := by decide +kernel

/-- R149: another word accepts nothing. -/
theorem test_notice_not_shown : after (.noticeCellRead .A 0x5801 0)
    (comp .A .noticeRead .read 0 { base with pres := base.pres.set .A (showing [7]) })
    (fun t => (t.pres.get .A)) = some (showing [7]) := by decide +kernel

/-- R150: the top saved level becomes L, and is owed to the level cell. -/
theorem test_END_OF_NOTICE : after (.endOfNotice .A 0)
    (comp .A .noticeWrite .write 0 { base with pres := base.pres.set .A ⟨[], none, none, none, 3, [8, 2], [], 0, 1⟩ })
    (fun t => ((t.pres.get .A).level, (t.pres.get .A).stack, (t.tap.get .A).arb)) =
      some (8, [2], .part ⟨.level, .write, 1032, 8, false⟩) := by decide +kernel

/-- R152: A's write of 2 raises PEER at priority 2 on side B, and B's level 8 presents it. -/
theorem test_CROSS_CELL_WRITE : after (.crossCellWrite .A 0)
    (comp .A .cross .write 2 { base with pres := base.pres.set .B ⟨[], none, none, none, 8, [], [], 0, 0⟩ })
    (fun t => ((t.pres.get .B).presented.map Entry.word, (t.pres.get .A).presented)) = some (some 0x5000, none) := by
  decide +kernel

/-- R145: a write of 6 leaves the entry at its priority 3, and the shown word, which an earlier write of 5 showed, keeps
its standing; a change of the code ends it. -/
theorem test_shown_through_merges :
    let p : Presenter := ⟨[⟨.peer, 3, 0, 0, 1⟩], none, some ⟨.peer, 5, 0, 0, 1⟩, none, 0, [], [], 0, 2⟩
    (p.join .peer 6 0 0).shown = some ⟨.peer, 5, 0, 0, 1⟩ ∧ (p.join .peer 6 0 1).shown = none ∧
      (p.join .peer 2 0 0).shown = none := by decide

/-- R159: 3 is taken as 2. -/
theorem test_IDLE_CELL_WRITE : after (.idleCellWrite .B 0) (comp .B .idle .write 3 base)
    (fun t => (t.drv.idle.get .A, t.drv.idle.get .B)) = some (0, 2) := by decide +kernel

/-- R96: the value is captured whole and the cell marked. -/
theorem test_PROPOSAL_CELL_WRITE : after (.proposalCellWrite .A 0) (comp .A (.proposal true) .write 0xFFFF base)
    (fun t => t.map.proposal.get .A) = some ⟨none, some 0xFFFF, false, true, false⟩ := by decide +kernel

/-- `base` with side A's proposal of 100 and 240, both cells marked. -/
def proposed : State :=
  { base with map := { base.map with proposal := base.map.proposal.set .A ⟨some 100, some 240, true, true, false⟩ } }

/-- R97: the first seal. -/
theorem test_SEAL_CELL_WRITE : after (.sealCellWrite .A 0) (comp .A .seal .write 0 proposed)
    (fun t => (t.map.protocol, t.map.span, t.map.proposal.get .A)) =
      some (.proposed .A, some ⟨3940, false⟩, ⟨some 100, some 240, false, false, true⟩) := by decide +kernel

/-- R98, R100: the second seal of the same map commits at once with no slot on a changing cylinder. -/
theorem test_second_seal : after (.sealCellWrite .B 0) (comp .B .seal .write 0
    { base with map := { base.map with
        protocol := .proposed .A, span := some ⟨3940, false⟩
        proposal := ⟨⟨some 100, some 240, false, false, true⟩, ⟨some 100, some 240, true, true, false⟩⟩ } })
    (fun t => (t.map.p1, t.map.p2, t.map.protocol, t.map.last)) = some (100, 240, .idle, ⟨1, 1⟩) := by decide +kernel

/-- R99: EXPIRED goes to the proposer alone. -/
theorem test_PROPOSAL_EXPIRY : after .proposalExpiry
    { base with map := { base.map with
        protocol := .proposed .A, span := some ⟨100, true⟩
        proposal := base.map.proposal.set .A ⟨some 100, some 240, false, false, true⟩ } }
    (fun t => (t.map.protocol, t.map.last, (t.pres.get .A).queue.map Entry.word, (t.pres.get .B).queue)) =
      some (.idle, ⟨3, 0⟩, [0xD003], []) := by decide +kernel

/-- R50: the lowest FREE slot is claimed, and the cell's value is not taken yet. -/
theorem test_TAKE : after (.take .A)
    { withSlot 0 (slotOf .waiting .B (oneSector 0) 5 1) base with
      intake := base.intake.set .A ⟨[(3, 500)], 0, none, none, [], none⟩, drv := { base.drv with state := .faulted } }
    (fun t => ((t.slot 1).state, t.intake.get .A)) = some (.intake, ⟨[(3, 500)], 0, some (1, 3), none, [], none⟩) := by
  decide +kernel

/-- R50, R51: the claim returns for its head, and the clearing write is granted; with the head withdrawn meanwhile, the
claimed slot is FREE again and no fetch begins. -/
theorem test_claim_returns : ∀ e ∈ [([(3, 500)], SlotState.intake, (500 : Word), [], some (⟨0, some 3⟩ : Fetch)),
    ([(2, 500)], .free, 0, [(2, 500)], none)], after (.take .A)
      { withSlot 0 { Slot.empty 1 with state := .intake } base with
        intake := base.intake.set .A ⟨e.1, 0, some (0, 3), none, [], none⟩ }
      (fun t => ((t.slot 0).state, (t.slot 0).q, t.intake.get .A)) =
        some (e.2.1, e.2.2.1, ⟨e.2.2.2.1, 0, none, e.2.2.2.2, [], none⟩) := by decide +kernel

/-- R49: a waiting chain fetch begins its reads. -/
theorem test_CHAIN_FETCH_START : after (.chainFetchStart .A)
    { withSlot 2 { slotOf .intake .A [] 0 0 with q := 500 } base with
      intake := base.intake.set .A ⟨[], 0, none, none, [2], none⟩ }
    (fun t => ((t.intake.get .A).fetch, (t.tap.get .A).arb)) =
      some (some ⟨2, none⟩, .part ⟨.fetch 0, .read, 2000, 0, false⟩) := by decide +kernel

/-- R51: a clearing write that timed out does not stop the take. -/
theorem test_CLEARING_WRITE_END : after (.clearingWriteEnd .A false 0) (part .A (.clearing 3)
    { withSlot 2 { slotOf .intake .A [] 0 0 with q := 500 } base with
      intake := base.intake.set .A ⟨[], 0, none, some ⟨2, some 3⟩, [], none⟩ })
    (fun t => (t.tap.get .A).arb) = some (.part ⟨.fetch 0, .read, 2000, 0, false⟩) := by decide +kernel

/-- `base` in the twelfth read of a record of kind and class `w0`, one sector of F at cylinder 0, in slot 2. -/
def fetching (w0 : Word) (s : State) : State := part .A (.fetch 11)
  { withSlot 2 { Slot.empty 1 with state := .intake, q := 500, words := (oneSector w0).take 11 } s with
    intake := s.intake.set .A ⟨[], 0, none, some ⟨2, none⟩, [], none⟩ }

/-- R54, R58: a sound READ takes the next sequence number and moves the cursor past its extent. -/
theorem test_RECORD_FETCH_READ_END : after (.recordFetchReadEnd .A 0 0) (fetching 0x0400 base)
    (fun t => ((t.slot 2).state, (t.slot 2).seq, (t.intake.get .A).cursor)) =
      some (.waiting, some 1, some (.F, 6)) := by decide +kernel

/-- R25 step 1: kinds 10 to 15 are refused with BAD_KIND. -/
theorem test_bad_kind : after (.recordFetchReadEnd .A 0 0) (fetching 0xA000 base)
    (fun t => ((t.slot 2).state, (t.slot 2).status, t.counter)) = some (.posting, some .badKind, 0) := by decide +kernel

/-- R88: the slot becomes ACTIVE, the slot passed over counts one more. -/
theorem test_SELECTION_TAKEN : after .selectionTaken
    { withSlot 1 (slotOf .waiting .B (oneSector 0) 5 1) (withSlot 0 (slotOf .waiting .A (oneSector 0) 5 1) base) with
      sel := some ⟨0, 1, [(1, 1, 0)]⟩ }
    (fun t => ((t.slot 0).state, (t.slot 1).passCount, t.sel, t.eng.phase)) = some (.active, 1, none, .rotating) := by
  decide +kernel

/-- R88: a slot that was counted, left WAITING, and waits again in the same tenure after a chain fetch is passed over. -/
theorem test_counted_in_its_stay : after .selectionTaken
    { withSlot 1 { slotOf .waiting .B (oneSector 0) 5 1 with depth := 1 }
        (withSlot 0 (slotOf .waiting .A (oneSector 0) 5 1) base) with
      sel := some ⟨0, 1, [(1, 1, 0)]⟩ }
    (fun t => ((t.slot 0).state, (t.slot 1).passCount)) = some (.active, 0) := by decide +kernel

/-- R70: drop-if-late in WAITING expires. -/
theorem test_DEADLINE_EVENT : after (.deadlineEvent 0)
    (withSlot 0 { slotOf .waiting .A (oneSector 0x0100) 5 1 with deadline := some 100, span := some ⟨100, true⟩ } base)
    (fun t => ((t.slot 0).state, (t.slot 0).status, (t.slot 0).passed, (t.slot 0).resultWord)) =
      some (.posting, some .expired, true, 0x0041) := by decide +kernel

/-- `base` with slot 0 in POSTING with OK and the posting unit at step `st`. -/
def posting (st : Option PostStep) (k : Nat) (r : List Word) : State :=
  { withSlot 0 { slotOf .posting .A r 5 1 with status := some .ok, stop := 0x26 } base with post := ⟨[(0, 1)], st, k, false⟩ }

/-- R136: word 13 is the first to be written, at 4 × 1000 + 13. -/
theorem test_POSTING_START : after .postingStart (posting none 0 (oneSector 0)) (fun t => (t.tap.get .A).arb) =
    some (.part ⟨.result 0, .write, 4013, 0, false⟩) := by decide +kernel

/-- R136, R135: with no signal address the third word is followed by the notice and the slot's release. -/
theorem test_RESULT_WORD_WRITE_END : after (.resultWordWriteEnd .A 0)
    (part .A (.result 2) (posting (some .words) 2 (oneSector 0)))
    (fun t => ((t.slot 0).state, (t.pres.get .A).queue.map Entry.word, t.post.queue)) = some (.free, [0], []) := by
  decide +kernel

/-- R138: width 3 at offset 2 with the value 5 in a word of ones. -/
theorem test_SIGNAL_PAIR_READ_END : after (.signalPairReadEnd .A 0xFFFF 0)
    (part .A .pairRead (posting (some .signal) 3 [0, 0, 37, 0, 4096, 256, 0, 0, 0x32, 6000, 5, 0]))
    (fun t => (t.tap.get .A).arb) = some (.part ⟨.pairWrite, .write, 0, 0xFFF7, false⟩) := by decide +kernel

/-- R140: after a timeout the notice carries MEMORY_TIMEOUT. -/
theorem test_SIGNAL_PAIR_END : after (.signalPairEnd .A false 0)
    (part .A .pairWrite (posting (some .signal) 3 (oneSector 0)))
    (fun t => ((t.slot 0).state, (t.pres.get .A).queue.map Entry.code)) = some (.free, [22]) := by decide +kernel

/-- R53: a record read that timed out gives the record-less result MEMORY_TIMEOUT. -/
theorem test_MEMORY_TIMEOUT : after (.memoryTimeout .A 0) (fetching 0 base)
    (fun t => ((t.slot 2).state, (t.slot 2).recordless, (t.slot 2).status)) = some (.posting, true, some .memoryTimeout) := by
  decide +kernel

/-- R147: the answered word is shown, and the line is raised. -/
theorem test_NOTICE_CELL_WRITE_END : after (.noticeCellWriteEnd .A true 0)
    (part .A (.notice (some ⟨.peer, 3, 0, 0, 0⟩) false)
      { base with pres := base.pres.set .A ⟨[], some ⟨.peer, 3, 0, 0, 0⟩, none, some ⟨.peer, 3, 0, 0, 0⟩, 5, [], [], 0, 1⟩ })
    (fun t => (t.pres.get .A).line) = some true := by decide +kernel

/-- R147: the level cell's write is not made again. -/
theorem test_LEVEL_CELL_WRITE_END : after (.levelCellWriteEnd .A false 0) (part .A .level base)
    (fun t => ((t.tap.get .A).arb, (t.pres.get .A).owed)) = some (.free, []) := by decide +kernel

/-- R16: a status write that timed out is not made again. -/
theorem test_STATUS_WRITE_END : after (.statusWriteEnd .A false 0) (part .A (.status .drive) base)
    (fun t => ((t.tap.get .A).arb, (t.tap.get .A).owed)) = some (.free, ⟨false, false, false, false, false⟩) := by
  decide +kernel

/-- R38, R120: the first word of a write's first sector. -/
theorem test_DATA_CYCLE_END : after (.dataCycleEnd .A 0xABCD 0)
    (part .A (.data 0) (engWith (fun e => { e with buf0 := ⟨.filling, 0, 0, []⟩ }) (active .rotating (oneSector 0x1000) 1)))
    (fun t => (t.eng.buf0.words, (t.tap.get .A).fence.map Fence.index, (t.tap.get .A).arb)) =
      some ([0xABCD], some 1, .part ⟨.data 1, .read, 4097, 0, false⟩) := by decide +kernel

/-- R10, R12: the count wraps, and a span that ends at 0 has been reached. -/
theorem test_SLOT_TIMER_TICK : after .slotTimerTick
    { base with clk := ⟨65535, .timer⟩, map := { base.map with protocol := .proposed .A, span := some ⟨0, false⟩ } }
    (fun t => (t.clk.count, t.map.span)) = some (0, some ⟨0, true⟩) := by decide +kernel

/-- R117: the target's mark opens its sector under read gate. -/
theorem test_SECTOR_MARK : after (.sectorMark 5) (active .rotating (oneSector 0) 1)
    (fun t => (t.eng.phase, t.drv.readGate, t.drv.mark, t.clk.count)) = some (.inSector, true, 5, 101) := by decide +kernel

/-- R11: index while up to speed makes the source MARKS. -/
theorem test_INDEX_RISE : after .indexRise { base with clk := ⟨12, .timer⟩ } (fun t => t.clk) = some ⟨12, .marks⟩ := by
  decide +kernel

/-- The engine in the sector at cylinder 0, head 2, sector 5. -/
def inSector (ok : Bool) (r : List Word) (n : Nat) : State :=
  engWith (fun e => { e with sector := some (.F, 5), headerOk := ok }) (active .inSector r n)

/-- R5: the header 8000h + 2 × 16 + 5 and its complement are sound and match. -/
theorem test_HEADER_JUDGED : after (.headerJudged 0x8025 0x7FDA) (inSector false (oneSector 0) 1)
    (fun t => (t.eng.headerOk, t.out)) = some (true, []) := by decide +kernel

/-- R124: a header with head 3 is a mismatch, and the first recalibrates. -/
theorem test_header_mismatch : after (.headerJudged 0x8035 0x7FCA) (inSector false (oneSector 0) 1)
    (fun t => (t.eng.phase, t.eng.mismatches, t.out)) = some (.recalWait, 1, [.recalibrate]) := by decide +kernel

/-- R128: in FINISHING a sound header of a write that is held off leaves the engine in its sector. -/
theorem test_finishing_held_off : after (.headerJudged 0x8025 0x7FDA)
    (engWith (fun e => { e with work := none, phase := .finishing, heldOff := true }) (inSector false (oneSector 0x1000) 1))
    (fun t => (t.eng.phase, t.eng.headerOk, t.drv.writeGate)) = some (.finishing, true, false) := by decide +kernel

/-- R121: a disk read takes the data into its EMPTY buffer. -/
theorem test_SECTOR_DATA_START : after .sectorDataStart (inSector true (oneSector 0) 1)
    (fun t => t.eng.buf0.state) = some .receiving := by decide +kernel

/-- R6, R122: fewer than 256 words is a data check failure, which is read again. -/
theorem test_SECTOR_END : after (.sectorEnd [] none)
    (engWith (fun e => { e with buf0 := ⟨.receiving, 0, 0, []⟩ }) (inSector true (oneSector 0) 1))
    (fun t => (t.eng.phase, t.eng.rereads, t.slot 0)) =
      some (.rotating, 1, slotOf .active .A (oneSector 0) 5 1) := by decide +kernel

/-- R156, R157: C becomes 0 and, with the heads loaded, READY is reached. -/
theorem test_ON_CYLINDER_RISE : after .onCylinderRise
    (drvWith (fun d => { d with
      state := .recalibrating, cyl := 7, move := some .recalibrate, span := some ⟨356, false⟩
      inp := ⟨true, true, true, false, false, false, true⟩ }) base)
    (fun t => (t.drv.state, t.drv.cyl, t.drv.span)) = some (.ready, 0, none) := by decide +kernel

/-- R158: a loss of on cylinder that the part did not cause. -/
theorem test_ON_CYLINDER_FALL : after .onCylinderFall base (fun t => (t.drv.state, t.out, t.drv.span)) =
    some (.recalibrating, [.recalibrate], some ⟨356, false⟩) := by decide +kernel

/-- R114: the seek's first timeout recalibrates. -/
theorem test_SEEK_SPAN_END : after .seekSpanEnd
    (engWith (fun e => { e with span := some ⟨100, true⟩, moveTo := 9 }) (active .seeking (oneSector 0) 1))
    (fun t => (t.eng.phase, t.out, t.eng.span)) = some (.recalWait, [.recalibrate], some ⟨356, false⟩) := by decide +kernel

/-- R114: the recalibrate's timeout is a fault with cause 2, which ends the request. -/
theorem test_ENGINE_RECAL_SPAN_END : after .engineRecalSpanEnd
    (engWith (fun e => { e with span := some ⟨100, true⟩ }) (active .recalWait (oneSector 0) 1))
    (fun t => (t.drv.state, t.drv.cause, (t.slot 0).status)) = some (.faulted, 2, some .driveFault) := by decide +kernel

/-- R115: an abandoned seek that never ends is a fault with cause 1. -/
theorem test_ABANDONED_MOVEMENT_SPAN_END : after .abandonedMovementSpanEnd
    (engWith (fun e => { e with abandoned := some (.seek 9, ⟨100, true⟩) }) base)
    (fun t => (t.drv.state, t.drv.cause)) = some (.faulted, 1) := by decide +kernel

/-- R164, R11: OFFLINE, with no notice, and the clock on TIMER. -/
theorem test_POWER_PRESENT_FALL : after .powerPresentFall base
    (fun t => (t.drv.state, t.clk.source, (t.pres.get .A).queue)) = some (.offline, .timer, []) := by decide +kernel

/-- R164, R157: STOPPED, which the idle target 0 leaves at once. -/
theorem test_POWER_PRESENT_RISE : after .powerPresentRise
    (drvWith (fun d => { d with state := .offline, inp := ⟨false, false, false, false, false, false, true⟩ }) base)
    (fun t => (t.drv.state, t.out)) = some (.spinningUp, [.spindleStart]) := by decide +kernel

/-- R157: the spin-up span is cancelled and the recalibrate span starts. -/
theorem test_UP_TO_SPEED_RISE : after .upToSpeedRise
    (drvWith (fun d => { d with
      state := .spinningUp, span := some ⟨5, false⟩, inp := ⟨true, false, false, false, false, false, true⟩ }) base)
    (fun t => (t.drv.state, t.out, t.drv.span)) = some (.recalibrating, [.recalibrate], some ⟨356, false⟩) := by decide +kernel

/-- R158: with a new span of 25600 slots. -/
theorem test_UP_TO_SPEED_FALL : after .upToSpeedFall base (fun t => (t.drv.state, t.out, t.drv.span)) =
    some (.spinningUp, [.spindleStart], some ⟨25700, false⟩) := by decide +kernel

/-- R157, R162: READY after a recovery gives a DRIVE notice with code 3. -/
theorem test_HEADS_LOADED_RISE : after .headsLoadedRise
    (drvWith (fun d => { d with
      state := .recalibrating, homed := true, recovery := true, inp := ⟨true, true, false, true, false, false, true⟩ }) base)
    (fun t => (t.drv.state, (t.pres.get .A).queue.map Entry.word)) = some (.ready, [0x8803]) := by decide +kernel

/-- R158. -/
theorem test_HEADS_LOADED_FALL : after .headsLoadedFall base (fun t => (t.drv.state, t.out)) =
    some (.recalibrating, [.recalibrate]) := by decide +kernel

/-- R17: the drive status cell is owed to both sides, and reads 4800h with cause and generation 0. -/
theorem test_WRITE_PROTECT_CHANGE : after (.writeProtectChange true) base
    (fun t => (driveCell t.drv, (t.tap.get .B).arb)) =
      some (0x4800, .part ⟨.status .drive, .write, 2063, 0x4800, false⟩) := by decide +kernel

/-- R161: FAULTED with cause 4 and a DRIVE notice with code 1. -/
theorem test_FAULT_RISE : after .faultRise base
    (fun t => (t.drv.state, t.drv.cause, (t.pres.get .B).queue.map Entry.word)) = some (.faulted, 4, [0x8801]) := by
  decide +kernel

/-- R162: the recovery acts when the fault input falls. -/
theorem test_FAULT_FALL : after .faultFall
    (drvWith (fun d => { d with
      state := .faulted, cause := 4, recovery := true, span := some ⟨300, false⟩
      inp := ⟨true, true, true, true, false, true, true⟩ }) base)
    (fun t => (t.drv.state, t.drv.recovery, t.out)) = some (.recalibrating, true, [.recalibrate]) := by decide +kernel

/-- R162: FAULTED is entered again. -/
theorem test_FAULT_RESET_SPAN_END : after .faultResetSpanEnd
    (drvWith (fun d => { d with state := .faulted, cause := 1, recovery := true, span := some ⟨100, true⟩ }) base)
    (fun t => (t.drv.state, t.drv.cause, t.drv.recovery)) = some (.faulted, 4, false) := by decide +kernel

/-- R163: OPEN, a new generation, and a DRIVE notice with code 2. -/
theorem test_LOAD_SWITCH_PRESSED : after .loadSwitchPressed (drvWith (fun d => { d with generation := 255 }) base)
    (fun t => (t.drv.state, t.drv.generation, (t.pres.get .A).queue.map Entry.word)) = some (.opened, 0, [0x8802]) := by
  decide +kernel

/-- R163, R76: a WAITING request on platter C ends with MEDIUM_CHANGED. -/
theorem test_CARTRIDGE_CLOSED_FALL : after .cartridgeClosedFall
    (withSlot 0 { slotOf .waiting .A (oneSector 0) 5 1 with platter := some .C } base)
    (fun t => (t.drv.state, (t.slot 0).status)) = some (.opened, some .mediumChanged) := by decide +kernel

/-- R163: with the spindle stopped OPEN is left for STOPPED; both idle levels are 2, so it stays there. -/
theorem test_CARTRIDGE_CLOSED_RISE : after .cartridgeClosedRise
    (drvWith (fun d => { d with
      state := .opened, idle := .both 2, inp := ⟨true, false, false, false, false, false, false⟩ }) base)
    (fun t => t.drv.state) = some .stopped := by decide +kernel

/-- R163: the sequence goes on when the ACTIVE slot has left. -/
theorem test_OPEN_ENTRY_RESUME : after .openEntryResume
    (drvWith (fun d => { d with state := .opened, openPending := true }) base)
    (fun t => (t.drv.generation, t.drv.openPending)) = some (1, false) := by decide +kernel

/-- R157: cause 3. -/
theorem test_SPIN_UP_TIMEOUT : after .spinUpTimeout
    (drvWith (fun d => { d with state := .spinningUp, span := some ⟨100, true⟩ }) base)
    (fun t => (t.drv.state, t.drv.cause)) = some (.faulted, 3) := by decide +kernel

/-- R157: cause 2. -/
theorem test_RECALIBRATE_TIMEOUT : after .recalibrateTimeout
    (drvWith (fun d => { d with state := .recalibrating, span := some ⟨100, true⟩ }) base)
    (fun t => (t.drv.state, t.drv.cause)) = some (.faulted, 2) := by decide +kernel

/-- R160: head retract and PARKED; the target 2 starts the spin-down span of 38400 slots. -/
theorem test_PARK_DELAY_END : after .parkDelayEnd
    (drvWith (fun d => { d with span := some ⟨100, true⟩, idle := .both 2 }) base)
    (fun t => (t.drv.state, t.out, t.drv.span)) = some (.parked, [.headRetract], some ⟨38500, false⟩) := by decide +kernel

/-- R160. -/
theorem test_SPIN_DOWN_DELAY_END : after .spinDownDelayEnd
    (drvWith (fun d => { d with state := .parked, span := some ⟨100, true⟩, idle := .both 2 }) base)
    (fun t => (t.drv.state, t.out)) = some (.stopped, [.spindleStop]) := by decide +kernel

/-! ### Witnesses: states and operands that meet the hypotheses of the statements

Each theorem names its statement; a statement with several clauses has a state for each, in the clauses' order, at the ends
of their ranges. -/

/-- The step answers a next state. -/
def steps (s : State) : Bool :=
  match step s with
  | .next _ => true
  | .fault _ | .refused _ => false

theorem next_of_steps {s : State} (h : steps s = true) : ∃ t, step s = .next t := by
  unfold steps at h
  split at h
  · exact ⟨_, ‹_›⟩
  · cases h
  · cases h

theorem witness_StepRunsFrontCommand :
    ({ base with pending := [.take .A, .selectionTaken] } : State).pending = .take .A :: [.selectionTaken] ∧
      base.pending = [] := ⟨rfl, rfl⟩

theorem witness_CommandsLeaveTheQueue :
    ∃ t, exec (.levelCellWrite .A 0) (comp .A .level .write 9 { base with pending := [.take .A] }) = .next t :=
  next_of_after (f := fun t => t.pending) (a := [.take .A]) (by decide +kernel)

/-- At a command's end: a FREE arbiter and the drive READY, PARKED with its span running, STOPPED, and a selection for the
slot that waits with none ACTIVE. -/
theorem witness_EndOfCommandFrame :
    (let u := settle base base
     (u.tap.get .A).arb = .free ∧ u.live .A = true ∧ u.drv.state = .ready ∧ u.activeSlot = none) ∧
    (let u := settle base (drvWith (fun d => { d with state := .parked, idle := .both 2 }) base)
     u.drv.state = .parked ∧ u.drv.span.isSome = true ∧ u.idleTarget = 2) ∧
    (let u := settle base (drvWith (fun d => { d with state := .stopped, idle := .both 2 }) base)
     u.drv.state = .stopped) ∧
    (let s := withSlot 4 (slotOf .waiting .A (oneSector 0) 5 1) base
     (settle s s).eligible ≠ [] ∧ (settle s s).activeSlot = none ∧ (settle s s).sel.isSome = true) := by decide +kernel

/-- COMMIT_PENDING with the last boundaries there are, and a tick waiting. -/
def committing : State :=
  { base with
    map := ⟨0, 400, .commitPending, .both .discarded, none, some (400, 400), ⟨5, 0⟩⟩
    slots := base.slots.set 0 (slotOf .posting .A (oneSector 0) 0 1), clk := ⟨65535, .timer⟩, pending := [.slotTimerTick] }

theorem witness_RegionMapLawKept : MapLaw committing.map ∧ ∃ t, step committing = .next t := by
  refine ⟨⟨by decide, by decide, ?_, by decide, ?_, ?_, ?_⟩, next_of_steps (by decide +kernel)⟩
  · rintro new ⟨⟩; decide
  · intro x; cases x <;> decide
  · exact ⟨fun h => absurd h (by decide), fun ⟨_, h⟩ => nomatch h⟩
  · rintro ⟨⟩ <;> decide

/-- Two EXCLUSIVE locks side by side on platter F. -/
def locked : State :=
  { base with
    locks := (base.locks.set 0 (some ⟨.A, .F, 0, 9, true⟩)).set 7 (some ⟨.B, .F, 10, 399, true⟩), pending := [.take .A] }

theorem witness_LockTableLawKept : LockLaw locked.locks ∧ ∃ t, step locked = .next t := by
  refine ⟨?_, next_of_steps (by decide +kernel)⟩
  have h : ∀ i : Fin 8, locked.locks[i] =
      if i = 0 then some ⟨.A, .F, 0, 9, true⟩ else if i = 7 then some ⟨.B, .F, 10, 399, true⟩ else none := by decide
  intro i j hij a b ha hb _ ho
  rw [h] at ha hb
  obtain ⟨_, h1, h2⟩ := ho
  split at ha <;> split at hb <;> simp_all
  · obtain ⟨_, rfl⟩ := hb; subst ha; simp_all
  · obtain ⟨_, rfl⟩ := ha; subst hb; simp_all

theorem witness_OneActiveSlotKept :
    OneActive { active .rotating (oneSector 0) 1 with pending := [.deadlineEvent 0] } ∧
      ∃ t, step { active .rotating (oneSector 0) 1 with pending := [.deadlineEvent 0] } = .next t :=
  ⟨by intro i j; revert i j; decide +kernel, next_of_steps (by decide +kernel)⟩

/-- Side A with 8 slots: five WAITING, one whose chain fetch waits, one fetching, and one in POSTING. -/
def packed : State :=
  { base with
    slots := Vector.ofFn (fun i => if i < 5 then slotOf .waiting .A (oneSector 0) 5 1 else
      if i < 7 then slotOf .intake .A [] 0 0 else if i = 7 then slotOf .posting .A (oneSector 0) 5 1 else Slot.empty 0)
    intake := base.intake.set .A ⟨[(7, 65535)], 0, none, some ⟨6, none⟩, [5], none⟩
    post := ⟨[(7, 1)], none, 0, false⟩, pending := [.postingStart] }

theorem witness_OneActiveSlotKept_places :
    PlacesLaw packed ∧ packed.occupied .A = 8 ∧ ∃ t, step packed = .next t := by
  refine ⟨⟨by intro x; cases x <;> decide +kernel, ?_, by decide +kernel, by decide +kernel⟩, by decide +kernel,
    next_of_steps (by decide +kernel)⟩
  intro x; cases x <;> exact ⟨by decide +kernel, by decide +kernel⟩

/-- A presenter that shows its most favoured notice at level 8 with 8 saved levels, and a COMPLETION queued. -/
def busy : Presenter :=
  ⟨[⟨.completion, 7, 63, 22, 1⟩], some ⟨.peer, 0, 0, 0, 0⟩, some ⟨.peer, 0, 0, 0, 0⟩, none, 8, [8, 0, 0, 0, 0, 0, 0, 0],
    [.level 8, .notice none true], 15, 2⟩

/-- Both presenters busy. -/
def presenting : State := { base with pres := .both busy, pending := [.selectionTaken] }

theorem witness_PresenterLawKept : PresentersLaw presenting ∧ ∃ t, step presenting = .next t := by
  have h : PresenterLaw busy := by
    refine ⟨by decide, by decide, by decide, by decide, by decide, by unfold queueOrder; decide,
      by unfold kindsApart; decide, by decide, ?_, ?_, by rintro _ ⟨⟩, ?_, by decide, by decide, by decide⟩
    · rintro _ ⟨⟩; decide
    · rintro _ ⟨⟩; decide
    · intro w hw e he
      simp only [busy, List.mem_cons, List.not_mem_nil, or_false] at hw
      rcases hw with rfl | rfl <;> cases he
  refine ⟨fun x => ⟨by cases x <;> exact h, fun e he => by cases x <;> cases he⟩, next_of_steps (by decide +kernel)⟩

/-- FAULTED by the drive's own fault line, with an idle write held back. -/
def faulted : State :=
  drvWith (fun d => { d with
    state := .faulted, cause := 4, idle := .both 2, headSel := 3, deferred := [.idleWrite .A 2] })
    { base with pending := [.faultFall] }

theorem witness_DriveLawKept : DriveLaw faulted.drv ∧ ∃ t, step faulted = .next t := by
  refine ⟨⟨by decide, by decide, by rintro ⟨⟩ <;> decide, ?_, by decide⟩, next_of_steps (by decide +kernel)⟩
  intro x l h
  simp only [faulted, drvWith, List.mem_cons, List.not_mem_nil, or_false, DriveEvent.idleWrite.injEq] at h
  omega

/-- Both intake units with two cells pending and a cursor at the last sector, and a slot with every count at its end. -/
def counted : State :=
  { withSlot 0 { slotOf .waiting .A (oneSector 0) 5 1 with passCount := 15, rereads := 15, depth := 64 } base with
    intake := .both ⟨[(7, 65535), (0, 1)], 15, none, none, [], some (.F, 12799)⟩, pending := [.selectionTaken] }

theorem witness_IntakeAndSlotCountsKept : (∃ t, step counted = .next t) ∧
    (∀ x, IntakeLaw (counted.intake.get x)) ∧ ∀ i, SlotLaw (counted.slot i) := by
  refine ⟨next_of_steps (by decide +kernel), fun x => ?_, fun i => ?_⟩
  · have h : IntakeLaw ⟨[(7, 65535), (0, 1)], 15, none, none, [], some (.F, 12799)⟩ :=
      ⟨by decide, by simp, by decide, by rintro _ ⟨⟩; decide⟩
    cases x <;> exact h
  · revert i
    have h : ∀ i, (counted.slot i).passCount ≤ 15 ∧ (counted.slot i).rereads ≤ 15 ∧ (counted.slot i).depth ≤ 64 := by
      decide +kernel
    exact fun i => ⟨(h i).1, (h i).2.1, (h i).2.2⟩

/-- `base` with every span of the drive, the engine and slot 11 running, and not yet reached at its last count. -/
def unreached : State :=
  let sp : Span := ⟨101, false⟩
  withSlot 11 { slotOf .waiting .A (oneSector 0) 5 1 with span := some sp }
    { base with
      drv := { base.drv with span := some sp }
      eng := { base.eng with phase := .seeking, span := some sp, abandoned := some (.recalibrate, sp) }
      map := { base.map with protocol := .proposed .A, span := some sp } }

theorem not_reached : Unreached (some ⟨101, false⟩) := fun _ h => nomatch h

theorem witness_NonEventsHaveNoEffect :
    (∀ c ∈ [Instr.initReleased .A, .holdTimerExpiry .A, .computerCycleEnd .A 0 0, .unwatchedCellWrite .A 0,
        .submissionCellWrite .A 0, .levelCellWrite .A 0, .noticeCellRead .A 0 0, .endOfNotice .A 0, .crossCellWrite .A 0,
        .idleCellWrite .A 0, .proposalCellWrite .A 0, .sealCellWrite .A 0, .clearingWriteEnd .A true 0,
        .recordFetchReadEnd .A 0 0, .resultWordWriteEnd .A 0, .signalPairReadEnd .A 0 0, .signalPairEnd .A true 0,
        .memoryTimeout .A 0, .noticeCellWriteEnd .A true 0, .levelCellWriteEnd .A true 0, .statusWriteEnd .A true 0,
        .dataCycleEnd .A 0 0], NonEvent base c) ∧
    (∀ c ∈ [Instr.take .A, .chainFetchStart .A, .selectionTaken, .postingStart, .slotTimerTick, .indexRise,
        .onCylinderRise, .powerPresentRise, .upToSpeedRise, .headsLoadedRise, .writeProtectChange false, .faultFall,
        .cartridgeClosedRise, .openEntryResume, .faultResetSpanEnd, .spinUpTimeout, .recalibrateTimeout,
        .spinDownDelayEnd], NonEvent base c) ∧
    (∀ c ∈ [Instr.proposalExpiry, .deadlineEvent 11, .seekSpanEnd, .engineRecalSpanEnd, .abandonedMovementSpanEnd,
        .parkDelayEnd], NonEvent unreached c) ∧
    (∀ c ∈ [Instr.initAsserted .A, .indexRise, .onCylinderFall, .powerPresentFall, .upToSpeedFall, .headsLoadedFall,
        .cartridgeClosedFall], NonEvent State.reset c) ∧
    NonEvent (drvWith (fun d => { d with inp := { d.inp with fault := true } }) base) .faultRise := by
  have free : ∀ c, (base.tap.get .A).arb ≠ .computer c := free_not_computer rfl
  have freep : ∀ p, (base.tap.get .A).arb ≠ .part p := fun _ h => nomatch h
  refine ⟨?_, ?_, ?_, ?_, rfl⟩
  · intro c hc
    simp only [List.mem_cons, List.not_mem_nil, or_false] at hc
    rcases hc with rfl | rfl | rfl | rfl | rfl | rfl | rfl | rfl | rfl | rfl | rfl | rfl | rfl | rfl | rfl | rfl | rfl |
      rfl | rfl | rfl | rfl | rfl <;>
    first | exact rfl | exact fun c h => absurd h (free c) | exact fun p h => absurd h (freep p)
  · intro c hc
    simp only [List.mem_cons, List.not_mem_nil, or_false] at hc
    rcases hc with rfl | rfl | rfl | rfl | rfl | rfl | rfl | rfl | rfl | rfl | rfl | rfl | rfl | rfl | rfl | rfl | rfl |
      rfl <;>
    first | exact rfl | exact .inl rfl | exact .inr rfl | exact ⟨rfl, .inr (.inl rfl)⟩ | exact .inl (by decide)
  · intro c hc
    simp only [List.mem_cons, List.not_mem_nil, or_false] at hc
    rcases hc with rfl | rfl | rfl | rfl | rfl | rfl <;> first | exact not_reached | exact .inr not_reached
  · intro c hc
    simp only [List.mem_cons, List.not_mem_nil, or_false] at hc
    rcases hc with rfl | rfl | rfl | rfl | rfl | rfl | rfl <;> first | exact rfl | exact .inr rfl

theorem witness_PartResetClearsEveryBlock :
    passCycles (comp .A .none .read 0 base).cycles [.arrival .A .read 5 0] = none ∧
    passCycles (comp .A .none .read 0 base).cycles [.ended .A 9, .arrival .A .write 5 6, .ended .B 1] =
      some (⟨some ⟨.write, 5, 6, .none⟩, none⟩, [.readReturned .A 9]) ∧
    (comp .A .none .read 0 base).cycles.get .A = some ⟨.read, 0, 0, .none⟩ ∧ base.cycles.get .B = none ∧
    passCycles (⟨none, none⟩ : Sided (Option CompCycle)) [] = some (⟨none, none⟩, []) := by decide +kernel

theorem witness_PartResetTakesDriveState :
    passCycles base.cycles [.arrival .B .read 7 0, .ended .B 3] = some (⟨none, none⟩, [.readReturned .B 3]) ∧
    DriveInputs.low.power = false ∧
    ((⟨true, true, true, true, true, true, false⟩ : DriveInputs).power = true ∧
      (⟨true, true, true, true, true, true, false⟩ : DriveInputs).cartridgeClosed = false) ∧
    ((⟨true, true, false, false, false, true, true⟩ : DriveInputs).upToSpeed = true ∧
      (⟨true, true, false, false, false, true, true⟩ : DriveInputs).fault = true) ∧
    (⟨true, false, false, false, false, false, true⟩ : DriveInputs).upToSpeed = false := by decide

theorem witness_InitAssertedResetsSide : base.live .A = true ∧
    (∃ p, ((part .A (.data 0) base).tap.get .A).arb = .part p ∧ (part .A (.data 0) base).live .A = true) ∧
    (∃ c, ((comp .A .level .write 9 base).tap.get .A).arb = .computer c) ∧
    (∃ a d, (({ base with tap := base.tap.set .A { base.tap.get .A with arb := .pairWriteOwed 5 6 } } : State).tap.get
      .A).arb = .pairWriteOwed a d) ∧
    ((withSlot 3 (slotOf .waiting .B (oneSector 0) 5 1) base).slotOf .A 3 = false ∧
      ((withSlot 3 (slotOf .waiting .B (oneSector 0) 5 1) base).slot 3).state ≠ .lockwait) :=
  ⟨rfl, ⟨_, rfl, rfl⟩, ⟨_, rfl⟩, ⟨_, _, rfl⟩, by decide +kernel⟩

theorem witness_InitAssertedResetsSide_engine :
    (let s := active .inSector (oneSector 0x1000) 1
     s.live .A = true ∧ s.activeSlot = some 0 ∧ engineSlot s = some 0 ∧ (s.slot 0).side = .A ∧
      (s.slot 0).isKind Kind.diskWrite = true) ∧
    (let s := engWith (fun e => { e with span := some ⟨164, false⟩, moveTo := 9 }) (active .seeking (oneSector 0) 1)
     s.eng.phase = .seeking ∧ s.eng.span = some ⟨164, false⟩ ∧ (s.slot 0).isKind Kind.diskWrite = false) ∧
    (let s := engWith (fun e => { e with span := some ⟨356, false⟩, restore := some .ready })
        (active .restoring (oneSector 0x9000) 0)
     s.eng.phase = .restoring ∧ s.eng.restore = some .ready) ∧
    (base.activeSlot = none ∧ (posting (some .words) 1 (oneSector 0)).post.queue.head?.any
      (fun e => (posting (some .words) 1 (oneSector 0)).slotOf .A e.1) = true) ∧
    locked.locks[(7 : Fin 8)] = some ⟨.B, .F, 10, 399, true⟩ := by decide +kernel

theorem witness_InitAssertedResetsSide_selection :
    let s := withSlot 11 (slotOf .waiting .B (oneSector 0) 5 1) (active .rotating (oneSector 0) 1)
    s.live .A = true ∧ s.sel = none ∧ (s.slot 0).state = .active ∧ (∀ k, (s.slot k).state = .active → k = 0) ∧
      (s.slot 0).side = .A ∧ (11 : Fin 12) ∈ s.eligible ∧ (s.slot 11).side = (Side.A).other := by decide +kernel

theorem witness_InitReleasedMakesLive : State.reset.live .B = false := rfl

/-! #### The memory taps -/

theorem witness_CyclesWatchedByPlace : (base.tap.get .A).live = true ∧
    (∀ i : Fin 8, (BitVec.ofNat 18 (1024 + i)).toNat = (base.tap.get .A).base + i.val) ∧
    (∀ k ∈ [8, 9, 10, 11, 12, 13, 14, 15, 19], (BitVec.ofNat 18 (1024 + k)).toNat = (base.tap.get .A).base + k) ∧
    (1023#18).toNat < (base.tap.get .A).base ∧ (base.tap.get .A).base + 19 < (1044#18).toNat := by decide

theorem witness_FencedWordsQualify : ((active .rotating (oneSector 0) 1).tap.get .A).live = true ∧
    ∃ f, ((active .rotating (oneSector 0) 1).tap.get .A).fence = some f := ⟨by decide, _, rfl⟩

/-- A READ in WAIT mode that is ACTIVE. -/
def waitFence : State := active .rotating (oneSector 0x0200) 1

theorem witness_ArrivalsWaitAreHeldOrTouch :
    ((base.tap.get .A).comp = none ∧ (base.tap.get .A).held = none ∧ (∀ c, (base.tap.get .A).arb ≠ .computer c) ∧
      (base.tap.get .A).qualifies .write 4096 = false) ∧
    ((waitFence.tap.get .A).comp = none ∧ (waitFence.tap.get .A).held = none ∧
      (∀ c, (waitFence.tap.get .A).arb ≠ .computer c) ∧ (waitFence.tap.get .A).qualifies .read 4351 = true ∧
      ∃ f, (waitFence.tap.get .A).fence = some f ∧ f.wait = true) ∧
    (let s := active .rotating (oneSector 0) 1
     (s.tap.get .A).comp = none ∧ (s.tap.get .A).held = none ∧ (∀ c, (s.tap.get .A).arb ≠ .computer c) ∧
      (s.tap.get .A).qualifies .write 4351 = true ∧ s.activeSlot = some 0 ∧
      ∃ f, (s.tap.get .A).fence = some f ∧ f.wait = false) ∧
    (let t := { waitFence.tap.get .A with held := some ⟨.read, 4351, 0, .none⟩ }
     let s := { waitFence with tap := waitFence.tap.set .A t }
     (s.tap.get .A).held = some ⟨.read, 4351, 0, .none⟩ ∧ s.activeSlot = some 0) ∧
    (((comp .A .level .write 9 base).tap.get .A).arb = .computer ⟨.write, 0, 9, .level⟩) :=
  ⟨⟨rfl, rfl, free_not_computer rfl, by decide⟩, ⟨rfl, rfl, free_not_computer rfl, by decide, _, rfl, by decide⟩,
    ⟨rfl, rfl, free_not_computer rfl, by decide, by decide, _, rfl, by decide⟩, ⟨rfl, by decide⟩, rfl⟩

theorem witness_UnwatchedCyclesEnd :
    (((comp .A .none .read 0 base).tap.get .A).arb = .computer ⟨.read, 0, 0, .none⟩) ∧
    (((comp .A .level .write 9 State.reset).tap.get .A).arb = .computer ⟨.write, 0, 9, .level⟩ ∧
      (comp .A .level .write 9 State.reset).live .A = false) ∧
    watchedAs (comp .B .partOwned .write 7 base) .B .partOwned 7 := ⟨rfl, ⟨rfl, rfl⟩, comp_watched rfl⟩

/-- Side A's intake with cell 2 pending and, in slot 1, a take of cell 3 whose clearing write is not yet granted. -/
def taking (q : Word) : State :=
  { withSlot 1 { Slot.empty 1 with state := .intake, q := q } base with
    intake := base.intake.set .A ⟨[(2, 5)], 15, none, some ⟨1, some 3⟩, [], none⟩ }

theorem witness_SubmissionFollowsTheTable :
    watchedAs (comp .A (.submission 2) .write 0 (taking 5)) .A (.submission 2) 0 ∧
    (watchedAs (comp .A (.submission 2) .write 65535 (taking 5)) .A (.submission 2) 65535 ∧
      (2, 5) ∈ ((taking 5).intake.get .A).list) ∧
    (watchedAs (comp .A (.submission 0) .write 1 (taking 5)) .A (.submission 0) 1 ∧
      (∀ w, (0, w) ∉ ((taking 5).intake.get .A).list) ∧ ∀ k, ((taking 5).intake.get .A).fetch ≠ some ⟨k, some 0⟩) ∧
    (watchedAs (comp .A (.submission 3) .write 1 (taking 65532)) .A (.submission 3) 1 ∧
      (∀ w, (3, w) ∉ ((taking 65532).intake.get .A).list) ∧
      ((taking 65532).intake.get .A).fetch = some ⟨1, some 3⟩ ∧ ((taking 65532).slot 1).q.toNat ≤ 65532) ∧
    (watchedAs (comp .A (.submission 3) .write 1 (taking 65533)) .A (.submission 3) 1 ∧
      65532 < ((taking 65533).slot 1).q.toNat) := by
  refine ⟨comp_watched rfl, ⟨comp_watched rfl, by decide⟩, ⟨comp_watched rfl, ?_, ?_⟩,
    ⟨comp_watched rfl, ?_, rfl, by decide⟩, comp_watched rfl, by decide⟩
  · simp [taking, Sided.get, Sided.set]
  · simp [taking, Sided.get, Sided.set]
  · simp [taking, Sided.get, Sided.set]

/-! #### Notices -/

theorem witness_LevelWriteSetsLevel : watchedAs (comp .A .level .write 9 presenting) .A .level 9 ∧
    (busy.presented = some ⟨.peer, 0, 0, 0, 0⟩) ∧ (quiet 0).presented = none := ⟨comp_watched rfl, rfl, rfl⟩

/-- A presenter that presents a PEER notice of priority 3, with the queue `q`. -/
def presents (q : List Entry) : Presenter := ⟨q, some ⟨.peer, 3, 0, 0, 0⟩, none, none, 5, [], [], 0, 4⟩

theorem witness_LevelWriteSetsLevel_withdrawn :
    (let s := comp .A .level .write 3 { base with pres := base.pres.set .A (presents [⟨.drive, 7, 0, 1, 1⟩]) }
     watchedAs s .A .level 3 ∧ (s.pres.get .A).presented = some ⟨.peer, 3, 0, 0, 0⟩ ∧ min 8 (3 : Word).toNat ≤ 3 ∧
      (∀ f ∈ (s.pres.get .A).queue, min 8 (3 : Word).toNat ≤ f.prio) ∧
      (∀ f ∈ (s.pres.get .A).queue, f.kind ≠ .peer) ∧ (s.pres.get .A).queue.length < 16) ∧
    (let s := comp .A .level .write 0 { base with pres := base.pres.set .A (presents [⟨.peer, 7, 0, 1, 1⟩]) }
     watchedAs s .A .level 0 ∧
      (s.pres.get .A).queue.find? (fun f => f.kind == .peer) = some ⟨.peer, 7, 0, 1, 1⟩) :=
  ⟨⟨comp_watched rfl, rfl, by decide, by decide, by decide, by decide⟩, comp_watched rfl, rfl⟩

/-- A level of 4 keeps the presented notice of priority 3, presents the head when nothing is, and puts it in the place of a
presented notice that is not below 2 (R148, R151). -/
theorem witness_LevelWriteSetsLevel_taken :
    (∀ e, (presents [⟨.drive, 3, 0, 1, 1⟩]).presented = some e → e.prio < min 8 (4 : Word).toNat ∧
      ∀ h ∈ (presents [⟨.drive, 3, 0, 1, 1⟩]).queue.head?, e.prio ≤ h.prio) ∧
    ((quiet 0).presented = none ∧ (quiet 0).queue = ⟨.peer, 3, 0, 0, 0⟩ :: [] ∧ 3 < min 8 (4 : Word).toNat) ∧
    (let s := comp .A .level .write 2 { base with pres := base.pres.set .A (presents [⟨.drive, 1, 0, 1, 1⟩]) }
     watchedAs s .A .level 2 ∧ min 8 (2 : Word).toNat ≤ 3 ∧ 1 < min 8 (2 : Word).toNat ∧
      (∀ f ∈ (s.pres.get .A).queue, f.kind ≠ .peer) ∧ (s.pres.get .A).queue.length < 16 ∧
      after (.levelCellWrite .A 0) s (fun t => ((t.pres.get .A).presented.map Entry.word,
        (t.pres.get .A).queue.map Entry.word)) = some (some 0x8801, [0x5800])) :=
  ⟨by decide, by decide, comp_watched rfl, by decide, by decide, by decide, by decide, by decide +kernel⟩

theorem witness_NoticeReadAccepts :
    (let s := comp .A .noticeRead .read 0 { base with pres := base.pres.set .A (showing [7]) }
     s.live .A = true ∧ (s.tap.get .A).arb = .computer ⟨.read, 0, 0, .noticeRead⟩ ∧
      (s.pres.get .A).shown = some ⟨.peer, 3, 0, 0, 0⟩ ∧ (0xFFFF : Word) ≠ Entry.word ⟨.peer, 3, 0, 0, 0⟩ ∧
      (0x5800 : Word) = Entry.word ⟨.peer, 3, 0, 0, 0⟩ ∧
      ∃ f, (s.pres.get .A).presented = some f ∧ f.no = 0) ∧
    (let p : Presenter := ⟨[⟨.peer, 3, 0, 0, 0⟩], some ⟨.drive, 1, 0, 2, 1⟩, some ⟨.peer, 3, 0, 0, 0⟩, none, 5,
        [0, 1, 2, 3, 4, 5, 6, 7], [], 0, 2⟩
     p.presented = some ⟨.drive, 1, 0, 2, 1⟩ ∧ p.shown = some ⟨.peer, 3, 0, 0, 0⟩ ∧
      (⟨.drive, 1, 0, 2, 1⟩ : Entry).no ≠ (⟨.peer, 3, 0, 0, 0⟩ : Entry).no ∧ p.stack.length = 8) := by
  refine ⟨⟨rfl, rfl, rfl, by decide, by decide, _, rfl, rfl⟩, by decide⟩

theorem witness_EndOfNoticePops :
    watchedAs (comp .A .noticeWrite .write 0 { base with pres := base.pres.set .A (showing []) }) .A .noticeWrite 0 ∧
    (showing []).stack = [] ∧ (showing [3]).stack = 3 :: [] ∧ (showing [3]).presented = some ⟨.peer, 3, 0, 0, 0⟩ :=
  ⟨comp_watched rfl, rfl, rfl, rfl⟩

theorem witness_CrossWriteRaisesOrWithdraws :
    (let s := { base with tap := base.tap.set .B (Tap.reset 2048 false) }
     watchedAs (comp .A .cross .write 7 s) .A .cross 7 ∧ s.live .B = false) ∧
    (watchedAs (comp .A .cross .write 7 base) .A .cross 7 ∧ base.live .B = true ∧ (7 : Word).toNat ≤ 7) ∧
    (watchedAs (comp .A .cross .write 8 presenting) .A .cross 8 ∧ presenting.live .B = true ∧ 7 < (8 : Word).toNat) :=
  ⟨⟨comp_watched rfl, rfl⟩, ⟨comp_watched rfl, rfl, by decide⟩, comp_watched rfl, rfl, by decide⟩

/-- Side B's presenter presents `e` with the queue `q` at level `l`; side A writes 8 to its cross cell. -/
def withdrawing (e : Option Entry) (q : List Entry) (l : Nat) : State :=
  comp .A .cross .write 8 { base with pres := base.pres.set .B ⟨q, e, none, none, l, [], [], 0, 4⟩ }

theorem witness_CrossWriteRaisesOrWithdraws_rest :
    (let s := withdrawing (some ⟨.drive, 1, 0, 2, 1⟩) [⟨.peer, 1, 0, 1, 2⟩] 5
     watchedAs s .A .cross 8 ∧ s.live .B = true ∧ (s.pres.get .B).presented = some ⟨.drive, 1, 0, 2, 1⟩ ∧
      ∀ f ∈ (s.pres.get .B).queue, 1 ≤ f.prio) ∧
    (let s := withdrawing none [⟨.peer, 7, 0, 0, 1⟩] 0
     watchedAs s .A .cross 8 ∧ s.live .B = true ∧ (s.pres.get .B).presented = none) ∧
    (let s := withdrawing (some ⟨.peer, 3, 0, 0, 3⟩) [⟨.drive, 7, 0, 1, 2⟩] 7
     watchedAs s .A .cross 8 ∧ s.live .B = true ∧ (s.pres.get .B).presented = some ⟨.peer, 3, 0, 0, 3⟩ ∧
      ∀ f ∈ (s.pres.get .B).queue, (s.pres.get .B).level ≤ f.prio) ∧
    (let s := withdrawing (some ⟨.peer, 3, 0, 0, 3⟩) [⟨.drive, 7, 0, 1, 2⟩] 8
     watchedAs s .A .cross 8 ∧ s.live .B = true ∧ (s.pres.get .B).presented = some ⟨.peer, 3, 0, 0, 3⟩ ∧
      (s.pres.get .B).queue.filter (fun e => !(e.kind == .peer && e.code == 0)) = ⟨.drive, 7, 0, 1, 2⟩ :: [] ∧
      7 < (s.pres.get .B).level) :=
  ⟨⟨comp_watched rfl, by decide⟩, ⟨comp_watched rfl, by decide⟩, ⟨comp_watched rfl, by decide⟩, comp_watched rfl, by decide⟩

theorem witness_IdleWriteSetsLevel :
    (watchedAs (comp .A .idle .write 3 base) .A .idle 3 ∧ base.drv.openPending = false) ∧
    (let s := drvWith (fun d => { d with state := .opened, openPending := true }) base
     watchedAs (comp .A .idle .write 2 s) .A .idle 2 ∧ s.drv.openPending = true) :=
  ⟨⟨comp_watched rfl, rfl⟩, comp_watched rfl, rfl⟩

/-! #### The region map -/

/-- Side A the sealed proposer of 100 and 240; side B has written `p`, `q` and both marks. -/
def sealedByA (p q : Word) : State :=
  { base with map := { base.map with
      protocol := .proposed .A, span := some ⟨3940, false⟩
      proposal := ⟨⟨some 100, some 240, false, false, true⟩, ⟨some p, some q, true, true, false⟩⟩ } }

theorem witness_ProposalWriteCaptures :
    (watchedAs (comp .A (.proposal false) .write 0xFFFF (sealedByA 0 0)) .A (.proposal false) 0xFFFF ∧
      ((sealedByA 0 0).map.proposal.get .A).isSealed = true ∧ (sealedByA 0 0).map.protocol = .proposed .A) ∧
    (watchedAs (comp .B (.proposal true) .write 0 (sealedByA 0 0)) .B (.proposal true) 0 ∧
      ((sealedByA 0 0).map.proposal.get .B).isSealed = false) :=
  ⟨⟨comp_watched rfl, rfl, rfl⟩, comp_watched rfl, rfl⟩

/-- Side A has written `p`, `q` and the marks `m` and `n`. -/
def marked (p q : Word) (m n : Bool) : State :=
  { base with map := { base.map with proposal := base.map.proposal.set .A ⟨some p, some q, m, n, false⟩ } }

theorem witness_SealRefusedOrFirst :
    (watchedAs (comp .A .seal .write 0 base) .A .seal 0 ∧ (base.map.proposal.get .A).mark1 = false) ∧
    ((marked 0 400 true false).map.proposal.get .A).mark2 = false ∧
    (((marked 0 401 true true).map.proposal.get .A).p2 = some 401 ∧ ¬ (401 : Word).toNat ≤ 400) ∧
    (((marked 1 0 true true).map.proposal.get .A).p1 = some 1 ∧ ¬ (1 : Word).toNat ≤ (0 : Word).toNat) ∧
    committing.map.protocol = .commitPending ∧
    (let s := comp .A .seal .write 0 (marked 0 400 true true)
     watchedAs s .A .seal 0 ∧ (s.map.proposal.get .A).mark1 = true ∧ (s.map.proposal.get .A).mark2 = true ∧
      (s.map.proposal.get .A).p1 = some 0 ∧ (s.map.proposal.get .A).p2 = some 400 ∧
      (0 : Word).toNat ≤ (400 : Word).toNat ∧ (400 : Word).toNat ≤ 400 ∧ s.map.protocol = .idle) :=
  ⟨⟨comp_watched rfl, rfl⟩, rfl, ⟨rfl, by decide⟩, ⟨rfl, by decide⟩, rfl, comp_watched rfl, rfl, rfl, rfl, rfl,
    by decide, by decide, rfl⟩

/-- `sealedByA 100 240` with one lock of cylinders `a` to `b` at entry 7. -/
def sealedLocked (a b : Nat) : State :=
  let s := sealedByA 100 240
  { s with locks := s.locks.set 7 (some ⟨.A, .F, a, b, false⟩) }

theorem witness_SecondSealSettles :
    (let s := comp .B .seal .write 0 (sealedByA 100 239)
     watchedAs s .B .seal 0 ∧ s.map.protocol = .proposed (Side.B).other ∧ (s.map.proposal.get .B).mark1 = true ∧
      (s.map.proposal.get .B).mark2 = true ∧ (s.map.proposal.get .B).p1 = some 100 ∧
      (s.map.proposal.get .B).p2 = some 239 ∧ (s.map.proposal.get .A).p2 ≠ some 239) ∧
    (let s := comp .B .seal .write 0 (sealedLocked 99 120)
     watchedAs s .B .seal 0 ∧ s.map.protocol = .proposed (Side.B).other ∧ (s.map.proposal.get .A).p1 = some 100 ∧
      (s.map.proposal.get .A).p2 = some 240 ∧
      ∃ (k : Fin 8) (l : Lock) (c : Nat), s.locks[k] = some l ∧ l.first ≤ c ∧ c ≤ l.last ∧
        min s.map.p1 100 ≤ c ∧ c < max s.map.p1 100) ∧
    (let s := comp .B .seal .write 0 (sealedLocked 100 239)
     watchedAs s .B .seal 0 ∧
      (∀ (k : Fin 8) (l : Lock) (c : Nat), s.locks[k] = some l → l.first ≤ c → c ≤ l.last →
        ¬ ((min s.map.p1 100 ≤ c ∧ c < max s.map.p1 100) ∨ (min s.map.p2 240 ≤ c ∧ c < max s.map.p2 240))) ∧
      ∀ (k : Fin 8) (l : Lock), s.locks[k] = some l → l.first ≤ l.last) := by
  have h : ∀ k : Fin 8, (comp .B .seal .write 0 (sealedLocked 100 239)).locks[k] =
      if k = 7 then some ⟨.A, .F, 100, 239, false⟩ else none := by decide
  refine ⟨⟨comp_watched rfl, rfl, rfl, rfl, rfl, rfl, by decide⟩,
    ⟨comp_watched rfl, rfl, rfl, rfl, 7, ⟨.A, .F, 99, 120, false⟩, 99, rfl, by decide⟩, comp_watched rfl, ?_, ?_⟩
  · intro k l c hk h1 h2
    rw [h] at hk
    split at hk
    · cases hk
      show ¬ ((min 0 100 ≤ c ∧ c < max 0 100) ∨ (min 400 240 ≤ c ∧ c < max 400 240))
      simp at h1 h2 ⊢
      omega
    · cases hk
  · intro k l hk
    rw [h] at hk
    split at hk
    · cases hk; decide
    · cases hk

/-- COMMIT_PENDING for the boundaries 100 and 240, with one slot in POSTING on cylinder `c`. -/
def draining (c : Nat) : State :=
  let s := withSlot 11 (slotOf .posting .A (oneSector 0) (c * 32) 1) base
  { s with map := { s.map with protocol := .commitPending, pendingMap := some (100, 240) } }

/-- At a command's end a commit still waits with a slot to drain, and is made with none. -/
theorem witness_EndOfCommandFrame_drain :
    ((settle base (draining 99)).map.protocol = .commitPending ∧
      (settle base (draining 99)).map.pendingMap = some (100, 240)) ∧
    (∀ i, ∀ r ∈ ((settle base (draining 99)).slot i).touched, r.1 ≤ r.2) ∧
    (settle base (draining 100)).map.protocol = .idle := by decide +kernel

theorem witness_ProposalsExpireOrCommit :
    (let s := { base with map := { (sealedByA 0 0).map with span := some ⟨100, true⟩ } }
     s.map.protocol = .proposed .A ∧ s.map.span = some ⟨100, true⟩) ∧
    ((draining 100).map.pendingMap = some (100, 240) ∧ (draining 100).map.protocol = .commitPending ∧
      ∀ i r, ((draining 100).slot i).touched = some r → ((draining 100).slot i).state = .lockwait ∨
        ((draining 100).slot i).state = .waiting ∨ ((draining 100).slot i).state = .active ∨
        ((draining 100).slot i).state = .posting →
        r.1 ≤ r.2 ∧ ∀ c, r.1 ≤ c → c ≤ r.2 → ¬ Changing (draining 100).map (100, 240) c) ∧
    (base.map.protocol ≠ .commitPending ∧
      ({ base.map with pendingMap := some (0, 0) } : RegionMap).pendingMap = some (0, 0)) ∧
    (((draining 99).slot 11).touched = some (99, 99) ∧ ((draining 99).slot 11).state ≠ .free ∧
      ((draining 99).slot 11).state ≠ .intake ∧ Changing (draining 99).map (100, 240) 99) := by
  have h : ∀ i : Fin 12, ((draining 100).slot i).touched = if i = 11 then some (100, 100) else none := by decide +kernel
  refine ⟨⟨rfl, rfl⟩, ⟨rfl, rfl, ?_⟩, ⟨by decide, rfl⟩, by unfold Changing; decide +kernel⟩
  intro i r hr _
  rw [h] at hr
  split at hr
  · cases hr
    refine ⟨by decide, fun c h1 h2 => ?_⟩
    have : c = 100 := Nat.le_antisymm h2 h1
    subst this; unfold Changing; decide
  · cases hr

/-! #### Intake -/

/-- Side A with seven slots WAITING, the rest FREE, and one cell pending. -/
def crowded : State :=
  { base with
    slots := Vector.ofFn (fun i => if i < 7 then slotOf .waiting .A (oneSector 0) 5 1 else Slot.empty 0)
    intake := base.intake.set .A ⟨[(7, 65535)], 0, none, none, [], none⟩ }

theorem witness_TakeClaimsLowestFreeSlot : crowded.live .A = true ∧ (crowded.intake.get .A).list = (7, 65535) :: [] ∧
    (crowded.intake.get .A).claim = none ∧ (crowded.intake.get .A).fetch = none ∧
    (crowded.intake.get .A).chains = [] ∧ crowded.occupied .A = 7 ∧
    (crowded.slot 7).state = .free ∧ ∀ j, j < 7 → (crowded.slot j).state ≠ .free := by
  refine ⟨rfl, rfl, rfl, rfl, rfl, by decide +kernel, by decide +kernel, by decide +kernel⟩

/-- Slot 7 claimed for cell 3 of side A, with the pending list `l`. -/
def claimed (l : List (Fin 8 × Word)) : State :=
  { withSlot 7 { Slot.empty 1 with state := .intake } base with
    intake := base.intake.set .A ⟨l, 0, some (7, 3), none, [], none⟩ }

theorem witness_TakeClaimsLowestFreeSlot_returns :
    (((claimed [(3, 9), (2, 1)]).intake.get .A).claim = some (7, 3) ∧
      ((claimed [(3, 9), (2, 1)]).intake.get .A).list = (3, 9) :: [(2, 1)]) ∧
    (∀ q rest, ((claimed [(2, 1)]).intake.get .A).list ≠ (3, q) :: rest) ∧
    ∀ q rest, ((claimed []).intake.get .A).list ≠ (3, q) :: rest :=
  ⟨⟨rfl, rfl⟩, by simp [claimed, Sided.get, Sided.set], by simp [claimed, Sided.get, Sided.set]⟩

/-- Slot 2 in INTAKE with the quad address `q`; the chain fetches `ch` wait, and the fetch is `f`. -/
def fetchAt (q : Word) (ch : List (Fin 12)) (f : Option Fetch) : State :=
  { withSlot 2 { Slot.empty 1 with state := .intake, q := q } base with
    intake := base.intake.set .A ⟨[(7, 65535)], 0, none, f, ch, none⟩ }

theorem witness_FetchesBegin :
    (∀ q, ((fetchAt q [2] none).intake.get .A).chains = 2 :: [] ∧ ((fetchAt q [2] none).intake.get .A).fetch = none ∧
      ((fetchAt q [2] none).intake.get .A).claim = none) ∧
    (∀ q, cycleFor (part .A (.clearing 3) (fetchAt q [] (some ⟨2, some 3⟩))) .A (.clearing 3) ∧
      ((fetchAt q [] (some ⟨2, some 3⟩)).intake.get .A).fetch = some ⟨2, some 3⟩) ∧
    ((fetchAt 65532 [2] none).slot 2).q.toNat ≤ 65532 ∧ 65532 < ((fetchAt 65533 [2] none).slot 2).q.toNat :=
  ⟨fun _ => ⟨rfl, rfl, rfl⟩, fun _ => ⟨part_for, rfl⟩, by decide +kernel, by decide +kernel⟩

/-- What the intake unit asks for: the clearing write of cell 3 (R51), and the read of word 2 at 4 × 1000 + 2 (R52). -/
theorem witness_FetchesBegin_asks :
    intakeAsks (fetchAt 1000 [] (some ⟨2, some 3⟩)) .A = some ⟨.clearing 3, .write, 1027, 0, false⟩ ∧
    (base.intake.get .A).fetch = none ∧
    (let s := { withSlot 2 { Slot.empty 1 with state := .intake, q := 1000, words := [0, 0] } base with
        intake := base.intake.set .A ⟨[], 0, none, some ⟨2, none⟩, [], none⟩ }
     intakeAsks s .A = some ⟨.fetch 2, .read, 4002, 0, false⟩) := by decide +kernel

/-- Slot 2 fetching, with the words `ws` so far and chain depth `n`. -/
def readingWords (ws : List Word) (n : Nat) (s : State) : State := part .A (.fetch ws.length)
  { withSlot 2 { Slot.empty 1 with state := .intake, q := 500, words := ws, depth := n } s with
    intake := s.intake.set .A ⟨[], 0, none, some ⟨2, none⟩, [], none⟩ }

theorem witness_RecordReadsRefuseAtTheEnd :
    (let s := readingWords ((oneSector 0).take 10) 0 base
     cycleFor s .A (.fetch 10) ∧ (s.intake.get .A).fetch = some ⟨2, none⟩ ∧ (s.slot 2).words.length < 11) ∧
    (let s := readingWords ((oneSector 0xA000).take 11) 63 base
     cycleFor s .A (.fetch 11) ∧ (s.slot 2).words.length = 11 ∧ (s.slot 2).depth ≠ 64 ∧
      validate s .A ((s.slot 2).words ++ [0]) = some .badKind) ∧
    (let s := readingWords ((oneSector 0).take 11) 64 base
     cycleFor s .A (.fetch 11) ∧ (s.slot 2).words.length = 11 ∧ (s.slot 2).depth = 64) := by
  refine ⟨⟨part_for, rfl, by decide +kernel⟩, ⟨part_for, ?_⟩, part_for, ?_⟩ <;> decide +kernel

/-- A READ of the last two sectors of platter F with a deadline of 1; a LOCK of the whole platter F without one; a SEEK to
cylinder 399; a MOUNT_ACK. -/
def soundRecords : List (Kind × List Word) :=
  [(.read, recordOf 0 399 62 512 0 1), (.lock, recordOf 0x6000 0 32 399 0 0),
    (.seek, recordOf 0x3000 399 0 0 0 4096), (.mountAck, recordOf 0x8000 0 0 0 0 0)]

theorem witness_SoundRecordIsAccepted : ∀ e ∈ soundRecords,
    let s := readingWords (e.2.take 11) 63 base
    cycleFor s .A (.fetch 11) ∧ (s.intake.get .A).fetch = some ⟨2, none⟩ ∧ (s.slot 2).words.length = 11 ∧
      e.2 = (s.slot 2).words ++ [0] ∧ (s.slot 2).depth ≠ 64 ∧ validate s .A e.2 = none ∧ recKind e.2 = some e.1 := by
  intro e he
  simp only [soundRecords, List.mem_cons, List.not_mem_nil, or_false] at he
  rcases he with rfl | rfl | rfl | rfl <;> exact ⟨part_for, by decide +kernel⟩

/-- Regions A 0 to 99, Shared 100 to 239 and B 240 to 399, the commit of 90 and 240 pending, and side A's EXCLUSIVE
lock of cylinders 100 to 120 of F; no cartridge acknowledged. -/
def zoned : State :=
  { base with
    map := ⟨100, 240, .commitPending, .both .discarded, none, some (90, 240), ⟨0, 0⟩⟩
    locks := base.locks.set 0 (some ⟨.A, .F, 100, 120, true⟩) }

/-- The record of kind `k`, cylinder, head and sector in word 2, count and last word of the buffer's end. -/
def transfer (k c hs count hi lo : Nat) : List Word :=
  [BitVec.ofNat 16 (4096 * k), BitVec.ofNat 16 c, BitVec.ofNat 16 hs, BitVec.ofNat 16 hi, BitVec.ofNat 16 lo,
    BitVec.ofNat 16 count, 0, 0, 0, 0, 0, 0]

theorem witness_ValidationTakesStepsInOrder :
    recKind (transfer 0 0 32 0 0 0) = some .read ∧ recCount (transfer 0 0 32 0 0 0) = 0 ∧
    recCount (transfer 0 0 32 16385 0 0) = 16385 ∧ recCylinder (transfer 0 400 32 256 0 0) = 400 ∧
    recCount (transfer 0 399 0x3F 256 0 0) = 256 ∧
    (let r := transfer 0 0 32 256 3 65280
     recBuffer r + (recCount r - 1) + recStride r * 0 = 262143) ∧
    (let r := transfer 0 0 32 256 3 65281
     recBuffer r + (recCount r - 1) + recStride r * 0 = 262144) ∧
    zoned.drv.mounted.get .A = false ∧ platterOf (recHead (transfer 0 0 31 256 0 0)) = .C ∧
    platterOf (recHead (transfer 0 0 32 256 0 0)) = .F ∧
    zoned.map.reachesOther .A (240, 240) = true ∧ zoned.map.reachesOther .A (239, 239) = false ∧
    zoned.map.commitChanges (90, 90) = true ∧ zoned.map.commitChanges (89, 89) = false ∧
    validate zoned .A (transfer 1 120 32 256 0 0) = none ∧ validate zoned .A (transfer 1 121 32 256 0 0) = some .noLock ∧
    validate zoned .A (transfer 0 121 32 256 0 0) = none ∧
    ({ base.intake.get .A with cursor := some (.F, 12799) } : Intake).cursor = some (.F, 12799) ∧
    recKind (transfer 4 0 0 256 0 0) = some .contRead := by
  decide +kernel

theorem witness_ValidationOfTheOtherKinds :
    recKind (transfer 10 0 0 0 0 0) = none ∧ recKind (transfer 8 0 0 0 0 0) = some .mountAck ∧
    recKind (transfer 9 0 0 0 0 0) = some .restore ∧ recKind (transfer 3 400 0 0 0 0) = some .seek ∧
    recCylinder (transfer 3 400 0 0 0 0) = 400 ∧ zoned.map.reachesOther .A (240, 240) = true ∧
    zoned.map.commitChanges (99, 99) = true ∧ zoned.map.commitChanges (100, 100) = false ∧
    recKind (transfer 6 5 32 4 0 0) = some .lock ∧ recLastCylinder (transfer 6 5 32 4 0 0) = 4 ∧
    recLastCylinder (transfer 6 5 32 400 0 0) = 400 ∧ recLockPlatter (transfer 6 5 31 400 0 0) = .C ∧
    recLockPlatter (transfer 7 5 32 399 0 0) = .F ∧ recKind (transfer 7 5 32 399 0 0) = some .unlock ∧
    validate zoned .A (transfer 6 100 32 239 0 0) = none ∧ validate zoned .A (transfer 6 99 32 239 0 0) = some .regionDenied ∧
    ({ zoned.map with pendingMap := some (101, 240) } : RegionMap).commitChanges (100, 239) = true ∧
    recKind (transfer 5 0 0 16384 3 0) = some .contWrite ∧ (zoned.intake.get .A).cursor = none ∧
    (let r := transfer 5 0 0 16384 3 49152
     recBuffer r + (recCount r - 1) + recStride r * 63 = 262143) := by
  decide +kernel

/-- A continue kind without a cursor: count 0 and 16385, an extent one word too long, and NO_CURSOR at the last one. -/
theorem witness_ValidationOfTheOtherKinds_continue :
    (zoned.intake.get .A).cursor = none ∧ recKind (transfer 4 0 0 0 3 0) = some .contRead ∧
    [transfer 4 0 0 0 3 0, transfer 5 0 0 16385 3 0, transfer 5 0 0 16384 3 49153, transfer 5 0 0 16384 3 49152].map
      (fun r => validate zoned .A r) = [some .badCount, some .badCount, some .badAddress, some .noCursor] := by
  decide +kernel

theorem witness_Validation_regions :
    (TouchesOther zoned.map .A (240, 240) ∧ ¬ TouchesOther zoned.map .A (0, 239) ∧ TouchesOther zoned.map .B (99, 120) ∧
      ¬ TouchesOther zoned.map .B (100, 399)) ∧
    (TouchesChanging zoned.map (90, 90) ∧ ¬ TouchesChanging zoned.map (0, 89) ∧ ¬ TouchesChanging zoned.map (100, 399) ∧
      ¬ TouchesChanging base.map (0, 399)) := by
  refine ⟨⟨⟨240, by decide⟩, ?_, ⟨99, by decide⟩, ?_⟩, ⟨rfl, (90, 240), 90, by unfold Changing; decide⟩, ?_, ?_, ?_⟩
  · rintro ⟨c, h1, h2, ⟨-, h⟩ | ⟨h, -⟩⟩
    · exact absurd (Nat.le_trans h h2) (by decide)
    · cases h
  · rintro ⟨c, h1, h2, ⟨h, -⟩ | ⟨-, h⟩⟩
    · cases h
    · exact absurd (Nat.lt_of_le_of_lt h1 h) (by decide)
  · rintro ⟨-, new, c, hn, h1, h2, hc⟩
    cases hn; simp [Changing, zoned] at hc; simp at h2; omega
  · rintro ⟨-, new, c, hn, h1, h2, hc⟩
    cases hn; simp [Changing, zoned] at hc; simp at h1; omega
  · rintro ⟨h, -⟩; cases h

/-! #### Locks -/

/-- Side A's LOCK of cylinders 0 to 9 of F in slot 0, its mode and no-wait in `w6`. -/
def lockSlot (st : SlotState) (w6 : Word) : Slot :=
  { slotOf st .A (recordOf 0x6000 0 32 9 w6 0) 0 0 with touched := some (0, 9) }

/-- `base` with that LOCK in slot 0, the entries `l` from 0 up, and side B's LOCK in LOCKWAIT in slot 1 when `w`. -/
def asking (w6 : Word) (l : List Lock) (w : Bool) : State :=
  let s := withSlot 0 (lockSlot .intake w6) base
  let s := { s with locks := Vector.ofFn (fun k => l[k.val]?) }
  if w then withSlot 1 { lockSlot .lockwait 1 with side := .B } s else s

theorem not_conflict {s : State} {l : Lock} (hl : ∀ h ∈ s.held, ¬ h.overlaps l)
    (hs : ∀ i, (s.slot i).state ≠ .waiting ∧ (s.slot i).state ≠ .active) : ¬ InConflict s l := by
  rintro (⟨h, hm, _, ho, _⟩ | ⟨_, i, r, hi, _⟩)
  · exact hl h hm ho
  · rcases hi with hi | hi
    · exact (hs i).1 hi
    · exact (hs i).2 hi

theorem not_waiting {s : State} {x : Side} (hs : ∀ i, (s.slot i).state ≠ .lockwait) : ∀ i, ¬ WaitsOn s x i :=
  fun i h => hs i h.1

/-- `locked` with side A's LOCK of cylinders 0 to 9 of F waiting in slot 3. -/
def lockedWaiting : State := withSlot 3 (lockSlot .lockwait 0) locked

theorem lockedWaiting_slots (i : Fin 12) (h : (lockedWaiting.slot i).state ≠ .free) : i = 3 := by
  revert h; revert i; decide +kernel

theorem witness_LockTableLawKept_shared :
    PlacesLaw lockedWaiting ∧ SharedLaw lockedWaiting ∧ ∃ t, step lockedWaiting = .next t := by
  have h : ∀ k : Fin 8, lockedWaiting.locks[k] =
      if k = 0 then some ⟨.A, .F, 0, 9, true⟩ else if k = 7 then some ⟨.B, .F, 10, 399, true⟩ else none := by decide
  have hk : ∀ (k : Fin 8) (l : Lock), lockedWaiting.locks[k] = some l → l = ⟨.A, .F, 0, 9, true⟩ ∨ l = ⟨.B, .F, 10, 399, true⟩ := by
    intro k l hl
    rw [h] at hl
    split at hl
    · exact .inl (Option.some.inj hl).symm
    · split at hl
      · exact .inr (Option.some.inj hl).symm
      · cases hl
  refine ⟨⟨by intro x; cases x <;> decide +kernel, ?_, by decide +kernel, by decide +kernel⟩,
    ⟨?_, ?_, ?_⟩, next_of_steps (by decide +kernel)⟩
  · intro x; cases x <;> exact ⟨by decide, by decide +kernel⟩
  · intro k l hl; rcases hk k l hl with rfl | rfl <;> decide
  · intro k l hl; rcases hk k l hl with rfl | rfl <;> decide
  · intro i hi _
    have := lockedWaiting_slots i (by rw [hi]; decide)
    subst this; decide +kernel

/-- Eight SHARED locks of side B away from cylinders 0 to 9. -/
def eight : List Lock := (List.range 8).map (fun k => ⟨.B, .F, 10 + k, 10 + k, false⟩)

theorem witness_LockIsDecidedInSixSteps :
    (∃ h ∈ (asking 0 [⟨.A, .F, 9, 20, false⟩] false).held,
      h.side = (lockOf (lockSlot .intake 0)).side ∧ h.overlaps (lockOf (lockSlot .intake 0))) ∧
    ((asking 0 [] false).held = [] ∧ ¬ InConflict (asking 0 [] false) (lockOf (lockSlot .intake 0)) ∧
      (asking 0 [] false).locks[(0 : Fin 8)] = none) ∧
    (¬ InConflict (asking 0 eight false) (lockOf (lockSlot .intake 0)) ∧ ∀ k : Fin 8, (asking 0 eight false).locks[k] ≠ none) ∧
    (let s := asking 3 [⟨.B, .F, 9, 20, false⟩] false
     (∀ h ∈ s.held, h.side = .B) ∧ InConflict s (lockOf (s.slot 0)) ∧ recNoWait (s.slot 0).words = true) ∧
    (let s := asking 1 [⟨.B, .F, 9, 20, false⟩, ⟨.A, .C, 0, 9, true⟩, ⟨.A, .F, 0, 0, true⟩] true
     recNoWait (s.slot 0).words = false ∧ WaitsOn s .A 1) ∧
    (let s := asking 1 [⟨.B, .F, 9, 20, false⟩] false
     InConflict s (lockOf (s.slot 0)) ∧ recNoWait (s.slot 0).words = false ∧ ∀ j, ¬ WaitsOn s .A j) := by
  refine ⟨by unfold Lock.overlaps; decide +kernel, ⟨by decide +kernel, not_conflict (by unfold Lock.overlaps; decide +kernel)
    (by decide +kernel), by decide +kernel⟩,
    ⟨not_conflict (by unfold Lock.overlaps; decide +kernel) (by decide +kernel), by decide +kernel⟩,
    ⟨by decide +kernel, .inl ?_,
    by decide +kernel⟩, ⟨by decide +kernel, by decide +kernel, by decide +kernel, .inr ⟨by decide +kernel, ?_⟩⟩, .inl ?_,
    by decide +kernel, not_waiting (by decide +kernel)⟩ <;> unfold Lock.overlaps <;> decide +kernel

/-- Side A's UNLOCK of cylinders 0 to 9 of F in slot 0, with the lock `l` held and a WRITE of one sector on cylinder
`c` in slot 1. -/
def unlocking (l : Lock) (c : Nat) : State :=
  let s := withSlot 1 (slotOf .waiting .A (oneSector 0x1000) (c * 32) 1)
    (withSlot 0 { lockSlot .intake 0 with words := recordOf 0x7000 0 32 9 0 0 } base)
  { s with locks := s.locks.set 3 (some l) }

theorem witness_UnlockIsDecided :
    (∀ e, ({ lockOf ((unlocking ⟨.A, .F, 0, 8, true⟩ 9).slot 0) with exclusive := e } : Lock) ∉
      (unlocking ⟨.A, .F, 0, 8, true⟩ 9).held) ∧
    (let s := unlocking ⟨.A, .F, 0, 9, true⟩ 9
     ({ lockOf (s.slot 0) with exclusive := true } : Lock) ∈ s.held ∧ (s.slot 1).state = .waiting ∧
      (s.slot 1).side = .A ∧ (s.slot 1).isKind Kind.diskWrite = true ∧ (s.slot 1).platter = some .F ∧
      (s.slot 1).touched = some (9, 9)) ∧
    (let s := unlocking ⟨.A, .F, 0, 9, true⟩ 10
     ({ lockOf (s.slot 0) with exclusive := true } : Lock) ∈ s.held ∧ (s.slot 1).touched = some (10, 10) ∧
      ∀ j, j ≠ 1 → (s.slot j).state ≠ .waiting ∧ (s.slot j).state ≠ .active) := by
  decide +kernel

/-- `base` with side A's READ on cylinder 0 of F in slot 0, the entries `l`, and side B's READ in LOCKWAIT when `w`. -/
def reading (st : SlotState) (l : List Lock) (w : Bool) : State :=
  let s := withSlot 0 (slotOf st .A (oneSector 0) 5 1) base
  let s := { s with locks := Vector.ofFn (fun k => l[k.val]?) }
  if w then withSlot 1 (slotOf .lockwait .B (oneSector 0) 5 1) s else s

theorem read_blocked {st : SlotState} {w : Bool} : ReadBlocked (reading st [⟨.B, .F, 0, 0, true⟩] w) 0 := by
  refine ⟨⟨.B, .F, 0, 0, true⟩, ?_, (0, 0), ?_⟩ <;> cases w <;> cases st <;> decide +kernel

theorem not_blocked {s : State} {i : Fin 12} (h : s.held = []) : ¬ ReadBlocked s i := by
  rintro ⟨l, hl, _⟩
  rw [h] at hl
  cases hl

theorem witness_OtherKindsAreDispatched :
    (ReadBlocked (reading .intake [⟨.B, .F, 0, 0, true⟩] true) 0 ∧
      WaitsOn (reading .intake [⟨.B, .F, 0, 0, true⟩] true) .A 1) ∧
    (ReadBlocked (reading .intake [⟨.B, .F, 0, 0, true⟩] false) 0 ∧
      ∀ j, ¬ WaitsOn (reading .intake [⟨.B, .F, 0, 0, true⟩] false) .A j) ∧
    ¬ ReadBlocked (reading .intake [] false) 0 ∧ State.reset.drv.state = .offline ∧
    (base.drv.state ≠ .opened ∧ base.drv.state ≠ .offline) :=
  ⟨⟨read_blocked, by decide +kernel, by decide +kernel, .inl (by decide +kernel)⟩,
    ⟨read_blocked, not_waiting (by decide +kernel)⟩, not_blocked (by decide +kernel), rfl, by decide⟩

theorem witness_ReexaminationTurn :
    (base.slot 0).state ≠ .lockwait ∧
    (let s := withSlot 0 (lockSlot .lockwait 0) (asking 0 [⟨.A, .F, 9, 20, false⟩] false)
     (s.slot 0).state = .lockwait ∧ (s.slot 0).kind = some .lock ∧
      ∃ h ∈ s.held, h.side = (lockOf (s.slot 0)).side ∧ h.overlaps (lockOf (s.slot 0))) ∧
    (let s := withSlot 0 (lockSlot .lockwait 0)
        { base with map := { base.map with protocol := .commitPending, pendingMap := some (1, 400) } }
     s.held = [] ∧ TouchesChanging s.map ((lockOf (s.slot 0)).first, (lockOf (s.slot 0)).last)) ∧
    (let s := withSlot 0 (lockSlot .lockwait 0) (asking 0 [⟨.B, .F, 9, 20, true⟩] false)
     (∀ h ∈ s.held, h.side = .B) ∧ InConflict s (lockOf (s.slot 0)) ∧
      ¬ TouchesChanging s.map ((lockOf (s.slot 0)).first, (lockOf (s.slot 0)).last)) ∧
    (let s := withSlot 0 (lockSlot .lockwait 0) base
     s.held = [] ∧ ¬ InConflict s (lockOf (s.slot 0)) ∧ s.locks[(0 : Fin 8)] = none) ∧
    (let s := withSlot 0 (lockSlot .lockwait 0) (asking 0 eight false)
     ¬ InConflict s (lockOf (s.slot 0)) ∧ ∀ k : Fin 8, s.locks[k] ≠ none) ∧
    (ReadBlocked (reading .lockwait [⟨.B, .F, 0, 0, true⟩] false) 0 ∧
      ((reading .lockwait [] false).slot 0).kind ≠ some .lock ∧ ¬ ReadBlocked (reading .lockwait [] false) 0) := by
  refine ⟨by decide, ?_, ⟨by decide +kernel, rfl, (1, 400), 0, by unfold Changing; decide +kernel⟩,
    ⟨by decide +kernel, .inl ?_, fun h => nomatch h.1⟩,
    ⟨by decide +kernel, not_conflict (by unfold Lock.overlaps; decide +kernel) (by decide +kernel), by decide +kernel⟩,
    ⟨not_conflict (by unfold Lock.overlaps; decide +kernel) (by decide +kernel), by decide +kernel⟩,
    read_blocked, by decide +kernel, not_blocked (by decide +kernel)⟩ <;> unfold Lock.overlaps <;> decide +kernel

/-- Side B's LOCK of 0 to 9 in slot 2, asked for before side A's READ in slot 0 that nothing blocks. -/
def leaving : State :=
  withSlot 2 { lockSlot .lockwait 0 with side := .B, seq := some 0 }
    (withSlot 0 { slotOf .lockwait .A (oneSector 0) 5 1 with seq := some 1 } { base with counter := 1 })

theorem witness_ReexaminationTurn_passes :
    lockWaitOrder leaving = [2, 0] ∧ [(0 : Fin 12)].Nodup ∧
    ∀ i, i ∈ [(0 : Fin 12)] ↔ (leaving.slot i).state = .lockwait ∧
      (((reexaminePass leaving).slot i).state = .waiting ∨
        ((reexaminePass leaving).slot i).state = .posting ∧ ((reexaminePass leaving).slot i).status ≠ some .ok) := by
  decide +kernel

/-! #### Selection and deadlines -/

theorem witness_AccessCostIsEstimated :
    (let sl := slotOf .waiting .A (recordOf 0x3000 399 0 0 0 0) 0 0
     sl.kind = some .seek ∧ recCylinder sl.words = 399) ∧
    (let sl := slotOf .waiting .A (oneSector 0) 12799 1
     sl.kind ≠ some .seek ∧ sl.start.getD 0 / 32 = 399 ∧ seekEstimate (max 399 0 - min 399 0) = 19 ∧
      seekEstimate (max 399 399 - min 399 399) = 0) := by decide +kernel

/-- Class `w0`'s READ in slot 0 and in slot 1, WAITING with pass count `k` and deadline `d`, at the count 100. -/
def pacing (w0 : Word) (k : Nat) (d : Option Word) : State :=
  let sl := { slotOf .waiting .A (oneSector w0) 5 1 with passCount := k, deadline := d }
  withSlot 1 { sl with seq := some 2, start := some 4 } (withSlot 0 sl base)

theorem witness_TierAndScore :
    (recClass ((pacing 0 0 (some 122)).slot 0).words = 0 ∧ ((pacing 0 0 (some 122)).slot 0).deadline = some 122 ∧
      (pacing 0 0 (some 122)).slack 0 = some 16) ∧
    ((pacing 0 8 (some 123)).slack 0 = some 17 ∧ ((pacing 0 8 (some 123)).slot 0).passCount = 8) ∧
    (recClass ((pacing 0x0C00 7 none).slot 0).words ≠ 0 ∧ ((pacing 0x0C00 7 none).slot 0).passCount = 7 ∧
      (pacing 0x0C00 7 none).access 0 ≤ 34 ∧ (pacing 0x0C00 7 none).tier 0 = 3) ∧
    ((withSlot 0 (slotOf .waiting .A (oneSector 0x9000) 0 0) base).slot 0).kind = some .restore ∧
    (((pacing 0 0 none).slot 0).seq = some 1 ∧ ((pacing 0 0 none).slot 1).seq = some 2 ∧
      (pacing 0 0 none).older 0 1 = true) ∧
    (faulted.drv.state = .faulted ∧ (0 : Fin 12) ∈ (withSlot 0 (slotOf .waiting .A (oneSector 0x9000) 0 0) faulted).eligible)
    := by decide +kernel

theorem witness_ExaminationChoosesTheFirst :
    ((active .rotating (oneSector 0) 1).activeSlot.isSome = true ∧
      ({ base with sel := some ⟨0, 1, []⟩ } : State).sel.isSome = true ∧ base.eligible = []) ∧
    (let s := pacing 0 0 none
     s.activeSlot = none ∧ s.sel = none ∧ s.eligible = [0, 1] ∧ s.tier 0 = s.tier 1 ∧ s.tier 1 = 3) ∧
    (let s := pacing 0 0 (some 101)
     s.eligible ≠ [] ∧ s.tier 0 = s.tier 1 ∧ s.tier 1 = 1) ∧
    (let s := pacing 0x0400 8 none
     s.eligible ≠ [] ∧ s.tier 0 = s.tier 1 ∧ s.tier 1 = 2) := by decide +kernel

theorem witness_SelectionIsTakenOrRefused :
    (let s := { active .rotating (oneSector 0) 1 with sel := some ⟨0, 1, []⟩ }
     s.sel = some ⟨0, 1, []⟩ ∧ (s.slot 0).state ≠ .waiting) ∧
    (let s := { pacing 0 15 none with sel := some ⟨0, 1, [(1, 1, 0), (2, 9, 0)]⟩ }
     (s.slot 0).state = .waiting ∧ (s.slot 0).tenure = 1 ∧ s.activeSlot = none ∧
      (∀ e ∈ [((1 : Fin 12), 1, 0), (2, 9, 0)], e.1 ≠ 0) ∧ (s.slot 1).state = .waiting ∧
      0 < [((1 : Fin 12), 1, 0), (2, 9, 0)].countP (fun e => e == (1, (s.slot 1).tenure, (s.slot 1).depth)) ∧
      [((1 : Fin 12), 1, 0), (2, 9, 0)].countP (fun e => e == (2, (s.slot 2).tenure, (s.slot 2).depth)) = 0 ∧ (s.slot 2).state ≠ .lockwait) := by
  decide +kernel

theorem witness_SelectionIsTakenOrRefused_fence : ∀ p ∈ [((0x4200 : Word), Kind.contRead), (0x2000, .check), (0x9000, .restore)],
    let s := { withSlot 3 (slotOf .waiting .B (oneSector p.1) 5 1) base with sel := some ⟨3, 1, []⟩ }
    s.sel = some ⟨3, 1, []⟩ ∧ (s.slot 3).state = .waiting ∧ (s.slot 3).tenure = 1 ∧ s.activeSlot = none ∧
      recKind (s.slot 3).words = some p.2 := by decide +kernel

theorem witness_DeadlineSetsPassedOrExpires :
    (let s := withSlot 0 { slotOf .lockwait .A (oneSector 0x0100) 5 1 with span := some ⟨100, true⟩ } base
     (s.slot 0).span = some ⟨100, true⟩ ∧ (s.slot 0).state = .lockwait ∧ recDropIfLate (s.slot 0).words = true) ∧
    (let s := withSlot 0 { slotOf .active .A (oneSector 0x0100) 5 1 with span := some ⟨100, true⟩ } base
     (s.slot 0).span = some ⟨100, true⟩ ∧ (s.slot 0).state ≠ .waiting ∧ (s.slot 0).state ≠ .lockwait) ∧
    (let s := withSlot 0 { slotOf .waiting .A (oneSector 0) 5 1 with span := some ⟨100, true⟩ } base
     (s.slot 0).span = some ⟨100, true⟩ ∧ recDropIfLate (s.slot 0).words = false) := by decide +kernel

/-! #### Posting and the part's writes -/

/-- A record with a signal field of width 8 at offset 8 of word 6000 and the link `q` under condition `c`. -/
def signalled (c : Nat) (q : Word) : List Word :=
  [BitVec.ofNat 16 (64 * c + 7), 0, 37, 0, 4096, 256, 0, 0, 0x88, 6000, 5, q]

theorem witness_PostingWritesResultAndSignal :
    ((posting none 0 (oneSector 0)).post.queue = (0, 1) :: [] ∧ (posting none 0 (oneSector 0)).post.step = none ∧
      ((posting none 0 (oneSector 0)).slot 0).recordless = false ∧
      ({ Slot.empty 1 with recordless := true } : Slot).recordless = true) ∧
    (cycleFor (part .A (.result 1) (posting (some .words) 1 (signalled 0 0))) .A (.result 1) ∧
      (posting (some .words) 1 (signalled 0 0)).post.wordsWritten < 2) ∧
    (cycleFor (part .A (.result 2) (posting (some .words) 2 (signalled 0 0))) .A (.result 2) ∧
      (posting (some .words) 2 (signalled 0 0)).post.wordsWritten = 2 ∧ recSignalAddr (signalled 0 0) ≠ 0 ∧
      recSignalAddr (oneSector 0) = 0) ∧
    ((posting (some .signal) 3 (signalled 0 0)).post.step = some .signal ∧
      ((posting (some .signal) 3 (signalled 0 0)).slot 0).side = .A ∧
      cycleFor (part .A .pairRead (posting (some .signal) 3 (signalled 0 0))) .A .pairRead ∧
      cycleFor (part .A .pairWrite (posting (some .signal) 3 (signalled 0 0))) .A .pairWrite) ∧
    (recSignalOffset (signalled 0 0) = 8 ∧ recSignalWidth (signalled 0 0) = 8) := by
  refine ⟨by decide +kernel, ⟨part_for, by decide⟩, ⟨part_for, by decide +kernel⟩, ⟨rfl, by decide +kernel, part_for,
    part_for⟩, by decide +kernel⟩

theorem witness_PostingEndsWithNoticeAndChain :
    (∀ r, (posting (some .signal) 3 r).post.queue = (0, 1) :: [] ∧ (posting (some .signal) 3 r).live .A = true) ∧
    (recPriority (signalled 1 9) = 7 ∧ 7 < recPriority (recordOf 8 0 0 0 0 0)) ∧ State.reset.live .A = false ∧
    ((posting (some .signal) 3 (signalled 1 65532)).post.timeoutSeen = false ∧ recLink (signalled 1 65532) = 65532 ∧
      recLinkCondition (signalled 1 65532) = 1 ∧ (recLink (signalled 1 65533)).toNat = 65533 ∧
      ((posting (some .signal) 3 (signalled 1 65532)).slot 0).depth < 64 ∧
      ((posting (some .signal) 3 (signalled 1 65532)).intake.get .A).fetch = none ∧
      ((posting (some .signal) 3 (signalled 1 65532)).intake.get .A).chains = [] ∧
      ((posting (some .signal) 3 (signalled 1 65532)).intake.get .A).claim = none) ∧
    ((fetchAt 5 [] (some ⟨2, none⟩)).intake.get .A).fetch ≠ none ∧
    (recLinkCondition (signalled 0 9) = 0 ∧ recLink (signalled 1 0) = 0 ∧
      recLinkCondition (signalled 3 9) = 3 ∧ ((posting (some .signal) 3 (signalled 3 9)).slot 0).status = some .ok ∧
      recLinkCondition (signalled 2 9) = 2) := by
  refine ⟨fun r => ⟨rfl, rfl⟩, by decide +kernel, rfl, by decide +kernel, by decide +kernel, by decide +kernel⟩

theorem witness_MemoryTimeoutsAreMet :
    (let t := { base.tap.get .A with arb := .part ⟨.data 0, .read, 0, 0, true⟩ }
     (({ base with tap := base.tap.set .A t } : State).tap.get .A).arb = .part ⟨.data 0, .read, 0, 0, true⟩) ∧
    ((posting (some .signal) 3 (signalled 0 0)).post.step ≠ none ∧
      cycleFor (part .A .pairRead (posting (some .signal) 3 (signalled 0 0))) .A .pairRead) ∧
    (cycleFor (part .A (.clearing 3) (fetchAt 65532 [] (some ⟨2, some 3⟩))) .A (.clearing 3) ∧
      ((fetchAt 65532 [] (some ⟨2, some 3⟩)).slot 2).q.toNat ≤ 65532) ∧
    (cycleFor (readingWords ((oneSector 0).take 11) 0 base) .A (.fetch 11) ∧
      ((readingWords ((oneSector 0).take 11) 0 base).intake.get .A).fetch = some ⟨2, none⟩) ∧
    (let s := part .A (.data 0) (active .rotating (oneSector 0x1000) 1)
     cycleFor s .A (.data 0) ∧ engineSlot s = some 0 ∧ (s.slot 0).side = .A ∧ s.drv.writeGate = false ∧
      s.eng.ending = none) ∧
    (let s := drvWith (fun d => { d with writeGate := true }) (active .inSector (oneSector 0x1000) 1)
     engineSlot s = some 0 ∧ s.drv.writeGate = true ∧ s.eng.ending = none) ∧
    (let s := engWith (fun e => { e with ending := some ⟨.ok, 100, true⟩ }) (active .draining (oneSector 0) 1)
     engineSlot s = some 0 ∧ s.eng.ending = some ⟨.ok, 100, true⟩) := by
  refine ⟨rfl, ⟨by decide, part_for⟩, ⟨part_for, by decide +kernel⟩, ⟨part_for, rfl⟩, ⟨part_for, by decide +kernel⟩,
    by decide +kernel, by decide +kernel⟩

/-- A clearing write whose quad address is above 65532 (R52): the timeout leaves the slot unfetchable. -/
theorem witness_MemoryTimeoutsAreMet_unfetchable :
    let s := part .A (.clearing 3) (fetchAt 65533 [] (some ⟨2, some 3⟩))
    cycleFor s .A (.clearing 3) ∧ (s.intake.get .A).fetch = some ⟨2, some 3⟩ ∧ 65532 < (s.slot 2).q.toNat ∧
      after (.memoryTimeout .A 0) s (fun t => ((t.slot 2).state, (t.slot 2).status)) =
        some (.posting, some .badAddress) := by
  refine ⟨part_for, ?_⟩
  decide +kernel

theorem witness_CellWritesEnd :
    (cycleFor (part .A (.notice none true) presenting) .A (.notice none true) ∧
      ∃ f b, OwedWrite.notice f b ∈ (presenting.pres.get .A).owed) ∧
    (cycleFor (part .A (.notice none true) base) .A (.notice none true) ∧
      ∀ f b, OwedWrite.notice f b ∉ (base.pres.get .A).owed) ∧
    cycleFor (part .A .level base) .A .level ∧ cycleFor (part .B (.status .partition) base) .B (.status .partition) :=
  ⟨⟨part_for, none, true, by decide +kernel⟩, ⟨part_for, fun _ _ h => nomatch h⟩, part_for, part_for⟩

theorem witness_CellWritesEnd_merge :
    (let p : Presenter := ⟨[⟨.peer, 3, 0, 0, 7⟩], none, none, some ⟨.peer, 3, 0, 0, 7⟩, 5, [], [], 0, 8⟩
     NoticeKind.peer ≠ .completion ∧ p.queue.find? (fun f => f.kind == .peer) = some ⟨.peer, 3, 0, 0, 7⟩ ∧
      p.writing = some ⟨.peer, 3, 0, 0, 7⟩) ∧
    (let p : Presenter := ⟨[⟨.peer, 3, 0, 0, 7⟩], none, some ⟨.peer, 5, 0, 0, 7⟩, none, 5, [], [], 0, 8⟩
     p.queue.find? (fun f => f.kind == .peer) = some ⟨.peer, 3, 0, 0, 7⟩ ∧ p.shown = some ⟨.peer, 5, 0, 0, 7⟩) ∧
    (let s := drvWith (fun d => { d with generation := 1 }) base
     let u := settle base s
     u.live .A = true ∧ cellWord base .A .drive ≠ cellWord u .A .drive ∧ u.live .B = true ∧
      cellWord base .B .drive ≠ cellWord u .B .drive) := by decide +kernel

/-- A presenter whose queue is full of COMPLETION entries, numbered from 0, with nothing presented. -/
def full : Presenter :=
  ⟨(List.range 16).map (fun k => ⟨.completion, k / 4, 0, 0, k⟩), none, none, none, 0, [], [], 15, 16⟩

theorem full_law : PresenterLaw full :=
  ⟨by decide, by decide, by decide, by decide, by decide, by unfold queueOrder; decide +kernel,
    by unfold kindsApart; decide +kernel, by decide +kernel, (fun _ h => nomatch h), (fun _ h => nomatch h),
    (fun _ h => nomatch h), (fun _ h => nomatch h), by decide, by decide, by decide⟩

/-- The clauses of `NoticeJoined`, the full queue's PEER taking the last COMPLETION's room (R146). -/
theorem witness_CellWritesEnd_join :
    (16 ≤ full.queue.length ∧ (full.join .completion 0 1 2).queue = full.queue ∧ (full.join .completion 0 1 2).lost = 15) ∧
    (NoticeKind.peer ≠ .completion ∧ (∀ f ∈ full.queue, f.kind ≠ .peer) ∧ full.queue.length = 16 ∧
      (full.join .peer 2 0 1).queue = full.queue.take 12 ++ ⟨.peer, 2, 0, 1, 16⟩ :: (full.queue.drop 12).take 3) ∧
    ((quiet 0).queue.length < 16 ∧ (quiet 0).queue.find? (fun f => f.kind == .peer) = some ⟨.peer, 3, 0, 0, 0⟩ ∧
      ((quiet 0).join .peer 3 0 1).queue = [⟨.peer, 3, 0, 1, 0⟩] ∧
      ((quiet 0).join .peer 2 0 1).queue = [⟨.peer, 2, 0, 1, 1⟩]) := by decide +kernel

/-- The clauses of `NoticeExamined` and of `EntryReturned`: the entry returned joins, or merges with one of its kind. -/
theorem witness_CellWritesEnd_examine :
    ((quiet 4).presented = none ∧ (quiet 4).queue = ⟨.peer, 3, 0, 0, 0⟩ :: [] ∧ 3 < (quiet 4).level ∧
      (quiet 3).level ≤ 3) ∧
    (let p := presents [⟨.drive, 1, 0, 2, 1⟩, ⟨.peer, 7, 0, 1, 2⟩]
     p.presented = some ⟨.peer, 3, 0, 0, 0⟩ ∧ p.queue = ⟨.drive, 1, 0, 2, 1⟩ :: [⟨.peer, 7, 0, 1, 2⟩] ∧
      p.queue.find? (fun f => f.kind == .peer) = some ⟨.peer, 7, 0, 1, 2⟩ ∧
      p.examine.queue = [⟨.peer, 3, 0, 1, 0⟩] ∧ p.examine.presented = some ⟨.drive, 1, 0, 2, 1⟩ ∧
      p.examine.owed = [.notice (some ⟨.drive, 1, 0, 2, 1⟩) false]) ∧
    (let p := presents [⟨.drive, 3, 0, 2, 1⟩]
     p.presented = some ⟨.peer, 3, 0, 0, 0⟩ ∧ ∀ h ∈ p.queue.head?, 3 ≤ h.prio) ∧
    (let p : Presenter := { presents [⟨.peer, 7, 0, 1, 1⟩] with presented := none, shown := some ⟨.peer, 3, 0, 0, 0⟩ }
     p.queue.find? (fun f => f.kind == .peer) = some ⟨.peer, 7, 0, 1, 1⟩ ∧ p.shown = some ⟨.peer, 3, 0, 0, 0⟩ ∧
      (p.giveBack ⟨.peer, 3, 0, 0, 0⟩).shown = none) := by decide +kernel

/-- What the presenter asks to write: the level at offset 8, NONE and an entry's word at offset 9 (R147). -/
theorem witness_CellWritesEnd_asks :
    presenterAsks { base with pres := base.pres.set .A { quiet 3 with owed := [.level 3] } } .A =
      some ⟨.level, .write, 1032, 3, false⟩ ∧
    presenterAsks { base with pres := base.pres.set .A { quiet 3 with owed := [.notice none true] } } .A =
      some ⟨.notice none true, .write, 1033, 0xFFFF, false⟩ ∧
    presenterAsks { base with pres := base.pres.set .A { quiet 3 with owed := [.notice (some ⟨.drive, 1, 0, 2, 0⟩) false] } }
      .A = some ⟨.notice (some ⟨.drive, 1, 0, 2, 0⟩) false, .write, 1033, 0x8802, false⟩ := by decide +kernel

/-! #### Arbitration and data cycles -/

/-- A READ of two sectors with its first buffer GOOD, at word time `w` in sector 6. -/
def drains (w : Nat) : State :=
  drvWith (fun d => { d with mark := 6, markSeen := true, wordTime := w })
    (engWith (fun e => { e with
      target := some 1, phase := .rotating, buf0 := ⟨.good, 0, 0, List.replicate 256 7⟩ })
      (active .rotating (recordOf 0 0 37 768 0 0) 3))

/-- A WRITE whose first buffer has no word yet, at word time `w` of the sector before its own. -/
def fills (w : Nat) : State :=
  drvWith (fun d => { d with mark := 4, markSeen := true, wordTime := w })
    (engWith (fun e => { e with buf0 := ⟨.filling, 0, 0, []⟩ }) (active .rotating (oneSector 0x1000) 1))

theorem witness_ArbiterGrantsInOrder :
    (((comp .A .level .write 9 base).tap.get .A).arb = .computer ⟨.write, 0, 9, .level⟩ ∧
      (∃ p, ((part .A (.data 0) base).tap.get .A).arb = .part p)) ∧
    (let s := { base with tap := base.tap.set .A { base.tap.get .A with arb := .pairWriteOwed 5 6 } }
     (s.tap.get .A).arb = .pairWriteOwed 5 6) ∧
    (((drains 319).tap.get .A).arb = .free ∧ (drains 319).live .A = true ∧ engineAsks (drains 319) .A =
      some ⟨.data 0, .write, 4096, 7, false⟩) ∧
    (let s := { base with tap := base.tap.set .A { base.tap.get .A with comp := some ⟨.read, 5, 0, .none⟩ } }
     (s.tap.get .A).arb = .free ∧ urgentAsks s .A = none ∧ (s.tap.get .A).comp = some ⟨.read, 5, 0, .none⟩) ∧
    (State.reset.live .A = false ∧ (State.reset.tap.get .A).comp = none) ∧
    (base.live .A = true ∧ urgentAsks base .A = none ∧ (base.tap.get .A).comp = none ∧ engineAsks base .A = none ∧
      postingAsks base .A = none ∧ intakeAsks base .A = none ∧ (base.pres.get .A).owed = [] ∧
      (base.tap.get .A).owed.lowest = none) ∧
    (postingAsks (posting (some .words) 0 (oneSector 0)) .A ≠ none ∧
      intakeAsks (fetchAt 5 [] (some ⟨2, none⟩)) .A ≠ none ∧ presenterAsks presenting .A ≠ none) ∧
    ((base.tap.get .A).owed.owe .partition).lowest = some .partition ∧
    (let s := drains 319
     s.eng.m < (s.slot 0).sectors ∧ (s.drv.mark.toNat + 16) % 16 = ((s.slot 0).start.getD 0 + s.eng.m) % 16 ∧
      s.drv.markSeen = true ∧ (s.slot 0).isKind Kind.diskRead = true ∧ 0 + 1 = s.eng.m ∧
      s.eng.m + 1 < (s.slot 0).sectors ∧ ((s.slot 0).start.getD 0 + s.eng.m) % 32 ≠ 31) ∧
    (urgentAsks (fills 32) .A = some ⟨.data 0, .read, 4096, 0, false⟩ ∧ urgentAsks (fills 31) .A = none ∧
      ((fills 31).drv.mark.toNat + 1) % 16 = (((fills 31).slot 0).start.getD 0 + (fills 31).eng.m) % 16) ∧
    (let s := active .rotating (oneSector 0x1000) 1
     s.drv.markSeen = false ∧ (s.slot 0).isKind Kind.diskRead = false ∧ (s.drv.mark.toNat + 5) % 16 = 5) := by
  refine ⟨⟨rfl, _, rfl⟩, rfl, ?_, ⟨rfl, by decide +kernel, rfl⟩, ⟨rfl, rfl⟩, ?_, ?_, by decide, ?_, ?_, ?_⟩ <;> decide +kernel

/-- A data cycle of word `j` on side A, in an ACTIVE request of `n` sectors and kind `w0` with the buffer `b` first. -/
def moving (w0 : Word) (n count j : Nat) (b : Buffer) : State :=
  let s := engWith (fun e => { e with buf0 := b }) (active .rotating (recordOf w0 0 37 (BitVec.ofNat 16 count) 0 0) n)
  let t := { s.tap.get .A with fence := (s.slot 0).fence.map (fun f => { f with index := j }) }
  part .A (.data j) { s with tap := s.tap.set .A t }

/-- Need points (R35): the buffer of the next sector, waited for and in the sector; none before a mark, behind the target,
beyond the extent, over a cylinder's end and while seeking. Words to move: what a fill lacks and a drain holds. -/
theorem witness_ArbiterGrantsInOrder_needs :
    (let s := drvWith (fun d => { d with mark := 4, markSeen := true }) (active .rotating (recordOf 0x1000 0 37 512 0 0) 2)
     needPoint s (s.slot 0) 0 = some 320 ∧ needPoint s (s.slot 0) 1 = some 640 ∧ needPoint s (s.slot 0) 2 = none ∧
      needPoint s { s.slot 0 with start := some 31 } 1 = none) ∧
    (let s := drvWith (fun d => { d with mark := 5, markSeen := true }) (active .inSector (recordOf 0x1000 0 37 512 0 0) 2)
     needPoint s (s.slot 0) 0 = some 0 ∧ needPoint s (s.slot 0) 1 = some 320 ∧
      needPoint (engWith (fun e => { e with target := some 1 }) s) (s.slot 0) 0 = none) ∧
    (let s := drvWith (fun d => { d with mark := 5, markSeen := true }) (active .inSector (recordOf 0 0 37 768 0 0) 3)
     needPoint s (s.slot 0) 0 = some 680) ∧
    (let s := drvWith (fun d => { d with markSeen := true }) (active .seeking (recordOf 0x1000 0 37 512 0 0) 2)
     s.eng.phase ≠ .rotating ∧ s.eng.phase ≠ .inSector ∧ needPoint s (s.slot 0) 0 = none) ∧
    (wordsToMove (moving 0 1 256 200 ⟨.good, 0, 200, List.replicate 256 7⟩) (slotOf .active .A (oneSector 0) 5 1) 0 = 56 ∧
      wordsToMove (moving 0x1000 1 256 3 ⟨.filling, 0, 0, [7, 7, 7]⟩) (slotOf .active .A (oneSector 0x1000) 5 1) 0 = 253) := by
  decide +kernel

theorem witness_DataCyclesMoveWords :
    (let s := moving 0 1 256 255 ⟨.good, 0, 255, List.replicate 256 7⟩
     cycleFor s .A (.data 255) ∧ engineSlot s = some 0 ∧ (s.slot 0).side = .A ∧
      (∃ f, (s.tap.get .A).fence = some f ∧ f.index = 255 ∧ 255 < f.count ∧ f.dir = .diskRead) ∧
      s.eng.ending = none ∧ (s.eng.buf 0).state = .good ∧ (s.slot 0).isKind Kind.diskRead = true ∧
      ¬ (s.eng.buf 0).moved + 1 < (s.slot 0).wordsAt 0) ∧
    (let s := moving 0x1000 2 257 254 ⟨.filling, 0, 0, List.replicate 254 7⟩
     cycleFor s .A (.data 254) ∧ (s.eng.buf 0).state = .filling ∧ (s.slot 0).isKind Kind.diskRead = false ∧
      (s.eng.buf 0).words.length + 1 < (s.slot 0).wordsAt 0) ∧
    (let s := moving 0x1000 2 257 255 ⟨.filling, 0, 0, List.replicate 255 7⟩
     cycleFor s .A (.data 255) ∧ (s.slot 0).wordsAt 0 ≤ (s.eng.buf 0).words.length + 1 ∧ 0 + 1 < (s.slot 0).sectors ∧
      (s.eng.buf 1).state = .empty) ∧
    (let s := engWith (fun e => { e with phase := .draining, ending := some ⟨.ok, 100, true⟩ })
        (moving 0 1 256 255 ⟨.good, 0, 255, List.replicate 256 7⟩)
     engineSlot s = some 0 ∧ s.eng.ending = some ⟨.ok, 100, true⟩ ∧ (s.slot 0).isKind Kind.diskRead = true ∧
      (s.slot 0).wordsAt 0 ≤ (s.eng.buf 0).moved + 1 ∧ (s.eng.buf 1).state ≠ .good) ∧
    (let f : Fence := ⟨4096, 256, 0, .diskRead, true, 255⟩
     wordIndex f 4351 = some 255 ∧ wordIndex f 4350 ≠ some 255) := by
  refine ⟨⟨part_for, by decide +kernel, by decide +kernel, ⟨_, rfl, by decide +kernel⟩, by decide +kernel⟩,
    ⟨part_for, by decide +kernel⟩, ⟨part_for, by decide +kernel⟩, by decide +kernel, by decide +kernel⟩

theorem witness_DataCyclesMoveWords_interrupted :
    (let s := moving 0 1 256 255 ⟨.good, 0, 255, List.replicate 256 7⟩
     cycleFor s .A (.data 255) ∧ engineSlot s = some 0 ∧ s.eng.ending = none ∧ s.eng.phase ≠ .finishing ∧
      (s.slot 0).kind ≠ some .restore ∧ s.drv.state = .ready ∧ s.drv.inp.fault = false ∧ s.drv.openPending = false) ∧
    (∀ e ∈ [((0 : Word), Kind.diskRead), (0x1000, Kind.diskWrite), (0x2000, fun k => k == .check)],
      let s := engWith (fun g => { g with ending := some ⟨.driveFault, 100, false⟩ })
        (moving e.1 1 256 255 ⟨.good, 0, 255, List.replicate 256 7⟩)
      cycleFor s .A (.data 255) ∧ engineSlot s = some 0 ∧ s.eng.ending = some ⟨.driveFault, 100, false⟩ ∧
        s.drv.writeGate = false ∧ (s.slot 0).isKind e.2 = true ∧ s.eng.m < (s.slot 0).sectors) := by
  refine ⟨⟨part_for, by decide +kernel⟩, fun e he => ⟨⟨_, rfl, rfl, rfl⟩, ?_⟩⟩
  simp only [List.mem_cons, List.not_mem_nil, or_false] at he
  rcases he with rfl | rfl | rfl <;> decide +kernel

/-! #### The slot clock and the sectors -/

theorem witness_ClockTicksAndSource :
    (∃ f : Span → Span, ∀ sp, f sp = ⟨sp.endsAt, sp.reached || sp.endsAt == ({ base with clk := ⟨65535, .timer⟩ } :
      State).clk.count + 1⟩) ∧
    ({ base with clk := ⟨65535, .timer⟩ } : State).drv.inp.upToSpeed = true ∧ (1 : Nat) ≤ 65535 := by
  refine ⟨⟨_, fun _ => rfl⟩, rfl, by decide⟩

/-- `base` with a deadline span and a state span, both of which end at the count 101. -/
def spans (c : ClockSource) : State :=
  drvWith (fun d => { d with state := .recalibrating, span := some ⟨101, false⟩ })
    (withSlot 2 { slotOf .waiting .A (oneSector 0) 5 1 with span := some ⟨101, false⟩ } { base with clk := ⟨100, c⟩ })

/-- R9, R12: the mark that makes the count 101 reaches both spans while the source is MARKS, and neither while it is
TIMER. -/
theorem witness_ClockTicksAndSource_marks : ∀ c ∈ [ClockSource.marks, .timer],
    (spans c).eng.phase ≠ .inSector ∧ (spans c).eng.phase ≠ .finishing ∧
    after (.sectorMark 3) (spans c) (fun t => (t.clk.count, t.drv.span, (t.slot 2).span)) =
      some (if c = .marks then (101, some ⟨101, true⟩, some ⟨101, true⟩)
        else (100, some ⟨101, false⟩, some ⟨101, false⟩)) := by decide +kernel

theorem witness_SectorsOpen :
    (base.eng.phase ≠ .inSector ∧ base.eng.phase ≠ .finishing ∧ engineSlot base = none) ∧
    (let s := active .rotating (oneSector 0) 1
     engineSlot s = some 0 ∧ s.eng.phase = .rotating ∧ ((s.slot 0).start.getD 0 + s.eng.m) % 16 = (5 : BitVec 4).toNat ∧
      ((s.slot 0).start.getD 0 + s.eng.m) % 16 ≠ (4 : BitVec 4).toNat ∧ (s.slot 0).isKind Kind.diskRead = true) ∧
    (let s := engWith (fun e => { e with buf0 := ⟨.full, 0, 0, List.replicate 256 7⟩ }) (active .rotating (oneSector 0x1000) 1)
     (s.slot 0).isKind Kind.diskRead = false ∧ (s.eng.buf s.eng.m).state = .full) ∧
    (let s := inSector false (oneSector 0) 1
     engineSlot s = some 0 ∧ s.eng.phase = .inSector ∧ s.eng.headerOk = false ∧ s.eng.sector = some (.F, 5) ∧
      (0x8025 : Word) = 0x8000 ||| sectorWord .F 5 ∧ (0x7FDA : Word) = ~~~0x8025 ∧
      (0x8035 : Word) ≠ 0x8000 ||| sectorWord .F 5 ∧ s.eng.mismatches = 0) ∧
    (let s := inSector false (oneSector 0x1000) 1
     engineSlot s = some 0 ∧ (s.slot 0).isKind Kind.diskWrite = true ∧ s.eng.heldOff = false ∧ s.eng.protectSeen = none ∧
      (s.slot 0).platter ≠ some .C ∧ s.drv.inp.onCylinder = true ∧ s.drv.inp.fault = false ∧
      s.drv.inp.writeProtect = false) ∧
    (let s := engWith (fun e => { e with heldOff := true, mismatches := 1 }) (inSector false (oneSector 0x1000) 1)
     engineSlot s = some 0 ∧ s.eng.heldOff = true ∧ s.eng.mismatches ≠ 0 ∧ s.eng.buf0.state ≠ .good ∧
      s.eng.buf1.state ≠ .good ∧ s.drv.writeGate = false) ∧
    (let s := inSector true (oneSector 0) 1
     engineSlot s = some 0 ∧ s.eng.phase = .inSector ∧ s.eng.headerOk = true ∧ (s.slot 0).isKind Kind.diskRead = true ∧
      (s.eng.buf s.eng.m).state = .empty) ∧
    (let s := engWith (fun e => { e with buf0 := ⟨.good, 0, 9, List.replicate 256 7⟩ }) (inSector true (oneSector 0) 1)
     engineSlot s = some 0 ∧ (s.eng.buf s.eng.m).state ≠ .empty) := by
  decide +kernel

theorem witness_SectorsOpen_early :
    (let s := inSector false (oneSector 0x1000) 1
     engineSlot s = some 0 ∧ s.eng.phase = .inSector ∧ s.eng.headerOk = false ∧ s.eng.mismatches = 0) ∧
    (let s := engWith (fun e => { e with mismatches := 1 }) (inSector false (oneSector 0) 1)
     engineSlot s = some 0 ∧ s.eng.mismatches ≠ 0 ∧ s.eng.anyGood = false ∧ s.drv.writeGate = false) ∧
    (let s := drvWith (fun d => { d with writeGate := true }) (inSector true (recordOf 0x1000 0 37 512 0 0) 2)
     engineSlot s = some 0 ∧ s.eng.headerOk = true ∧ (s.slot 0).isKind Kind.diskWrite = true ∧ s.eng.ending = none ∧
      s.drv.writeGate = true ∧ s.eng.sector = some (.F, 5) ∧ s.eng.m + 1 < (s.slot 0).sectors ∧
      ((s.slot 0).start.getD 0 + s.eng.m) % 32 ≠ 31) ∧
    (let s := inSector true (oneSector 0x1000) 1
     engineSlot s = some 0 ∧ (s.slot 0).sectors ≤ s.eng.m + 1 ∧ (s.eng.buf (s.eng.m + 1)).state ≠ .good) ∧
    (let s := engWith (fun e => { e with rereads := 2 }) (inSector true (oneSector 0x2000) 1)
     engineSlot s = some 0 ∧ (s.slot 0).kind = some .check ∧ s.eng.recalibrated = false ∧ s.eng.rereads < 3) ∧
    (let s := engWith (fun e => { e with recalibrated := true }) (inSector true (oneSector 0) 1)
     engineSlot s = some 0 ∧ (s.slot 0).kind = some .read ∧ (s.eng.buf (s.eng.m + 1)).state ≠ .good ∧
      (s.eng.buf s.eng.m).state ≠ .good) ∧
    (let s := drvWith (fun d => { d with writeGate := true })
        (engWith (fun e => { e with phase := .finishing, work := none }) (inSector true (oneSector 0x1000) 1))
     s.eng.phase = .finishing ∧ s.drv.writeGate = true ∧ s.eng.sector = some (.F, 5)) ∧
    (let s := engWith (fun e => { e with mismatches := 1, buf0 := ⟨.good, 0, 9, List.replicate 256 7⟩ })
        (inSector false (oneSector 0) 1)
     engineSlot s = some 0 ∧ s.eng.headerOk = false ∧ s.eng.mismatches ≠ 0 ∧ s.eng.buf0.state = .good) := by
  decide +kernel

/-- FINISHING in sector 5 of platter F with write gate off, the header judged good when `ok`, held off when `hold`. -/
def finishing (ok hold : Bool) : State :=
  engWith (fun e => { e with phase := .finishing, work := none, heldOff := hold }) (inSector ok (oneSector 0x1000) 1)

theorem witness_SectorsOpen_finishing :
    (let s := finishing false true
     s.eng.phase = .finishing ∧ s.eng.headerOk = false ∧ s.eng.sector = some (.F, 5) ∧ s.drv.writeGate = false ∧
      (0x8025 : Word) = 0x8000 ||| sectorWord .F 5 ∧ (0x7FDA : Word) = ~~~0x8025 ∧
      (0x8035 : Word) ≠ 0x8000 ||| sectorWord .F 5 ∧ s.eng.heldOff = true) ∧
    (let s := finishing false false
     s.eng.phase = .finishing ∧ s.eng.headerOk = false ∧ s.eng.sector = some (.F, 5) ∧ s.drv.writeGate = false ∧
      s.eng.heldOff = false ∧ s.drv.inp.onCylinder = true ∧ s.drv.inp.fault = false ∧ s.drv.inp.writeProtect = false) ∧
    (let s := drvWith (fun d => { d with headSel := 1, inp := { d.inp with writeProtect := true } }) (finishing false false)
     s.eng.phase = .finishing ∧ s.eng.heldOff = false ∧ s.drv.inp.writeProtect = true ∧ s.drv.headSel < 2) := by
  decide +kernel

/-- A WRITE of two sectors of platter C from sector 5 with its buffers FULL, waiting for the mark of its target `m`, with
protect seen as `q` says and write-protect as `w` does. -/
def protecting (m : Nat) (q : Option Nat) (w : Bool) : State :=
  let r := recordOf 0x1000 0 5 512 0 0
  let b := (⟨.full, m, 0, List.replicate 256 7⟩ : Buffer)
  drvWith (fun d => { d with inp := { d.inp with writeProtect := w } })
    (engWith (fun e => { e with target := some m, protectSeen := q, buf0 := b, buf1 := b })
      (working .rotating (withSlot 0 { slotOf .active .A r 5 2 with platter := some .C } base)))

/-- R117: the first mark under write-protect sets protect seen to its position, a later one keeps it, also once the input
has fallen, and without either write gate is not held off. -/
theorem witness_SectorsOpen_protect : ∀ e ∈ [(0, none, true, true, some 0), (1, none, true, true, some 1),
      (1, some 0, false, true, some 0), (0, none, false, false, (none : Option Nat))],
    let s := protecting e.1 e.2.1 e.2.2.1
    engineSlot s = some 0 ∧ s.eng.phase = .rotating ∧ ((s.slot 0).start.getD 0 + s.eng.m) % 16 = 5 + e.1 ∧
      (s.eng.buf s.eng.m).state = .full ∧ (s.slot 0).isKind Kind.diskWrite = true ∧ (s.slot 0).platter = some .C ∧
      after (.sectorMark (BitVec.ofNat 4 (5 + e.1))) s (fun t => (t.eng.phase, t.eng.heldOff, t.eng.protectSeen)) =
        some (.inSector, e.2.2.2) := by decide +kernel

theorem witness_SectorsEnd_heldOff : (finishing true true).eng.phase = .finishing ∧
    (finishing true true).eng.headerOk = true ∧ (finishing true true).drv.writeGate = false := by decide +kernel

/-- The sector of a request of kind `w0` and `n` sectors open with its header good, the first buffer `b`. -/
def ending (w0 : Word) (n : Nat) (b : Buffer) : State :=
  engWith (fun e => { e with buf0 := b }) (inSector true (recordOf w0 0 37 (BitVec.ofNat 16 (256 * n)) 0 0) n)

theorem witness_SectorsEnd :
    (let s := drvWith (fun d => { d with writeGate := true })
        (engWith (fun e => { e with phase := .finishing }) (ending 0x1000 1 ⟨.full, 0, 0, [7]⟩))
     s.eng.phase = .finishing ∧ s.eng.headerOk = true ∧ s.drv.writeGate = true ∧ s.eng.sector = some (.F, 5)) ∧
    (let s := ending 0 2 ⟨.receiving, 0, 0, []⟩
     engineSlot s = some 0 ∧ s.eng.phase = .inSector ∧ s.eng.headerOk = true ∧ (s.eng.buf s.eng.m).state = .receiving ∧
      (s.slot 0).isKind Kind.transfers = true ∧ s.eng.ending = none ∧ s.eng.rereads = 0 ∧
      s.eng.recalibrated = false ∧ s.eng.m + 1 < (s.slot 0).sectors) ∧
    (List.replicate 256 (7 : Word)).length = 256 ∧
    (let s := engWith (fun e => { e with rereads := 3 }) (ending 0 1 ⟨.receiving, 0, 0, []⟩)
     engineSlot s = some 0 ∧ 3 ≤ s.eng.rereads ∧ (s.slot 0).sectors ≤ s.eng.m + 1) ∧
    (let s := engWith (fun e => { e with recalibrated := true }) (ending 0 1 ⟨.receiving, 0, 0, []⟩)
     engineSlot s = some 0 ∧ s.eng.recalibrated = true ∧ (s.eng.buf (s.eng.m + 1)).state ≠ .good ∧
      (s.eng.buf s.eng.m).state ≠ .good ∧ (s.slot 0).isKind Kind.diskWrite = false) ∧
    (let s := ending 0x2000 1 ⟨.full, 0, 0, List.replicate 256 7⟩
     engineSlot s = some 0 ∧ (s.slot 0).kind = some .check ∧ 255 < (s.slot 0).wordsAt s.eng.m ∧
      (List.replicate 256 (7 : Word)).getD 255 0 = (s.eng.buf s.eng.m).words.getD 255 0 ∧
      (List.replicate 255 (7 : Word) ++ [8]).getD 255 0 ≠ (s.eng.buf s.eng.m).words.getD 255 0) ∧
    (let s := drvWith (fun d => { d with writeGate := true }) (ending 0x1000 3 ⟨.full, 0, 0, List.replicate 256 7⟩)
     engineSlot s = some 0 ∧ (s.slot 0).isKind Kind.diskWrite = true ∧ s.drv.writeGate = true ∧
      s.eng.sector = some (.F, 5) ∧ s.eng.m + 2 < (s.slot 0).sectors) ∧
    (let s := engWith (fun e => { e with protectSeen := some 0 }) (ending 0x1000 1 ⟨.full, 0, 0, List.replicate 256 7⟩)
     engineSlot s = some 0 ∧ s.drv.writeGate = false ∧ (s.slot 0).sectors ≤ s.eng.m + 1 ∧
      (s.eng.buf (s.eng.m + 1)).state ≠ .good) := by
  decide +kernel

/-! #### The engine and the drive -/

/-- `base` with slot 0 just ACTIVE with kind `w0` at sector `i` of platter `p`. -/
def selected (w0 : Word) (p : Platter) (i : Nat) : State :=
  withSlot 0 { slotOf .active .A (oneSector w0) i 1 with platter := some p } base

theorem witness_EngineTakesTheActiveSlot :
    (let s := selected 0x9000 .F 0
     s.activeSlot = some 0 ∧ engineSlot s ≠ some 0 ∧ s.eng.phase ≠ .finishing ∧ s.drv.state = .ready ∧
      (s.slot 0).kind = some .restore) ∧
    (let s := engWith (fun e => { e with abandoned := some (.recalibrate, ⟨200, false⟩) }) (selected 0x2000 .F 5)
     s.activeSlot = some 0 ∧ engineSlot s ≠ some 0 ∧ (s.slot 0).kind = some .check ∧ s.eng.abandoned ≠ none) ∧
    (let s := selected 0x3000 .F 5
     s.activeSlot = some 0 ∧ engineSlot s ≠ some 0 ∧ (s.slot 0).kind = some .seek ∧ s.eng.abandoned = none ∧
      s.drv.cyl = recCylinder (s.slot 0).words ∧ s.drv.writeGate = false) ∧
    (let s := drvWith (fun d => { d with inp := { d.inp with writeProtect := true } }) (selected 0x1000 .C 5)
     s.activeSlot = some 0 ∧ engineSlot s ≠ some 0 ∧ (s.slot 0).isKind Kind.diskWrite = true ∧
      (s.slot 0).platter = some .C ∧ s.drv.inp.writeProtect = true ∧ s.drv.cyl = (s.slot 0).start.getD 0 / 32) ∧
    (let s := selected 0 .C 12799
     s.activeSlot = some 0 ∧ engineSlot s ≠ some 0 ∧ s.drv.cyl ≠ (s.slot 0).start.getD 0 / 32 ∧ s.eng.abandoned = none) ∧
    (let s := drvWith (fun d => { d with state := .faulted, cause := 4, inp := { d.inp with fault := true } })
        (selected 0x9000 .F 0)
     s.activeSlot = some 0 ∧ engineSlot s ≠ some 0 ∧ s.drv.state = .faulted ∧ s.drv.inp.fault = true) ∧
    (let s := drvWith (fun d => { d with state := .faulted, cause := 4, inp := { d.inp with upToSpeed := false } })
        (selected 0x9000 .F 0)
     s.activeSlot = some 0 ∧ s.drv.state = .faulted ∧ s.drv.inp.fault = false ∧ s.drv.inp.upToSpeed = false) ∧
    (let s := drvWith (fun d => { d with state := .faulted, cause := 4 }) (selected 0 .F 0)
     s.activeSlot = some 0 ∧ s.drv.state = .faulted ∧ (s.slot 0).kind ≠ some .restore ∧ (s.tap.get .A).arb = .free) ∧
    (let s := drvWith (fun d => { d with state := .parked }) (selected 0 .F 0)
     s.activeSlot = some 0 ∧ s.drv.state ≠ .ready ∧ s.drv.state ≠ .faulted ∧ (s.tap.get .A).arb = .free) := by
  decide +kernel

theorem witness_EngineTakesTheActiveSlot_fills :
    let s := selected 0x1000 .F 5
    s.activeSlot = some 0 ∧ engineSlot s ≠ some 0 ∧ s.eng.phase ≠ .finishing ∧ s.drv.state = .ready ∧
      (s.slot 0).kind = some .write ∧ s.eng.abandoned = none ∧ s.drv.cyl = (s.slot 0).start.getD 0 / 32 ∧
      s.drv.writeGate = false ∧ (s.slot 0).platter ≠ some .C := by decide +kernel

/-- `s` with on cylinder low and the movement `mv` awaited. -/
def movingTo (mv : Option Movement) (s : State) : State :=
  drvWith (fun d => { d with move := mv, inp := { d.inp with onCylinder := false } }) s

theorem witness_MovementsEnd :
    (let s := engWith (fun e => { e with span := some ⟨100, true⟩ }) (active .seeking (oneSector 0) 1)
     s.eng.phase = .seeking ∧ s.eng.span = some ⟨100, true⟩ ∧ s.eng.seekRetry = false) ∧
    (let s := movingTo (some (.seek 399)) (active .seeking (oneSector 0) 1)
     s.drv.inp.onCylinder = false ∧ s.drv.openPending = false ∧ s.drv.state = .ready ∧ engineSlot s = some 0 ∧
      s.eng.abandoned = none ∧ s.drv.move = some (.seek 399) ∧ s.eng.phase = .seeking) ∧
    (let s := movingTo (some .recalibrate) (engWith (fun e => { e with moveTo := 1 }) (active .recalWait (oneSector 0) 1))
     s.drv.inp.onCylinder = false ∧ s.drv.move = some .recalibrate ∧ engineSlot s = some 0 ∧ s.eng.phase = .recalWait ∧
      s.eng.moveTo ≠ 0) ∧
    (let s := movingTo (some .recalibrate)
        (engWith (fun e => { e with restore := some .ready }) (active .restoring (oneSector 0x9000) 0))
     s.drv.inp.onCylinder = false ∧ engineSlot s = some 0 ∧ s.eng.phase = .restoring ∧ s.eng.restore = some .ready) ∧
    (State.reset.drv.inp.onCylinder = false ∧ State.reset.drv.openPending = false ∧ State.reset.drv.state = .offline) := by
  decide +kernel

/-- Slot 0's request of kind `w0` waits for an abandoned recalibrate, with on cylinder low. -/
def waitsForMove (w0 : Word) : State :=
  movingTo (some .recalibrate) (engWith (fun e => { e with
    work := some (0, 1), abandoned := some (.recalibrate, ⟨200, false⟩) }) (selected w0 .F 12799))

theorem witness_MovementsEnd_waiting :
    (let s := waitsForMove 0
     s.drv.inp.onCylinder = false ∧ s.drv.openPending = false ∧ s.drv.state = .ready ∧ engineSlot s = some 0 ∧
      s.eng.abandoned ≠ none ∧ s.eng.phase = .idle ∧ s.eng.begun = false ∧ s.eng.ending = none ∧
      ((s.slot 0).start.getD 0) / 32 = 399) ∧
    (let s := waitsForMove 0x3000
     engineSlot s = some 0 ∧ (s.slot 0).kind = some .seek ∧ recCylinder (s.slot 0).words = 0) := by
  decide +kernel

theorem witness_FaultsAreEntered :
    (base.drv.inp.fault = false ∧ base.drv.openPending = false ∧ base.drv.state = .ready) ∧
    (let s := engWith (fun e => { e with span := some ⟨100, true⟩, seekRetry := true }) (active .seeking (oneSector 0) 1)
     s.eng.phase = .seeking ∧ s.eng.span = some ⟨100, true⟩ ∧ s.eng.seekRetry = true ∧ AtWork s 0) ∧
    (let s := engWith (fun e => { e with span := some ⟨100, true⟩ }) (active .recalWait (oneSector 0) 1)
     s.eng.phase = .recalWait ∧ s.eng.span = some ⟨100, true⟩) ∧
    (let s := engWith (fun e => { e with abandoned := some (.seek 9, ⟨100, true⟩) }) base
     ∃ k, s.eng.abandoned = some (.seek k, ⟨100, true⟩)) ∧
    (let s := engWith (fun e => { e with abandoned := some (.recalibrate, ⟨100, true⟩) }) base
     s.eng.abandoned = some (.recalibrate, ⟨100, true⟩)) ∧
    (let s := drvWith (fun d => { d with state := .spinningUp, span := some ⟨100, true⟩ }) base
     s.drv.state = .spinningUp ∧ s.drv.span = some ⟨100, true⟩) ∧
    (let s := drvWith (fun d => { d with state := .recalibrating, span := some ⟨100, true⟩ }) base
     s.drv.state = .recalibrating ∧ s.drv.span = some ⟨100, true⟩) ∧
    (let s := drvWith (fun d => { d with state := .faulted, cause := 2, recovery := true, span := some ⟨100, true⟩ }) base
     s.drv.state = .faulted ∧ s.drv.recovery = true ∧ s.drv.span = some ⟨100, true⟩) := by
  refine ⟨by decide, ⟨rfl, rfl, rfl, ⟨by decide +kernel, by decide, rfl, ?_⟩⟩, by decide, ⟨9, rfl⟩, rfl, by decide, by decide,
    by decide⟩
  intro p j h _
  exact absurd h (by
    have : ∀ t : Tap, t.arb = .free → t.arb ≠ .part p := fun t e => by rw [e]; exact fun h => nomatch h
    exact this _ rfl)

theorem witness_DriveStatesChange :
    (base.drv.openPending = false ∧ base.drv.inp.power = true ∧ base.drv.state ≠ .offline) ∧
    (let d := { Drive.reset ⟨false, true, false, false, false, true, true⟩ with openPending := false }
     d.inp.power = false ∧ d.state = .offline ∧ d.inp.cartridgeClosed = true ∧ d.inp.upToSpeed = true ∧
      d.inp.fault = true) ∧
    (let d := { base.drv with state := .spinningUp, inp := { base.drv.inp with upToSpeed := false } }
     d.state = .spinningUp ∧ d.inp.upToSpeed = false ∧ d.inp.fault = false) ∧
    (base.drv.state = .ready ∧ base.drv.inp.headsLoaded = true ∧ base.drv.move = none ∧ base.drv.inp.onCylinder = true ∧
      base.drv.inp.upToSpeed = true) ∧
    (let d := { base.drv with
        state := .recalibrating, homed := true, recovery := true, inp := { base.drv.inp with headsLoaded := false } }
     d.inp.headsLoaded = false ∧ d.homed = true ∧ d.state = .recalibrating) ∧
    (let s := movingTo (some .recalibrate) (drvWith (fun d => { d with state := .recalibrating }) base)
     s.drv.inp.onCylinder = false ∧ s.drv.move = some .recalibrate ∧ s.drv.inp.headsLoaded = true ∧ s.eng.phase = .idle ∧
      s.eng.abandoned = none ∧ s.drv.state = .recalibrating) ∧
    (let d := { base.drv with span := some ⟨100, true⟩ }
     d.state = .ready ∧ d.span = some ⟨100, true⟩) ∧
    (let d := { base.drv with state := .parked, span := some ⟨100, true⟩ }
     d.state = .parked ∧ d.span = some ⟨100, true⟩) ∧
    (let d := { base.drv with
        state := .faulted, recovery := true, span := some ⟨300, false⟩, inp := { base.drv.inp with fault := true } }
     d.state = .faulted ∧ d.recovery = true ∧ d.span ≠ none ∧ d.inp.fault = true) ∧
    (let d := { base.drv with state := .parked, inp := { base.drv.inp with headsLoaded := false, upToSpeed := false } }
     d.state ≠ .spinningUp ∧ d.inp.upToSpeed = false ∧ d.state ≠ .recalibrating ∧ d.inp.headsLoaded = false ∧
      d.state ≠ .ready ∧ d.inp.onCylinder = true ∧ d.state ≠ .faulted) ∧
    (let d := { base.drv with state := .stopped }
     d.state = .stopped ∧ d.inp.fault = false ∧ d.inp.headsLoaded = true) := by
  decide

/-- R11, R156: in a state that it does not move, a fall of up to speed is recorded and makes the source TIMER. -/
theorem witness_DriveStatesChange_unmoved :
    (∀ st ∈ [DriveState.stopped, .spinningUp, .faulted, .offline],
      let s := drvWith (fun d => { d with state := st, idle := .both 2 }) base
      s.drv.openPending = false ∧ s.drv.inp.upToSpeed = true ∧
        after .upToSpeedFall s (fun t => (t.drv.state, t.drv.inp.upToSpeed, t.clk, t.out)) =
          some (st, false, ⟨100, .timer⟩, [])) ∧
    (let s := drvWith (fun d => { d with state := .offline }) base
     s.drv.inp.power = true ∧ after .powerPresentFall s (fun t => (t.drv.state, t.drv.inp.power, t.clk)) =
       some (.offline, false, ⟨100, .timer⟩)) ∧
    (let s := drvWith (fun d => { d with inp := { d.inp with power := false } }) base
     s.drv.openPending = false ∧ s.drv.inp.power = false ∧ s.drv.state ≠ .offline) := by decide +kernel

theorem free_at_work {s : State} {i : Fin 12} (hs : engineSlot s = some i) (hp : s.eng.phase ≠ .finishing)
    (he : s.eng.ending = none) (hf : (s.tap.get (s.slot i).side).arb = .free) : AtWork s i :=
  ⟨hs, hp, he, fun p _ h => by rw [hf] at h; cases h⟩

theorem witness_DriveStatesChange_open :
    (let d := Drive.reset ⟨false, false, false, false, false, true, false⟩
     d.inp.power = false ∧ d.state = .offline ∧ d.inp.cartridgeClosed = false) ∧
    (let s := drvWith (fun d => { d with state := .opened }) base
     s.drv.inp.upToSpeed = true ∧ s.drv.state = .opened ∧ s.drv.inp.cartridgeClosed = true) ∧
    (let s := drvWith (fun d => { d with
          state := .recalibrating, homed := true, recovery := true, inp := { d.inp with headsLoaded := false } })
        (engWith (fun e => { e with restore := some .faulted }) (active .restoring (oneSector 0x9000) 0))
     s.drv.state = .recalibrating ∧ AtWork s 0 ∧ (s.slot 0).kind = some .restore ∧ s.eng.restore = some .faulted) :=
  ⟨by decide, by decide, rfl, free_at_work (by decide +kernel) (by decide) rfl rfl, by decide +kernel, rfl⟩

/-- A RESTORE at work in slot 0, taken while the drive was as `r` says. -/
def restoringFrom (r : RestoreFrom) : State :=
  engWith (fun e => { e with restore := some r }) (active .restoring (oneSector 0x9000) 0)

theorem restoring_at_work : ∀ r, AtWork (restoringFrom r) 0 := by
  rintro ⟨⟩ <;> exact free_at_work (by decide +kernel) (by decide) rfl rfl

theorem witness_DriveStatesChange_restore : ∀ r ∈ [RestoreFrom.ready, .faulted],
    AtWork (restoringFrom r) 0 ∧ ((restoringFrom r).slot 0).kind = some .restore ∧
      (restoringFrom r).eng.restore = some r :=
  fun r _ => ⟨restoring_at_work r, by cases r <;> decide +kernel, rfl⟩

/-- A RESTORE at work that a power rise finds in OFFLINE with the cartridge out. -/
def restoringOffline : State :=
  drvWith (fun d => { d with state := .offline, inp := DriveInputs.low }) (restoringFrom .faulted)

theorem witness_DriveStatesChange_power : AtWork restoringOffline 0 ∧
    restoringOffline.drv.openPending = false ∧ restoringOffline.drv.inp.power = false ∧
    restoringOffline.drv.state = .offline ∧ restoringOffline.drv.inp.cartridgeClosed = false ∧
    restoringOffline.activeSlot ≠ none :=
  ⟨free_at_work (by decide +kernel) (by decide) rfl rfl, by decide +kernel⟩

theorem witness_IdleControlActs :
    (let s := drvWith (fun d => { d with state := .stopped, idle := .both 2, inp := { d.inp with upToSpeed := false } }) base
     s.drv.state = .stopped ∧ s.waitingSlots = [] ∧ 2 ≤ s.idleTarget) ∧
    (let s := drvWith (fun d => { d with state := .stopped, idle := ⟨2, 1⟩, inp := { d.inp with upToSpeed := false } }) base
     s.idleTarget < 2 ∧ s.drv.inp.fault = false ∧ s.drv.inp.upToSpeed = false ∧ s.out = []) ∧
    (let s := drvWith (fun d => { d with state := .parked, idle := .both 1 }) (pacing 0 0 none)
     s.drv.state = .parked ∧ s.waitingSlots ≠ [] ∧ s.drv.inp.fault = false ∧ s.out = []) ∧
    (let s := drvWith (fun d => { d with state := .parked, idle := .both 2 }) base
     s.waitingSlots = [] ∧ s.idleTarget = 2) ∧
    (let s := drvWith (fun d => { d with state := .parked, idle := .both 1 }) base
     s.waitingSlots = [] ∧ s.idleTarget = 1) ∧
    (let s := drvWith (fun d => { d with idle := .both 1 }) base
     s.drv.state = .ready ∧ s.waitingSlots = [] ∧ s.activeSlot = none ∧ 1 ≤ s.idleTarget) ∧
    (base.drv.state = .ready ∧ base.idleTarget = 0) ∧
    (State.reset.drv.state ≠ .stopped ∧ State.reset.drv.state ≠ .parked ∧ State.reset.drv.state ≠ .ready) := by
  decide +kernel

theorem witness_IdleControlActs_faults :
    (let s := drvWith (fun d => { d with state := .stopped, inp := { d.inp with fault := true } }) base
     s.drv.state = .stopped ∧ s.idleTarget < 2 ∧ s.drv.inp.fault = true ∧ s.out = []) ∧
    (let s := drvWith (fun d => { d with state := .stopped, idle := .both 2 }) (pacing 0 0 none)
     s.drv.state = .stopped ∧ s.waitingSlots ≠ [] ∧ s.drv.inp.fault = false ∧ s.drv.inp.upToSpeed = true ∧
      s.drv.writeGate = false) ∧
    (let s := drvWith (fun d => { d with state := .parked, inp := { d.inp with fault := true } }) base
     s.drv.state = .parked ∧ s.idleTarget = 0 ∧ s.drv.inp.fault = true ∧ s.out = []) := by decide +kernel

theorem witness_CartridgeEventsAct :
    (let s := drvWith (fun d => { d with state := .opened }) base
     s.drv.openPending = false ∧ s.drv.state = .opened ∧ s.drv.inp.cartridgeClosed = true) ∧
    (base.drv.state ≠ .opened ∧ base.drv.state ≠ .offline ∧ base.activeSlot = none ∧ engineSlot base = none ∧
      base.eng.phase ≠ .finishing ∧ ∀ i, (base.slot i).state ≠ .lockwait) ∧
    (let s := withSlot 3 { lockSlot .lockwait 0 with platter := some .F } base
     ∀ i, (s.slot i).state = .lockwait → (s.slot i).kind = some .lock →
      (s.slot i).platter = some (recLockPlatter (s.slot i).words)) ∧
    (active .rotating (oneSector 0) 1).activeSlot ≠ none ∧
    (let s := drvWith (fun d => { d with state := .opened, openPending := true }) base
     s.drv.openPending = true ∧ s.activeSlot = none ∧ s.drv.deferred = []) ∧
    (let s := drvWith (fun d => { d with
        state := .opened, inp := { d.inp with cartridgeClosed := false, upToSpeed := false } }) base
     s.drv.openPending = false ∧ s.drv.inp.cartridgeClosed = false ∧ s.drv.state = .opened ∧ s.drv.inp.upToSpeed = false) ∧
    (let d := { base.drv with
        openPending := true, inp := { base.drv.inp with cartridgeClosed := false, onCylinder := false } }
     d.openPending = true ∧ d.inp.cartridgeClosed = false ∧ d.inp.fault = false ∧ d.inp.onCylinder = false) ∧
    (base.drv.inp.writeProtect ≠ true ∧ base.drv.writeGate = false) ∧
    (let s := engWith (fun e => { e with sector := some (.C, 5) })
        (drvWith (fun d => { d with writeGate := true }) (ending 0x1000 2 ⟨.full, 0, 0, List.replicate 256 7⟩))
     s.drv.inp.writeProtect ≠ true ∧ s.drv.writeGate = true ∧ s.eng.sector = some (.C, 5) ∧ engineSlot s = some 0 ∧
      s.eng.phase = .inSector ∧ s.eng.ending = none ∧ s.eng.m + 1 < (s.slot 0).sectors) := by
  decide +kernel

/-- An OPEN entry under way that holds back an idle write and a rise of cartridge closed. -/
def holding : State :=
  drvWith (fun d => { d with state := .opened, openPending := true, deferred := [.idleWrite .A 2, .closedRise] }) base

theorem witness_CartridgeEventsAct_held :
    (holding.drv.openPending = true ∧ holding.activeSlot = none ∧ ∀ i, (holding.slot i).state ≠ .lockwait) ∧
    (let low := { base.drv.inp with onCylinder := false, headsLoaded := false, fault := true }
     let s := drvWith (fun d => { d with inp := low }) holding
     InputEvent s .onCylinderRise .onCylinderRise { low with onCylinder := true } s.clk ∧
      InputEvent holding .onCylinderFall .onCylinderFall { base.drv.inp with onCylinder := false } holding.clk ∧
      InputEvent State.reset .powerPresentRise .powerRise { DriveInputs.low with power := true } ⟨0, .timer⟩ ∧
      InputEvent State.reset .upToSpeedRise .upToSpeedRise { DriveInputs.low with upToSpeed := true } ⟨0, .timer⟩ ∧
      InputEvent s .headsLoadedRise .headsRise { low with headsLoaded := true } s.clk ∧
      InputEvent holding .headsLoadedFall .headsFall { base.drv.inp with headsLoaded := false } holding.clk ∧
      InputEvent holding .faultRise .faultRise { base.drv.inp with fault := true } holding.clk ∧
      InputEvent s .faultFall .faultFall { low with fault := false } s.clk ∧
      InputEvent holding .loadSwitchPressed .loadSwitch base.drv.inp holding.clk ∧
      InputEvent holding .cartridgeClosedFall .closedFall { base.drv.inp with cartridgeClosed := false } holding.clk ∧
      InputEvent State.reset .cartridgeClosedRise .closedRise { DriveInputs.low with cartridgeClosed := true }
        ⟨0, .timer⟩ ∧
      InputEvent holding .powerPresentFall .powerFall { base.drv.inp with power := false, upToSpeed := false }
        ⟨100, .timer⟩ ∧
      InputEvent holding .upToSpeedFall .upToSpeedFall { base.drv.inp with upToSpeed := false } ⟨100, .timer⟩) := by
  refine ⟨⟨rfl, by decide +kernel, by decide +kernel⟩, ?_⟩
  unfold InputEvent
  simp [holding, drvWith, base, State.reset, Drive.reset, DriveInputs.low]

theorem witness_CartridgeEventsAct_protect :
    (let s := engWith (fun e => { e with sector := some (.C, 5) })
        (drvWith (fun d => { d with writeGate := true }) (ending 0x1000 1 ⟨.full, 0, 0, List.replicate 256 7⟩))
     s.drv.inp.writeProtect ≠ true ∧ s.drv.writeGate = true ∧ s.eng.sector = some (.C, 5) ∧ engineSlot s = some 0 ∧
      s.eng.phase = .inSector ∧ s.eng.ending = none ∧ (s.slot 0).sectors ≤ s.eng.m + 1 ∧
      (s.eng.buf (s.eng.m + 1)).state ≠ .good) ∧
    (let s := engWith (fun e => { e with sector := some (.C, 5), phase := .finishing, work := none })
        (drvWith (fun d => { d with writeGate := true }) (ending 0x1000 1 ⟨.full, 0, 0, List.replicate 256 7⟩))
     s.drv.writeGate = true ∧ s.eng.sector = some (.C, 5) ∧ s.eng.phase = .finishing) := by decide +kernel

/-- A sector of platter F under write gate goes on through the rise of write-protect (R13). -/
theorem witness_CartridgeEventsAct_platterF :
    let s := engWith (fun e => { e with sector := some (.F, 5) })
        (drvWith (fun d => { d with writeGate := true }) (ending 0x1000 2 ⟨.full, 0, 0, List.replicate 256 7⟩))
    s.drv.inp.writeProtect ≠ true ∧ s.drv.writeGate = true ∧ s.eng.sector = some (.F, 5) ∧
      after (.writeProtectChange true) s (fun t => (t.drv.writeGate, t.out)) = some (true, []) := by decide +kernel

/-- R23's three examples of a signal width, a kind code of each table row (R20), and R21's first and last values. -/
theorem test_record_fields :
    [0x000F, 0x00CA, 0x0052].map (fun w => recSignalWidth [0, 0, 0, 0, 0, 0, 0, 0, w]) = [1, 6, 5] ∧
    [0x0FFF, 0x1FFF, 0x2FFF, 0x3FFF, 0x4FFF, 0x5FFF, 0x6FFF, 0x7FFF, 0x8FFF, 0x9FFF, 0xA000, 0xFFFF].map
      (fun w => recKind [w]) = [some .read, some .write, some .check, some .seek, some .contRead, some .contWrite,
        some .lock, some .unlock, some .mountAck, some .restore, none, none] ∧
    (recTag [0, 0, 0x8435], recHead [0, 0, 0x8435], recSector [0, 0, 0x8435], recCylinder [0, 0xFF90]) =
      (33, 3, 5, 400) := by decide

theorem witness_WordsHaveTheirLayout : faulted.drv.cause ≤ 4 ∧ busy.level ≤ 8 ∧ counted.map.last.get .A ≤ 5 ∧
    (counted.slot 0).rereads ≤ 15 ∧ (⟨.partition, 7, 63, 31, 0⟩ : Entry).prio ≤ 7 := by decide +kernel

theorem witness_WordsHaveTheirLayout_rows :
    (let sl := slotOf .waiting .A (oneSector 0x4000) 12799 1
     sl.kind = some .contRead ∧ sl.platter = some .F ∧ sl.start = some 12799 ∧
      ({ sl with platter := none, start := none } : Slot).start = none) ∧
    ((slotOf .waiting .A (recordOf 0x7000 5 32 399 0 0) 0 0).kind = some .unlock ∧
      (slotOf .waiting .A (recordOf 0x8000 0 0 0 0 0) 0 0).kind = some .mountAck) ∧
    (let s := moving 0 1 256 255 ⟨.good, 0, 255, List.replicate 256 7⟩
     (s.slot 0).isKind Kind.diskRead = true ∧ (s.slot 0).platter = some .F ∧ (s.slot 0).start = some 5 ∧
      (s.slot 0).isKind Kind.transfers = true ∧ 5 + (s.slot 0).sectors ≤ 12800 ∧
      ((s.tap.get .A).fence.map Fence.index) = some 255 ∧ 255 < recCount (s.slot 0).words ∧ 255 / 256 < (s.slot 0).sectors) ∧
    (let s := active .rotating (oneSector 0x1000) 1
     (s.slot 0).isKind Kind.diskWrite = true ∧ s.eng.written < (s.slot 0).sectors ∧
      s.eng.protectSeen.getD 0 < (s.slot 0).sectors) ∧
    (let s := active .rotating (oneSector 0x2000) 1
     (s.slot 0).kind = some .check ∧ s.eng.m < (s.slot 0).sectors) ∧
    (slotOf .active .A (oneSector 0x3000) 0 0).kind = some .seek := by decide +kernel

end Sys2Proof.Tests
end

section
/-! The selector's figures (sections 6.2 and 6.3): one layer of facts about the seek estimate, the rotational wait, the
access cost, the slack, the tier and the score, and from it the two statements about them. -/

namespace Sys2Proof.Machine

/-! ### The access cost (R82, R83) -/

theorem cylDistance_eq (c k : Nat) : cylDistance c k = max c k - min c k := by
  unfold cylDistance; omega

@[simp] theorem seekEstimate_zero : seekEstimate 0 = 0 := rfl

theorem seekEstimate_pos {d : Nat} (h : 1 ≤ d) : seekEstimate d = 3 + (d + 24) / 25 :=
  if_neg (by omega)

theorem seekEstimate_bounds {d : Nat} (h : 1 ≤ d) (h' : d ≤ 399) : 4 ≤ seekEstimate d ∧ seekEstimate d ≤ 19 := by
  rw [seekEstimate_pos h]; omega

/-- The two ranges of R82's table: no movement, or 4 to 19. -/
theorem seekEstimate_range {d : Nat} (h : d ≤ 399) :
    seekEstimate d = 0 ∨ 4 ≤ seekEstimate d ∧ seekEstimate d ≤ 19 := by
  rcases Nat.eq_zero_or_pos d with rfl | hd
  · exact .inl seekEstimate_zero
  · exact .inr (seekEstimate_bounds hd h)

theorem rotationalWait_le (sector earliest : Nat) : rotationalWait sector earliest ≤ 15 := by
  unfold rotationalWait; omega

/-- The wait ends at the sector asked for: counted from the earliest start sector, `w` sectors pass until it. -/
theorem add_rotationalWait_mod {sector earliest : Nat} (hs : sector < 16) (he : earliest < 16) :
    (earliest + rotationalWait sector earliest) % 16 = sector := by
  unfold rotationalWait; omega

theorem Slot.firstCylinder_eq (sl : Slot) :
    sl.firstCylinder = if sl.kind = some .seek then recCylinder sl.words else sl.start.getD 0 / 32 := rfl

theorem Slot.accessCost_of_seek {sl : Slot} (h : sl.kind = some .seek) (cyl mark : Nat) :
    sl.accessCost cyl mark = seekEstimate (cylDistance sl.firstCylinder cyl) := if_pos h

theorem Slot.accessCost_of_ne_seek {sl : Slot} (h : sl.kind ≠ some .seek) (cyl mark : Nat) :
    sl.accessCost cyl mark = seekEstimate (cylDistance sl.firstCylinder cyl) +
      rotationalWait (sl.start.getD 0 % 16)
        (earliestStart mark (seekEstimate (cylDistance sl.firstCylinder cyl))) := if_neg h

/-- The rotational wait adds 0 to 15 to the seek estimate, whatever the kind. -/
theorem Slot.accessCost_bounds (sl : Slot) (cyl mark : Nat) :
    seekEstimate (cylDistance sl.firstCylinder cyl) ≤ sl.accessCost cyl mark ∧
      sl.accessCost cyl mark ≤ seekEstimate (cylDistance sl.firstCylinder cyl) + 15 := by
  by_cases h : sl.kind = some .seek
  · rw [accessCost_of_seek h]; omega
  · rw [accessCost_of_ne_seek h]
    have hw := rotationalWait_le (sl.start.getD 0 % 16)
      (earliestStart mark (seekEstimate (cylDistance sl.firstCylinder cyl)))
    omega

/-- Settles O40: the estimate's ranges give the cost's, since the wait adds at most 15 to it. -/
theorem accessCostIsEstimated : Obligations.AccessCostIsEstimated := by
  unfold Obligations.AccessCostIsEstimated
  refine ⟨seekEstimate_zero, fun d h h' => ⟨seekEstimate_pos h, seekEstimate_bounds h h'⟩, ?_⟩
  intro sl cyl mark c σ hc hc399 hcyl _ hσ
  have hfirst : seekEstimate (cylDistance sl.firstCylinder cyl) = σ := by
    rw [sl.firstCylinder_eq, ← hc, cylDistance_eq, hσ]
  have hrange : σ = 0 ∨ 4 ≤ σ ∧ σ ≤ 19 := hσ ▸ seekEstimate_range (by omega)
  have hcost := sl.accessCost_bounds cyl mark
  rw [hfirst] at hcost
  refine ⟨fun hk => ?seek, fun hk => ?transfer, fun h0 => by omega, fun h0 => by omega⟩
  case seek => rw [Slot.accessCost_of_seek hk, hfirst]
  case transfer =>
    refine ⟨earliestStart mark σ, rotationalWait (sl.start.getD 0 % 16) (earliestStart mark σ), rfl,
      rotationalWait_le _ _, ?_, ?_⟩
    · exact add_rotationalWait_mod (Nat.mod_lt _ (by decide)) (Nat.mod_lt _ (by decide))
    · rw [Slot.accessCost_of_ne_seek hk, hfirst]

/-! ### Age and slack (R68, R84) -/

theorem age_of_seq {s : State} {i : Fin 12} {a : Word} (h : (s.slot i).seq = some a) :
    s.age i = (s.counter - a).toNat := by
  rw [State.age, h, Option.getD_some]

theorem older_iff_of_seq {s : State} {i j : Fin 12} {a b : Word} (ha : (s.slot i).seq = some a)
    (hb : (s.slot j).seq = some b) :
    s.older i j = true ↔ (s.counter - b).toNat < (s.counter - a).toNat ∨
      ((s.counter - a).toNat = (s.counter - b).toNat ∧ i < j) := by
  rw [older_iff, age_of_seq ha, age_of_seq hb]

theorem slack_of_deadline {s : State} {i : Fin 12} {d : Word} (hc : recClass (s.slot i).words = 0)
    (hd : (s.slot i).deadline = some d) :
    s.slack i = some (if (s.slot i).passed then -1
      else ((d - s.clk.count).toNat : Int) - (1 + (s.access i : Int) + ((s.slot i).sectors : Int))) := by
  simp [State.slack, hc, hd]

theorem slack_eq_none {s : State} {i : Fin 12} (h : recClass (s.slot i).words ≠ 0 ∨ (s.slot i).deadline = none) :
    s.slack i = none := by
  cases hd : (s.slot i).deadline with
  | none => simp [State.slack, hd]
  | some d =>
    have hc : recClass (s.slot i).words ≠ 0 := h.resolve_right (by simp [hd])
    simp [State.slack, hd, hc]

/-! ### The tier (R85) -/

theorem restoreSlot_iff (s : State) (i : Fin 12) : s.restoreSlot i = true ↔ (s.slot i).kind = some .restore := by
  cases h : (s.slot i).kind <;> simp [State.restoreSlot, Slot.isKind, h]

theorem tier_of_restore {s : State} {i : Fin 12} (h : (s.slot i).kind = some .restore) : s.tier i = 0 :=
  if_pos ((restoreSlot_iff s i).2 h)

theorem tier_of_slack_le {s : State} {i : Fin 12} {k : Int} (h : (s.slot i).kind ≠ some .restore)
    (hk : s.slack i = some k) (hle : k ≤ 16) : s.tier i = 1 := by
  have hr : s.restoreSlot i ≠ true := mt (restoreSlot_iff s i).1 h
  simp [State.tier, hr, hk, hle]

/-- With no slack of 16 or less the pass count alone decides. -/
theorem tier_of_slack_gt {s : State} {i : Fin 12} (h : (s.slot i).kind ≠ some .restore)
    (hgt : ∀ k : Int, s.slack i = some k → 16 < k) : s.tier i = if 8 ≤ (s.slot i).passCount then 2 else 3 := by
  have hr : s.restoreSlot i ≠ true := mt (restoreSlot_iff s i).1 h
  have hs : (s.slack i).any (fun k => decide (k ≤ 16)) = false := by
    cases hk : s.slack i with
    | none => rfl
    | some k => simpa using hgt k hk
  simp [State.tier, hr, hs]

theorem passCount_le_of_tier_eq_three {s : State} {i : Fin 12} (h : s.tier i = 3) : (s.slot i).passCount ≤ 7 := by
  by_contra hp
  have h8 : 8 ≤ (s.slot i).passCount := by omega
  unfold State.tier at h
  split_ifs at h <;> omega

/-- In FAULTED only a RESTORE is eligible (R80). -/
theorem kind_of_eligible_of_faulted {s : State} {i : Fin 12} (hf : s.drv.state = .faulted) (h : i ∈ s.eligible) :
    (s.slot i).kind = some .restore := by
  simp only [State.eligible, hf, List.mem_filter] at h
  exact (restoreSlot_iff s i).1 h.2

/-! ### The tier 3 score (R87) -/

theorem classWeight_le (c : Nat) : classWeight c ≤ 24 := by
  unfold classWeight; split_ifs <;> omega

theorem score_bounds {s : State} {i : Fin 12} (hp : (s.slot i).passCount ≤ 7) (ha : s.access i ≤ 34) :
    -7 ≤ s.score i ∧ s.score i ≤ 58 := by
  have hw := classWeight_le (recClass (s.slot i).words)
  unfold State.score; omega

/-- Settles O41: each clause is one of the facts above. -/
theorem tierAndScore : Obligations.TierAndScore := by
  unfold Obligations.TierAndScore
  rintro s i cls rfl
  refine ⟨fun j a b => older_iff_of_seq, rfl, fun d => slack_of_deadline, slack_eq_none, tier_of_restore,
    fun hk => ⟨fun k => tier_of_slack_le hk, fun hgt => ⟨fun h8 => ?passedOver, fun h7 => ⟨?ordinary, score_bounds h7⟩⟩⟩,
    passCount_le_of_tier_eq_three, ?score, fun hf he => tier_of_restore (kind_of_eligible_of_faulted hf he)⟩
  case passedOver => rw [tier_of_slack_gt hk hgt, if_pos h8]
  case ordinary => rw [tier_of_slack_gt hk hgt, if_neg (by omega)]
  case score => simp [State.score, classWeight]

end Sys2Proof.Machine
end

section
/-! Steps and laws: every law is kept by a step, since every command keeps it (`exec_keeps`). -/

namespace Sys2Proof.Machine

/-! ### Steps -/

/-- Settles O1, by the two branches of `step`. -/
theorem stepRunsFrontCommand : Obligations.StepRunsFrontCommand := by
  unfold Obligations.StepRunsFrontCommand
  refine ⟨fun c rest s h => ?front, fun s h => ?idle⟩
  case front => rw [step, h]
  case idle => rw [step, h]

/-- Settles O2: the queue is part of what every command keeps. -/
theorem commandsLeaveTheQueue : Obligations.CommandsLeaveTheQueue := by
  unfold Obligations.CommandsLeaveTheQueue
  intro c s t h
  exact (exec_keeps c h).queue

/-- What a step can do: idle, or run a command, which keeps every law, on a state that differs in its queue alone. -/
theorem step_cases {s t : State} (h : step s = .next t) :
    t = s ∨ ∃ q : List Instr, Keeps { s with pending := q } t := by
  unfold step at h
  split at h
  next => exact .inl (Host.Outcome.next.inj h).symm
  next c rest _ => exact .inr ⟨rest, exec_keeps c h⟩

/-! ### The laws -/

/-- Settles O5: a step idles or keeps the law. -/
theorem regionMapLawKept : Obligations.RegionMapLawKept := by
  unfold Obligations.RegionMapLawKept
  intro s t law h
  obtain rfl | ⟨q, k⟩ := step_cases h
  · exact law
  · exact k.map law

/-- The request table's law speaks of slots, intake units and the posting queue only. -/
theorem PlacesLaw.withQueue {s : State} (k : PlacesLaw s) (q : List Instr) : PlacesLaw { s with pending := q } :=
  ⟨k.eight, k.intake, k.posting⟩

/-- The lock table's second law speaks of locks, map and slots only. -/
theorem SharedLaw.withQueue {s : State} (k : SharedLaw s) (q : List Instr) : SharedLaw { s with pending := q } :=
  ⟨k.held, k.unchanging, k.waiting⟩

/-- Settles O6: a step idles or keeps both laws. -/
theorem lockTableLawKept : Obligations.LockTableLawKept := by
  unfold Obligations.LockTableLawKept
  refine ⟨fun s t law h => ?locks, fun s t places law h => ?shared⟩
  case locks =>
    obtain rfl | ⟨q, k⟩ := step_cases h
    · exact law
    · exact k.locks law
  case shared =>
    obtain rfl | ⟨q, k⟩ := step_cases h
    · exact law
    · exact k.shared ⟨places.withQueue q, law.withQueue q⟩

/-- Settles O7: a step idles or keeps both laws. -/
theorem oneActiveSlotKept : Obligations.OneActiveSlotKept := by
  unfold Obligations.OneActiveSlotKept
  refine ⟨fun s t law h => ?active, fun s t law h => ?places⟩
  case active =>
    obtain rfl | ⟨q, k⟩ := step_cases h
    · exact law
    · exact k.oneActive law
  case places =>
    obtain rfl | ⟨q, k⟩ := step_cases h
    · exact law
    · exact k.places (law.withQueue q)

/-- Settles O8: a step idles or keeps the law. -/
theorem presenterLawKept : Obligations.PresenterLawKept := by
  unfold Obligations.PresenterLawKept
  intro s t law h
  obtain rfl | ⟨q, k⟩ := step_cases h
  · exact law
  · exact k.presenters law

/-- Settles O9: a step idles or keeps the law. -/
theorem driveLawKept : Obligations.DriveLawKept := by
  unfold Obligations.DriveLawKept
  intro s t law h
  obtain rfl | ⟨q, k⟩ := step_cases h
  · exact law
  · exact k.drive law

/-- Settles O10: a step idles or keeps both laws. -/
theorem intakeAndSlotCountsKept : Obligations.IntakeAndSlotCountsKept := by
  unfold Obligations.IntakeAndSlotCountsKept
  intro s t h
  obtain rfl | ⟨q, k⟩ := step_cases h
  · exact ⟨id, id⟩
  · exact ⟨k.intake, k.slots⟩

/-! ### The state right after reset -/

theorem slot_reset (i : Fin 12) : State.reset.slot i = Slot.empty 0 := by
  simp [State.slot, State.reset]

theorem places_reset : PlacesLaw State.reset where
  eight x := by cases x <;> decide
  intake x := by cases x <;> exact ⟨List.nodup_nil, fun i hi => absurd hi List.not_mem_nil⟩
  posting := ⟨List.nodup_nil, fun e he => absurd he List.not_mem_nil⟩

theorem shared_reset : SharedLaw State.reset where
  held _ _ h := (no_locks h).elim
  unchanging _ _ h := (no_locks h).elim
  waiting i h := by rw [slot_reset] at h; exact absurd h (by decide)

/-- Settles O3, law by law: every block is at its reset value, and no slot, lock or notice is there. -/
theorem resetMeetsEveryLaw : Obligations.ResetMeetsEveryLaw where
  map := mapReset_law
  locks _ _ _ _ _ h := (no_locks h).elim
  shared := shared_reset
  oneActive i _ h := by rw [slot_reset] at h; exact absurd h (by decide)
  places := places_reset
  slots i := by rw [slot_reset]; exact emptySlot_law 0
  intake x := by cases x <;> exact intakeReset_law
  presenters x := by
    refine ⟨by cases x <;> exact presenterReset_law, fun e h => ?_⟩
    cases x <;> exact absurd h (by simp [State.reset, Sided.get, Tap.reset, Arb.entry])
  drive := driveReset_law DriveInputs.low

end Sys2Proof.Machine
end

section
/-! Commands that are no event, and the memory taps: what a computer cycle is by its place, and what its arrival and its
end do. -/

namespace Sys2Proof.Machine

variable {s : State} {x : Side}

/-! ### A command whose premise does not stand -/

theorem runIf_false {c : Bool} (f : State → State) (h : c = false) : runIf c f s = .next { s with out := [] } := by
  subst h; rfl

theorem onWatched_none {d : Word} {wt : Nat} {w : Watch → Bool} {f : CompCycle → State → State} {p : Watch → Prop}
    (h : NoComputerCycle s x p) (hw : ∀ v, w v = true → p v) : onWatched x d wt w f s = .next { s with out := [] } := by
  unfold onWatched computerCycle
  cases ha : (s.tap.get x).arb with
  | computer c => exact runIf_false _ (Bool.eq_false_iff.2 fun hc => h c ha (hw _ hc))
  | _ => rfl

theorem onPart_none {wt : Nat} {k : CycleKind → Bool} {f : PartCycle → State → State} {p : CycleKind → Prop}
    (h : NoPartCycle s x p) (hk : ∀ v, k v = true → p v) : onPart x wt k f s = .next { s with out := [] } := by
  unfold onPart partCycle
  cases ha : (s.tap.get x).arb with
  | part c => exact runIf_false _ (Bool.eq_false_iff.2 fun hc => h c ha (hk _ hc))
  | _ => rfl

theorem spanReached_of_unreached {sp : Option Span} (h : Unreached sp) : spanReached sp = false := by
  obtain _ | ⟨e, r⟩ := sp
  · rfl
  · cases r with
    | false => rfl
    | true => exact absurd rfl (h e)

theorem eq_submission_of_cell {w : Watch} (h : w.cell.isSome = true) : ∃ i, w = .submission i := by
  cases w <;> simp_all [Watch.cell]

theorem eq_proposal_of_cell {w : Watch} (h : w.proposalCell.isSome = true) : ∃ b, w = .proposal b := by
  cases w <;> simp_all [Watch.proposalCell]

theorem eq_clearing {k : CycleKind} (h : k.isClearing = true) : ∃ i, k = .clearing i := by
  cases k <;> simp_all [CycleKind.isClearing]

theorem eq_fetch {k : CycleKind} (h : k.isFetch = true) : ∃ n, k = .fetch n := by
  cases k <;> simp_all [CycleKind.isFetch]

theorem eq_result {k : CycleKind} (h : k.isResult = true) : ∃ n, k = .result n := by
  cases k <;> simp_all [CycleKind.isResult]

theorem eq_notice {k : CycleKind} (h : k.isNotice = true) : ∃ e acc, k = .notice e acc := by
  cases k <;> simp_all [CycleKind.isNotice]

theorem eq_status {k : CycleKind} (h : k.isStatus = true) : ∃ c, k = .status c := by
  cases k <;> simp_all [CycleKind.isStatus]

theorem eq_data {k : CycleKind} (h : k.isData = true) : ∃ j, k = .data j := by
  cases k <;> simp_all [CycleKind.isData]

theorem lowestFree_eq_none (h : ∀ k, (s.slot k).state ≠ .free) : s.lowestFree = none := by
  simpa [State.lowestFree, List.find?_eq_none] using fun k _ => h k

theorem mayTake_of_noTake (h : NoTake s x) : mayTake s x = false := by
  unfold mayTake Intake.idle
  rcases h with h | h | h | h | h | h
  · simp [h]
  · simp [h]
  · obtain ⟨f, hf⟩ := Option.ne_none_iff_exists'.1 h; simp [hf]
  · simp [h]
  · simp [Nat.not_lt.2 h]
  · simp [lowestFree_eq_none h]

theorem expiredProposer_eq_none {m : RegionMap} (h : (∀ x, m.protocol ≠ .proposed x) ∨ Unreached m.span) :
    expiredProposer m = none := by
  unfold expiredProposer
  cases hp : m.protocol with
  | proposed y => simp [spanReached_of_unreached (h.resolve_left fun hn => hn y hp)]
  | _ => rfl

theorem stateSpanEnded_false {st : DriveState} (h : s.drv.state ≠ st ∨ Unreached s.drv.span) :
    stateSpanEnded st s = false := by
  unfold stateSpanEnded
  rcases h with h | h
  · simp [h]
  · simp [spanReached_of_unreached h]

/-- Settles O11, command by command: the premise that `NonEvent` denies is the one the command asks for. -/
theorem nonEventsHaveNoEffect : Obligations.NonEventsHaveNoEffect := by
  unfold Obligations.NonEventsHaveNoEffect
  intro c s h
  unfold NonEvent at h
  cases c with
  | partReset | computerCycleArrival | sectorMark | headerJudged | sectorDataStart | sectorEnd | loadSwitchPressed =>
    exact h.elim
  | initAsserted x => exact runIf_false _ h
  | initReleased x => exact runIf_false _ (by simp [show s.live x = true from h])
  | holdTimerExpiry x => exact runIf_false _ (by simp [show (s.tap.get x).held = none from h])
  | computerCycleEnd x d wt =>
    rw [exec, execComputerCycleEnd]; exact onWatched_none h (by simp)
  | unwatchedCellWrite x wt =>
    rw [exec, execUnwatchedCellWrite]; exact onWatched_none h (by simp)
  | submissionCellWrite x wt =>
    rw [exec, execSubmissionCellWrite]; exact onWatched_none h fun _ => eq_submission_of_cell
  | levelCellWrite x wt =>
    rw [exec, execLevelCellWrite]; exact onWatched_none h (by simp)
  | noticeCellRead x d wt =>
    rw [exec, execNoticeCellRead]; exact onWatched_none h (by simp)
  | endOfNotice x wt =>
    rw [exec, execEndOfNotice]; exact onWatched_none h (by simp)
  | crossCellWrite x wt =>
    rw [exec, execCrossCellWrite]; exact onWatched_none h (by simp)
  | idleCellWrite x wt =>
    rw [exec, execIdleCellWrite]; exact onWatched_none h (by simp)
  | proposalCellWrite x wt =>
    rw [exec, execProposalCellWrite]; exact onWatched_none h fun _ => eq_proposal_of_cell
  | sealCellWrite x wt =>
    rw [exec, execSealCellWrite]; exact onWatched_none h (by simp)
  | proposalExpiry =>
    change execProposalExpiry s = _
    rw [execProposalExpiry, expiredProposer_eq_none h]; rfl
  | take x =>
    obtain ⟨hc, ht⟩ := h
    change execTake x s = _
    rw [execTake, hc, runIf_false _ (mayTake_of_noTake ht)]; rfl
  | chainFetchStart x =>
    refine runIf_false _ ?_
    unfold mayStartChain Intake.idle
    rcases h with h | h | h
    · simp [h]
    · obtain ⟨f, hf⟩ := Option.ne_none_iff_exists'.1 h; simp [hf]
    · obtain ⟨f, hf⟩ := Option.ne_none_iff_exists'.1 h; simp [hf]
  | clearingWriteEnd x a wt =>
    rw [exec, execClearingWriteEnd]; exact onPart_none h fun _ => eq_clearing
  | recordFetchReadEnd x d wt =>
    rw [exec, execRecordFetchReadEnd]; exact onPart_none h fun _ => eq_fetch
  | selectionTaken => exact runIf_false _ (by simp [show s.sel = none from h])
  | deadlineEvent i => exact runIf_false _ (spanReached_of_unreached h)
  | postingStart =>
    refine runIf_false _ ?_
    unfold mayPost
    rcases h with h | h
    · obtain ⟨f, hf⟩ := Option.ne_none_iff_exists'.1 h; simp [hf]
    · simp [h]
  | resultWordWriteEnd x wt =>
    rw [exec, execResultWordWriteEnd]; exact onPart_none h fun _ => eq_result
  | signalPairReadEnd x d wt =>
    rw [exec, execSignalPairReadEnd]; exact onPart_none h (by simp)
  | signalPairEnd x a wt =>
    rw [exec, execSignalPairEnd]; exact onPart_none h (by simp)
  | memoryTimeout x wt =>
    rw [exec, execMemoryTimeout]; exact onPart_none h (by simp)
  | noticeCellWriteEnd x a wt =>
    rw [exec, execNoticeCellWriteEnd]; exact onPart_none h fun _ => eq_notice
  | levelCellWriteEnd x a wt =>
    rw [exec, execLevelCellWriteEnd]; exact onPart_none h (by simp)
  | statusWriteEnd x a wt =>
    rw [exec, execStatusWriteEnd]; exact onPart_none h fun _ => eq_status
  | dataCycleEnd x d wt =>
    rw [exec, execDataCycleEnd]; exact onPart_none h fun _ => eq_data
  | slotTimerTick => exact runIf_false _ (by simp [show s.clk.source = .marks from h])
  | indexRise =>
    refine runIf_false _ ?_
    rcases h with h | h <;> simp [h]
  | onCylinderRise => exact runIf_false _ (by simp [show s.drv.inp.onCylinder = true from h])
  | onCylinderFall => exact runIf_false _ h
  | seekSpanEnd =>
    refine runIf_false _ ?_
    unfold seekSpanEnded
    rcases h with h | h
    · simp [h]
    · simp [spanReached_of_unreached h]
  | engineRecalSpanEnd =>
    refine runIf_false _ ?_
    unfold recalSpanEnded
    rcases h with ⟨h1, h2 | h2⟩ | h
    · simp [h1, h2]
    · simp [h1, h2]
    · simp [spanReached_of_unreached h]
  | abandonedMovementSpanEnd => exact runIf_false _ (spanReached_of_unreached h)
  | powerPresentFall => exact runIf_false _ h
  | powerPresentRise => exact runIf_false _ (by simp [show s.drv.inp.power = true from h])
  | upToSpeedRise => exact runIf_false _ (by simp [show s.drv.inp.upToSpeed = true from h])
  | upToSpeedFall => exact runIf_false _ h
  | headsLoadedRise => exact runIf_false _ (by simp [show s.drv.inp.headsLoaded = true from h])
  | headsLoadedFall => exact runIf_false _ h
  | writeProtectChange level => exact runIf_false _ (by simp [show s.drv.inp.writeProtect = level from h])
  | faultRise => exact runIf_false _ (by simp [show s.drv.inp.fault = true from h])
  | faultFall => exact runIf_false _ h
  | faultResetSpanEnd =>
    refine runIf_false _ ?_
    unfold faultResetSpanEnded
    rcases h with h | h | h
    · simp [h]
    · simp [h]
    · simp [spanReached_of_unreached h]
  | cartridgeClosedFall => exact runIf_false _ h
  | cartridgeClosedRise => exact runIf_false _ (by simp [show s.drv.inp.cartridgeClosed = true from h])
  | openEntryResume =>
    refine runIf_false _ ?_
    rcases h with h | h
    · simp [h]
    · obtain ⟨f, hf⟩ := Option.ne_none_iff_exists'.1 h; simp [hf]
  | spinUpTimeout => exact runIf_false _ (stateSpanEnded_false h)
  | recalibrateTimeout => exact runIf_false _ (stateSpanEnded_false h)
  | parkDelayEnd => exact runIf_false _ (stateSpanEnded_false h)
  | spinDownDelayEnd => exact runIf_false _ (stateSpanEnded_false h)

/-! ### The place of a cycle in the control page (R31) -/

section place
variable {t : Tap} {a : Addr}

theorem examine_write (hl : t.live = true) {k : Nat} (h : a.toNat = t.base + k) : t.examine .write a = watchWrite k := by
  simp [Tap.examine, hl, h]

theorem examine_read (hl : t.live = true) : t.examine .read a = if a.toNat = t.base + 9 then .noticeRead else .none := by
  unfold Tap.examine
  by_cases hb : a.toNat < t.base
  · rw [if_pos (.inr hb), if_neg (by omega)]
  · rw [if_neg (by simp [hl, hb])]

theorem examine_outside_page (dir : Dir) (h : a.toNat < t.base) : t.examine dir a = .none := if_pos (.inr h)

theorem watchWrite_lt (i : Fin 8) : watchWrite i.val = .submission i := dif_pos i.isLt

theorem watchWrite_partOwned {k : Nat} (h : 15 ≤ k) (h' : k ≤ 19) : watchWrite k = .partOwned := by
  interval_cases k <;> rfl

theorem watchWrite_above {k : Nat} (h : 19 < k) : watchWrite k = .none := by
  rw [watchWrite, dif_neg (by omega)]
  unfold watchCell
  split <;> simp_all

/-- Settles O16: a write is watched by its offset in the page, a read at offset 9 alone. -/
theorem cyclesWatchedByPlace : Obligations.CyclesWatchedByPlace := by
  unfold Obligations.CyclesWatchedByPlace
  intro t a hl
  refine ⟨fun i h => (examine_write hl h).trans (watchWrite_lt i), fun h => examine_write hl h,
    fun h => ⟨(examine_read hl).trans (if_pos h), examine_write hl h⟩, fun h => examine_write hl h,
    fun h => examine_write hl h, fun h => examine_write hl h, fun h => examine_write hl h, fun h => examine_write hl h,
    fun h h' => ?owned, fun h => (examine_read hl).trans (if_neg h), fun h => ?outside⟩
  case owned =>
    rw [examine_write hl (k := a.toNat - t.base) (by omega)]
    exact watchWrite_partOwned (by omega) (by omega)
  case outside =>
    rcases h with h | h
    · exact examine_outside_page .write h
    · rw [examine_write hl (k := a.toNat - t.base) (by omega)]
      exact watchWrite_above (by omega)

/-! ### The fence (R39) -/

theorem covers_iff (d : FenceDir) (dir : Dir) : d.covers dir = true ↔ dir = .write ∨ d = .diskRead := by
  simp [FenceDir.covers, or_comm]

/-- Settles O17: the index of a fenced word is that of `wordIndex_iff`. -/
theorem fencedWordsQualify : Obligations.FencedWordsQualify := by
  unfold Obligations.FencedWordsQualify
  intro t f dir a hl hf
  have hq : t.qualifies dir a = true ↔
      f.dir.covers dir = true ∧ ∃ j, wordIndex f a = some j ∧ f.index ≤ j := by
    simp [Tap.qualifies, hl, hf, Option.any_eq_true]
  rw [hq, covers_iff]
  refine and_congr_right fun _ => exists_congr fun j => ?_
  rw [wordIndex_iff]
  exact and_comm

end place

/-! ### Arrivals and ends of computer cycles -/

theorem inTap_iff : inTap s x = true ↔
    (s.tap.get x).comp.isSome = true ∨ (s.tap.get x).held.isSome = true ∨ ∃ c, (s.tap.get x).arb = .computer c := by
  unfold inTap computerCycle
  cases (s.tap.get x).arb <;> simp [or_comm]

theorem arrival_waits {dir : Dir} {a : Addr} (d : Word) (h : (s.tap.get x).qualifies dir a = false) :
    arrival x dir a d s =
      s.modTap x (fun t => { t with comp := some ⟨dir, a, d, (s.tap.get x).examine dir a⟩ }) := by
  simp [arrival, h]

theorem arrival_held {dir : Dir} {a : Addr} (d : Word) (h : (s.tap.get x).qualifies dir a = true)
    (hw : (s.tap.get x).fenceWaits = true) : arrival x dir a d s =
      s.modTap x (fun t => { t with held := some ⟨dir, a, d, (s.tap.get x).examine dir a⟩ }) := by
  simp [arrival, h, hw]

theorem arrival_touches {dir : Dir} {a : Addr} (d : Word) (h : (s.tap.get x).qualifies dir a = true)
    (hw : (s.tap.get x).fenceWaits = false) : arrival x dir a d s =
      touch (s.modTap x (fun t => { t with comp := some ⟨dir, a, d, (s.tap.get x).examine dir a⟩ })) := by
  simp [arrival, h, hw]

theorem touch_active {i : Fin 12} (h : s.activeSlot = some i) :
    touch s = { s with slots := s.slots.set i { s.slot i with touchedFlag := true } } := by
  simp [touch, h, State.modSlot, State.slot]

theorem fenceWaits_of_fence {t : Tap} {f : Fence} (h : t.fence = some f) : t.fenceWaits = f.wait := by
  simp [Tap.fenceWaits, h]

/-- Settles O18: an arrival by what the fence says of it, the expiry, and the second cycle. -/
theorem arrivalsWaitAreHeldOrTouch : Obligations.ArrivalsWaitAreHeldOrTouch := by
  unfold Obligations.ArrivalsWaitAreHeldOrTouch
  intro x dir a d s
  refine ⟨fun hc hh ha => ?arrives, fun c i hh hi => ?expires, fun h => ?second⟩
  case arrives =>
    have hin : inTap s x = false := Bool.eq_false_iff.2 fun h => by
      rcases inTap_iff.1 h with h | h | ⟨c, h⟩
      · simp [hc] at h
      · simp [hh] at h
      · exact ha c h
    have he : exec (.computerCycleArrival x dir a d) s = .next (settle s (arrival x dir a d s.begun)) := by
      change execComputerCycleArrival x dir a d s = _
      rw [execComputerCycleArrival, hin]; rfl
    rw [he]
    refine ⟨fun hq => ?_, fun f hq hf hw => ?_, fun f i hq hf hw hi => ?_⟩
    · rw [arrival_waits (s := s.begun) d hq]; rfl
    · rw [arrival_held (s := s.begun) d hq ((fenceWaits_of_fence hf).trans hw)]; rfl
    · rw [arrival_touches (s := s.begun) d hq ((fenceWaits_of_fence hf).trans hw), touch_active (i := i) (by exact hi)]; rfl
  case expires =>
    have he : exec (.holdTimerExpiry x) s = .next (settle s (touch (s.begun.modTap x Tap.release))) :=
      runIf_true (by simp [hh])
    rw [he, touch_active (i := i) (by exact hi), State.modTap, Tap.release]
    simp only [State.begun_tap, hh]
    rfl
  case second =>
    change execComputerCycleArrival x dir a d s = _
    rw [execComputerCycleArrival, if_pos (inTap_iff.2 h)]

theorem returned_eq (c : CompCycle) (d : Word) : returned x c d = if c.dir = .read then [.readReturned x d] else [] := by
  unfold returned; cases c.dir <;> rfl

/-- The equation of a watched write: the delivery follows the end of the cycle. -/
theorem onWatched_write {w : Watch} {v : Word} (h : watchedAs s x w v) (wt : Nat) {k : Watch → Bool} (hk : k w = true)
    (f : CompCycle → State → State) : ∃ c : CompCycle, c.watch = w ∧ c.data = v ∧
      onWatched x 0 wt k f s = .next (settle s (f c (s.ended x wt []))) := by
  obtain ⟨c, ha, hw, hv, hd, hl⟩ := h
  refine ⟨c, hw, hv, ?_⟩
  rw [onWatched_eq ha (by rw [hw]; exact hk), if_pos hl, returned_eq, hd]; rfl

/-- Settles O19: neither delivery does anything. -/
theorem unwatchedCyclesEnd : Obligations.UnwatchedCyclesEnd := by
  unfold Obligations.UnwatchedCyclesEnd
  refine ⟨fun x c d wt s ha hw => ?unwatched, fun x v wt s h => ?owned⟩
  case unwatched =>
    change execComputerCycleEnd x d wt s = _
    rw [execComputerCycleEnd, onWatched_eq ha (by rcases hw with hw | hw <;> simp [hw]), ite_self, returned_eq]
  case owned =>
    obtain ⟨c, -, -, he⟩ := onWatched_write h wt (k := (· == .partOwned)) rfl (fun _ s => s)
    exact he

/-- Settles O15: the release's own effect, written out. -/
theorem initReleasedMakesLive : Obligations.InitReleasedMakesLive := by
  unfold Obligations.InitReleasedMakesLive
  intro x s h
  exact runIf_true (by simp [h])

end Sys2Proof.Machine
end

section
/-! The pending list: a submission by the four rows of R48's table, with the clearing write it withdraws (R51). -/

namespace Sys2Proof.Machine

variable {s : State} {x : Side}

/-! ### The state a memory cycle's end leaves -/

section ended
variable (s : State) (x : Side) (wt : Nat) (o : List Output)

@[simp] theorem ended_tap : (s.ended x wt o).tap = s.tap.set x { s.tap.get x with arb := .free } := rfl
@[simp] theorem ended_intake : (s.ended x wt o).intake = s.intake := rfl
@[simp] theorem ended_slots : (s.ended x wt o).slots = s.slots := rfl
@[simp] theorem ended_counter : (s.ended x wt o).counter = s.counter := rfl
@[simp] theorem ended_sel : (s.ended x wt o).sel = s.sel := rfl
@[simp] theorem ended_map : (s.ended x wt o).map = s.map := rfl
@[simp] theorem ended_locks : (s.ended x wt o).locks = s.locks := rfl
@[simp] theorem ended_eng : (s.ended x wt o).eng = s.eng := rfl
@[simp] theorem ended_drv : (s.ended x wt o).drv = { s.drv with wordTime := wt } := rfl
@[simp] theorem ended_post : (s.ended x wt o).post = s.post := rfl
@[simp] theorem ended_pres : (s.ended x wt o).pres = s.pres := rfl
@[simp] theorem ended_clk : (s.ended x wt o).clk = s.clk := rfl
@[simp] theorem ended_out : (s.ended x wt o).out = o := rfl
@[simp] theorem ended_pending : (s.ended x wt o).pending = s.pending := rfl
@[simp] theorem ended_slot (i : Fin 12) : (s.ended x wt o).slot i = s.slot i := rfl

@[simp] theorem ended_live (y : Side) : (s.ended x wt o).live y = s.live y := by
  cases x <;> cases y <;> rfl

end ended

/-! ### The pending list (R48) -/

theorem pends_iff {u : Intake} {i : Fin 8} : u.pends i = true ↔ ∃ w, (i, w) ∈ u.list := by
  simp [Intake.pends]

theorem submit_zero (u : Intake) (i : Fin 8) :
    u.submit i 0 = { u with list := u.list.filter (fun e => e.1 != i) } := by
  unfold Intake.submit
  cases hp : u.pends i with
  | true => simp
  | false =>
    have hn : ∀ e ∈ u.list, e.1 ≠ i := fun e he h =>
      Bool.eq_false_iff.1 hp (pends_iff.2 ⟨e.2, h ▸ he⟩)
    have hf : u.list.filter (fun e => e.1 != i) = u.list := List.filter_eq_self.2 fun e he => by simp [hn e he]
    simp [hf]

theorem submit_pending {u : Intake} {i : Fin 8} {v : Word} (hv : v ≠ 0) (hp : u.pends i = true) :
    u.submit i v = { u with
      list := u.list.map (fun e => if e.1 = i then (i, v) else e), overrun := min 15 (u.overrun + 1) } := by
  rw [Intake.submit, if_pos hp, if_neg hv]; rfl

theorem submit_new {u : Intake} {i : Fin 8} {v : Word} (hv : v ≠ 0) (hp : u.pends i = false) :
    u.submit i v = { u with list := u.list ++ [(i, v)] } := by
  rw [Intake.submit, if_neg (Bool.eq_false_iff.1 hp), if_neg hv]

theorem clearingGranted_of_free (h : (s.tap.get x).arb = .free) : clearingGranted s x = false := by
  simp [clearingGranted, h]

/-- A submission that does not make its cell pending changes the pending list alone. -/
theorem submitCell_of_known {i : Fin 8} {v : Word} (h : v = 0 ∨ (s.intake.get x).pends i = true) :
    submitCell x i v s = s.modIntake x (fun u => u.submit i v) := by
  refine if_neg fun ⟨hv, hp⟩ => ?_
  rcases h with h | h
  · exact hv h
  · exact absurd (h.symm.trans hp) (by decide)

/-- One that does is followed by the withdrawal of a clearing write that is not yet granted. -/
theorem submitCell_of_new {i : Fin 8} {v : Word} (hv : v ≠ 0) (hp : (s.intake.get x).pends i = false)
    (hg : clearingGranted s x = false) :
    submitCell x i v s = withdrawClearing x i false (s.modIntake x (fun u => { u with list := u.list ++ [(i, v)] })) := by
  unfold submitCell
  rw [if_pos ⟨hv, hp⟩, hg, State.modIntake, State.modIntake, submit_new hv hp]

theorem withdrawClearing_other {i : Fin 8} (g : Bool) (h : ∀ k, (s.intake.get x).fetch ≠ some ⟨k, some i⟩) :
    withdrawClearing x i g s = s := by
  unfold withdrawClearing
  split
  next => rfl
  next f hf => exact if_neg fun ⟨hc, _⟩ => h f.slot (by rw [hf, ← hc])

theorem withdrawClearing_same {i : Fin 8} {k : Fin 12} (h : (s.intake.get x).fetch = some ⟨k, some i⟩) :
    withdrawClearing x i false s = startReads x k s := by
  simp [withdrawClearing, h]

/-- Settles O20: the rows of R48 by whether the value is 0 and whether the cell is pending. -/
theorem submissionFollowsTheTable : Obligations.SubmissionFollowsTheTable := by
  unfold Obligations.SubmissionFollowsTheTable
  intro x i v wt s h
  have he : exec (.submissionCellWrite x wt) s = .next (settle s (submitCell x i v (s.ended x wt []))) := by
    obtain ⟨c, hw, hv, he⟩ := onWatched_write h wt (k := fun w => w.cell.isSome) rfl
      (fun c s => c.watch.cell.elim s (fun i => submitCell x i c.data s))
    rw [exec, execSubmissionCellWrite, he, hw, hv]; rfl
  refine ⟨_, he, ?_⟩
  have hfree : clearingGranted (s.ended x wt []) x = false := clearingGranted_of_free (by simp)
  by_cases hv : v = 0
  · subst hv
    rw [submitCell_of_known (.inl rfl)]
    simp only [submit_zero]
    simp
  · have hv' : ¬ v = 0#16 := hv
    cases hp : (s.intake.get x).pends i with
    | true =>
      have hm := pends_iff.1 hp
      rw [submitCell_of_known (s := s.ended x wt []) (.inr hp)]
      simp only [State.modIntake, ended_intake, submit_pending hv hp]
      simp [hv', hm]
    | false =>
      have hm : ∀ w, (i, w) ∉ (s.intake.get x).list := fun w hw => Bool.eq_false_iff.1 hp (pends_iff.2 ⟨w, hw⟩)
      rw [submitCell_of_new (s := s.ended x wt []) hv hp hfree]
      by_cases hf : ∃ k, (s.intake.get x).fetch = some ⟨k, some i⟩
      · obtain ⟨k, hf⟩ := hf
        rw [withdrawClearing_same (k := k) (by simp [hf]), startReads_spec]
        by_cases hq : 65532 < (s.slot k).q.toNat
        · rw [if_pos (by exact hq)]
          simpa [hv', hm, hf, State.slot] using hq
        · rw [if_neg (by exact hq)]
          simpa [hv', hm, hf] using hq
      · have hn : ∀ k, (s.intake.get x).fetch ≠ some ⟨k, some i⟩ := fun k hk => hf ⟨k, hk⟩
        rw [withdrawClearing_other _ (by simpa using hn)]
        simp [hv', hm, hn]

end Sys2Proof.Machine
end

section
/-! The presenter's operations as the relations that Safety.lean names: joining, returning, the examination, and what the
presenter does once its level is set (R145 to R151). -/

namespace Sys2Proof.Machine

variable {p : Presenter}

/-! ### The queue -/

theorem PlacedIn.perm {e : Entry} {q r : List Entry} (h : PlacedIn e q r) : r.Perm (e :: q) := by
  obtain ⟨a, b, rfl, rfl, -, -⟩ := h
  exact List.perm_middle

/-- An entry less favoured than the queue's head goes behind it. -/
theorem PlacedIn.cons_of_lt {e h : Entry} {t r : List Entry} (k : PlacedIn e (h :: t) r) (hl : h.prio < e.prio) :
    ∃ t', r = h :: t' ∧ PlacedIn e t t' := by
  obtain ⟨a, b, hq, rfl, ha, hb⟩ := k
  cases a with
  | nil =>
    obtain rfl : b = h :: t := hq.symm
    have := hb h (by simp)
    omega
  | cons g a =>
    obtain ⟨rfl, rfl⟩ := List.cons.inj hq
    exact ⟨a ++ e :: b, rfl, a, b, rfl, rfl, fun f hf => ha f (List.mem_cons_of_mem _ hf), hb⟩

theorem sameKind_eq_none {k : NoticeKind} (h : k = .completion ∨ ∀ f ∈ p.queue, f.kind ≠ k) :
    p.sameKind k = none := by
  unfold Presenter.sameKind
  rcases h with h | h
  · exact if_pos h
  · rw [List.find?_eq_none.2 (by simpa using h), ite_self]

theorem sameKind_eq_find {k : NoticeKind} (h : k ≠ .completion) :
    p.sameKind k = p.queue.find? (fun e => e.kind == k) := if_neg h

theorem makeRoom_of_lt (h : p.queue.length < 16) : p.makeRoom = p := if_neg (by omega)

theorem makeRoom_of_full (h : p.queue.length = 16) :
    p.makeRoom = { p with lost := min 15 (p.lost + 1), queue := dropLastCompletion p.queue } := if_pos (by omega)

theorem makeRoom_nextNo (p : Presenter) : p.makeRoom.nextNo = p.nextNo := by
  unfold Presenter.makeRoom; split <;> rfl

theorem makeRoom_writing (p : Presenter) : p.makeRoom.writing = p.writing := by
  unfold Presenter.makeRoom; split <;> rfl

/-- An entry that does not merge takes its place, with room made for it in a full queue (R145, R146). -/
theorem entryAdded_makeRoom (p r : Presenter) (e : Entry) (hq : r.queue = insertEntry e p.makeRoom.queue)
    (hl : r.lost = p.makeRoom.lost) (hs : r.shown = p.makeRoom.shown) (hw : r.writing = p.makeRoom.writing) :
    EntryAdded p r e where
  room h := by
    rw [makeRoom_of_lt h] at hq hl
    exact ⟨hq ▸ insertEntry_placed e p.queue, hl⟩
  full law h := by
    rw [makeRoom_of_full h] at hq hl
    have hc := exists_completion law.apart (by omega)
    exact ⟨_, dropLastCompletion_roomMade law.sorted hc, hq ▸ insertEntry_placed e _, hl⟩
  shown := ⟨hs.trans (makeRoom_fields p).2.1, hw.trans (makeRoom_writing p)⟩

/-! ### A new notice joins (R145, R146) -/

theorem join_of_none {k : NoticeKind} (h : p.sameKind k = none) (prio tag code : Nat) :
    p.join k prio tag code = if k = .completion ∧ 16 ≤ p.queue.length then p.loseOne
      else { p.makeRoom with
        queue := insertEntry ⟨k, prio, tag, code, p.nextNo⟩ p.makeRoom.queue, nextNo := p.nextNo + 1 } := by
  unfold Presenter.join; rw [h]

theorem join_of_some {k : NoticeKind} {q : Entry} (h : p.sameKind k = some q) (prio tag code : Nat) :
    p.join k prio tag code =
      { p with
        queue := insertEntry (if prio < q.prio then { q with code := code, prio := prio, no := p.nextNo }
          else { q with code := code }) (p.queue.erase q)
        nextNo := if prio < q.prio then p.nextNo + 1 else p.nextNo
        shown := shownAfterMerge p.shown [q] (if prio < q.prio then { q with code := code, prio := prio, no := p.nextNo }
          else { q with code := code })
        writing := writingAfterMerge p.writing q.no
          (if prio < q.prio then { q with code := code, prio := prio, no := p.nextNo }
          else { q with code := code }) } := by
  unfold Presenter.join; rw [h]

/-- The three fields a join leaves, whichever way it goes. -/
theorem join_rest (p : Presenter) (k : NoticeKind) (prio tag code : Nat) :
    (p.join k prio tag code).presented = p.presented ∧ (p.join k prio tag code).owed = p.owed := by
  cases h : p.sameKind k with
  | some q => rw [join_of_some h]; exact ⟨rfl, rfl⟩
  | none =>
    obtain ⟨hpr, -, how, -⟩ := makeRoom_fields p
    rw [join_of_none h]
    split
    · exact ⟨rfl, rfl⟩
    · exact ⟨hpr, how⟩

theorem join_joined (p : Presenter) (k : NoticeKind) (prio tag code : Nat) :
    NoticeJoined p (p.join k prio tag code) k prio tag code where
  dropped hk hl := by
    rw [join_of_none (sameKind_eq_none (.inl hk)), if_pos ⟨hk, hl⟩]; rfl
  added h := by
    have hn : p.sameKind k = none := sameKind_eq_none (h.imp (·.1) (·.2))
    have hc : ¬ (k = .completion ∧ 16 ≤ p.queue.length) := fun ⟨hk, hl⟩ => by
      rcases h with ⟨_, hl'⟩ | ⟨hk', _⟩
      · omega
      · exact hk' hk
    rw [join_of_none hn, if_neg hc]
    exact ⟨entryAdded_makeRoom p _ _ rfl rfl rfl rfl, rfl⟩
  merged q hk hq := by
    rw [join_of_some ((sameKind_eq_find hk).trans hq)]
    refine ⟨rfl, fun h => ?_, fun h => ?_, fun h => ?_, fun h => ?_⟩
    · simp [h, shownAfterMerge]
    · simp [h, writingAfterMerge]
    · simp only [if_neg (Nat.not_lt.2 h)]
      exact ⟨insertEntry_placed _ _, trivial⟩
    · simp only [if_pos h]
      exact ⟨insertEntry_placed _ _, trivial⟩
  rest := by
    obtain ⟨hpr, how⟩ := join_rest p k prio tag code
    obtain ⟨hl, hs⟩ := join_levels p k prio tag code
    exact ⟨hpr, hl, hs, how⟩

/-! ### An entry returns (R145, R146) -/

/-- The entry that `e` and the queue's entry `q` of its kind become. -/
def Entry.merged (e q : Entry) : Entry :=
  { q with prio := min e.prio q.prio, no := if e.prio ≤ q.prio then e.no else q.no }

theorem giveBack_of_none {e : Entry} (h : p.sameKind e.kind = none) :
    p.giveBack e = { p.makeRoom with queue := insertEntry e p.makeRoom.queue } := by
  unfold Presenter.giveBack; rw [h]

theorem giveBack_of_some {e q : Entry} (h : p.sameKind e.kind = some q) :
    p.giveBack e = { p with
      queue := insertEntry (e.merged q) (p.queue.erase q)
      shown := shownAfterMerge p.shown [q, e] (e.merged q)
      writing := writingAfterMerge (writingAfterMerge p.writing q.no (e.merged q)) e.no (e.merged q) } := by
  unfold Presenter.giveBack; rw [h]; rfl

theorem writingAfterMerge_twice (w : Option Entry) (a b : Nat) (m : Entry) :
    writingAfterMerge (writingAfterMerge w a m) b m =
      w.map (fun f => if f.no = a ∨ f.no = b then { f with no := m.no } else f) := by
  cases w with
  | none => rfl
  | some f =>
    by_cases ha : f.no = a
    · subst ha; simp [writingAfterMerge]
    · simp [writingAfterMerge, ha]

/-- The shown entry after a merge: gone where it is one of the two and its code or priority changed. -/
theorem shownAfterMerge_pair (e q sh : Entry) :
    (sh.no = q.no → shownAfterMerge (some sh) [q, e] (e.merged q) =
      if e.prio < q.prio then none else some { sh with no := (e.merged q).no }) ∧
    (sh.no ≠ q.no → sh.no = e.no → shownAfterMerge (some sh) [q, e] (e.merged q) =
      if e.code = q.code ∧ e.prio ≤ q.prio then some { sh with no := (e.merged q).no } else none) ∧
    (sh.no ≠ q.no → sh.no ≠ e.no → shownAfterMerge (some sh) [q, e] (e.merged q) = some sh) := by
  refine ⟨fun h => ?_, fun h h' => ?_, fun h h' => ?_⟩
  · have hq : q.prio = min e.prio q.prio ↔ ¬ e.prio < q.prio := by omega
    by_cases hl : e.prio < q.prio <;> simp [shownAfterMerge, Entry.merged, h, hq, hl]
  · have he : e.prio = min e.prio q.prio ↔ e.prio ≤ q.prio := by omega
    have hne : ¬ q.no = e.no := fun hh => h (h'.trans hh.symm)
    simp [shownAfterMerge, Entry.merged, h', hne, he]
  · simp [shownAfterMerge, Ne.symm h, Ne.symm h']

theorem giveBack_nextNo (p : Presenter) (e : Entry) : (p.giveBack e).nextNo = p.nextNo := by
  cases h : p.sameKind e.kind with
  | none => rw [giveBack_of_none h]; exact makeRoom_nextNo p
  | some q => rw [giveBack_of_some h]

theorem giveBack_returned (p : Presenter) (e : Entry) : EntryReturned p (p.giveBack e) e where
  added h := by
    rw [giveBack_of_none (sameKind_eq_none h)]
    exact entryAdded_makeRoom p _ e rfl rfl rfl rfl
  merged q n hk hq hn := by
    subst hn
    rw [giveBack_of_some ((sameKind_eq_find hk).trans hq)]
    refine ⟨rfl, insertEntry_placed _ _, writingAfterMerge_twice _ _ _ _, fun h => ?_, fun sh h => ?_⟩
    · simp [h, shownAfterMerge]
    · simp only [h]
      exact shownAfterMerge_pair e q sh
  rest := by
    obtain ⟨hpr, how, hl, hs, -⟩ := giveBack_fields p e
    exact ⟨hpr, hl, hs, how, giveBack_nextNo p e⟩

/-- Nothing in the queue is more favoured than `l` after the return of an entry that is not. -/
theorem giveBack_prios {e : Entry} {l : Nat} (he : l ≤ e.prio) (hq : ∀ f ∈ p.queue, l ≤ f.prio) :
    ∀ f ∈ (p.giveBack e).queue, l ≤ f.prio := by
  intro f hf
  cases h : p.sameKind e.kind with
  | none =>
    rw [giveBack_of_none h] at hf
    rcases mem_insertEntry.1 hf with rfl | hf
    · exact he
    · exact hq f ((makeRoom_queue p).subset hf)
  | some q =>
    rw [giveBack_of_some h] at hf
    rcases mem_insertEntry.1 hf with rfl | hf
    · exact le_min he (hq q (sameKind_some h).1)
    · exact hq f (List.mem_of_mem_erase hf)

theorem giveBack_shown_none (e : Entry) (h : p.shown = none) : (p.giveBack e).shown = none := by
  cases hk : p.sameKind e.kind with
  | none => rw [giveBack_of_none hk]; exact (makeRoom_fields p).2.1.trans h
  | some q => rw [giveBack_of_some hk]; simp [h, shownAfterMerge]

/-! ### The examination (R148) -/

theorem owedWith_eq (w : List OwedWrite) (e : Option Entry) :
    owedWith w e = w.filter OwedWrite.staysOnNotice ++ [OwedWrite.notice e false] := by
  unfold owedWith
  congr 2

theorem oweNotice_eq (p : Presenter) (e : Option Entry) : p.oweNotice e = { p with owed := owedWith p.owed e } := by
  rw [owedWith_eq]; rfl

theorem presentHead_cons {h : Entry} {t : List Entry} (hq : p.queue = h :: t) :
    p.presentHead = { p with queue := t, presented := some h, owed := owedWith p.owed (some h) } := by
  simp only [Presenter.presentHead, hq, oweNotice_eq]

theorem examine_present {h : Entry} {t : List Entry} (hn : p.presented = none) (hq : p.queue = h :: t)
    (hl : h.prio < p.level) :
    p.examine = { p with queue := t, presented := some h, owed := owedWith p.owed (some h) } := by
  unfold Presenter.examine
  simp only [hn, hq, if_pos hl]
  exact presentHead_cons hq

theorem examine_replace {e h : Entry} {t : List Entry} (hp : p.presented = some e) (hq : p.queue = h :: t)
    (hl : h.prio < e.prio) : p.examine = ({ p with presented := none }.giveBack e).presentHead := by
  unfold Presenter.examine
  simp only [hp, hq, if_pos hl]

theorem examine_nothing (h : p.queue = [] ∨ (p.presented = none ∧ ∀ h ∈ p.queue.head?, p.level ≤ h.prio) ∨
    ∃ e, p.presented = some e ∧ ∀ h ∈ p.queue.head?, e.prio ≤ h.prio) : p.examine = p := by
  unfold Presenter.examine
  split
  next => rfl
  next h' t hn hq =>
    refine if_neg fun hlt => ?_
    rcases h with h | ⟨_, h⟩ | ⟨e, he, _⟩
    · simp [hq] at h
    · exact absurd (h h' (by simp [hq])) (by omega)
    · simp [hn] at he
  next e h' t hp hq =>
    refine if_neg fun hlt => ?_
    rcases h with h | ⟨hn, _⟩ | ⟨f, hf, h⟩
    · simp [hq] at h
    · simp [hp] at hn
    · obtain rfl : e = f := Option.some.inj (hp.symm.trans hf)
      exact absurd (h h' (by simp [hq])) (by omega)

theorem examine_examined (p : Presenter) : NoticeExamined p p.examine where
  present _ _ hn hq hl := examine_present hn hq hl
  replace e h t hp hq hl := by
    obtain ⟨-, how, -, -, -, hne⟩ := giveBack_fields { p with presented := none } e
    obtain ⟨f, more, hg⟩ := List.exists_cons_of_ne_nil hne
    refine ⟨_, f, more, giveBack_returned _ e, hg, ?_⟩
    rw [examine_replace hp hq hl, presentHead_cons hg, how]
  nothing := examine_nothing

theorem examine_shown_none (h : p.shown = none) : p.examine.shown = none := by
  cases hp : p.presented with
  | none => exact ((examine_spec p).2.2.2.2 hp).1.trans h
  | some e =>
    cases hq : p.queue with
    | nil => rw [examine_nothing (.inl hq)]; exact h
    | cons f t =>
      by_cases hl : f.prio < e.prio
      · obtain ⟨g, k, more, hg, hm, he⟩ := (examine_examined p).replace e f t hp hq hl
        obtain ⟨-, -, -, -, -, hne⟩ := giveBack_fields { p with presented := none } e
        obtain ⟨k, more, hg⟩ := List.exists_cons_of_ne_nil hne
        rw [examine_replace hp hq hl, presentHead_cons hg]
        exact giveBack_shown_none e h
      · rw [examine_nothing (.inr (.inr ⟨e, hp, fun k hk => by simp [hq] at hk; subst hk; omega⟩))]
        exact h

/-- A level-cell write stays owed. -/
theorem level_mem_owedWith {l : Nat} {w : List OwedWrite} (h : OwedWrite.level l ∈ w) (e : Option Entry) :
    OwedWrite.level l ∈ owedWith w e := by
  rw [owedWith_eq]
  exact List.mem_append_left _ (List.mem_filter.2 ⟨h, rfl⟩)

theorem notice_mem_owedWith (w : List OwedWrite) (e : Option Entry) : OwedWrite.notice e false ∈ owedWith w e :=
  List.mem_append_right _ (List.mem_singleton_self _)

theorem level_mem_examine {l : Nat} (h : OwedWrite.level l ∈ p.owed) : OwedWrite.level l ∈ p.examine.owed := by
  cases hq : p.queue with
  | nil => rw [examine_nothing (.inl hq)]; exact h
  | cons f t =>
    cases hp : p.presented with
    | none =>
      by_cases hl : f.prio < p.level
      · rw [examine_present hp hq hl]; exact level_mem_owedWith h _
      · rw [examine_nothing (.inr (.inl ⟨hp, fun k hk => by simp [hq] at hk; subst hk; omega⟩))]; exact h
    | some e =>
      by_cases hl : f.prio < e.prio
      · obtain ⟨-, how, -, -, -, hne⟩ := giveBack_fields { p with presented := none } e
        obtain ⟨k, more, hg⟩ := List.exists_cons_of_ne_nil hne
        rw [examine_replace hp hq hl, presentHead_cons hg]
        exact level_mem_owedWith (by rw [how]; exact h) _
      · rw [examine_nothing (.inr (.inr ⟨e, hp, fun k hk => by simp [hq] at hk; subst hk; omega⟩))]; exact h

/-! ### The level set (R150, R151) -/

theorem withdraw_below (h : ∀ e, p.presented = some e → e.prio < p.level) : p.withdraw = p := by
  unfold Presenter.withdraw
  split
  next => rfl
  next e he => exact if_neg (Nat.not_le.2 (h e he))

theorem withdraw_above {e : Entry} (h : p.presented = some e) (hl : p.level ≤ e.prio) :
    p.withdraw = { { p with presented := none }.giveBack e with
      owed := owedWith ({ p with presented := none }.giveBack e).owed none } := by
  unfold Presenter.withdraw
  rw [h]
  exact (if_pos hl).trans (oweNotice_eq _ _)

theorem withdraw_levelTaken (p : Presenter) : LevelTaken p p.withdraw.examine := by
  refine ⟨p.withdraw, examine_examined _, withdraw_below, fun e he hl => ⟨_, giveBack_returned _ e, ?_⟩⟩
  rw [withdraw_above he hl, (giveBack_fields _ e).2.1]

/-- What the queue's entries that are not below the level leave of a withdrawal: nothing is presented after it. -/
theorem withdraw_examine_stays {e : Entry} (he : p.presented = some e) (hl : p.level ≤ e.prio)
    (hq : ∀ f ∈ p.queue, p.level ≤ f.prio) : p.withdraw.examine = p.withdraw := by
  obtain ⟨hlev, -⟩ := withdraw_spec p
  have hall : ∀ f ∈ p.withdraw.queue, p.level ≤ f.prio := by
    rw [withdraw_above he hl]
    exact giveBack_prios (p := { p with presented := none }) hl hq
  refine examine_nothing (.inr (.inl ⟨(withdraw_spec p).2.2.2.2 e he hl, fun f hf => ?_⟩))
  rw [hlev]
  exact hall f (List.mem_of_mem_head? hf)

end Sys2Proof.Machine
end

section
/-! The computer's cycles at the presenter and at the idle cell: level, notice, end-of-notice, cross and idle writes
(R149 to R152, R159). -/

namespace Sys2Proof.Machine

variable {s : State} {x : Side} {p : Presenter}

/-! ### The examination with nothing presented -/

/-- With nothing presented the examination presents the queue's head or does nothing. -/
theorem examine_toList (h : p.presented = none) : p.examine.presented.toList ++ p.examine.queue = p.queue := by
  rcases ((examine_spec p).2.2.2.2 h).2 with ⟨he, -⟩ | ⟨f, r, hq, -, hp, hr, -⟩
  · rw [he, h]; rfl
  · rw [hp, hr, hq]; rfl

theorem examine_below (h : p.presented = none) : ∀ e, p.examine.presented = some e → e.prio < p.examine.level := by
  intro e he
  rw [(examine_levels p).1]
  rcases ((examine_spec p).2.2.2.2 h).2 with ⟨hn, -⟩ | ⟨f, r, -, hl, hp, -, -⟩
  · rw [hn, h] at he; cases he
  · obtain rfl : f = e := Option.some.inj (hp.symm.trans he)
    exact hl

/-! ### The level cell (R151) -/

/-- The presenter with its level set by a write of `v`. -/
def Presenter.atLevel (p : Presenter) (v : Word) : Presenter := { p with level := min 8 v.toNat }

theorem writeLevel_eq (p : Presenter) (v : Word) : p.writeLevel v = (p.atLevel v).withdraw.examine := rfl

/-- An entry that goes back, alone of its kind and with room in the queue, while a queued one is below the level: that one
is presented. -/
theorem withdraw_examine_swaps {e h : Entry} {t : List Entry} (he : p.presented = some e) (hl : p.level ≤ e.prio)
    (hq : p.queue = h :: t) (hh : h.prio < p.level) (hk : e.kind = .completion ∨ ∀ f ∈ p.queue, f.kind ≠ e.kind)
    (hr : p.queue.length < 16) :
    p.withdraw.examine.presented = some h ∧ p.withdraw.examine.queue.Perm (e :: t) ∧
      OwedWrite.notice (some h) false ∈ p.withdraw.examine.owed := by
  have hret := giveBack_returned { p with presented := none } e
  have hfields := giveBack_fields { p with presented := none } e
  rw [withdraw_above he hl]
  generalize Presenter.giveBack { p with presented := none } e = g at hret hfields ⊢
  obtain ⟨hpr, -, hlev, -⟩ := hfields
  obtain ⟨hplaced, -⟩ := (hret.added hk).room hr
  obtain ⟨t', ht, hplaced⟩ := PlacedIn.cons_of_lt (by rwa [← hq]) (hh.trans_le hl)
  rw [examine_present (p := { g with owed := owedWith g.owed none }) hpr ht (hh.trans_eq hlev.symm)]
  exact ⟨rfl, hplaced.perm, notice_mem_owedWith _ _⟩

/-- An entry that goes back while none queued is below the level: where it stands then (R145). -/
theorem withdraw_queue {e : Entry} (he : p.presented = some e) (hl : p.level ≤ e.prio) :
    (e.kind = .completion ∨ (∀ f ∈ p.queue, f.kind ≠ e.kind) → p.queue.length < 16 →
      p.withdraw.queue.Perm (e :: p.queue) ∧ p.withdraw.shown = p.shown) ∧
    ∀ q, e.kind ≠ .completion → p.queue.find? (fun f => f.kind == e.kind) = some q →
      p.withdraw.queue.Perm (e.merged q :: p.queue.erase q) := by
  have hret := giveBack_returned { p with presented := none } e
  rw [withdraw_above he hl]
  refine ⟨fun hk hr => ?_, fun q hk hq => ?_⟩
  · obtain ⟨hplaced, -⟩ := (hret.added hk).room hr
    exact ⟨hplaced.perm, (hret.added hk).shown.1⟩
  · exact (hret.merged q _ hk hq rfl).2.1.perm

theorem exec_levelCellWrite {v : Word} (h : watchedAs s x .level v) (wt : Nat) :
    exec (.levelCellWrite x wt) s = .next (settle s
      { s.ended x wt [] with pres := s.pres.set x ((s.pres.get x).writeLevel v) }) := by
  obtain ⟨c, -, hv, he⟩ := onWatched_write h wt (k := (· == .level)) rfl
    (fun c s => s.modPres x (fun p => p.writeLevel c.data))
  rw [exec, execLevelCellWrite, he, hv]; rfl

/-- Settles O21: the presenter at its new level withdraws and examines. -/
theorem levelWriteSetsLevel : Obligations.LevelWriteSetsLevel := by
  unfold Obligations.LevelWriteSetsLevel
  intro x v wt s h
  refine ⟨_, exec_levelCellWrite h wt, ?_⟩
  rw [writeLevel_eq]
  generalize hp : (s.pres.get x).atLevel v = p
  have hlevel : p.level = min 8 v.toNat := by rw [← hp]; rfl
  have hspec := withdraw_examine_spec p
  obtain ⟨hbelow, hlev, hstack, hshown, hrest⟩ := hspec
  rw [hlev]
  have hset : (s.pres.get x) = { p with level := (s.pres.get x).level } := by rw [← hp]; rfl
  have hset' : ({ s.pres.get x with level := min 8 v.toNat } : Presenter) = p := hp
  rw [hset', hlevel.symm, hset]
  refine ⟨withdraw_levelTaken p, fun e he hl hh => ?keeps, fun h t hn hq hl => ?presents, fun e h t he hl hq hh => ?swaps,
    rfl, hstack, hbelow, hshown, hrest, fun e he hl hq => ?withdraws⟩
  case keeps =>
    rw [withdraw_below fun f hf => by rw [he] at hf; cases hf; exact hl]
    exact examine_nothing (.inr (.inr ⟨e, he, hh⟩))
  case presents =>
    rw [withdraw_below fun f hf => by rw [hn] at hf; cases hf]
    exact examine_present hn hq hl
  case swaps => exact withdraw_examine_swaps (p := p) he hl hq hh
  case withdraws =>
    rw [withdraw_examine_stays (p := p) he hl hq]
    obtain ⟨hroom, hmerge⟩ := withdraw_queue (p := p) he hl
    refine ⟨(withdraw_spec p).2.2.2.2 e he hl, ?_, hroom, hmerge⟩
    rw [withdraw_above (p := p) he hl]
    exact notice_mem_owedWith _ _

/-! ### The notice cell read (R149) -/

theorem removeShown_fields (p : Presenter) (sh : Entry) : (p.removeShown sh).presented = none ∧
    (p.removeShown sh).level = p.level ∧ (p.removeShown sh).stack = p.stack := by
  unfold Presenter.removeShown
  split
  next hn => exact ⟨hn, rfl, rfl⟩
  next e he =>
    split
    · exact ⟨rfl, rfl, rfl⟩
    · obtain ⟨hpr, -, hl, hs, -⟩ := giveBack_fields
        { p with queue := p.queue.filter (fun f => f.no != sh.no), presented := none } e
      exact ⟨hpr, hl, hs⟩

theorem removeShown_of_none {sh : Entry} (h : p.presented = none) :
    p.removeShown sh = { p with queue := p.queue.filter (fun f => f.no != sh.no) } := by
  unfold Presenter.removeShown; rw [h]

theorem removeShown_of_same {e sh : Entry} (h : p.presented = some e) (hn : e.no = sh.no) :
    p.removeShown sh = { p with presented := none } := by
  unfold Presenter.removeShown; rw [h]; exact if_pos hn

theorem removeShown_of_other {e sh : Entry} (h : p.presented = some e) (hn : e.no ≠ sh.no) :
    p.removeShown sh =
      { p with queue := p.queue.filter (fun f => f.no != sh.no), presented := none }.giveBack e := by
  unfold Presenter.removeShown; rw [h]; exact if_neg hn

/-- The presenter at an acceptance, before it is examined. -/
def Presenter.accepting (p : Presenter) (sh : Entry) : Presenter :=
  { p.removeShown sh with
    level := sh.prio, stack := (p.level :: p.stack).take 8, shown := none
    owed := [.level sh.prio, .notice none true] }

theorem accept_eq (p : Presenter) (sh : Entry) : p.accept sh = (p.accepting sh).examine := by
  obtain ⟨-, hl, hs⟩ := removeShown_fields p sh
  have hf : ∀ o : List OwedWrite, (o.filter (fun w => !w.isNotice)).filter OwedWrite.isNotice = [] := fun o => by
    simp [List.filter_filter]
  simp [Presenter.accept, Presenter.dropNotices, Presenter.oweLevel, Presenter.accepting, pushLevel, hl, hs, hf]

theorem removeShown_no {sh : Entry} (h : ∀ f, p.presented = some f → f.no ≠ sh.no) :
    ∀ f ∈ (p.removeShown sh).queue, f.no ≠ sh.no := by
  have hfilter : ∀ f ∈ p.queue.filter (fun f => f.no != sh.no), f.no ≠ sh.no := fun f hf => by
    simpa using (List.mem_filter.1 hf).2
  cases hp : p.presented with
  | none => rw [removeShown_of_none hp]; exact hfilter
  | some e => rw [removeShown_of_other hp (h e hp)]; exact giveBack_no _ e _ (h e hp) hfilter

theorem exec_noticeCellRead {c : CompCycle} {d : Word} (wt : Nat) (hl : s.live x = true)
    (ha : (s.tap.get x).arb = .computer c) (hw : c.watch = .noticeRead) (hd : c.dir = .read) :
    exec (.noticeCellRead x d wt) s = .next (settle s
      { s.ended x wt [.readReturned x d] with pres := s.pres.set x ((s.pres.get x).read d) }) := by
  rw [exec, execNoticeCellRead]
  exact read_pres ha hd hl (k := (· == .noticeRead)) (f := fun _ p => p.read d) (by rw [hw]; rfl)

theorem set_get_self {α : Type} (q : Sided α) (x : Side) : q.set x (q.get x) = q := by cases x <;> rfl

/-- Settles O22: the acceptance is the examination of `accepting`. -/
theorem noticeReadAccepts : Obligations.NoticeReadAccepts := by
  unfold Obligations.NoticeReadAccepts
  intro x c d wt s hl ha hw hd
  have he := exec_noticeCellRead (d := d) wt hl ha hw hd
  refine ⟨fun hno => ?refused, fun sh hsh hword => ⟨(s.pres.get x).accept sh, ?accepts, ?after⟩⟩
  case refused =>
    have hr : (s.pres.get x).read d = s.pres.get x := by
      unfold Presenter.read
      split
      next => rfl
      next sh hsh => exact if_neg (hno sh hsh)
    rw [he, hr, set_get_self]; rfl
  case accepts =>
    have hr : (s.pres.get x).read d = (s.pres.get x).accept sh := by
      unfold Presenter.read; rw [hsh]; exact if_pos hword
    rw [he, hr]
  case after =>
    generalize s.pres.get x = p at *
    obtain ⟨hnone, -, -⟩ := removeShown_fields p sh
    have hnone' : (p.accepting sh).presented = none := hnone
    rw [accept_eq]
    obtain ⟨hlevel, hstack⟩ := examine_levels (p.accepting sh)
    refine ⟨⟨p.removeShown sh, examine_examined _, removeShown_of_none, fun e hp => ?gone⟩, hlevel, hstack,
      examine_shown_none rfl, examine_owed_sublist _ _ (List.Sublist.refl _), fun ⟨f, hf, hn⟩ => ?same,
      fun hn => ?other, examine_below hnone'⟩
    case gone =>
      split
      next hn => exact removeShown_of_same hp hn
      next hn => rw [removeShown_of_other hp hn]; exact giveBack_returned _ e
    case same => rw [examine_toList hnone', Presenter.accepting, removeShown_of_same hf hn]
    case other => rw [examine_toList hnone']; exact removeShown_no hn

/-! ### The end of a notice (R150) -/

/-- The presenter with the saved level `l` popped, before it acts on it. -/
def Presenter.popped (p : Presenter) (l : Nat) (st : List Nat) : Presenter :=
  { p with shown := none, stack := st, level := l, owed := p.owed.filter OwedWrite.isNotice ++ [.level l] }

theorem endNotice_of_nil (h : p.stack = []) : p.endNotice = ({ p with shown := none } : Presenter).reOwe := by
  unfold Presenter.endNotice; simp only [h]

theorem endNotice_of_cons {l : Nat} {st : List Nat} (h : p.stack = l :: st) :
    p.endNotice = (p.popped l st).withdraw.examine.reOwe := by
  unfold Presenter.endNotice; simp only [h]; rfl

theorem reOwe_eq (p : Presenter) : p.reOwe = match p.presented with
    | none => p
    | some e => { p with owed := owedWith p.owed (some e) } := by
  unfold Presenter.reOwe
  simp only [oweNotice_eq] <;> rfl

theorem reOwe_rest (p : Presenter) : p.reOwe = { p with owed := p.reOwe.owed } := by
  rw [reOwe_eq]; split <;> rfl

theorem reOwe_owes {e : Entry} (h : p.presented = some e) : p.reOwe.owed = owedWith p.owed (some e) := by
  rw [reOwe_eq, h]

theorem reOwe_presented (p : Presenter) : p.reOwe.presented = p.presented := by rw [reOwe_rest]

theorem level_mem_reOwe {l : Nat} (h : OwedWrite.level l ∈ p.owed) : OwedWrite.level l ∈ p.reOwe.owed := by
  cases hp : p.presented with
  | none => rw [reOwe_eq, hp]; exact h
  | some e => rw [reOwe_owes hp]; exact level_mem_owedWith h _

theorem level_mem_withdraw {l : Nat} (h : OwedWrite.level l ∈ p.owed) : OwedWrite.level l ∈ p.withdraw.owed := by
  by_cases hb : ∀ e, p.presented = some e → e.prio < p.level
  · rw [withdraw_below hb]; exact h
  · push Not at hb
    obtain ⟨e, he, hl⟩ := hb
    rw [withdraw_above he hl]
    exact level_mem_owedWith (by rw [(giveBack_fields _ e).2.1]; exact h) _

theorem withdraw_shown_none (h : p.shown = none) : p.withdraw.shown = none := by
  by_cases hb : ∀ e, p.presented = some e → e.prio < p.level
  · rw [withdraw_below hb]; exact h
  · push Not at hb
    obtain ⟨e, he, hl⟩ := hb
    rw [withdraw_above he hl]
    exact giveBack_shown_none (p := { p with presented := none }) e h

theorem exec_endOfNotice {v : Word} (h : watchedAs s x .noticeWrite v) (wt : Nat) :
    exec (.endOfNotice x wt) s = .next (settle s
      { s.ended x wt [] with pres := s.pres.set x (s.pres.get x).endNotice }) := by
  obtain ⟨c, -, -, he⟩ := onWatched_write h wt (k := (· == .noticeWrite)) rfl
    (fun _ s => s.modPres x Presenter.endNotice)
  rw [exec, execEndOfNotice, he]; rfl

/-- Settles O23, by whether a level is saved. -/
theorem endOfNoticePops : Obligations.EndOfNoticePops := by
  unfold Obligations.EndOfNoticePops
  intro x v wt s h
  refine ⟨_, exec_endOfNotice h wt, ?_⟩
  generalize s.pres.get x = p
  cases hst : p.stack with
  | nil =>
    rw [endNotice_of_nil hst]
    refine ⟨by rw [reOwe_rest], fun e he => ?_, fun _ => ?_, fun l st hh => by cases hh⟩
    · rw [reOwe_presented] at he
      rw [reOwe_owes he]; exact notice_mem_owedWith _ _
    · rw [reOwe_rest]; exact ⟨hst, rfl, rfl, rfl⟩
  | cons l st =>
    rw [endNotice_of_cons hst]
    obtain ⟨hbelow, hlevel, hstack, -, -⟩ := withdraw_examine_spec (p.popped l st)
    refine ⟨?_, fun e he => ?_, fun hh => by (cases hh), fun l' st' hh => ?_⟩
    · rw [reOwe_rest]; exact examine_shown_none (withdraw_shown_none rfl)
    · rw [reOwe_presented] at he
      rw [reOwe_owes he]; exact notice_mem_owedWith _ _
    · obtain ⟨rfl, rfl⟩ := List.cons.inj hh
      refine ⟨⟨_, withdraw_levelTaken (p.popped l st), reOwe_eq _⟩, ?_, ?_, ?_, fun e he => ?_⟩
      · rw [reOwe_rest]; exact hstack
      · rw [reOwe_rest]; exact hlevel
      · exact level_mem_reOwe (level_mem_examine (level_mem_withdraw
          (List.mem_append_right _ (List.mem_singleton_self _))))
      · rw [reOwe_presented] at he; exact hbelow e he

/-! ### The cross cell (R152) -/

theorem isAttention_iff (e : Entry) : e.isAttention = true ↔ e.kind = .peer ∧ e.code = 0 := by
  simp [Entry.isAttention]

/-- The presenter without queued attention notices. -/
def Presenter.withoutAttention (p : Presenter) : Presenter :=
  { p with queue := p.queue.filter (fun e => !e.isAttention) }

theorem withoutAttention_queue (p : Presenter) : ∀ e ∈ p.withoutAttention.queue, ¬ (e.kind = .peer ∧ e.code = 0) := by
  intro e he ha
  simpa [(isAttention_iff e).2 ha] using (List.mem_filter.1 he).2

theorem dropAttention_of_none (h : p.presented = none) : p.dropAttention = p.withoutAttention.examine := by
  unfold Presenter.dropAttention
  dsimp only
  split
  next e he => exact absurd (he.symm.trans h) (by simp)
  next => rfl

theorem dropAttention_of_other {e : Entry} (h : p.presented = some e) (hn : ¬ (e.kind = .peer ∧ e.code = 0)) :
    p.dropAttention = p.withoutAttention.examine := by
  unfold Presenter.dropAttention
  dsimp only
  split
  next f hf =>
    obtain rfl : f = e := Option.some.inj (hf.symm.trans h)
    exact if_neg (mt (isAttention_iff f).1 hn)
  next hf => exact absurd (hf.symm.trans h) (by simp)

theorem dropAttention_of_same {e : Entry} (h : p.presented = some e) (ha : e.kind = .peer ∧ e.code = 0) :
    p.dropAttention =
      ({ p.withoutAttention with presented := none, owed := owedWith p.owed none } : Presenter).examine := by
  unfold Presenter.dropAttention
  dsimp only
  split
  next f hf =>
    obtain rfl : f = e := Option.some.inj (hf.symm.trans h)
    rw [if_pos ((isAttention_iff f).2 ha), oweNotice_eq]; rfl
  next hf => exact absurd (hf.symm.trans h) (by simp)

/-- Every way to withdraw attention notices is an examination of a presenter that holds none. -/
theorem dropAttention_examines (p : Presenter) : ∃ r : Presenter, p.dropAttention = r.examine ∧ r.level = p.level ∧
    r.stack = p.stack ∧ (∀ e ∈ r.queue, ¬ (e.kind = .peer ∧ e.code = 0)) ∧
    ∀ e, r.presented = some e → ¬ (e.kind = .peer ∧ e.code = 0) := by
  cases h : p.presented with
  | none =>
    exact ⟨_, dropAttention_of_none h, rfl, rfl, withoutAttention_queue p, fun e he => by
      rw [show p.withoutAttention.presented = none from h] at he; cases he⟩
  | some e =>
    by_cases ha : e.kind = .peer ∧ e.code = 0
    · exact ⟨_, dropAttention_of_same h ha, rfl, rfl, withoutAttention_queue p, fun _ he => by cases he⟩
    · exact ⟨_, dropAttention_of_other h ha, rfl, rfl, withoutAttention_queue p, fun f hf => by
        rw [show p.withoutAttention.presented = some e from h] at hf; cases hf; exact ha⟩

theorem exec_crossCellWrite {v : Word} (h : watchedAs s x .cross v) (wt : Nat) :
    exec (.crossCellWrite x wt) s = .next (settle s (if s.live x.other
      then { s.ended x wt [] with pres := s.pres.set x.other ((s.pres.get x.other).cross v) }
      else s.ended x wt [])) := by
  obtain ⟨c, -, hv, he⟩ := onWatched_write h wt (k := (· == .cross)) rfl
    (fun c s => if s.live x.other then s.modPres x.other (fun p => p.cross c.data) else s)
  rw [exec, execCrossCellWrite, he, hv, ended_live]; rfl

/-- Settles O24, by the other side's state and the value. -/
theorem crossWriteRaisesOrWithdraws : Obligations.CrossWriteRaisesOrWithdraws := by
  unfold Obligations.CrossWriteRaisesOrWithdraws
  intro x v wt s h
  have he := exec_crossCellWrite h wt
  refine ⟨fun hl => ?dead, fun hl hv => ?raises, fun hl hv => ⟨(s.pres.get x.other).dropAttention, ?withdraws, ?after⟩⟩
  case dead => rw [he, if_neg (by simp [hl])]
  case raises => rw [he, if_pos hl, Presenter.cross, if_pos hv]
  case withdraws => rw [he, if_pos hl, Presenter.cross, if_neg (by omega)]
  case after =>
    generalize s.pres.get x.other = p
    obtain ⟨r, hr, hlev, hst, hq, hp⟩ := dropAttention_examines p
    obtain ⟨hlevel, hstack⟩ := examine_levels r
    obtain ⟨hqueue, hpres⟩ := examine_att r hp hq
    refine ⟨by rw [hr, hlevel, hlev], by rw [hr, hstack, hst], by rw [hr]; exact hqueue, by rw [hr]; exact hpres, ?_⟩
    rintro o rest rfl rfl
    refine ⟨fun e hpe hn hle => ?kept, fun hn => ?none, fun e hpe hk hc => ?gone⟩
    case kept =>
      rw [dropAttention_of_other hpe hn]
      exact examine_nothing (.inr (.inr ⟨e, hpe, fun f hf => hle f (List.mem_of_mem_head? hf)⟩))
    case none =>
      rw [dropAttention_of_none hn]
      exact ⟨examine_toList (p := o.withoutAttention) hn, ((examine_spec o.withoutAttention).2.2.2.2 hn).1⟩
    case gone =>
      rw [dropAttention_of_same hpe ⟨hk, hc⟩]
      generalize hg : ({ o.withoutAttention with presented := none, owed := owedWith o.owed none } : Presenter) = g
      have hgp : g.presented = none := by rw [← hg]
      have hgq : g.queue = o.withoutAttention.queue := by rw [← hg]
      refine ⟨(examine_toList hgp).trans hgq, ?_, fun hall => ?_, fun h t ht hlt => ?_⟩
      · rw [((examine_spec g).2.2.2.2 hgp).1, ← hg]; rfl
      · have hstays : g.examine = g := examine_nothing (.inr (.inl ⟨hgp, fun f hf => by
          rw [hgq] at hf
          rw [← hg]
          exact hall f (List.mem_of_mem_head? hf)⟩))
        rw [hstays]
        refine ⟨hgp, ?_, by simp [Presenter.line, hgp]⟩
        rw [← hg]; exact notice_mem_owedWith _ _
      · rw [examine_present hgp (hgq.trans ht) (by rw [← hg]; exact hlt)]
        exact ⟨rfl, notice_mem_owedWith _ _⟩

/-! ### The idle cell (R159) -/

theorem exec_idleCellWrite {v : Word} (h : watchedAs s x .idle v) (wt : Nat) :
    exec (.idleCellWrite x wt) s = .next (settle s (idleWrite x v (s.ended x wt []))) := by
  obtain ⟨c, -, hv, he⟩ := onWatched_write h wt (k := (· == .idle)) rfl (fun c s => idleWrite x c.data s)
  rw [exec, execIdleCellWrite, he, hv]

theorem idleWrite_held (h : s.drv.openPending = true) (v : Word) :
    idleWrite x v s = s.modDrv (fun d => { d with deferred := d.deferred ++ [.idleWrite x (min 2 v.toNat)] }) := by
  unfold idleWrite takeDriveEvent; rw [if_pos h]

theorem idleWrite_taken (h : s.drv.openPending = false) (v : Word) :
    idleWrite x v s = reconcileDrive (setIdle x (min 2 v.toNat) s) := by
  unfold idleWrite takeDriveEvent; rw [if_neg (by simp [h])]; rfl

/-- What the controller does of itself leaves the fields that no change of the drive state touches. -/
theorem reconcileDrive_leaves (s : State) : (reconcileDrive s).drv.idle = s.drv.idle ∧
    (reconcileDrive s).drv.deferred = s.drv.deferred ∧ (reconcileDrive s).drv.cyl = s.drv.cyl ∧
    (reconcileDrive s).drv.generation = s.drv.generation ∧ (reconcileDrive s).drv.mounted = s.drv.mounted ∧
    (reconcileDrive s).map = s.map ∧ (reconcileDrive s).counter = s.counter := by
  obtain ⟨-, hcyl, hgen, hmount, hidle, -, -, -, hdef⟩ := (reconcileDrive_ends (EndFrame.refl s)).drive
  have hrest := (reconcileDrive_moves (DriveMoves.refl s)).rest
  exact ⟨hidle, hdef, hcyl, hgen, hmount, by rw [hrest], by rw [hrest]⟩

/-- Settles O25, by whether an OPEN entry sequence is under way. -/
theorem idleWriteSetsLevel : Obligations.IdleWriteSetsLevel := by
  unfold Obligations.IdleWriteSetsLevel
  intro x v wt s h
  refine ⟨_, exec_idleCellWrite h wt, ?_⟩
  cases ho : s.drv.openPending with
  | true =>
    rw [idleWrite_held (s := s.ended x wt []) ho]
    exact ⟨fun hh => (by cases hh), fun _ => ⟨rfl, rfl⟩, rfl, rfl, rfl, rfl, rfl⟩
  | false =>
    rw [idleWrite_taken (s := s.ended x wt []) ho]
    obtain ⟨hidle, hdef, hcyl, hgen, hmount, hmap, hcount⟩ :=
      reconcileDrive_leaves (setIdle x (min 2 v.toNat) (s.ended x wt []))
    rw [hidle, hdef, hcyl, hgen, hmount, hmap, hcount]
    exact ⟨fun _ => ⟨rfl, rfl⟩, fun hh => (by cases hh), rfl, rfl, rfl, rfl, rfl⟩

end Sys2Proof.Machine
end

section
/-! The region map's commands: proposals, seals, expiry and the commit (R94 to R102). -/

namespace Sys2Proof.Machine

variable {s : State} {x : Side} {m : RegionMap}

/-! ### Changing cylinders (R94) -/

theorem meetsBelow_iff {r : Nat × Nat} {lo hi : Nat} (h : r.1 ≤ r.2) :
    meetsBelow r lo hi = true ↔ ∃ c, r.1 ≤ c ∧ c ≤ r.2 ∧ lo ≤ c ∧ c < hi := by
  simp only [meetsBelow, Bool.and_eq_true, decide_eq_true_eq]
  constructor
  · intro hm
    exact ⟨max r.1 lo, by omega⟩
  · rintro ⟨c, hc⟩
    omega

theorem changing_iff {new r : Nat × Nat} (h : r.1 ≤ r.2) :
    m.changing new r = true ↔ ∃ c, r.1 ≤ c ∧ c ≤ r.2 ∧ Changing m new c := by
  simp only [RegionMap.changing, Bool.or_eq_true, meetsBelow_iff h, Changing, and_or_left, exists_or]

theorem commitChanges_iff {r : Nat × Nat} (h : r.1 ≤ r.2) : m.commitChanges r = true ↔ TouchesChanging m r := by
  simp only [RegionMap.commitChanges, TouchesChanging, Bool.and_eq_true, beq_iff_eq, Option.any_eq_true, changing_iff h]
  exact and_congr_right fun _ => exists_congr fun new => by simp

theorem commitChanges_of_pending {new r : Nat × Nat} (hp : m.protocol = .commitPending) (hn : m.pendingMap = some new) :
    m.commitChanges r = m.changing new r := by
  simp [RegionMap.commitChanges, hp, hn]

/-! ### Proposals (R96) -/

/-- The map after a write to a proposal cell. -/
def RegionMap.written (m : RegionMap) (x : Side) (second : Bool) (v : Word) : RegionMap :=
  { m with
    proposal := m.proposal.set x ((m.proposal.get x).capture second v)
    protocol := if (m.proposal.get x).isSealed ∧ m.protocol = .proposed x then .idle else m.protocol
    span := if (m.proposal.get x).isSealed ∧ m.protocol = .proposed x then none else m.span }

theorem exec_proposalCellWrite {second : Bool} {v : Word} (h : watchedAs s x (.proposal second) v) (wt : Nat) :
    exec (.proposalCellWrite x wt) s = .next (settle s { s.ended x wt [] with map := s.map.written x second v }) := by
  obtain ⟨c, hw, hv, he⟩ := onWatched_write h wt (k := fun w => w.proposalCell.isSome) rfl
    (fun c s => c.watch.proposalCell.elim s (fun b => writeProposal x b c.data s))
  rw [exec, execProposalCellWrite, he, hw, hv]; rfl

/-- Settles O26, by the cell written. -/
theorem proposalWriteCaptures : Obligations.ProposalWriteCaptures := by
  unfold Obligations.ProposalWriteCaptures
  intro x second v wt s h
  refine ⟨_, exec_proposalCellWrite h wt, ?_⟩
  cases second with
  | false => simp +contextual [RegionMap.written, Proposal.capture]
  | true => simp +contextual [RegionMap.written, Proposal.capture]

/-! ### Seals refused, and the first (R97) -/

theorem exec_sealCellWrite {v : Word} (h : watchedAs s x .seal v) (wt : Nat) :
    exec (.sealCellWrite x wt) s = .next (settle s (writeSeal x (s.ended x wt []))) := by
  obtain ⟨c, -, -, he⟩ := onWatched_write h wt (k := (· == .seal)) rfl (fun _ s => writeSeal x s)
  rw [exec, execSealCellWrite, he]

theorem invalid_iff {p : Proposal} : p.invalid = true ↔
    ∀ a b, p.p1 = some a → p.p2 = some b → ¬ (a.toNat ≤ b.toNat ∧ b.toNat ≤ 400) := by
  unfold Proposal.invalid
  cases p.p1 <;> cases p.p2 <;> simp <;> omega

theorem writeSeal_refuses (h : (s.map.proposal.get x).mark1 = false ∨ (s.map.proposal.get x).mark2 = false ∨
    (s.map.proposal.get x).invalid = true ∨ s.map.protocol = .commitPending) : writeSeal x s = refuseSeal x s := by
  unfold writeSeal
  by_cases hs : (!(s.map.proposal.get x).mark1 || !(s.map.proposal.get x).mark2 ||
      (s.map.proposal.get x).invalid) = true
  · exact if_pos hs
  · refine (if_neg hs).trans ?_
    rcases h with h | h | h | h
    · simp [h] at hs
    · simp [h] at hs
    · simp [h] at hs
    · simp only [h]

/-- A proposal that is marked and keeps the order of R97's case 2. -/
structure Proposal.Sound (p : Proposal) (a b : Word) : Prop where
  marks : p.mark1 = true ∧ p.mark2 = true
  values : p.p1 = some a ∧ p.p2 = some b
  order : a.toNat ≤ b.toNat ∧ b.toNat ≤ 400

theorem Proposal.Sound.tested {p : Proposal} {a b : Word} (h : p.Sound a b) :
    (!p.mark1 || !p.mark2 || p.invalid) = false := by
  simp [h.marks.1, h.marks.2, Proposal.invalid, h.values.1, h.values.2, h.order.1, h.order.2]

theorem Proposal.Sound.sealed {p : Proposal} {a b : Word} (h : p.Sound a b) :
    { p with mark1 := false, mark2 := false, isSealed := true } = (⟨some a, some b, false, false, true⟩ : Proposal) := by
  rw [← h.values.1, ← h.values.2]

theorem writeSeal_first {a b : Word} (h : (s.map.proposal.get x).Sound a b) (hp : s.map.protocol = .idle) :
    writeSeal x s = s.modMap (fun m => { m with
      proposal := m.proposal.set x ⟨some a, some b, false, false, true⟩
      protocol := .proposed x
      span := some (spanFrom s.clk.count 3840) }) := by
  unfold writeSeal
  dsimp only
  rw [h.tested]
  simp only [hp, h.sealed]
  rfl

theorem writeSeal_second {a b : Word} (h : (s.map.proposal.get x).Sound a b) (hp : s.map.protocol = .proposed x.other) :
    writeSeal x s = secondSeal x s := by
  unfold writeSeal
  dsimp only
  rw [h.tested]
  simp only [hp]
  exact if_neg (Side.other_ne x)

/-- Settles O27: a refused seal is `refuseSeal`, whose outcome goes to the side alone; the first is its own update. -/
theorem sealRefusedOrFirst : Obligations.SealRefusedOrFirst := by
  unfold Obligations.SealRefusedOrFirst
  intro x v wt s h
  have hl : s.live x = true := by obtain ⟨c, -, -, -, -, hl⟩ := h; exact hl
  refine ⟨fun hr => ⟨refuseSeal x (s.ended x wt []), ?refused, ?after⟩, fun a b h1 h2 hp1 hp2 hab hb hp => ?first⟩
  case refused =>
    rw [exec_sealCellWrite h wt, writeSeal_refuses (s := s.ended x wt []) ?_]
    exact hr.imp_right (Or.imp_right (Or.imp_left invalid_iff.2))
  case after =>
    obtain ⟨hmap, hpres, hin, hslots, hlocks, -, -⟩ :=
      giveOutcome_spec x 5 ((s.ended x wt []).modMap (fun m => m.discard x)) (by simpa using hl)
    unfold refuseSeal
    rw [hmap, hpres, hin, hslots, hlocks]
    exact ⟨rfl, rfl, rfl, rfl, rfl, rfl, rfl, rfl, rfl, rfl, rfl⟩
  case first =>
    rw [exec_sealCellWrite h wt, writeSeal_first (s := s.ended x wt []) ⟨⟨h1, h2⟩, ⟨hp1, hp2⟩, ⟨hab, hb⟩⟩ hp]
    rfl

/-! ### The second seal (R98) -/

theorem lockOnChanging_iff {new : Nat × Nat} : lockOnChanging new s = true ↔
    ∃ (k : Fin 8) (l : Lock), s.locks[k] = some l ∧ s.map.changing new (l.first, l.last) = true := by
  simp only [lockOnChanging, List.any_eq_true, Option.any_eq_true]
  constructor
  · rintro ⟨o, ho, l, rfl, hc⟩
    obtain ⟨k, hk, he⟩ := Vector.mem_iff_getElem.1 (Vector.mem_toList_iff.1 ho)
    exact ⟨⟨k, hk⟩, l, he, hc⟩
  · rintro ⟨k, l, hk, hc⟩
    exact ⟨some l, Vector.mem_toList_iff.2 (hk ▸ Vector.getElem_mem _), l, rfl, hc⟩

/-- An outcome for both sides of a discarded pair of proposals. -/
theorem discardBoth_given (c : Nat) (s : State) : ∃ u, u = giveBoth c (s.modMap (fun m => m.discardBoth)) ∧
    u.map = { s.map.discardBoth with last := .both c } ∧ u.locks = s.locks ∧ u.slots = s.slots ∧ u.intake = s.intake ∧
    ∀ y, s.live y = true → u.pres.get y = ((s.pres.get y).join .partition 2 0 c).examine := by
  obtain ⟨hmap, hpres, hin, hslots, hlocks, -, -⟩ := giveBoth_spec c (s.modMap (fun m => m.discardBoth))
  exact ⟨_, rfl, hmap, hlocks, hslots, hin, hpres⟩

/-- The three outcomes of a second seal, by whether the values agree and a lock covers a changing cylinder. -/
theorem secondSeal_eq {a b : Word} (h1 : (s.map.proposal.get x).p1 = some a) (h2 : (s.map.proposal.get x).p2 = some b) :
    secondSeal x s =
      if (s.map.proposal.get x.other).p1 ≠ some a ∨ (s.map.proposal.get x.other).p2 ≠ some b then
        giveBoth 2 (s.modMap (fun m => m.discardBoth))
      else if lockOnChanging (a.toNat, b.toNat) s then giveBoth 4 (s.modMap (fun m => m.discardBoth))
      else s.modMap (fun m =>
        { m.discardBoth with protocol := .commitPending, pendingMap := some (a.toNat, b.toNat) }) := by
  unfold secondSeal
  simp only [h1, h2, Option.getD_some, ne_comm]

/-- Settles O28: each case of `secondSeal_eq`. -/
theorem secondSealSettles : Obligations.SecondSealSettles := by
  unfold Obligations.SecondSealSettles
  intro x v a b wt s h hp h1 h2 hp1 hp2 hab hb
  have hsound : ((s.ended x wt []).map.proposal.get x).Sound a b := ⟨⟨h1, h2⟩, ⟨hp1, hp2⟩, ⟨hab, hb⟩⟩
  refine ⟨secondSeal x (s.ended x wt []), ?_, ?_⟩
  · rw [exec_sealCellWrite h wt, writeSeal_second hsound hp]
  have hlock : ∀ hle : (∀ (k : Fin 8) (l : Lock), s.locks[k] = some l → l.first ≤ l.last),
      lockOnChanging (a.toNat, b.toNat) (s.ended x wt []) = true → ∃ (k : Fin 8) (l : Lock) (c : Nat),
        s.locks[k] = some l ∧ l.first ≤ c ∧ c ≤ l.last ∧ Changing s.map (a.toNat, b.toNat) c := fun hle hc => by
    obtain ⟨k, l, hk, hch⟩ := lockOnChanging_iff.1 hc
    obtain ⟨c, hc1, hc2, hch⟩ := (changing_iff (hle k l hk)).1 hch
    exact ⟨k, l, c, hk, hc1, hc2, hch⟩
  rw [secondSeal_eq (s := s.ended x wt []) hp1 hp2]
  by_cases hne : (s.map.proposal.get x.other).p1 ≠ some a ∨ (s.map.proposal.get x.other).p2 ≠ some b
  · obtain ⟨u, hu, hmap, hlocks, hslots, hin, hpres⟩ := discardBoth_given 2 (s.ended x wt [])
    rw [if_pos (by exact hne), ← hu, hmap, hlocks, hslots, hin]
    refine ⟨fun y => Sided.get_both _ y, rfl, rfl, rfl, rfl, rfl, rfl,
      fun _ => ⟨rfl, rfl, fun y => Sided.get_both _ y, fun y hy => hpres y (by simpa using hy)⟩,
      fun he1 he2 => ?_, fun he1 he2 => ?_⟩
    · exact absurd hne (by simp [he1, he2])
    · exact absurd hne (by simp [he1, he2])
  · rw [if_neg (by exact hne)]
    by_cases hlc : lockOnChanging (a.toNat, b.toNat) (s.ended x wt []) = true
    · obtain ⟨u, hu, hmap, hlocks, hslots, hin, hpres⟩ := discardBoth_given 4 (s.ended x wt [])
      rw [if_pos hlc, ← hu, hmap, hlocks, hslots, hin]
      refine ⟨fun y => Sided.get_both _ y, rfl, rfl, rfl, rfl, rfl, rfl, fun he => absurd he hne,
        fun _ _ _ => ⟨rfl, rfl, fun y => Sided.get_both _ y, fun y hy => hpres y (by simpa using hy)⟩,
        fun _ _ hno hle => ?_⟩
      obtain ⟨k, l, c, hk, hc1, hc2, hch⟩ := hlock hle hlc
      exact absurd hch (hno k l c hk hc1 hc2)
    · rw [if_neg hlc]
      refine ⟨fun y => Sided.get_both _ y, rfl, rfl, rfl, rfl, rfl, rfl, fun he => absurd he hne,
        fun _ _ hcov => ?_, fun _ _ _ _ => ⟨rfl, rfl, rfl, rfl⟩⟩
      obtain ⟨k, l, c, hk, hc1, hc2, hch⟩ := hcov
      have hchange := (changing_iff (m := s.map) (new := (a.toNat, b.toNat)) (r := (l.first, l.last)) (hc1.trans hc2)).2
        ⟨c, hc1, hc2, hch⟩
      exact absurd (lockOnChanging_iff.2 ⟨k, l, hk, hchange⟩) hlc

/-! ### Expiry and commit (R99, R100) -/

theorem holdsCommit_iff {sl : Slot} : holdsCommit m sl = true ↔
    (sl.state = .lockwait ∨ sl.state = .waiting ∨ sl.state = .active ∨ sl.state = .posting) ∧
      ∃ r, sl.touched = some r ∧ m.commitChanges r = true := by
  simp [holdsCommit, Option.any_eq_true, or_assoc]

theorem drained_iff : drained s = true ↔ ∀ i, holdsCommit s.map (s.slot i) = false := by
  simp only [drained, List.all_eq_true, Bool.not_eq_true']
  exact ⟨fun h i => h i (mem_slotIds i), fun h i _ => h i⟩

/-- The commit's effects up to the two outcomes (R100). -/
def beforeOutcomes (s : State) : State :=
  ((oweCell .A .map1 (oweCell .A .map2 (oweCell .B .map1 (oweCell .B .map2 (s.modMap RegionMap.committed))))).modIntake
    .A (fun u => { u with cursor := none })).modIntake .B (fun u => { u with cursor := none })

theorem commit_eq (s : State) : commit s = giveBoth 1 (beforeOutcomes s) := rfl

theorem oweCell_map (x : Side) (c : StatusCell) (s : State) : (oweCell x c s).map = s.map := by
  rw [(oweCell_moves x c s).rest]

theorem oweCell_intake (x : Side) (c : StatusCell) (s : State) : (oweCell x c s).intake = s.intake := by
  rw [(oweCell_moves x c s).rest]

theorem beforeOutcomes_map (s : State) : (beforeOutcomes s).map = s.map.committed := by
  simp [beforeOutcomes, oweCell_map]

theorem beforeOutcomes_pres (s : State) : (beforeOutcomes s).pres = s.pres := by
  simp [beforeOutcomes, oweCell_pres]

theorem beforeOutcomes_live (s : State) (y : Side) : (beforeOutcomes s).live y = s.live y := by
  simp [beforeOutcomes, oweCell_live]

theorem beforeOutcomes_intake (s : State) (y : Side) :
    (beforeOutcomes s).intake.get y = { s.intake.get y with cursor := none } := by
  cases y <;> simp [beforeOutcomes, oweCell_intake, Sided.get, Sided.set]

theorem beforeOutcomes_owed {y : Side} (h : s.live y = true) :
    ((beforeOutcomes s).tap.get y).owed.map1 = true ∧ ((beforeOutcomes s).tap.get y).owed.map2 = true := by
  cases y <;> simp [beforeOutcomes, oweCell_owed, oweCell_live, OwedCells.owe, h]

theorem giveBoth_owed (c : Nat) (s : State) {y : Side} (h : s.live y = true) :
    ((giveBoth c s).tap.get y).owed = (s.tap.get y).owed.owe .partition := by
  unfold giveBoth
  rw [giveOutcome_owed, giveOutcome_owed]
  obtain ⟨-, -, -, -, -, -, hlive⟩ := giveOutcome_fields .A c s
  cases y <;> simp [hlive, h]

/-- Settles O29: the expiry's outcome, and the commit's where the drain test passes. -/
theorem proposalsExpireOrCommit : Obligations.ProposalsExpireOrCommit := by
  unfold Obligations.ProposalsExpireOrCommit
  refine ⟨fun x e s hp hs => ⟨expireProposal x s.begun, ?expires, ?after⟩, fun new s hn => ⟨fun hp hfree => ?commits, fun h =>
    if_neg fun ⟨hp, hd⟩ => ?waits⟩⟩
  case expires =>
    have hx : expiredProposer s.map = some x := by simp [expiredProposer, hp, hs, spanReached]
    rw [exec, execProposalExpiry, hx]; rfl
  case after =>
    obtain ⟨hmap, hpres, hin, hslots, hlocks, hdrv, -⟩ :=
      giveOutcome_fields x 3 (s.begun.modMap (fun m => m.discard x))
    unfold expireProposal
    rw [hmap, hpres, hin, hslots, hlocks, hdrv]
    refine ⟨?_, rfl, rfl, rfl, rfl, rfl⟩
    simp [RegionMap.discard, hp, Proposal.discarded]
  case commits =>
    have hd : drained s = true := drained_iff.2 fun i => Bool.eq_false_iff.2 fun hh => by
      obtain ⟨hst, r, hr, hc⟩ := holdsCommit_iff.1 hh
      obtain ⟨hle, hno⟩ := hfree i r hr hst
      rw [commitChanges_of_pending hp hn] at hc
      obtain ⟨c, hc1, hc2, hch⟩ := (changing_iff hle).1 hc
      exact hno c hc1 hc2 hch
    rw [show drainTest s = giveBoth 1 (beforeOutcomes s) from if_pos ⟨hp, hd⟩]
    obtain ⟨hmap, hpres, hin, -, -, -, -⟩ := giveBoth_spec 1 (beforeOutcomes s)
    have hcommitted : s.map.committed = { s.map with p1 := new.1, p2 := new.2, pendingMap := none, protocol := .idle } := by
      simp [RegionMap.committed, hn]
    rw [hmap, hin, beforeOutcomes_map, hcommitted]
    refine ⟨rfl, rfl, rfl, rfl, fun x => Sided.get_both _ x, rfl, fun x => ?_, fun x hx => ?_, fun x hx => ?_⟩
    · rw [beforeOutcomes_intake]; exact ⟨rfl, rfl⟩
    · rw [hpres x (by rw [beforeOutcomes_live]; exact hx), beforeOutcomes_pres]
    · rw [giveBoth_owed 1 _ (by rw [beforeOutcomes_live]; exact hx)]
      obtain ⟨h1, h2⟩ := beforeOutcomes_owed hx
      exact ⟨h1, h2, rfl⟩
  case waits =>
    rcases h with h | ⟨i, r, c, hr, hf, hi, hc1, hc2, hch⟩
    · exact h hp
    · refine Bool.eq_false_iff.1 (drained_iff.1 hd i) (holdsCommit_iff.2 ⟨?_, r, hr, ?_⟩)
      · cases hst : (s.slot i).state <;> simp_all
      · rw [commitChanges_of_pending hp hn]
        exact (changing_iff (hc1.trans hc2)).2 ⟨c, hc1, hc2, hch⟩

end Sys2Proof.Machine
end

section
/-! The intake unit's commands: takes, the beginning of a record's reads, and the twelfth read with its refusal or its
acceptance (R49 to R58). -/

namespace Sys2Proof.Machine

variable {s : State} {x : Side}

/-! ### The first slot that meets a test -/

theorem slotIds_eq : slotIds = List.finRange 12 := by decide

theorem find_slotIds_eq_some {p : Fin 12 → Bool} {k : Fin 12} (h : p k = true) (hlt : ∀ j, j < k → p j = false) :
    slotIds.find? p = some k := by
  rw [slotIds_eq, List.find?_eq_some_iff_getElem]
  refine ⟨h, k.val, by simp, by simp, fun j hj => ?_⟩
  simpa using hlt ⟨j, hj.trans k.isLt⟩ hj

theorem lowestFree_eq_some {k : Fin 12} (h : (s.slot k).state = .free) (hlt : ∀ j, j < k → (s.slot j).state ≠ .free) :
    s.lowestFree = some k :=
  find_slotIds_eq_some (by simp [h]) fun j hj => by simp [hlt j hj]

/-! ### Part cycles -/

/-- The equation of a part cycle that is not abandoned: its requester goes on from the end of the cycle. -/
theorem onPart_cycle {k : CycleKind} (h : cycleFor s x k) (wt : Nat) {t : CycleKind → Bool} (hk : t k = true)
    (f : PartCycle → State → State) : ∃ p : PartCycle, (s.tap.get x).arb = .part p ∧ p.kind = k ∧
      onPart x wt t f s = .next (settle s (f p (s.ended x wt []))) := by
  obtain ⟨p, ha, hp, hn⟩ := h
  refine ⟨p, ha, hp, ?_⟩
  rw [onPart_eq ha (by rw [hp]; exact hk), hn]; rfl

/-! ### TAKE (R49, R50) -/

theorem mayTake_eq_true {k : Fin 12} (hl : s.live x = true) (hq : (s.intake.get x).list ≠ [])
    (hc : (s.intake.get x).claim = none) (hf : (s.intake.get x).fetch = none) (hch : (s.intake.get x).chains = [])
    (ho : s.occupied x < 8) (hk : s.lowestFree = some k) : mayTake s x = true := by
  simp [mayTake, Intake.idle, hl, hq, hc, hf, hch, ho, hk]

theorem claimSlot_eq {k : Fin 12} {e : Fin 8 × Word} {rest : List (Fin 8 × Word)} (hk : s.lowestFree = some k)
    (hq : (s.intake.get x).list = e :: rest) : claimSlot x s =
      (s.modSlot k (fun sl => sl.claimed x 0)).modIntake x (fun u => { u with claim := some (k, e.1) }) := by
  simp [claimSlot, hk, hq]

theorem claimReturned_same {k : Fin 12} {i : Fin 8} {q : Word} {rest : List (Fin 8 × Word)}
    (hc : (s.intake.get x).claim = some (k, i)) (hq : (s.intake.get x).list = (i, q) :: rest) :
    claimReturned x s = removeHead x k i q rest s := by
  simp [claimReturned, hc, hq]

theorem claimReturned_other {k : Fin 12} {i : Fin 8} (hc : (s.intake.get x).claim = some (k, i))
    (hq : ∀ q rest, (s.intake.get x).list ≠ (i, q) :: rest) :
    claimReturned x s = freeSlot k (s.modIntake x (fun u => { u with claim := none })) := by
  unfold claimReturned
  simp only [hc]
  split
  next j q rest hl => exact if_neg fun hj => hq q rest (by rw [hl, hj])
  next => rfl

/-- Settles O30: the claim, and its return with or without its head. -/
theorem takeClaimsLowestFreeSlot : Obligations.TakeClaimsLowestFreeSlot := by
  unfold Obligations.TakeClaimsLowestFreeSlot
  refine ⟨fun x k i q rest s hl hq hc hf hch ho hk hlt => ?claims, fun x k i s hc => ?returns⟩
  case claims =>
    have hfree := lowestFree_eq_some hk hlt
    rw [exec, execTake, hc, Option.isSome_none, if_neg Bool.false_ne_true,
      runIf_true (mayTake_eq_true hl (by simp [hq]) hc hf hch ho hfree), claimSlot_eq (s := s.begun) hfree hq]
    rfl
  case returns =>
    have he : exec (.take x) s = .next (settle s (claimReturned x s.begun)) := by
      rw [exec, execTake, hc, Option.isSome_some, if_pos rfl]; rfl
    refine ⟨fun q rest hq => ?_, fun hq => ?_⟩
    · rw [he, claimReturned_same (s := s.begun) hc hq]; rfl
    · rw [he, claimReturned_other (s := s.begun) hc hq]; rfl

/-! ### The reads begin (R49, R51, R52) -/

/-- How a record's reads begin: at once, or with the record-less result of R53. -/
theorem startReads_begins (x : Side) (k : Fin 12) (s : State) :
    ((startReads x k s).intake.get x).chains = (s.intake.get x).chains ∧
    ((startReads x k s).intake.get x).list = (s.intake.get x).list ∧ (startReads x k s).tap = s.tap ∧
    ((s.slot k).q.toNat ≤ 65532 →
      ((startReads x k s).intake.get x).fetch = some ⟨k, none⟩ ∧ (startReads x k s).slots = s.slots) ∧
    (65532 < (s.slot k).q.toNat → ((startReads x k s).intake.get x).fetch = none ∧
      (startReads x k s).slots = s.slots.set k { s.slot k with
        recordless := true, words := [], state := .posting, status := some .badAddress, residual := 0, stop := 0
        instant := s.clk.count, span := none } ∧
      (startReads x k s).post.queue = s.post.queue ++ [(k, (s.slot k).tenure)]) := by
  rw [startReads_spec]
  split
  next hq => simp [Nat.not_le.2 hq, hq]
  next hq => simp [Nat.not_lt.1 hq, hq]

theorem startChain_eq {k : Fin 12} {r : List (Fin 12)} (h : (s.intake.get x).chains = k :: r) :
    startChain x s = startReads x k (s.modIntake x (fun u => { u with chains := r })) := by
  simp [startChain, h]

theorem clearingEnded_eq {k : Fin 12} {c : Fin 8} (h : (s.intake.get x).fetch = some ⟨k, some c⟩) :
    clearingEnded x s = startReads x k s := by
  simp [clearingEnded, h]

/-- Settles O31: both commands begin the reads, and the intake unit asks by what its fetch has come to. -/
theorem fetchesBegin : Obligations.FetchesBegin := by
  unfold Obligations.FetchesBegin
  intro x k s
  refine ⟨fun r hch hf hc => ?chain, fun i c a wt h hf => ?clearing, fun hf => ?none, fun i hf => ?write,
    fun n hf hn => ?read⟩
  case chain =>
    have he : exec (.chainFetchStart x) s = .next (settle s (startChain x s.begun)) :=
      runIf_true (by simp [mayStartChain, Intake.idle, hch, hf, hc])
    rw [he, startChain_eq (s := s.begun) hch]
    obtain ⟨hchains, hlist, -, hbegins, hrefused⟩ :=
      startReads_begins x k (s.begun.modIntake x (fun u => { u with chains := r }))
    refine ⟨_, rfl, hchains.trans (by simp), hlist.trans (by simp), fun hq => hbegins hq, fun hq => hrefused hq⟩
  case clearing =>
    obtain ⟨p, -, -, he⟩ := onPart_cycle h wt (t := CycleKind.isClearing) rfl (fun _ => clearingEnded x)
    obtain ⟨-, hlist, htap, hbegins, hrefused⟩ := startReads_begins x k (s.ended x wt [])
    refine ⟨startReads x k (s.ended x wt []), ?_, by rw [htap]; simp, hlist, fun hq => hbegins hq, fun hq => hrefused hq⟩
    rw [exec, execClearingWriteEnd, he, clearingEnded_eq (s := s.ended x wt []) hf]
  case none => simp [intakeAsks, hf]
  case write => simp [intakeAsks, hf, askWrite, wordAddr]
  case read => subst hn; simp [intakeAsks, hf, askRead, wordAddr]

/-! ### The reads of a record (R52, R54) -/

theorem exec_recordFetchReadEnd {k : Fin 12} {n : Nat} {c : Option (Fin 8)} (d : Word) (wt : Nat)
    (h : cycleFor s x (.fetch n)) (hf : (s.intake.get x).fetch = some ⟨k, c⟩) :
    exec (.recordFetchReadEnd x d wt) s = .next (settle s (wordFetched x k d (s.ended x wt []))) := by
  obtain ⟨p, -, -, he⟩ := onPart_cycle h wt (t := CycleKind.isFetch) rfl (fun _ => fetchRead x d)
  rw [exec, execRecordFetchReadEnd, he, fetchRead, ended_intake, hf]

theorem wordFetched_early {k : Fin 12} {d : Word} (h : (s.slot k).words.length < 11) :
    wordFetched x k d s = s.modSlot k (fun sl => { sl with words := sl.words ++ [d] }) := by
  refine if_neg ?_
  simp only [State.slot_modSlot_same, List.length_append, List.length_singleton]
  omega

/-- Settles O32: the early reads, and the last one with the refusal of `wordFetched_last`. -/
theorem recordReadsRefuseAtTheEnd : Obligations.RecordReadsRefuseAtTheEnd := by
  unfold Obligations.RecordReadsRefuseAtTheEnd
  intro x k n c d wt s h hf
  have he := exec_recordFetchReadEnd d wt h hf
  refine ⟨fun hlen => ?early, fun st hlen hst => ?last⟩
  case early => rw [he, wordFetched_early (s := s.ended x wt []) hlen]; rfl
  case last =>
    obtain ⟨z, hw, hz, hslot⟩ := wordFetched_last x k d wt s hlen
    have hpost : wordFetched x k d (s.ended x wt []) = postNeverActive k st z := by
      rw [hw]
      rcases hst with ⟨hd, hv⟩ | ⟨hd, rfl⟩
      · rw [if_neg hd, hv]
      · rw [if_pos hd]
    have hcur : (z.intake.get (s.slot k).side).cursor = (s.intake.get (s.slot k).side).cursor := by
      rw [hz]
      by_cases hx : (s.slot k).side = x
      · simp [hx]
      · simp [Sided.get_set_ne _ _ hx]
    rw [he, hpost, postNeverActive, toPosting_spec, hslot, hcur, hz]
    simp [Slot.posted]

/-! ### Acceptance (R54, R58, R65) -/

/-- The state in which an accepted record is dispatched. -/
def acceptedState (x : Side) (i : Fin 12) (k : Kind) (s : State) : State :=
  let t := { s with counter := s.counter + 1 }
  (t.modSlot i (fun sl => sl.accepted k (s.intake.get x).cursor (s.counter + 1) s.clk.count)).modIntake x
    (fun u => { u with cursor := cursorAfter k (s.slot i).words (s.intake.get x).cursor })

theorem accept_eq_dispatch (x : Side) (i : Fin 12) (k : Kind) (s : State) :
    accept x i k s = dispatch i k (acceptedState x i k s) := rfl

theorem deadlineAsked_some {k : Kind} {r : List Word} (hk : k.usesDeadline = true) (hr : 0 < recDeadline r) :
    deadlineAsked k r = some (recDeadline r) := by simp [deadlineAsked, hk, hr]

theorem deadlineAsked_none {k : Kind} {r : List Word} (h : k.usesDeadline = false ∨ recDeadline r = 0) :
    deadlineAsked k r = none := by
  rcases h with h | h <;> simp [deadlineAsked, h]

theorem cursorAfter_of_not_sets {k : Kind} (r : List Word) (c : Option (Platter × Nat)) (h : k.setsCursor = false) :
    cursorAfter k r c = c := by simp [cursorAfter, h]

theorem setsCursor_of_transfers {k : Kind} (h : k.transfers = true) (hc : k ≠ .check) : k.setsCursor = true := by
  cases k <;> simp_all [Kind.transfers, Kind.setsCursor]

theorem cursorAfter_of_sets {k : Kind} {r : List Word} {c : Option (Platter × Nat)} {p : Platter} {i0 : Nat}
    (h : k.setsCursor = true) (he : extentStart k r c = some (p, i0)) : cursorAfter k r c =
      if i0 + sectorsFor (recCount r) < 12800 then some (p, i0 + sectorsFor (recCount r)) else none := by
  rw [cursorAfter, if_pos h, he]; rfl

/-- The context fields that acceptance fills for a transfer (R65). -/
theorem accepted_transfer {sl : Slot} {k : Kind} {c : Option (Platter × Nat)} {p : Platter} {i0 : Nat} (seq t : Word)
    (hk : k.transfers = true) (he : extentStart k sl.words c = some (p, i0)) :
    (sl.accepted k c seq t).platter = some p ∧ (sl.accepted k c seq t).start = some i0 ∧
      (sl.accepted k c seq t).n = some (sectorsFor (recCount sl.words)) ∧
      (sl.accepted k c seq t).touched = some (cylOf i0, cylOf (i0 + sectorsFor (recCount sl.words) - 1)) := by
  simp [Slot.accepted, platterNamed, touchedOf, countNamed, hk, he]

/-- Settles O33: the accepted context is `acceptedState`'s, field by field. -/
theorem soundRecordIsAccepted : Obligations.SoundRecordIsAccepted := by
  unfold Obligations.SoundRecordIsAccepted
  rintro x i n c d wt k r s h hf hlen rfl hd hv hk
  obtain ⟨z, hw, hz, hslot⟩ := wordFetched_last x i d wt s hlen
  refine ⟨acceptedState x i k z, ?_, ?_⟩
  · rw [exec_recordFetchReadEnd d wt h hf, hw, if_neg hd, hv]
    simp only [hk, accept_eq_dispatch]
  have hcur : (z.intake.get x).cursor = (s.intake.get x).cursor := by rw [hz]; simp
  have hslot' : (acceptedState x i k z).slot i =
      (z.slot i).accepted k (z.intake.get x).cursor (z.counter + 1) z.clk.count := by
    simp [acceptedState, State.slot]
  have hin : (acceptedState x i k z).intake = z.intake.set x { z.intake.get x with
      cursor := cursorAfter k (z.slot i).words (z.intake.get x).cursor } := rfl
  have hcount : z.counter = s.counter := by rw [hz]; rfl
  have hclk : z.clk = s.clk := by rw [hz]; rfl
  rw [hslot', hin, hslot, hcur, hcount, hclk]
  generalize hr : (s.slot i).words ++ [d] = r at *
  refine ⟨by rw [← hcount]; rfl, rfl, rfl, rfl, rfl, rfl, fun hu hpos => ?deadline, fun hno => ?noDeadline,
    fun p i0 he ht => ?transfer, fun hkl => ?locks, fun hks => ?seek, fun hset => ?cursor, ?rest⟩
  case deadline => simp [Slot.accepted, deadlineAsked_some hu hpos, spanFrom]
  case noDeadline => simp [Slot.accepted, deadlineAsked_none hno]
  case transfer =>
    obtain ⟨hp, hs0, hn, ht'⟩ := accepted_transfer (sl := { s.slot i with words := r }) (s.counter + 1) s.clk.count ht he
    refine ⟨hp, hs0, hn, ht', fun hc => ?_⟩
    rw [Sided.get_set_same]
    exact cursorAfter_of_sets (setsCursor_of_transfers ht hc) he
  case locks =>
    rcases hkl with rfl | rfl <;>
      simp [Slot.accepted, platterNamed, touchedOf, Kind.transfers, Kind.locks, lockRange]
  case seek => subst hks; simp [Slot.accepted, touchedOf, countNamed, Kind.transfers]
  case cursor => rw [Sided.get_set_same]; exact cursorAfter_of_not_sets r _ hset
  case rest =>
    refine ⟨by simp [hz], by simp [hz], by simp [hz], fun j hj => ?_, by rw [hz]; rfl, by rw [hz]; rfl, by rw [hz]; rfl,
      by rw [hz]; rfl, by rw [hz]; rfl, by rw [hz]; rfl, by rw [hz]; rfl, by rw [hz]; rfl, by rw [hz]; rfl, by rw [hz]; rfl⟩
    have hji : (i : Nat) ≠ j := fun hh => hj (Fin.ext hh.symm)
    simp [acceptedState, hz, State.slot, State.modSlot, State.modIntake, Vector.getElem_set_ne, hji]

end Sys2Proof.Machine
end

section
/-! The nine validation steps (R25): what each test says of the record, and the order in which they are made. -/

namespace Sys2Proof.Machine

variable {s : State} {x : Side} {r : List Word} {k : Kind} {p : Platter} {i lo hi : Nat}
  {cursor : Option (Platter × Nat)}

/-- The order of the steps, for a record whose kind is known. -/
theorem validate_of_kind (h : recKind r = some k) :
    validate s x r =
      if badCount k r then some .badCount
      else if badDiskAddress k r (s.intake.get x).cursor then some .badAddress
      else if badMemoryExtent k r then some .badAddress
      else if k.continues && (s.intake.get x).cursor.isNone then some .noCursor
      else if notMounted s x k r (s.intake.get x).cursor then some .notMounted
      else if regionDenied s x k r (s.intake.get x).cursor then some .regionDenied
      else if regionChanging s k r (s.intake.get x).cursor then some .regionChanging
      else if lockMissing s x k r (s.intake.get x).cursor then some .noLock
      else none := by
  unfold validate
  rw [h]

theorem reachesOther_iff {m : RegionMap} {r : Nat × Nat} (h : r.1 ≤ r.2) :
    m.reachesOther x r = true ↔ TouchesOther m x r := by
  cases x with
  | A =>
    simp only [RegionMap.reachesOther, TouchesOther, decide_eq_true_eq, true_and, reduceCtorEq, false_and, or_false]
    exact ⟨fun hr => ⟨r.2, h, le_rfl, hr⟩, fun ⟨c, _, hc, hm⟩ => hm.trans hc⟩
  | B =>
    simp only [RegionMap.reachesOther, TouchesOther, decide_eq_true_eq, true_and, reduceCtorEq, false_and, false_or]
    exact ⟨fun hr => ⟨r.1, le_rfl, h, hr⟩, fun ⟨c, hc, _, hm⟩ => hc.trans_lt hm⟩

theorem leavesShared_iff {m : RegionMap} {r : Nat × Nat} :
    m.leavesShared r = true ↔ r.1 < m.p1 ∨ m.p2 ≤ r.2 := by
  simp [RegionMap.leavesShared]

/-! ### The tests on a transfer record -/

theorem badCount_of_transfers (ht : k.transfers = true) :
    badCount k r = true ↔ recCount r = 0 ∨ 16384 < recCount r := by
  simp [badCount, ht]

theorem badMemoryExtent_of_transfers (ht : k.transfers = true) :
    badMemoryExtent k r = true ↔ 262143 < lastBufferWord (recBuffer r) (recCount r) (recStride r) := by
  simp [badMemoryExtent, ht]

theorem badDiskAddress_of_start (ht : k.transfers = true) (he : extentStart k r cursor = some (p, i)) :
    badDiskAddress k r cursor = true ↔
      (k.continues = false ∧ 399 < recCylinder r) ∨ 12799 < i + sectorsFor (recCount r) - 1 := by
  have hl : platterSectors ≤ i + sectorsFor (recCount r) - 1 ↔ 12799 < i + sectorsFor (recCount r) - 1 := by
    unfold platterSectors; omega
  cases k <;> simp_all [badDiskAddress, Kind.transfers, Kind.continues, Kind.locks]

theorem touchedOf_of_start (ht : k.transfers = true) (he : extentStart k r cursor = some (p, i)) :
    touchedOf k r cursor = some (i / 32, (i + sectorsFor (recCount r) - 1) / 32) := by
  simp [touchedOf, ht, he, cylOf]

theorem notMounted_of_start (ht : k.transfers = true) (he : extentStart k r cursor = some (p, i)) :
    notMounted s x k r cursor = true ↔ p = .C ∧ s.drv.mounted.get x = false := by
  simp [notMounted, platterNamed, ht, he]

theorem regionDenied_of_touched (hl : k ≠ .lock) (hu : k ≠ .unlock) (ht : touchedOf k r cursor = some (lo, hi))
    (h : lo ≤ hi) : regionDenied s x k r cursor = true ↔ TouchesOther s.map x (lo, hi) := by
  simp [regionDenied, ht, hl, hu, reachesOther_iff (r := (lo, hi)) h]

theorem regionChanging_of_touched (hu : k ≠ .unlock) (ht : touchedOf k r cursor = some (lo, hi)) (h : lo ≤ hi) :
    regionChanging s k r cursor = true ↔ TouchesChanging s.map (lo, hi) := by
  simp [regionChanging, ht, hu, commitChanges_iff (r := (lo, hi)) h]

theorem coveredBy_iff {c : Nat} : coveredBy s x p c = true ↔
    ∃ l ∈ s.held, l.side = x ∧ l.exclusive = true ∧ l.platter = p ∧ l.first ≤ c ∧ c ≤ l.last := by
  simp [coveredBy, and_assoc]

theorem lockMissing_of_read (h : k.diskWrite = false) : lockMissing s x k r cursor = false := by
  simp [lockMissing, h]

theorem lockMissing_eq_false (hw : k.diskWrite = true) (he : extentStart k r cursor = some (p, i))
    (ht : touchedOf k r cursor = some (lo, hi)) :
    lockMissing s x k r cursor = false ↔
      ∀ c, lo ≤ c → c ≤ hi → s.map.p1 ≤ c → c < s.map.p2 → coveredBy s x p c = true := by
  simp only [lockMissing, hw, he, ht, RegionMap.inShared, Bool.true_and, Option.any_some, List.any_eq_false,
    List.mem_range, Bool.and_eq_true, decide_eq_true_eq, Bool.not_eq_true', not_and, Bool.not_eq_false, and_imp]
  constructor
  · intro h c hlo hhi h1 h2
    obtain ⟨d, rfl⟩ := Nat.exists_eq_add_of_le hlo
    exact h d (by omega) h1 h2
  · exact fun h d hd h1 h2 => h (lo + d) (by omega) (by omega) h1 h2

/-! ### The transfer kinds -/

theorem extentStart_of_named (hk : k.continues = false) :
    extentStart k r cursor = some (platterOf (recHead r), recCylinder r * 32 + recHead r % 2 * 16 + recSector r) := by
  simp [extentStart, hk, spiralIndex]

theorem extentStart_of_continues (hk : k.continues = true) : extentStart k r cursor = cursor := by
  simp [extentStart, hk]

/-- A transfer record with a start: its validation is the chain of tests on count, address, extent and cylinders. -/
theorem validate_of_start (h : recKind r = some k)
    (he : extentStart k r (s.intake.get x).cursor = some (p, i)) :
    validate s x r =
      if badCount k r then some .badCount
      else if badDiskAddress k r (s.intake.get x).cursor then some .badAddress
      else if badMemoryExtent k r then some .badAddress
      else if notMounted s x k r (s.intake.get x).cursor then some .notMounted
      else if regionDenied s x k r (s.intake.get x).cursor then some .regionDenied
      else if regionChanging s k r (s.intake.get x).cursor then some .regionChanging
      else if lockMissing s x k r (s.intake.get x).cursor then some .noLock
      else none := by
  have hc : (k.continues && (s.intake.get x).cursor.isNone) = false := by
    by_cases hk : k.continues = true
    · rw [extentStart_of_continues hk] at he
      simp [he]
    · simp [hk]
  rw [validate_of_kind h, hc]
  rfl

/-- Settles O34: the tests in their order, each read by its lemma. -/
theorem validationTakesStepsInOrder : Obligations.ValidationTakesStepsInOrder := by
  unfold Obligations.ValidationTakesStepsInOrder
  rintro x r s k p w i0 n lo hi hk hstart rfl rfl rfl rfl
  have ht : k.transfers = true := by
    rcases hstart with ⟨rfl | rfl | rfl, -⟩ | ⟨rfl | rfl, -⟩ <;> rfl
  have hnamed : (k = .read ∨ k = .write ∨ k = .check) ↔ k.continues = false := by
    cases k <;> simp_all [Kind.continues, Kind.transfers]
  have hcont : (k = .contRead ∨ k = .contWrite) ↔ k.continues = true := by
    cases k <;> simp_all [Kind.continues]
  have hwrite : (k = .write ∨ k = .contWrite) ↔ k.diskWrite = true := by
    cases k <;> simp_all [Kind.diskWrite]
  rw [hnamed, hcont] at hstart
  have he : extentStart k r (s.intake.get x).cursor = some (p, i0) := by
    rcases hstart with ⟨hc, rfl, rfl⟩ | ⟨hc, hcur⟩
    · exact extentStart_of_named hc
    · rw [extentStart_of_continues hc, hcur]
  have hto := touchedOf_of_start ht he
  have hcount := badCount_of_transfers (r := r) ht
  have hdisk := badDiskAddress_of_start ht he
  have hmem := badMemoryExtent_of_transfers (r := r) ht
  have hmount := notMounted_of_start (s := s) (x := x) ht he
  rw [validate_of_start hk he]
  unfold lastBufferWord sectorsFor at hmem
  unfold sectorsFor at hdisk hto
  refine ⟨fun h => if_pos (hcount.mpr h), fun h0 h1 => ?_⟩
  have hle : i0 / 32 ≤ (i0 + (recCount r + 255) / 256 - 1) / 32 := Nat.div_le_div_right (by omega)
  have hregion := regionDenied_of_touched (s := s) (x := x) (by rintro rfl; cases ht) (by rintro rfl; cases ht) hto hle
  have hchange := regionChanging_of_touched (s := s) (by rintro rfl; cases ht) hto hle
  rw [if_neg (fun h => by have := hcount.mp h; omega), hnamed]
  refine ⟨fun h => if_pos (hdisk.mpr h), fun hc hi => ?_⟩
  rw [hcont] at hc
  rw [if_neg (fun h => by
    rcases hdisk.mp h with ⟨h, h'⟩ | h
    · rcases hc with hc | hc
      · rw [h] at hc; cases hc
      · omega
    · omega)]
  refine ⟨fun h => if_pos (hmem.mpr h), fun hm => ?_⟩
  rw [if_neg (fun h => by have := hmem.mp h; omega)]
  refine ⟨fun hp hf => if_pos (hmount.mpr ⟨hp, hf⟩), fun hp => ?_⟩
  rw [if_neg (fun h => by obtain ⟨rfl, hf⟩ := hmount.mp h; simp [hf] at hp)]
  refine ⟨fun h => if_pos (hregion.mpr h), fun hr => ?_⟩
  rw [if_neg (mt hregion.mp hr)]
  refine ⟨fun h => if_pos (hchange.mpr h), fun hch => ?_⟩
  rw [if_neg (mt hchange.mp hch), hwrite]
  refine ⟨fun hw hcw => ?_, fun hw => ⟨?_, ?_⟩⟩
  · have hd : k.diskWrite = false := by
      rw [← Bool.not_eq_true, ← hwrite]
      exact fun h => h.elim hw hcw
    rw [if_neg (by simp [lockMissing_of_read hd])]
  · have hcover := lockMissing_eq_false (s := s) (x := x) hw he hto
    simp only [coveredBy_iff] at hcover
    rw [← hcover]
    simp
  · by_cases hl : lockMissing s x k r (s.intake.get x).cursor = true
    · exact .inr (if_pos hl)
    · exact .inl (if_neg hl)

/-! ### The other kinds -/

theorem recKind_eq_none : recKind r = none ↔ 10 ≤ field (recWord r 0) 12 4 := by
  have hb : field (recWord r 0) 12 4 < 16 := (BitVec.extractLsb' 12 4 (recWord r 0)).isLt
  unfold recKind
  generalize field (recWord r 0) 12 4 = n at hb ⊢
  interval_cases n <;> simp

theorem field_top (w : Word) : field w 12 4 = w.toNat / 4096 := by
  have := w.isLt
  simp only [field, BitVec.extractLsb'_toNat, Nat.shiftRight_eq_div_pow]
  omega

/-- A RESTORE and a MOUNT_ACK name nothing that a step could refuse. -/
theorem validate_of_bare (h : recKind r = some k) (hk : k = .mountAck ∨ k = .restore) : validate s x r = none := by
  rw [validate_of_kind h]
  rcases hk with rfl | rfl
  all_goals simp [badCount, badDiskAddress, badMemoryExtent, notMounted, platterNamed, regionDenied, regionChanging,
    touchedOf, lockMissing, Kind.transfers, Kind.locks, Kind.continues, Kind.diskWrite]

theorem validate_of_seek (h : recKind r = some .seek) :
    validate s x r =
      if 399 < recCylinder r then some .badAddress
      else if regionDenied s x .seek r (s.intake.get x).cursor then some .regionDenied
      else if regionChanging s .seek r (s.intake.get x).cursor then some .regionChanging
      else none := by
  rw [validate_of_kind h]
  simp [badCount, badDiskAddress, badMemoryExtent, notMounted, platterNamed, lockMissing, Kind.transfers, Kind.locks,
    Kind.continues, Kind.diskWrite]

theorem validate_of_locks (h : recKind r = some k) (hk : k.locks = true) :
    validate s x r =
      if recLastCylinder r < recCylinder r then some .badCount
      else if 399 < recLastCylinder r then some .badAddress
      else if recLockPlatter r = .C ∧ s.drv.mounted.get x = false then some .notMounted
      else if regionDenied s x k r (s.intake.get x).cursor then some .regionDenied
      else if regionChanging s k r (s.intake.get x).cursor then some .regionChanging
      else none := by
  rw [validate_of_kind h]
  cases k <;> simp_all [badCount, badDiskAddress, badMemoryExtent, notMounted, platterNamed, lockMissing,
    Kind.transfers, Kind.locks, Kind.continues, Kind.diskWrite]

theorem regionDenied_unlock : regionDenied s x .unlock r cursor = false := by
  simp [regionDenied, touchedOf, Kind.transfers, Kind.locks]

theorem regionChanging_unlock : regionChanging s .unlock r cursor = false := by
  simp [regionChanging]

theorem regionDenied_lock : regionDenied s x .lock r cursor = true ↔
    recCylinder r < s.map.p1 ∨ s.map.p2 ≤ recLastCylinder r := by
  simp [regionDenied, touchedOf, Kind.transfers, Kind.locks, leavesShared_iff, lockRange]

theorem touchedOf_seek : touchedOf .seek r cursor = some (recCylinder r, recCylinder r) := by
  simp [touchedOf, Kind.transfers]

theorem touchedOf_lock : touchedOf .lock r cursor = some (recCylinder r, recLastCylinder r) := by
  simp [touchedOf, Kind.transfers, Kind.locks, lockRange]

/-- A continue record with no cursor: its count and its memory extent are tested before the missing cursor. -/
theorem validate_of_no_cursor (h : recKind r = some k) (hk : k.continues = true)
    (hc : (s.intake.get x).cursor = none) :
    validate s x r =
      if recCount r = 0 ∨ 16384 < recCount r then some .badCount
      else if 262143 < lastBufferWord (recBuffer r) (recCount r) (recStride r) then some .badAddress
      else some .noCursor := by
  rw [validate_of_kind h]
  cases k <;> simp_all [badCount, badDiskAddress, badMemoryExtent, extentStart, Kind.transfers, Kind.locks,
    Kind.continues]

/-- Settles O35, kind by kind. -/
theorem validationOfTheOtherKinds : Obligations.ValidationOfTheOtherKinds := by
  unfold Obligations.ValidationOfTheOtherKinds
  rintro x r s c l rfl rfl
  refine ⟨by rw [recKind_eq_none, field_top], fun h => by simp [validate, h],
    fun h => h.elim (validate_of_bare · (.inl rfl)) (validate_of_bare · (.inr rfl)), fun h => ?_, fun h => ?_,
    fun h hc => ?_⟩
  · have hregion := regionDenied_of_touched (s := s) (x := x) (by simp) (by simp)
      (touchedOf_seek (r := r) (cursor := (s.intake.get x).cursor)) le_rfl
    have hchange := regionChanging_of_touched (s := s) (by simp)
      (touchedOf_seek (r := r) (cursor := (s.intake.get x).cursor)) le_rfl
    rw [validate_of_seek h]
    refine ⟨fun h => if_pos h, fun h hr => ?_, fun h hr hch => ?_, fun h hr hch => ?_⟩
    · rw [if_neg (by omega), if_pos (hregion.mpr hr)]
    · rw [if_neg (by omega), if_neg (mt hregion.mp hr), if_pos (hchange.mpr hch)]
    · rw [if_neg (by omega), if_neg (mt hregion.mp hr), if_neg (mt hchange.mp hch)]
  · obtain ⟨k, hk, hl⟩ : ∃ k, recKind r = some k ∧ k.locks = true :=
      h.elim (⟨_, ·, rfl⟩) (⟨_, ·, rfl⟩)
    rw [validate_of_locks hk hl]
    refine ⟨fun h => if_pos h, fun h h' => ?_, fun h h' hp hm => ?_, fun h h' hp => ?_⟩
    · rw [if_neg (by omega), if_pos h']
    · rw [if_neg (by omega), if_neg (by omega), if_pos ⟨hp, hm⟩]
    · rw [if_neg (by omega), if_neg (by omega), if_neg (fun ⟨ha, hb⟩ => by simp [ha, hb] at hp), hk]
      refine ⟨fun hu => ?_, fun hlo => ?_⟩
      · obtain rfl : k = .unlock := Option.some.inj hu
        simp [regionDenied_unlock, regionChanging_unlock]
      · obtain rfl : k = .lock := Option.some.inj hlo
        have hchange := regionChanging_of_touched (s := s) (by simp)
          (touchedOf_lock (r := r) (cursor := (s.intake.get x).cursor)) h
        refine ⟨fun h => if_pos (regionDenied_lock.mpr h), fun h1 h2 hch => ?_, fun h1 h2 hch => ?_⟩
        · rw [if_neg (fun hd => by have := regionDenied_lock.mp hd; omega), if_pos (hchange.mpr hch)]
        · rw [if_neg (fun hd => by have := regionDenied_lock.mp hd; omega), if_neg (mt hchange.mp hch)]
  · obtain ⟨k, hk, hl⟩ : ∃ k, recKind r = some k ∧ k.continues = true :=
      h.elim (⟨_, ·, rfl⟩) (⟨_, ·, rfl⟩)
    rw [validate_of_no_cursor hk hl hc]
    unfold lastBufferWord sectorsFor
    refine ⟨fun h => if_pos h, fun h0 h1 => ⟨fun h => ?_, fun h => ?_⟩⟩
    · rw [if_neg (by omega), if_pos h]
    · rw [if_neg (by omega), if_neg (by omega)]

end Sys2Proof.Machine
end

section
/-! The lock table: the tests of a LOCK, an UNLOCK and a read as the rules word them, the decisions at acceptance, and
the re-examination of the lock-wait order (R103 to R109). -/

namespace Sys2Proof.Machine

variable {s t : State} {x : Side} {i j : Fin 12} {l : Lock}

/-! ### What the tests say (R56, R104, R105, R107) -/

theorem rangesMeet_iff {a b : Nat × Nat} : rangesMeet a b = true ↔ a.1 ≤ b.2 ∧ b.1 ≤ a.2 := by
  simp [rangesMeet]

theorem meets_iff_overlaps {h : Lock} : h.meets l.platter (l.first, l.last) = true ↔ h.overlaps l :=
  meets_iff h _ _

theorem overlapsOwn_iff : overlapsOwn s l.side l.platter (l.first, l.last) = true ↔
    ∃ h ∈ s.held, h.side = l.side ∧ h.overlaps l := by
  simp [overlapsOwn, meets_iff_overlaps]

theorem lockConflict_iff_overlaps {y : Side} : lockConflict s y l.platter (l.first, l.last) l.exclusive = true ↔
    ∃ h ∈ s.held, h.side = y ∧ h.overlaps l ∧ (h.exclusive = true ∨ l.exclusive = true) := by
  rw [lockConflict_iff]
  exact exists_congr fun h => by unfold Lock.overlaps; tauto

theorem inFlight_iff {y : Side} {p : Platter} {r : Nat × Nat} {f : Kind → Bool} :
    slotIds.any (fun i => ((s.slot i).state == .waiting || (s.slot i).state == .active) && (s.slot i).side == y &&
      (s.slot i).isKind f && (s.slot i).touches p r) = true ↔
    ∃ i c, ((s.slot i).state = .waiting ∨ (s.slot i).state = .active) ∧ (s.slot i).side = y ∧
      (s.slot i).isKind f = true ∧ (s.slot i).platter = some p ∧ (s.slot i).touched = some c ∧ c.1 ≤ r.2 ∧
      r.1 ≤ c.2 := by
  simp only [slotIds_eq, List.any_eq_true, List.mem_finRange, true_and, Bool.and_eq_true, Bool.or_eq_true, beq_iff_eq,
    touches_iff, ← exists_and_left, and_assoc]

theorem readInFlight_iff {y : Side} {p : Platter} {r : Nat × Nat} : readInFlight s y p r = true ↔
    ∃ i c, ((s.slot i).state = .waiting ∨ (s.slot i).state = .active) ∧ (s.slot i).side = y ∧
      (s.slot i).isKind Kind.lockRead = true ∧ (s.slot i).platter = some p ∧ (s.slot i).touched = some c ∧
      c.1 ≤ r.2 ∧ r.1 ≤ c.2 :=
  inFlight_iff

theorem writeNeeds_iff {y : Side} {p : Platter} {r : Nat × Nat} : writeNeeds s y p r = true ↔
    ∃ i c, ((s.slot i).state = .waiting ∨ (s.slot i).state = .active) ∧ (s.slot i).side = y ∧
      (s.slot i).isKind Kind.diskWrite = true ∧ (s.slot i).platter = some p ∧ (s.slot i).touched = some c ∧
      c.1 ≤ r.2 ∧ r.1 ≤ c.2 :=
  inFlight_iff

theorem inConflict_iff : inConflict s l.side l.platter (l.first, l.last) l.exclusive = true ↔ InConflict s l := by
  simp only [inConflict, Bool.or_eq_true, Bool.and_eq_true, lockConflict_iff_overlaps, readInFlight_iff, InConflict,
    and_comm (a := _ ≤ l.last)]

theorem waitsOn_iff : waitsOn s x (s.slot i) = true ↔ WaitsOn s x i := by
  have hc : lockConflict s x (recLockPlatter (s.slot i).words) (lockRange (s.slot i).words)
      (recExclusive (s.slot i).words) = true ↔ _ := lockConflict_iff_overlaps (l := lockOf (s.slot i))
  simp only [waitsOn, Bool.and_eq_true, Bool.or_eq_true, beq_iff_eq, isLock_iff, hc, WaitsOn, and_assoc]
  rfl

theorem deadlockRefuses_iff : deadlockRefuses s x = true ↔ ∃ j, WaitsOn s x j := by
  simp [deadlockRefuses, slotIds_eq, waitsOn_iff]

theorem readBlocked_iff : readBlocked s (s.slot i) = true ↔ ReadBlocked s i := by
  simp only [readBlocked, exclusiveOver, Option.any_eq_true, List.any_eq_true, Bool.and_eq_true, beq_iff_eq,
    Lock.meets, rangesMeet_iff, ReadBlocked]
  constructor
  · rintro ⟨r, hr, p, hp, h, hh, ⟨hs, he⟩, rfl, h1, h2⟩
    exact ⟨h, hh, r, hs, he, hp, hr, h1, h2⟩
  · rintro ⟨h, hh, r, hs, he, hp, hr, h1, h2⟩
    exact ⟨r, hr, _, hp, h, hh, ⟨hs, he⟩, rfl, h1, h2⟩

/-! ### The grant of a LOCK and the decision on it (R103, R104) -/

/-- The answer to a LOCK that nothing refuses: the lowest free entry, or LOCK_TABLE_FULL. -/
def grantLock (i : Fin 12) (s : State) : State :=
  match s.freeEntry with
  | some k => placeLock k (lockOf (s.slot i)) (postNeverActive i .ok s)
  | none => postNeverActive i .lockTableFull s

theorem grantLock_free {k : Fin 8} (h : s.locks[k] = none) (hlt : ∀ j : Fin 8, j < k → s.locks[j] ≠ none) :
    grantLock i s = { postNeverActive i .ok s with locks := s.locks.set k (some (lockOf (s.slot i))) } := by
  simp only [grantLock, freeEntry_eq_some s k h hlt]
  rfl

theorem grantLock_full (h : ∀ k : Fin 8, s.locks[k] ≠ none) :
    grantLock i s = postNeverActive i .lockTableFull s := by
  simp only [grantLock, freeEntry_eq_none s h]

/-- R104's steps with the tests on the lock that the record asks for. -/
theorem dispatch_lock (hl : l = lockOf (s.slot i)) :
    dispatch i .lock s =
      if overlapsOwn s l.side l.platter (l.first, l.last) then postNeverActive i .overlap s
      else if inConflict s l.side l.platter (l.first, l.last) l.exclusive then
        if recNoWait (s.slot i).words then postNeverActive i .locked s
        else if deadlockRefuses s l.side then postNeverActive i .deadlock s
        else toLockwait i s
      else grantLock i s := by
  subst hl
  rfl

theorem overlapsOwn_false (h : ∀ h ∈ s.held, h.side = l.side → ¬ h.overlaps l) :
    ¬ overlapsOwn s l.side l.platter (l.first, l.last) = true := by
  rw [overlapsOwn_iff]
  rintro ⟨a, ha, hs, ho⟩
  exact h a ha hs ho

/-- Settles O36: the six steps in their order. -/
theorem lockIsDecidedInSixSteps : Obligations.LockIsDecidedInSixSteps := by
  unfold Obligations.LockIsDecidedInSixSteps
  intro i l s hl
  rw [dispatch_lock hl]
  refine ⟨fun h => if_pos (overlapsOwn_iff.mpr h), fun h => ?_⟩
  rw [if_neg (overlapsOwn_false h)]
  refine ⟨fun hc => ?_, fun hc => ?_⟩
  · rw [if_neg (mt inConflict_iff.mp hc)]
    subst hl
    exact ⟨fun k => grantLock_free, grantLock_full⟩
  · rw [if_pos (inConflict_iff.mpr hc)]
    refine ⟨fun hn => if_pos hn, fun hn => ?_⟩
    rw [if_neg (by simp [hn])]
    refine ⟨fun hd => if_pos (deadlockRefuses_iff.mpr hd), fun hd => if_neg ?_⟩
    rw [deadlockRefuses_iff]
    exact fun ⟨j, hj⟩ => hd j hj

/-! ### The decision on an UNLOCK (R107) -/

theorem unlocks_iff {sl : Slot} : unlocks sl l = true ↔ ∃ m, l = { lockOf sl with exclusive := m } := by
  obtain ⟨side, platter, first, last, exclusive⟩ := l
  simp [unlocks, lockOf, and_assoc]

theorem dispatch_unlock (hl : l = lockOf (s.slot i)) :
    dispatch i .unlock s =
      if !s.held.any (unlocks (s.slot i)) then postNeverActive i .notHeld s
      else if writeNeeds s l.side l.platter (l.first, l.last) then postNeverActive i .lockInUse s
      else reexamine (freeLocks (unlocks (s.slot i)) (postNeverActive i .ok s)) := by
  subst hl
  rfl

theorem freeLocks_at (sl : Slot) (k : Fin 8) :
    (s.locks.map (fun o => if o.any (unlocks sl) then none else o))[k] =
      if ∃ m, s.locks[k] = some { lockOf sl with exclusive := m } then none else s.locks[k] := by
  rw [Fin.getElem_fin, Vector.getElem_map]
  refine if_congr ?_ rfl rfl
  simp only [Option.any_eq_true, unlocks_iff]
  exact ⟨fun ⟨l, h, m, hm⟩ => ⟨m, h.trans (congrArg _ hm)⟩, fun ⟨m, h⟩ => ⟨_, h, m, rfl⟩⟩

/-- Settles O37: the entry is looked for, then the writes that need it. -/
theorem unlockIsDecided : Obligations.UnlockIsDecided := by
  unfold Obligations.UnlockIsDecided
  intro i l s hl
  have hany : s.held.any (unlocks (s.slot i)) = true ↔ ∃ e, ({ l with exclusive := e } : Lock) ∈ s.held := by
    simp only [List.any_eq_true, unlocks_iff, ← hl]
    exact ⟨fun ⟨a, ha, e, he⟩ => ⟨e, he ▸ ha⟩, fun ⟨e, he⟩ => ⟨_, he, e, rfl⟩⟩
  rw [dispatch_unlock hl]
  refine ⟨fun h => if_pos ?_, fun e he => ?_⟩
  · rw [Bool.not_eq_true', ← Bool.not_eq_true, hany]
    exact fun ⟨e, he⟩ => h e he
  · rw [if_neg (by simpa using hany.mpr ⟨e, he⟩)]
    refine ⟨fun h => if_pos (writeNeeds_iff.mpr h), fun h => ?_⟩
    rw [if_neg]
    · subst hl
      exact ⟨_, rfl, freeLocks_at (s.slot i)⟩
    · rw [writeNeeds_iff]
      rintro ⟨j, r, hst, hs, hk, hp, ht, h1, h2⟩
      exact h j r hst hs hk hp ht ⟨h1, h2⟩

/-! ### The other kinds (R55, R106, R165) -/

theorem dispatch_lockRead {k : Kind} (hk : k.lockRead = true) :
    dispatch i k s = if readBlocked s (s.slot i) then
        if deadlockRefuses s (s.slot i).side then postNeverActive i .deadlock s else toLockwait i s
      else toWaiting i s := by
  cases k <;> simp_all [Kind.lockRead] <;> rfl

/-- Settles O38, kind by kind. -/
theorem otherKindsAreDispatched : Obligations.OtherKindsAreDispatched := by
  unfold Obligations.OtherKindsAreDispatched
  intro i k s
  refine ⟨fun hk => ?_, fun hk => ?_, fun hk hd => ?_, fun hk h1 h2 => ?_⟩
  · rw [dispatch_lockRead (by rcases hk with rfl | rfl | rfl <;> rfl)]
    refine ⟨fun hb => ?_, fun hb => if_neg (mt readBlocked_iff.mp hb)⟩
    rw [if_pos (readBlocked_iff.mpr hb)]
    refine ⟨fun hd => if_pos (deadlockRefuses_iff.mpr hd), fun hd => if_neg ?_⟩
    rw [deadlockRefuses_iff]
    exact fun ⟨j, hj⟩ => hd j hj
  · rcases hk with rfl | rfl | rfl | rfl <;> rfl
  · subst hk
    rcases hd with hd | hd <;> simp [dispatch, decideMountAck, hd]
  · subst hk
    simp [dispatch, decideMountAck, h1, h2]
    rfl

/-! ### A slot's turn in a re-examination (R109) -/

theorem reexamineOne_of_lock (hl : l = lockOf (s.slot i)) (hs : (s.slot i).state = .lockwait)
    (hk : (s.slot i).kind = some .lock) :
    reexamineOne s i =
      if overlapsOwn s l.side l.platter (l.first, l.last) then postNeverActive i .overlap s
      else if s.map.commitChanges (l.first, l.last) then postNeverActive i .regionChanging s
      else if inConflict s l.side l.platter (l.first, l.last) l.exclusive then s
      else grantLock i s := by
  subst hl
  unfold reexamineOne
  dsimp only
  rw [if_neg (by simp [hs]), if_pos ((isLock_iff _).mpr hk)]
  rfl

theorem reexamineOne_of_read (hs : (s.slot i).state = .lockwait) (hk : (s.slot i).kind ≠ some .lock) :
    reexamineOne s i = if readBlocked s (s.slot i) then s else examine (toWaiting i s) := by
  unfold reexamineOne
  dsimp only
  rw [if_neg (by simp [hs]), if_neg (mt (isLock_iff _).mp hk)]

theorem commitChanges_of_touches {m : RegionMap} {r : Nat × Nat} (h : TouchesChanging m r) :
    m.commitChanges r = true := by
  have ⟨_, _, _, _, h1, h2, _⟩ := h
  exact (commitChanges_iff (h1.trans h2)).mpr h

/-! ### The passes (R108) -/

theorem reexaminePasses_enough {fuel calls n : Nat} (h : calls + s.lockWaiters ≤ fuel) :
    reexaminePasses (fuel + n) calls s = reexaminePasses fuel calls s := by
  induction n with
  | zero => rfl
  | succ n ih => rw [← Nat.add_assoc, reexaminePasses_fuel _ _ _ (by omega), ih]

/-- One call is one pass, and as many calls more as slots left LOCKWAIT in it without a grant. -/
theorem reexamineFor_succ (n : Nat) (s : State) :
    reexamineFor (n + 1) s =
      reexamineFor (n + slotIds.countP (leftUngranted s (reexaminePass s))) (reexaminePass s) := by
  have hw := lockWaiters_after (foldl_moves (lockWaitOrder s) s)
  obtain ⟨e, he⟩ := Nat.exists_eq_add_of_le hw
  have hf : n + 1 + s.lockWaiters = n + slotIds.countP (leftUngranted s (reexaminePass s)) +
      (reexaminePass s).lockWaiters + e + 1 := by
    unfold reexaminePass
    omega
  unfold reexamineFor
  rw [hf]
  exact reexaminePasses_enough le_rfl

theorem countP_eq_length {d : List (Fin 12)} {f : Fin 12 → Bool} (hd : d.Nodup) (h : ∀ i, i ∈ d ↔ f i = true) :
    slotIds.countP f = d.length := by
  rw [List.countP_eq_length_filter]
  refine ((List.perm_ext_iff_of_nodup (List.Nodup.filter _ ?_) hd).mpr fun i => ?_).length_eq
  · exact slotIds_eq ▸ List.nodup_finRange 12
  · simp [slotIds_eq, h]

theorem leftUngranted_iff : leftUngranted s t i = true ↔ (s.slot i).state = .lockwait ∧
    ((t.slot i).state = .waiting ∨ (t.slot i).state = .posting ∧ (t.slot i).status ≠ some .ok) := by
  simp [leftUngranted]

/-! ### The oldest-first order (R68) -/

theorem older_false_of_older (h : s.older i j = true) : s.older j i = false := by
  rw [← Bool.not_eq_true, older_iff]
  rw [older_iff] at h
  omega

theorem older_trans {k : Fin 12} (h : s.older j i = false) (h' : s.older k j = false) : s.older k i = false := by
  rw [← Bool.not_eq_true, older_iff] at h h' ⊢
  omega

theorem mem_insertOldest {r : List (Fin 12)} : j ∈ s.insertOldest i r ↔ j = i ∨ j ∈ r := by
  induction r with
  | nil => simp [State.insertOldest]
  | cons a r ih =>
    unfold State.insertOldest
    split
    · simp
    · simp only [List.mem_cons, ih]; tauto

theorem mem_oldestFirst {d : List (Fin 12)} : i ∈ s.oldestFirst d ↔ i ∈ d := by
  induction d with
  | nil => rfl
  | cons a d ih => exact mem_insertOldest.trans ((or_congr_right ih).trans List.mem_cons.symm)

theorem insertOldest_pairwise {r : List (Fin 12)} (h : r.Pairwise (fun i j => s.older j i = false)) :
    (s.insertOldest i r).Pairwise (fun i j => s.older j i = false) := by
  induction r with
  | nil => exact List.pairwise_singleton _ _
  | cons a r ih =>
    obtain ⟨ha, hr⟩ := List.pairwise_cons.mp h
    unfold State.insertOldest
    split
    next hi =>
      refine List.pairwise_cons.mpr ⟨fun b hb => ?_, h⟩
      rcases List.mem_cons.mp hb with rfl | hb
      · exact older_false_of_older hi
      · exact older_trans (older_false_of_older hi) (ha b hb)
    next hi =>
      refine List.pairwise_cons.mpr ⟨fun b hb => ?_, ih hr⟩
      rcases mem_insertOldest.mp hb with rfl | hb
      · exact Bool.eq_false_iff.mpr hi
      · exact ha b hb

theorem oldestFirst_pairwise (d : List (Fin 12)) :
    (s.oldestFirst d).Pairwise (fun i j => s.older j i = false) := by
  induction d with
  | nil => exact List.Pairwise.nil
  | cons a d ih => exact insertOldest_pairwise ih

theorem mem_lockWaitOrder : i ∈ lockWaitOrder s ↔ (s.slot i).state = .lockwait ∧ (s.slot i).seq ≠ none := by
  simp [lockWaitOrder, mem_oldestFirst, slotIds_eq, Option.isSome_iff_ne_none]

/-- Settles O39: the turn by the slot's kind, the further passes by the slots that left, and the order of a pass. -/
theorem reexaminationTurn : Obligations.ReexaminationTurn := by
  unfold Obligations.ReexaminationTurn
  refine ⟨fun i l s hl => ⟨fun h => if_pos h, fun hs hk => ?_, fun hs hk => ?_⟩, ?_,
    fun s => ⟨rfl, fun i => mem_lockWaitOrder, oldestFirst_pairwise _⟩⟩
  · rw [reexamineOne_of_lock hl hs hk]
    refine ⟨fun h => if_pos (overlapsOwn_iff.mpr h), fun h => ?_⟩
    rw [if_neg (overlapsOwn_false h)]
    refine ⟨fun ht => if_pos (commitChanges_of_touches ht), fun hle ht => ?_⟩
    rw [if_neg (mt (commitChanges_iff (r := (l.first, l.last)) hle).mp ht)]
    refine ⟨fun hc => if_pos (inConflict_iff.mpr hc), fun hc => ?_⟩
    rw [if_neg (mt inConflict_iff.mp hc)]
    subst hl
    exact ⟨fun k => grantLock_free, grantLock_full⟩
  · rw [reexamineOne_of_read hs hk]
    exact ⟨fun hb => if_pos (readBlocked_iff.mpr hb), fun hb => if_neg (mt readBlocked_iff.mp hb)⟩
  · rintro n s t d rfl hd hmem
    refine ⟨rfl, ?_, ?_⟩
    · unfold reexamineFor
      cases 0 + s.lockWaiters <;> rfl
    · rw [reexamineFor_succ, countP_eq_length hd fun i => (hmem i).trans leftUngranted_iff.symm]

end Sys2Proof.Machine
end

section
/-! Selection and deadlines: the examination, the taking of its request, and the deadline's event (R70, R79, R86 to
R90). -/

namespace Sys2Proof.Machine

variable {s t : State} {i j : Fin 12}

/-! ### The examination (R79, R80, R86) -/

theorem mem_waitingSlots : i ∈ s.waitingSlots ↔ (s.slot i).state = .waiting := by
  simp [State.waitingSlots, slotIds_eq]

theorem mem_eligible : i ∈ s.eligible ↔ (s.slot i).state = .waiting ∧
    (s.drv.state = .ready ∨ s.drv.state = .faulted ∧ (s.slot i).kind = some .restore) := by
  unfold State.eligible
  cases s.drv.state <;> simp [mem_waitingSlots, State.restoreSlot, Slot.isKind, Option.any_eq_true]

theorem examine_of_stays (h : s.activeSlot.isSome = true ∨ s.sel.isSome = true ∨ s.eligible = []) :
    examine s = s := by
  unfold examine
  split
  · rfl
  next hn =>
    have he : s.eligible = [] := by tauto
    rw [he]
    rfl

theorem examine_of_chosen (ha : s.activeSlot = none) (hs : s.sel = none) (h : s.choose s.eligible = some i) :
    examine s = { s with sel := some ⟨i, (s.slot i).tenure, (s.eligible.filter (· != i)).map s.withWait⟩ } := by
  simp [examine, ha, hs, h]

theorem mem_counted {e : Fin 12 × Nat × Nat} :
    e ∈ (s.eligible.filter (· != i)).map s.withWait ↔
      e.1 ∈ s.eligible ∧ e.1 ≠ i ∧ e.2 = ((s.slot e.1).tenure, (s.slot e.1).depth) := by
  simp only [List.mem_map, List.mem_filter, bne_iff_ne, State.withWait, Slot.wait]
  constructor
  · rintro ⟨a, ⟨ha, hi⟩, rfl⟩
    exact ⟨ha, hi, rfl⟩
  · rintro ⟨ha, hi, he⟩
    exact ⟨e.1, ⟨ha, hi⟩, Prod.ext rfl he.symm⟩

theorem rank_of_tier_one (h : s.tier i = 1) : s.rank i = (s.slack i).getD 0 := if_pos h

theorem rank_of_tier_three (h : s.tier i = 3) : s.rank i = s.score i := by
  simp [State.rank, h]

theorem rank_of_age_tiers (h : s.tier i = 0 ∨ s.tier i = 2) : s.rank i = 0 := by
  rcases h with h | h <;> simp [State.rank, h]

/-- What it is to be ahead, tier by tier. -/
theorem ahead_by_tier (h : s.ahead i j = true) : s.tier i ≤ s.tier j ∧
    (s.tier i = s.tier j →
      (s.tier i = 1 → (s.slack i).getD 0 < (s.slack j).getD 0 ∨
        ((s.slack i).getD 0 = (s.slack j).getD 0 ∧ s.older i j = true)) ∧
      (s.tier i = 3 → s.score i < s.score j ∨ (s.score i = s.score j ∧ s.older i j = true)) ∧
      (s.tier i = 0 ∨ s.tier i = 2 → s.older i j = true)) := by
  rw [ahead_iff] at h
  refine ⟨by omega, fun ht => ?_⟩
  obtain hlt | ⟨-, hr⟩ := h
  · omega
  refine ⟨fun h1 => ?_, fun h3 => ?_, fun h02 => ?_⟩
  · rwa [rank_of_tier_one h1, rank_of_tier_one (ht ▸ h1)] at hr
  · rwa [rank_of_tier_three h3, rank_of_tier_three (ht ▸ h3)] at hr
  · rw [rank_of_age_tiers h02, rank_of_age_tiers (ht ▸ h02)] at hr
    exact hr.elim (fun h => absurd h (lt_irrefl _)) And.right

/-- Settles O42: the slot that `choose` answers is ahead of every other eligible slot. -/
theorem examinationChoosesTheFirst : Obligations.ExaminationChoosesTheFirst := by
  unfold Obligations.ExaminationChoosesTheFirst
  refine fun s => ⟨fun i => mem_eligible, examine_of_stays, fun ha hs he => ?_⟩
  cases hc : s.choose s.eligible with
  | none => exact absurd (choose_none s _ hc) he
  | some i =>
    obtain ⟨hi, hahead⟩ := choose_spec s _ i hc
    exact ⟨i, _, hi, examine_of_chosen ha hs hc, fun e => mem_counted, fun j hj hn => ahead_by_tier (hahead j hj hn)⟩

/-! ### The re-examination while a slot is ACTIVE -/

theorem activeSlot_isSome (h : (s.slot i).state = .active) : s.activeSlot.isSome = true := by
  rw [Option.isSome_iff_ne_none]
  exact fun hn => activeSlot_none hn i h

theorem grantLock_sel : (grantLock i s).sel = s.sel := by
  unfold grantLock
  split <;> rfl

theorem reexamineOne_sel (h : (s.slot j).state = .active) : (reexamineOne s i).sel = s.sel := by
  by_cases hs : (s.slot i).state = .lockwait
  · by_cases hk : (s.slot i).kind = some .lock
    · rw [reexamineOne_of_lock rfl hs hk]
      simp only [apply_ite State.sel, grantLock_sel]
      simp only [postNeverActive, toPosting, State.modPost_sel, State.modSlot_sel, ite_self]
    · rw [reexamineOne_of_read hs hk]
      have hj : ((toWaiting i s).slot j).state = .active := by
        rw [toWaiting, State.slot_modSlot_ne _ _ (by rintro rfl; simp [hs] at h)]
        exact h
      rw [examine_of_stays (.inl (activeSlot_isSome hj))]
      split <;> rfl
  · exact congrArg State.sel (if_pos hs)

theorem TableMoves.active (h : TableMoves s t) (hj : (s.slot j).state = .active) : (t.slot j).state = .active := by
  rcases h.slots j with he | ⟨he, -⟩
  · rw [he, hj]
  · simp [hj] at he

theorem foldl_reexamineOne_sel (d : List (Fin 12)) (h : (s.slot j).state = .active) :
    (d.foldl reexamineOne s).sel = s.sel := by
  induction d generalizing s with
  | nil => rfl
  | cons a d ih => exact (ih ((reexamineOne_moves s a).active h)).trans (reexamineOne_sel h)

theorem reexaminePasses_sel (fuel calls : Nat) (h : (s.slot j).state = .active) :
    (reexaminePasses fuel calls s).sel = s.sel := by
  induction fuel generalizing s calls with
  | zero => rfl
  | succ fuel ih =>
    cases calls with
    | zero => rfl
    | succ calls =>
      exact (ih _ ((foldl_moves (lockWaitOrder s) s).active h)).trans (foldl_reexamineOne_sel _ h)

theorem reexamineAfter_sel {sl : Slot} (h : (s.slot j).state = .active) : (reexamineAfter sl s).sel = s.sel := by
  unfold reexamineAfter
  split
  · exact reexaminePasses_sel _ _ h
  · rfl

/-! ### The selection taken (R72, R88, R89) -/

theorem fence_of_kind {sl : Slot} {k : Kind} (h : recKind sl.words = some k) :
    sl.fence = if k.transfers then some ⟨recBuffer sl.words, recCount sl.words, recStride sl.words,
      if k.diskRead then .diskRead else .fromMemory, recFenceWait sl.words, 0⟩ else none := by
  unfold Slot.fence Slot.kind
  rw [h]

/-- The state in which the chosen slot is ACTIVE with its fence, before the re-examination. -/
def begunSelection (q : Selection) (s : State) : State :=
  beginFence q.slot ((q.counted.foldl countPass { s with sel := none }).modSlot q.slot
    (fun sl => { sl with state := .active }))

theorem takeSelection_taken {q : Selection} (h : s.sel = some q) (hw : (s.slot q.slot).state = .waiting)
    (ht : (s.slot q.slot).tenure = q.tenure) (ha : s.activeSlot = none) :
    takeSelection s = reexamineAfter (s.slot q.slot) (begunSelection q s) := by
  unfold takeSelection
  simp only [h]
  rw [if_pos ⟨hw, ht, ha⟩]
  rfl

theorem takeSelection_refused {q : Selection} (h : s.sel = some q)
    (hr : (s.slot q.slot).state ≠ .waiting ∨ (s.slot q.slot).tenure ≠ q.tenure ∨ s.activeSlot ≠ none) :
    takeSelection s = { s with sel := none } := by
  unfold takeSelection
  simp only [h]
  exact if_neg (by tauto)

theorem begunSelection_rest (q : Selection) (s : State) :
    begunSelection q s =
      { s with slots := (begunSelection q s).slots, tap := (begunSelection q s).tap, sel := none } := by
  unfold begunSelection beginFence
  rw [foldl_count_rest]
  rfl

theorem begunSelection_slot (q : Selection) (s : State) (j : Fin 12) :
    (begunSelection q s).slot j =
      if j = q.slot then { (q.counted.foldl countPass { s with sel := none }).slot j with state := .active }
      else (q.counted.foldl countPass { s with sel := none }).slot j := by
  unfold begunSelection beginFence
  rw [State.slot_modTap, State.slot_modSlot]
  split
  next h => rw [h]
  · rfl

theorem counted_slot_self {q : Selection} (h : ∀ e ∈ q.counted, e.1 ≠ q.slot) :
    (q.counted.foldl countPass { s with sel := none }).slot q.slot = s.slot q.slot := by
  rw [foldl_count _ _ _ _ rfl, if_neg]
  · rfl
  · rintro ⟨-, hpos⟩
    obtain ⟨e, he, heq⟩ := List.countP_pos_iff.mp hpos
    exact h e he (by rw [beq_iff_eq.mp heq])

theorem begunSelection_tap (q : Selection) (s : State) :
    (begunSelection q s).tap = s.tap.set (((begunSelection q s).slot q.slot).side)
      { s.tap.get ((begunSelection q s).slot q.slot).side with fence := ((begunSelection q s).slot q.slot).fence } := by
  unfold begunSelection beginFence
  rw [foldl_count_rest]
  rfl

/-- What the chosen slot, its side's tap and every other slot are once the selection is taken. -/
theorem takeSelection_effect {q : Selection} (hq : s.sel = some q) (hw : (s.slot q.slot).state = .waiting)
    (ht : (s.slot q.slot).tenure = q.tenure) (ha : s.activeSlot = none) (hc : ∀ e ∈ q.counted, e.1 ≠ q.slot) :
    (takeSelection s).sel = none ∧ (takeSelection s).slot q.slot = { s.slot q.slot with state := .active } ∧
    (takeSelection s).tap = s.tap.set (s.slot q.slot).side
      { s.tap.get (s.slot q.slot).side with fence := (s.slot q.slot).fence } ∧
    (∀ j n, j ≠ q.slot → n = q.counted.countP (fun e => e == (j, (s.slot j).wait)) →
      ((s.slot j).state = .waiting → 0 < n →
        (takeSelection s).slot j = { s.slot j with passCount := min 15 ((s.slot j).passCount + n) }) ∧
      (((s.slot j).state = .waiting → n = 0) → (s.slot j).state ≠ .lockwait → (takeSelection s).slot j = s.slot j)) ∧
    takeSelection s = { s with
      slots := (takeSelection s).slots, locks := (takeSelection s).locks, sel := (takeSelection s).sel
      post := { s.post with queue := (takeSelection s).post.queue }, tap := (takeSelection s).tap } := by
  rw [takeSelection_taken hq hw ht ha]
  have hm := reexamineAfter_moves (s.slot q.slot) (begunSelection q s)
  have hself : (begunSelection q s).slot q.slot = { s.slot q.slot with state := .active } := by
    rw [begunSelection_slot, if_pos rfl, counted_slot_self hc]
  have hact : ((begunSelection q s).slot q.slot).state = .active := by rw [hself]
  have htap := begunSelection_tap q s
  rw [hself] at htap
  have hrest := begunSelection_rest q s
  have hslot := begunSelection_slot q s
  have hsel := reexamineAfter_sel (sl := s.slot q.slot) hact
  generalize reexamineAfter (s.slot q.slot) (begunSelection q s) = u at hm hsel ⊢
  generalize begunSelection q s = v at hm hself hact htap hrest hslot hsel
  have hkept : ∀ j, (v.slot j).state ≠ .lockwait → u.slot j = v.slot j :=
    fun j hj => (hm.slots j).resolve_right fun h => hj h.1
  refine ⟨by rw [hsel, hrest], (hkept _ (by rw [hact]; simp)).trans hself, ?_, ?_, ?_⟩
  · rw [hm.rest]
    exact htap
  · rintro j n hj rfl
    have hj' := hslot j
    rw [if_neg hj, foldl_count _ { s with sel := none } _ _ rfl] at hj'
    refine ⟨fun hjw hpos => ?_, fun hn hl => ?_⟩
    · have hb := hj'.trans (if_pos ⟨hjw, hpos⟩)
      exact (hkept j (by rw [hb]; exact fun h => by cases hjw.symm.trans h)).trans hb
    · have hb := hj'.trans (if_neg fun ⟨hw', hpos⟩ => absurd (hn hw') (Nat.ne_of_gt hpos))
      exact (hkept j (by rw [hb]; exact hl)).trans hb
  · conv_lhs => rw [hm.rest, hrest]
    rw [hm.rest, hrest]

/-- Settles O43: refused, or with what `takeSelection_effect` says. -/
theorem selectionIsTakenOrRefused : Obligations.SelectionIsTakenOrRefused := by
  unfold Obligations.SelectionIsTakenOrRefused
  intro q s hq
  have hrun : exec .selectionTaken s = .next (settle s (takeSelection s.begun)) := runIf_true (by simp [hq])
  rw [hrun]
  refine ⟨fun hr => ?_, fun hw ht ha hc => ?_⟩
  · rw [takeSelection_refused (s := s.begun) hq hr]
    rfl
  obtain ⟨hsel, hself, htap, hothers, hrest⟩ := takeSelection_effect (s := s.begun) hq hw ht ha hc
  generalize takeSelection s.begun = u at hsel hself htap hothers hrest ⊢
  have hfence : (u.tap.get (s.slot q.slot).side).fence = (s.slot q.slot).fence := by
    rw [htap]
    exact congrArg Tap.fence (Sided.get_set_same _ _ _)
  refine ⟨u, rfl, hsel, hself, ?_, hfence, ?_, hothers, ?_⟩
  · rintro k r rfl hk
    rw [hfence, fence_of_kind hk]
    refine ⟨fun h => ?_, fun h => ?_, fun h => ?_⟩
    · rcases h with rfl | rfl <;> rfl
    · rcases h with rfl | rfl | rfl <;> rfl
    · rcases h with rfl | rfl <;> rfl
  · rw [htap]
    exact Sided.get_set_other _ _ _
  · rw [hrest]
    exact ⟨rfl, rfl, rfl, rfl, rfl, rfl, rfl⟩

/-! ### Deadlines (R70) -/

theorem exec_deadlineEvent {e : Word} (h : (s.slot i).span = some ⟨e, true⟩) :
    exec (.deadlineEvent i) s = .next (settle s (deadlineReached i s.begun)) :=
  runIf_true (by simp [h, spanReached])

theorem deadlineReached_expires (hw : (s.slot i).state = .waiting ∨ (s.slot i).state = .lockwait)
    (hd : recDropIfLate (s.slot i).words = true) :
    deadlineReached i s = reexamineAfter (s.slot i)
      (postNeverActive i .expired (s.modSlot i (fun sl => { sl with passed := true, span := none }))) :=
  if_pos ⟨hw, hd⟩

theorem deadlineReached_passed
    (h : ¬ (((s.slot i).state = .waiting ∨ (s.slot i).state = .lockwait) ∧ recDropIfLate (s.slot i).words = true)) :
    deadlineReached i s = { s with slots := s.slots.set i { s.slot i with passed := true, span := none } } :=
  if_neg h

/-- Settles O44, by the slot's state and drop-if-late. -/
theorem deadlineSetsPassedOrExpires : Obligations.DeadlineSetsPassedOrExpires := by
  unfold Obligations.DeadlineSetsPassedOrExpires
  intro i e s h
  rw [exec_deadlineEvent h]
  refine ⟨fun hw hd => ?_, fun h1 h2 => ?_, fun hd => ?_⟩
  · rw [deadlineReached_expires (s := s.begun) hw hd]
    have hm := reexamineAfter_moves (s.begun.slot i) (postNeverActive i .expired
      (s.begun.modSlot i (fun sl => { sl with passed := true, span := none })))
    generalize reexamineAfter _ _ = u at hm ⊢
    have hslot := fun j => toPosting_slot (s.begun.modSlot i (fun sl => { sl with passed := true, span := none })) i j
      .expired (neverActiveResidual (s.slot i)) (neverActiveStop (s.intake.get (s.slot i).side).cursor (s.slot i))
      s.clk.count
    have hpost : postNeverActive i .expired (s.begun.modSlot i (fun sl => { sl with passed := true, span := none })) =
        toPosting i .expired (neverActiveResidual (s.slot i))
          (neverActiveStop (s.intake.get (s.slot i).side).cursor (s.slot i)) s.clk.count
          (s.begun.modSlot i (fun sl => { sl with passed := true, span := none })) := by
      unfold postNeverActive
      rw [State.slot_modSlot_same]
      rfl
    rw [hpost] at hm
    refine ⟨u, rfl, ?_, ?_, fun j hj hl => ?_, ?_⟩
    · have hi := (hslot i).trans (if_pos rfl)
      rw [State.slot_modSlot_same] at hi
      exact ((hm.slots i).resolve_right fun hl => by rw [hi] at hl; cases hl.1).trans hi
    · obtain ⟨more, hmore, -⟩ := hm.queue
      rw [toPosting_queue, State.slot_modSlot_same] at hmore
      exact ⟨more, by simpa using hmore⟩
    · have hj' := (hslot j).trans ((if_neg hj).trans (State.slot_modSlot_ne _ _ hj))
      exact ((hm.slots j).resolve_right fun h => hl (hj' ▸ h.1)).trans hj'
    · rw [hm.rest]
      exact ⟨rfl, rfl, rfl, rfl, rfl, rfl, rfl, hm.sel, rfl⟩
  · rw [deadlineReached_passed (s := s.begun) fun h => h.1.elim h1 h2]
    rfl
  · rw [deadlineReached_passed (s := s.begun) fun h => by
      have : recDropIfLate (s.slot i).words = true := h.2
      simp [hd] at this]
    rfl

end Sys2Proof.Machine
end

section
/-! The posting unit: its steps, the word of the signal pair, and the end of a posting (R134 to R142). -/

namespace Sys2Proof.Machine

variable {s : State} {x : Side} {i : Fin 12} {t : Nat} {rest : List (Fin 12 × Nat)}

theorem Sided.set_set {α : Type} (p : Sided α) (x : Side) (v w : α) : (p.set x v).set x w = p.set x w := by
  cases x <;> rfl

/-! ### The steps of a posting (R135, R136, R138) -/

theorem currentSlot_of_head {st : PostStep} (hq : s.post.queue = (i, t) :: rest) (hs : s.post.step = some st) :
    currentSlot s = some i := by
  simp [currentSlot, hq, hs]

theorem startPosting_eq (hq : s.post.queue = (i, t) :: rest) :
    startPosting s = if (s.slot i).recordless then
        finishPosting i { s with post := ⟨(i, t) :: rest, some .words, 0, false⟩ }
      else { s with post := ⟨(i, t) :: rest, some .words, 0, false⟩ } := by
  simp only [startPosting, State.modPost, hq]
  rfl

theorem wordWritten_eq (hc : currentSlot s = some i) :
    wordWritten s = if s.post.wordsWritten + 1 < 3 then
        s.modPost (fun p => { p with wordsWritten := p.wordsWritten + 1 })
      else enterSignal i (s.modPost (fun p => { p with wordsWritten := p.wordsWritten + 1 })) := by
  simp only [wordWritten, hc]
  rfl

theorem exec_resultWordWriteEnd {n : Nat} (h : cycleFor s x (.result n)) (wt : Nat) :
    exec (.resultWordWriteEnd x wt) s = .next (settle s (wordWritten (s.ended x wt []))) := by
  obtain ⟨p, -, -, he⟩ := onPart_cycle h wt (t := CycleKind.isResult) rfl (fun _ => wordWritten)
  rw [exec, execResultWordWriteEnd, he]

theorem exec_signalPairEnd (h : cycleFor s x .pairWrite) (a : Bool) (wt : Nat) :
    exec (.signalPairEnd x a wt) s =
      .next (settle s (if a then pairWritten (s.ended x wt []) else postingTimedOut (s.ended x wt []))) := by
  obtain ⟨p, -, -, he⟩ := onPart_cycle h wt (t := (· == .pairWrite)) rfl
    (fun _ => if a then pairWritten else postingTimedOut)
  rw [exec, execSignalPairEnd, he]
  cases a <;> rfl

theorem exec_signalPairReadEnd {p : PartCycle} (ha : (s.tap.get x).arb = .part p) (hp : p.kind = .pairRead)
    (hn : p.abandoned = false) (d : Word) (wt : Nat) :
    exec (.signalPairReadEnd x d wt) s = .next (settle s (pairReadAnswered x d p (s.ended x wt []))) := by
  rw [exec, execSignalPairReadEnd, onPart_eq ha (by simp [hp]), hn]
  rfl

/-! ### The word of the signal pair (R138) -/

theorem insertField_bit (old : Word) {o w v b : Nat} (hb : b < 16) :
    (insertField old o w v).getLsbD b = if o ≤ b ∧ b < o + w then v.testBit (b - o) else old.getLsbD b := by
  have hsub : b - o < 16 := by omega
  have hmask : ((BitVec.ofNat 16 (2 ^ w - 1) : Word) <<< o).getLsbD b = decide (o ≤ b ∧ b < o + w) := by
    simp only [BitVec.getLsbD_shiftLeft, BitVec.getLsbD_ofNat, Nat.testBit_two_pow_sub_one, hb, hsub, decide_true,
      Bool.true_and]
    by_cases ho : o ≤ b
    · simp only [ho, true_and, Nat.not_lt.mpr ho, decide_false, Bool.not_false, Bool.true_and, decide_eq_decide]
      omega
    · simp [ho, Nat.not_le.mp ho]
  simp only [insertField, BitVec.getLsbD_or, BitVec.getLsbD_and, BitVec.getLsbD_not, hmask, hb, decide_true,
    Bool.true_and]
  by_cases h : o ≤ b ∧ b < o + w
  · simp only [h, BitVec.getLsbD_shiftLeft, BitVec.getLsbD_ofNat, hb, hsub, Nat.not_lt.mpr h.1, and_self, decide_true,
      decide_false, Bool.not_true, Bool.not_false, Bool.and_false, Bool.and_true, Bool.true_and, Bool.false_or, if_true]
  · simp [h]

theorem signalWidth_bounds (r : List Word) :
    1 ≤ recSignalWidth r ∧ recSignalWidth r ≤ 8 ∧ recSignalOffset r + recSignalWidth r ≤ 16 := by
  have ho : recSignalOffset r < 16 := (BitVec.extractLsb' 0 4 (recWord r 8)).isLt
  unfold recSignalWidth
  dsimp only
  omega

theorem ones_testBit {k : Nat} (h : k < 16) : Nat.testBit 0xFFFF k = true := by
  rw [show 0xFFFF = 2 ^ 16 - 1 from rfl, Nat.testBit_two_pow_sub_one]
  exact decide_eq_true h

/-- Settles O45: the unit's steps one by one, and the word bit by bit. -/
theorem postingWritesResultAndSignal : Obligations.PostingWritesResultAndSignal := by
  unfold Obligations.PostingWritesResultAndSignal
  refine ⟨fun x i t rest s hq => ⟨fun hs => ?start, fun hs => ?words, fun hs => ?signal⟩, ?bits⟩
  case start =>
    have he : exec .postingStart s = .next (settle s (startPosting s.begun)) := runIf_true (by simp [mayPost, hs, hq])
    rw [he, startPosting_eq (s := s.begun) hq]
    refine ⟨fun hr => ?_, fun hr => ?_⟩
    · rw [if_neg (by exact fun h => by simp [State.begun, State.slot] at h hr; simp [hr] at h)]
      rfl
    · rw [if_pos (by exact hr)]
      rfl
  case words =>
    have hc := currentSlot_of_head hq hs
    refine ⟨fun n hn hx => ?_, fun n wt h => ?_⟩
    · subst hn
      simp only [postingAsks, hc, hs, hx, ne_eq, not_true_eq_false, if_false, askWrite, wordAddr]
      unfold Slot.result
      split <;> simp_all
    · rw [exec_resultWordWriteEnd h, wordWritten_eq (s := s.ended x wt []) (i := i) hc]
      refine ⟨fun hw => ?_, fun hw ha => ?_, fun hw ha => ?_⟩
      · rw [if_pos (by exact Nat.add_lt_add_right hw 1)]
        rfl
      · rw [if_neg (by simp [hw]), enterSignal, if_neg (by exact ha)]
        simp [hw, State.modPost]
      · rw [if_neg (by simp [hw]), enterSignal, if_pos (by exact ha)]
        simp [hw, State.modPost]
  case signal =>
    have hc := currentSlot_of_head hq hs
    refine ⟨fun hx => ?_, fun p d wt ha hp hn => ?_, fun wt h => ⟨?_, ?_⟩⟩
    · simp [postingAsks, hc, hs, hx, askRead, wordAddr]
    · rw [exec_signalPairReadEnd ha hp hn]
      have hc' : currentSlot (s.ended x wt []) = some i := hc
      simp only [pairReadAnswered, hc', State.modTap, ended_tap, Sided.set_set, Sided.get_set_same]
      rfl
    · rw [exec_signalPairEnd h, if_pos rfl, pairWritten]
      have hc' : currentSlot (s.ended x wt []) = some i := hc
      rw [hc']
    · rw [exec_signalPairEnd h, if_neg Bool.false_ne_true, postingTimedOut]
      have hc' : currentSlot (s.ended x wt []) = some i := hc
      rw [hc']
      rfl
  case bits =>
    rintro sl old o w b rfl rfl hb
    obtain ⟨h1, h8, h16⟩ := signalWidth_bounds sl.words
    refine ⟨h1, h8, h16, ?_⟩
    unfold Slot.signalWord
    rw [insertField_bit old hb]
    refine if_ctx_congr Iff.rfl (fun hf => ?_) (fun _ => rfl)
    split
    · rfl
    · exact ones_testBit (by omega)

/-! ### The end of a posting (R139 to R142) -/

theorem postNotice_pres_recordless {sl : Slot} {b : Bool} (hr : sl.recordless = true) (hl : s.live sl.side = true) :
    (postNotice sl b s).pres = s.pres.set sl.side
      ((s.pres.get sl.side).join .completion 7 63 (noticeCode sl b)).examine := by
  simp [postNotice, notify, hr, hl, State.modPres]

theorem postNotice_pres_named {sl : Slot} {b : Bool} (hr : sl.recordless = false) (hp : recPriority sl.words ≤ 7)
    (hl : s.live sl.side = true) :
    (postNotice sl b s).pres = s.pres.set sl.side ((s.pres.get sl.side).join .completion (recPriority sl.words)
      (recTag sl.words) (noticeCode sl b)).examine := by
  simp [postNotice, notify, hr, hp, hl, State.modPres]

theorem postNotice_silent {sl : Slot} {b : Bool} (hr : sl.recordless = false) (hp : 7 < recPriority sl.words) :
    postNotice sl b s = s := by
  simp [postNotice, hr, Nat.not_le.mpr hp]

theorem postNotice_dead {sl : Slot} {b : Bool} (hl : s.live sl.side = false) : postNotice sl b s = s := by
  simp [postNotice, notify, hl]

/-- What the CHAIN step may change. -/
theorem postChain_rest (i : Fin 12) (b : Bool) (s : State) :
    postChain i b s = { s with
      slots := (postChain i b s).slots, intake := (postChain i b s).intake, post := (postChain i b s).post } := by
  unfold postChain handChain freeSlot
  dsimp only
  split
  · split
    · rw [startReads_spec]
      split <;> rfl
    · rfl
  · rfl

theorem handChain_waits (h : (s.intake.get x).fetch ≠ none ∨ (s.intake.get x).claim ≠ none ∨
    (s.intake.get x).chains ≠ []) :
    handChain x i s = s.modIntake x (fun u => { u with chains := u.chains ++ [i] }) := by
  refine if_neg ?_
  rintro ⟨hi, hc⟩
  simp only [Intake.idle, Bool.and_eq_true, Option.isNone_iff_eq_none] at hi
  tauto

theorem handChain_starts (hf : (s.intake.get x).fetch = none) (hc : (s.intake.get x).claim = none)
    (hch : (s.intake.get x).chains = []) : handChain x i s = startReads x i s :=
  if_pos ⟨by simp [Intake.idle, hf, hc], hch⟩

theorem postChain_frees {b : Bool} (h : followsLink (s.slot i) b = false) : postChain i b s = freeSlot i s := by
  simp [postChain, h]

theorem postChain_follows {b : Bool} (h : followsLink (s.slot i) b = true) :
    postChain i b s = handChain (s.slot i).side i (s.modSlot i Slot.chained) := by
  simp [postChain, h]

/-- The state that the NOTICE step leaves to the CHAIN step, the head gone from the queue. -/
def noticed (i : Fin 12) (s : State) : State :=
  (postNotice (s.slot i) s.post.timeoutSeen s).modPost Posting.dropHead

theorem finishPosting_eq (i : Fin 12) (s : State) :
    finishPosting i s = postChain i s.post.timeoutSeen (noticed i s) := rfl

theorem noticed_rest (hq : s.post.queue = (i, t) :: rest) :
    noticed i s = { s with
      pres := (postNotice (s.slot i) s.post.timeoutSeen s).pres, post := { s.post with queue := rest, step := none } } := by
  unfold noticed
  rw [postNotice_rest]
  simp [State.modPost, Posting.dropHead, hq]

/-- Settles O46: the notice by the slot's record, the slot and its fetch by its link. -/
theorem postingEndsWithNoticeAndChain : Obligations.PostingEndsWithNoticeAndChain := by
  unfold Obligations.PostingEndsWithNoticeAndChain
  rintro i t code rest sl c s u hq rfl rfl rfl rfl
  have hz := noticed_rest hq
  have hpres : (finishPosting i s).pres = (postNotice (s.slot i) s.post.timeoutSeen s).pres := by
    rw [finishPosting_eq, postChain_rest, hz]
  have hslot : (noticed i s).slot i = s.slot i := by rw [hz]; rfl
  refine ⟨fun hr hl => hpres.trans (postNotice_pres_recordless hr hl),
    fun hr hp hl => hpres.trans (postNotice_pres_named hr hp hl), fun hr hp => ?_, fun hl => ?_, fun h => ?_,
    fun ht hr hl hd hc => ?_, ?_⟩
  · rw [hpres, postNotice_silent hr hp]
  · rw [hpres, postNotice_dead hl]
  · rw [finishPosting_eq, postChain_frees (by rw [hslot]; exact follows_false h), hz]
    exact ⟨rfl, rfl, rfl⟩
  · rw [finishPosting_eq, postChain_follows (by rw [hslot, ht]; exact follows_true hr hl hd hc), hslot]
    have hin : ((noticed i s).modSlot i Slot.chained).intake = s.intake := by rw [hz]; rfl
    have hs : ((noticed i s).modSlot i Slot.chained).slot i = (s.slot i).chained := by
      rw [State.slot_modSlot_same, hslot]
    have hslots : ((noticed i s).modSlot i Slot.chained).slots = s.slots.set i (s.slot i).chained := by rw [hz]; rfl
    have hpost : ((noticed i s).modSlot i Slot.chained).post = { s.post with queue := rest, step := none } := by
      rw [hz]; rfl
    have hclk : ((noticed i s).modSlot i Slot.chained).clk = s.clk := by rw [hz]; rfl
    generalize (noticed i s).modSlot i Slot.chained = z at hin hs hslots hpost hclk ⊢
    refine ⟨fun hf hcl hch hle => ?_, fun hf hcl hch hgt => ?_, fun hw => ?_⟩
    · rw [handChain_starts (by rw [hin]; exact hf) (by rw [hin]; exact hcl) (by rw [hin]; exact hch), startReads_spec, hs,
        if_neg (by exact Nat.not_lt.mpr hle), hin]
      exact ⟨hslots, hpost, rfl⟩
    · rw [handChain_starts (by rw [hin]; exact hf) (by rw [hin]; exact hcl) (by rw [hin]; exact hch), startReads_spec, hs,
        if_pos (by exact hgt), hin, hslots, hpost, hclk]
      refine ⟨?_, rfl, ?_⟩
      · exact Vector.set_set ..
      · rw [← hf]
        exact set_get_self _ _
    · rw [handChain_waits (by rw [hin]; exact hw)]
      refine ⟨hslots, hpost, ?_⟩
      rw [State.modIntake, hin]
  · rw [finishPosting_eq, postChain_rest, hz]
    exact ⟨rfl, rfl, rfl, rfl, rfl, rfl, rfl, rfl, rfl⟩

end Sys2Proof.Machine
end

section
/-! The arbiters: what is granted and in which order, and the urgency of data cycles (R34, R35, R44). -/

namespace Sys2Proof.Machine

variable {s : State} {x : Side} {p : PartCycle} {sl : Slot} {m t n : Nat}

/-! ### The rows of R34's table -/

theorem arbitrate_busy (h : (∃ c, (s.tap.get x).arb = .computer c) ∨ ∃ p, (s.tap.get x).arb = .part p) :
    arbitrate x s = s := by
  rcases h with ⟨c, h⟩ | ⟨p, h⟩ <;> simp [arbitrate, h]

theorem arbitrate_pair {a : Addr} {d : Word} (h : (s.tap.get x).arb = .pairWriteOwed a d) :
    arbitrate x s = { s with tap := s.tap.set x { s.tap.get x with arb := .part ⟨.pairWrite, .write, a, d, false⟩ } } := by
  simp [arbitrate, h, State.modTap, askWrite]

/-- A FREE arbiter's choice: an urgent data cycle, the waiting computer cycle, the first part cycle. -/
theorem arbitrate_free (h : (s.tap.get x).arb = .free) :
    arbitrate x s =
      match (if s.live x then urgentAsks s x else none), (s.tap.get x).comp with
      | some p, _ => grantPart x p s
      | none, some c => grantComputer x c s
      | none, none =>
        match (if s.live x then partAsks s x else none) with
        | some p => grantPart x p s
        | none => s := by
  simp only [arbitrate, h]
  rfl

theorem arbitrate_urgent (h : (s.tap.get x).arb = .free) (hl : s.live x = true) (hu : urgentAsks s x = some p) :
    arbitrate x s = grantPart x p s := by
  rw [arbitrate_free h, if_pos hl, hu]

theorem arbitrate_computer {c : CompCycle} (h : (s.tap.get x).arb = .free)
    (hu : s.live x = false ∨ urgentAsks s x = none) (hc : (s.tap.get x).comp = some c) :
    arbitrate x s = grantComputer x c s := by
  rw [arbitrate_free h, hc]
  rcases hu with hl | hu
  · simp [hl]
  · simp [hu]

theorem arbitrate_dead (h : (s.tap.get x).arb = .free) (hl : s.live x = false) (hc : (s.tap.get x).comp = none) :
    arbitrate x s = s := by
  rw [arbitrate_free h, hc]
  simp [hl]

theorem arbitrate_part (h : (s.tap.get x).arb = .free) (hl : s.live x = true) (hu : urgentAsks s x = none)
    (hc : (s.tap.get x).comp = none) :
    arbitrate x s = match partAsks s x with
      | some p => grantPart x p s
      | none => s := by
  rw [arbitrate_free h, hc, hu]
  simp [hl]

theorem grantPart_arb (x : Side) (p : PartCycle) (s : State) : ((grantPart x p s).tap.get x).arb = .part p := by
  unfold grantPart
  split <;> simp

theorem grantPart_data {j : Nat} (h : p.kind = .data j) :
    grantPart x p s = { s with tap := s.tap.set x { s.tap.get x with arb := .part p } } := by
  simp [grantPart, h, State.modTap]

theorem grantPart_status {c : StatusCell} (h : p.kind = .status c) :
    ((grantPart x p s).tap.get x).owed = (s.tap.get x).owed.pay c := by
  simp [grantPart, h]

/-- A part cycle of a requester, granted when those before it in R34's order ask for nothing. -/
theorem arbitrate_first (h : (s.tap.get x).arb = .free) (hl : s.live x = true) (hu : urgentAsks s x = none)
    (hc : (s.tap.get x).comp = none) (hp : partAsks s x = some p) : arbitrate x s = grantPart x p s := by
  rw [arbitrate_part h hl hu hc, hp]

theorem presenterAsks_eq_none : presenterAsks s x = none ↔ (s.pres.get x).owed = [] := by
  unfold presenterAsks
  split <;> simp_all

theorem grantPart_presenter {w : OwedWrite} {more : List OwedWrite} (ho : (s.pres.get x).owed = w :: more)
    (hp : presenterAsks s x = some p) :
    (grantPart x p s).pres.get x = { s.pres.get x with owed := more, writing := w.entry } := by
  unfold presenterAsks at hp
  rw [ho] at hp
  cases w with
  | level l =>
    obtain rfl := Option.some.inj hp
    simp [grantPart, askWrite, Presenter.granted, ho]
  | notice e acc =>
    obtain rfl := Option.some.inj hp
    simp [grantPart, askWrite, Presenter.granted, ho]

/-! ### Urgency (R35) -/

theorem urgentAsks_iff : urgentAsks s x = some p ↔ engineAsks s x = some p ∧
    ∃ i j, engineSlot s = some i ∧ p.kind = .data j ∧ urgent s (s.slot i) j = true := by
  unfold urgentAsks
  cases hi : engineSlot s with
  | none => simp
  | some i =>
    simp only [Option.filter_eq_some_iff, Option.some.injEq]
    refine and_congr_right fun _ => ?_
    cases p.kind <;> simp

theorem urgent_iff {j : Nat} : urgent s sl j = true ↔
    ∃ w, needPoint s sl (j / 256) = some w ∧ w ≤ s.drv.wordTime + wordsToMove s sl (j / 256) + 32 := by
  simp only [urgent, Option.any_eq_true, decide_eq_true_eq]
  exact exists_congr fun w => and_congr_right fun _ => by omega

theorem endsCylinder_iff {k : Nat} : endsCylinder (sl.sectorAt k).2 = true ↔ (sl.start.getD 0 + k) % 32 = 31 := by
  simp [endsCylinder, Slot.sectorAt]

theorem crosses_iff : ((List.range (t - m)).any fun k => endsCylinder (sl.sectorAt (m + k)).2) = true ↔
    ∃ k, m ≤ k ∧ k < t ∧ (sl.start.getD 0 + k) % 32 = 31 := by
  simp only [List.any_eq_true, List.mem_range, endsCylinder_iff]
  constructor
  · rintro ⟨k, hk, he⟩
    exact ⟨m + k, by omega, by omega, he⟩
  · rintro ⟨k, h1, h2, he⟩
    obtain ⟨d, rfl⟩ := Nat.exists_eq_add_of_le h1
    exact ⟨d, by omega, he⟩

theorem marksToTarget_none
    (h : s.drv.markSeen = false ∨ (s.eng.phase ≠ .rotating ∧ s.eng.phase ≠ .inSector)) : marksToTarget s sl = none := by
  unfold marksToTarget
  rcases h with h | ⟨h1, h2⟩
  · simp [h]
  · split
    · rfl
    · split <;> simp_all

theorem marksToTarget_rotating {a : Nat} (hs : s.drv.markSeen = true) (hp : s.eng.phase = .rotating) (h1 : 1 ≤ a)
    (h16 : a ≤ 16) (ha : (s.drv.mark.toNat + a) % 16 = (sl.start.getD 0 + s.eng.m) % 16) :
    marksToTarget s sl = some a := by
  have hm : s.drv.mark.toNat < 16 := s.drv.mark.isLt
  simp only [marksToTarget, hs, hp, secOf, Slot.sectorAt, Bool.not_true, Bool.false_eq_true, if_false,
    Option.some.injEq]
  omega

theorem marksToTarget_inSector (hs : s.drv.markSeen = true) (hp : s.eng.phase = .inSector) :
    marksToTarget s sl = some 0 := by
  simp [marksToTarget, hs, hp]

theorem wordTimesToMark_none (h : s.drv.markSeen = false ∨ (s.eng.phase ≠ .rotating ∧ s.eng.phase ≠ .inSector) ∨
    t < s.eng.m ∨ sl.sectors ≤ t ∨ ∃ k, s.eng.m ≤ k ∧ k < t ∧ (sl.start.getD 0 + k) % 32 = 31) :
    wordTimesToMark s sl t = none := by
  unfold wordTimesToMark
  dsimp only
  split
  · rfl
  next hb =>
    split
    · rfl
    next hc =>
      rw [crosses_iff] at hc
      have hmark : s.drv.markSeen = false ∨ (s.eng.phase ≠ .rotating ∧ s.eng.phase ≠ .inSector) := by
        rcases h with h | h | h | h | h
        · exact .inl h
        · exact .inr h
        · exact absurd (.inl h) hb
        · exact absurd (.inr h) hb
        · exact absurd h hc
      rw [marksToTarget_none hmark]
      rfl

theorem wordTimesToMark_some {a : Nat} (hm : s.eng.m ≤ t) (ht : t < sl.sectors)
    (hc : ∀ k, s.eng.m ≤ k → k < t → (sl.start.getD 0 + k) % 32 ≠ 31) (ha : marksToTarget s sl = some a) :
    wordTimesToMark s sl t = some ((a + (t - s.eng.m)) * 320) := by
  unfold wordTimesToMark
  dsimp only
  rw [if_neg (by omega), if_neg (by rw [crosses_iff]; exact fun ⟨k, h1, h2, he⟩ => hc k h1 h2 he), ha]
  rfl

/-- Settles O49, row by row of the table, and the need point by the marks to the target. -/
theorem arbiterGrantsInOrder : Obligations.ArbiterGrantsInOrder := by
  unfold Obligations.ArbiterGrantsInOrder
  refine ⟨fun x s => ⟨arbitrate_busy, fun a d => arbitrate_pair, fun hf => ⟨fun p hl hu => ?urgent, fun hu => ?rest⟩⟩,
    fun x p s => urgentAsks_iff, fun sl j s => urgent_iff, fun sl p b s hb => by subst hb; rfl, ?need⟩
  case urgent =>
    obtain ⟨-, i, j, -, hk, -⟩ := urgentAsks_iff.mp hu
    rw [arbitrate_urgent hf hl hu, grantPart_data hk]
  case rest =>
    refine ⟨fun c hc => arbitrate_computer hf hu hc, fun hl hc => arbitrate_dead hf hl hc, fun hl hc => ?_⟩
    have hu' : urgentAsks s x = none := hu.resolve_left (by simp [hl])
    have granted : ∀ {p}, partAsks s x = some p → ((arbitrate x s).tap.get x).arb = .part p :=
      fun hp => by rw [arbitrate_first hf hl hu' hc hp, grantPart_arb]
    refine ⟨fun p hp => granted (by simp [partAsks, hp]), fun he => ⟨fun p hp => granted (by simp [partAsks, he, hp]),
      fun hpo => ⟨fun p hp => granted (by simp [partAsks, he, hpo, hp]), fun hi => ⟨fun w more p ho hp => ?_,
      fun ho => ?_⟩⟩⟩⟩
    · have hpa : partAsks s x = some p := by simp [partAsks, he, hpo, hi, hp]
      rw [arbitrate_first hf hl hu' hc hpa]
      exact ⟨grantPart_arb x p s, grantPart_presenter ho hp⟩
    · have hpa : partAsks s x = statusAsks s x := by simp [partAsks, he, hpo, hi, presenterAsks_eq_none.mpr ho]
      refine ⟨fun c hcell => ?_, fun hn => ?_⟩
      · have hst : partAsks s x = some ⟨.status c, .write, BitVec.ofNat 18 ((s.tap.get x).base + c.offset),
            cellWord s x c, false⟩ := by
          simp only [hpa, statusAsks, hcell, askWrite, wordAddr, Option.map_some]
        rw [arbitrate_first hf hl hu' hc hst]
        exact ⟨grantPart_arb .., grantPart_status rfl⟩
      · rw [arbitrate_part hf hl hu' hc, hpa, statusAsks, hn]
        rfl
  case need =>
    rintro sl m p t s rfl ht
    refine ⟨fun h => ?_, fun a hs hm hlt hc ha => ?_⟩
    · have hn := wordTimesToMark_none h
      unfold needPoint
      split
      next hr => rw [if_pos hr] at ht; rw [← ht, hn]; rfl
      next hr => rw [if_neg hr] at ht; rw [← ht, hn]
    · have hmarks : marksToTarget s sl = some a := by
        rcases ha with ⟨hp, h1, h16, ha⟩ | ⟨hp, rfl⟩
        · exact marksToTarget_rotating hs hp h1 h16 ha
        · exact marksToTarget_inSector hs hp
      have hw := wordTimesToMark_some hm hlt hc hmarks
      unfold needPoint
      split
      next hr => rw [if_pos hr] at ht; rw [← ht, hw]; simp
      next hr => rw [if_neg hr] at ht; rw [← ht, hw]; simp

end Sys2Proof.Machine
end

section
/-! The drive controller's idle control (R157, R159, R160), and the end of every command with the cells it owes (R16). -/

namespace Sys2Proof.Machine

variable {s t u r : State} {x y : Side}

/-! ### Idle control -/

theorem spanWhile_true (k : Nat) (s : State) : spanWhile true k s =
    { s with drv := { s.drv with span := some (s.drv.span.getD ⟨s.clk.count + BitVec.ofNat 16 k, false⟩) } } := by
  unfold spanWhile
  cases h : s.drv.span with
  | none => simp [startStateSpan, spanFrom, State.modDrv]
  | some sp =>
    simp only [if_true, Option.isNone_some, Bool.false_eq_true, if_false, Option.getD_some]
    rw [← h]

theorem spanWhile_false (k : Nat) (s : State) : spanWhile false k s = { s with drv := { s.drv with span := none } } :=
  rfl

theorem reconcileDrive_stopped (h : s.drv.state = .stopped) :
    reconcileDrive s = if s.waitingSlots ≠ [] ∨ s.idleTarget < 2 then enterSpinningUp s else s := by
  simp [reconcileDrive, h]

theorem reconcileDrive_parked (h : s.drv.state = .parked) :
    reconcileDrive s = if s.waitingSlots ≠ [] ∨ s.idleTarget = 0 then enterRecalibrating s
      else spanWhile (s.idleTarget == 2) 38400 s := by
  simp [reconcileDrive, h]

theorem reconcileDrive_ready (h : s.drv.state = .ready) :
    reconcileDrive s =
      spanWhile (s.waitingSlots.isEmpty && s.activeSlot.isNone && decide (0 < s.idleTarget)) 1024 s := by
  simp [reconcileDrive, h]

theorem reconcileDrive_other (h1 : s.drv.state ≠ .stopped) (h2 : s.drv.state ≠ .parked) (h3 : s.drv.state ≠ .ready) :
    reconcileDrive s = s := by
  unfold reconcileDrive
  split <;> simp_all

theorem parks_iff : (s.waitingSlots.isEmpty && s.activeSlot.isNone && decide (0 < s.idleTarget)) = true ↔
    s.waitingSlots = [] ∧ s.activeSlot = none ∧ 1 ≤ s.idleTarget := by
  simp [and_assoc, Nat.succ_le_iff]

/-- Settles O58, by the drive state. -/
theorem idleControlActs : Obligations.IdleControlActs := by
  unfold Obligations.IdleControlActs
  refine fun s => ⟨rfl, fun i => mem_waitingSlots, fun h => ?_, fun h => ?_, fun h => ?_, reconcileDrive_other⟩
  · rw [reconcileDrive_stopped h]
    refine ⟨fun hw ht => if_neg (fun hn => hn.elim (· hw) (by omega)), fun hwant hf hu ho => ?_, fun hwant hf hu ho hg => ?_,
      fun hwant hf ho => ?_⟩
    all_goals rw [if_pos hwant]
    · exact enterSpinningUp_entry hf hu ho
    · exact enterSpinningUp_atSpeed hf hu ho hg
    · exact enterSpinningUp_found hf ho
  · rw [reconcileDrive_parked h]
    refine ⟨fun hwant hf ho => ?_, fun hwant hf ho => ?_, fun hw ht => ?_, fun hw ht => ?_⟩
    · rw [if_pos hwant]
      exact enterRecalibrating_entry hf ho
    · rw [if_pos hwant]
      exact enterRecalibrating_found hf ho
    · rw [if_neg (by simp [hw, ht]), ht]
      exact spanWhile_true ..
    · rw [if_neg (by simp [hw, ht]), ht]
      exact spanWhile_false ..
  · rw [reconcileDrive_ready h]
    refine ⟨fun hw ha ht => ?_, fun hn => ?_⟩
    · rw [parks_iff.mpr ⟨hw, ha, ht⟩]
      exact spanWhile_true ..
    · rw [Bool.eq_false_iff.mpr (mt parks_iff.mp (by rintro ⟨hw, ha, ht⟩; simp [hw, ha] at hn; omega))]
      exact spanWhile_false ..

/-! ### The drive state in which idle control leaves things -/

theorem enterSpinningUp_state (s : State) : (enterSpinningUp s).drv.state = .faulted ∨
    (enterSpinningUp s).drv.state = .recalibrating ∨ (enterSpinningUp s).drv.state = .spinningUp := by
  obtain ⟨r, w, h⟩ := enterSpinningUp_drv s
  rw [h]
  split
  · exact .inl rfl
  · split
    · exact .inr (.inl rfl)
    · exact .inr (.inr rfl)

theorem enterRecalibrating_state (s : State) :
    (enterRecalibrating s).drv.state = .faulted ∨ (enterRecalibrating s).drv.state = .recalibrating := by
  obtain ⟨r, w, h⟩ := enterRecalibrating_drv s
  rw [h]
  split
  · exact .inl rfl
  · exact .inr rfl

/-- Idle control that ends in STOPPED, PARKED or READY began there and touched the state span alone. -/
theorem reconcileDrive_rests (h : (reconcileDrive s).drv.state = .stopped ∨ (reconcileDrive s).drv.state = .parked ∨
    (reconcileDrive s).drv.state = .ready) :
    (reconcileDrive s).drv.state = s.drv.state ∧
      ∃ sp, reconcileDrive s = { s with drv := { s.drv with span := sp } } := by
  have hspan : ∀ w k, ∃ sp, spanWhile w k s = { s with drv := { s.drv with span := sp } } := fun w k => by
    cases w
    · exact ⟨_, spanWhile_false k s⟩
    · exact ⟨_, spanWhile_true k s⟩
  by_cases h1 : s.drv.state = .stopped
  · rw [reconcileDrive_stopped h1] at h ⊢
    by_cases hw : s.waitingSlots ≠ [] ∨ s.idleTarget < 2
    · rw [if_pos hw] at h
      rcases enterSpinningUp_state s with hs | hs | hs <;> simp [hs] at h
    · rw [if_neg hw]
      exact ⟨rfl, _, rfl⟩
  by_cases h2 : s.drv.state = .parked
  · rw [reconcileDrive_parked h2] at h ⊢
    by_cases hw : s.waitingSlots ≠ [] ∨ s.idleTarget = 0
    · rw [if_pos hw] at h
      rcases enterRecalibrating_state s with hs | hs <;> simp [hs] at h
    · obtain ⟨sp, hsp⟩ := hspan (s.idleTarget == 2) 38400
      rw [if_neg hw, hsp]
      exact ⟨rfl, _, rfl⟩
  by_cases h3 : s.drv.state = .ready
  · rw [reconcileDrive_ready h3]
    obtain ⟨sp, hsp⟩ := hspan (s.waitingSlots.isEmpty && s.activeSlot.isNone && decide (0 < s.idleTarget)) 1024
    rw [hsp]
    exact ⟨rfl, _, rfl⟩
  · rw [reconcileDrive_other h1 h2 h3]
    exact ⟨rfl, _, rfl⟩

theorem reconciled_stopped (h : (reconcileDrive s).drv.state = .stopped) :
    (reconcileDrive s).waitingSlots = [] ∧ 2 ≤ (reconcileDrive s).idleTarget := by
  obtain ⟨hst, -⟩ := reconcileDrive_rests (.inl h)
  have hs := hst.symm.trans h
  rw [reconcileDrive_stopped hs] at h ⊢
  by_cases hw : s.waitingSlots ≠ [] ∨ s.idleTarget < 2
  · rw [if_pos hw] at h
    rcases enterSpinningUp_state s with hs | hs | hs <;> simp [hs] at h
  · rw [if_neg hw]
    push Not at hw
    exact hw

theorem reconciled_parked (h : (reconcileDrive s).drv.state = .parked) :
    (reconcileDrive s).waitingSlots = [] ∧ 1 ≤ (reconcileDrive s).idleTarget ∧
      ((reconcileDrive s).drv.span.isSome = true ↔ (reconcileDrive s).idleTarget = 2) := by
  obtain ⟨hst, -⟩ := reconcileDrive_rests (.inr (.inl h))
  have hs := hst.symm.trans h
  rw [reconcileDrive_parked hs] at h ⊢
  by_cases hn : s.waitingSlots ≠ [] ∨ s.idleTarget = 0
  · rw [if_pos hn] at h
    rcases enterRecalibrating_state s with hs | hs <;> simp [hs] at h
  · rw [if_neg hn]
    push Not at hn
    by_cases ht : s.idleTarget = 2
    · rw [ht, show ((2 : Nat) == 2) = true from rfl, spanWhile_true]
      exact ⟨hn.1, Nat.one_le_iff_ne_zero.mpr hn.2, fun _ => ht, fun _ => rfl⟩
    · rw [show (s.idleTarget == 2) = false by simp [ht], spanWhile_false]
      exact ⟨hn.1, Nat.one_le_iff_ne_zero.mpr hn.2, fun h => (by cases h), fun h => absurd h ht⟩

theorem reconciled_ready (h : (reconcileDrive s).drv.state = .ready) :
    (reconcileDrive s).drv.span.isSome = true ↔ (reconcileDrive s).waitingSlots = [] ∧
      (reconcileDrive s).activeSlot = none ∧ 1 ≤ (reconcileDrive s).idleTarget := by
  obtain ⟨hst, -⟩ := reconcileDrive_rests (.inr (.inr h))
  rw [reconcileDrive_ready (hst.symm.trans h)]
  by_cases hp : (s.waitingSlots.isEmpty && s.activeSlot.isNone && decide (0 < s.idleTarget)) = true
  · rw [hp, spanWhile_true]
    exact ⟨fun _ => parks_iff.mp hp, fun _ => rfl⟩
  · rw [Bool.eq_false_iff.mpr hp, spanWhile_false]
    exact ⟨fun h => (by cases h), fun h => absurd (parks_iff.mpr h) hp⟩

/-! ### What an arbiter leaves -/

theorem side_eq_or_other (x y : Side) : y = x ∨ y = x.other := by
  cases x <;> cases y <;> simp [Side.other]

/-- What holds of a state, and of it with any one grant to `x`, holds after `x`'s arbiter. -/
theorem arbitrate_induct {P : State → Prop} (h : P s) (hpart : ∀ p, P (grantPart x p s))
    (hcomp : ∀ c, P (grantComputer x c s)) (hpair : ∀ p, P (s.modTap x (fun t => { t with arb := .part p }))) :
    P (arbitrate x s) := by
  unfold arbitrate
  dsimp only
  split
  · exact hpair _
  · split
    · exact hpart _
    · exact hcomp _
    · split
      · exact hpart _
      · exact h
  · exact h
  · exact h

/-- From `s` to `t` side `x`'s arbiter may have granted: its tap but for page and life, and its presenter's owed writes. -/
structure Granting (s t : State) (x : Side) : Prop where
  rest : t = { s with tap := t.tap, pres := t.pres }
  other : t.tap.get x.other = s.tap.get x.other ∧ t.pres.get x.other = s.pres.get x.other
  live : t.live x = s.live x
  lost : (t.pres.get x).lost = (s.pres.get x).lost

theorem grantPart_granting (x : Side) (p : PartCycle) (s : State) : Granting s (grantPart x p s) x := by
  unfold grantPart
  split
  all_goals exact ⟨rfl, by simp, by simp [State.live], by simp [Presenter.granted]⟩

theorem arbitrate_granting (x : Side) (s : State) : Granting s (arbitrate x s) x :=
  arbitrate_induct (P := fun t => Granting s t x) ⟨rfl, ⟨rfl, rfl⟩, rfl, rfl⟩ (fun p => grantPart_granting x p s)
    (fun _ => ⟨rfl, by simp [grantComputer], by simp [State.live, grantComputer], rfl⟩)
    (fun _ => ⟨rfl, by simp, by simp [State.live], rfl⟩)

theorem Granting.live_eq (h : Granting s t x) (y : Side) : t.live y = s.live y := by
  rcases side_eq_or_other x y with rfl | rfl
  · exact h.live
  · exact congrArg Tap.live h.other.1

theorem Granting.lost_eq (h : Granting s t x) (y : Side) : (t.pres.get y).lost = (s.pres.get y).lost := by
  rcases side_eq_or_other x y with rfl | rfl
  · exact h.lost
  · rw [h.other.2]

theorem Granting.cellWord (h : Granting s t x) (y : Side) (c : StatusCell) : cellWord t y c = cellWord s y c := by
  have hl := h.lost_eq y
  rw [h.rest] at hl ⊢
  cases c with
  | side => unfold Machine.cellWord; rw [hl]; rfl
  | drive => rfl
  | map1 => rfl
  | map2 => rfl
  | partition => rfl

/-- The requesters ask by blocks that no arbiter changes, and by their own side's tap and presenter. -/
theorem asks_congr (h : t = { s with tap := t.tap, pres := t.pres }) (ht : t.tap.get x = s.tap.get x)
    (hp : t.pres.get x = s.pres.get x) (hl : ∀ c, cellWord t x c = cellWord s x c) : partAsks t x = partAsks s x := by
  have he : engineAsks t x = engineAsks s x := by
    unfold engineAsks
    rw [ht, h]
    rfl
  have hpost : postingAsks t x = postingAsks s x := by rw [h]; rfl
  have hin : intakeAsks t x = intakeAsks s x := by
    unfold intakeAsks
    rw [ht, h]
    rfl
  have hpr : presenterAsks t x = presenterAsks s x := by
    unfold presenterAsks
    rw [ht, hp]
  have hst : statusAsks t x = statusAsks s x := by
    unfold statusAsks
    rw [ht]
    exact congrArg (fun f => Option.map f _) (funext fun c => by rw [hl c])
  unfold partAsks
  rw [he, hpost, hin, hpr, hst]

theorem arbitrate_free_after (h : ((arbitrate x s).tap.get x).arb = .free) :
    arbitrate x s = s ∧ (s.tap.get x).comp = none ∧ (s.live x = true → partAsks s x = none) := by
  cases ha : (s.tap.get x).arb with
  | computer c => rw [arbitrate_busy (.inl ⟨c, ha⟩), ha] at h; cases h
  | part p => rw [arbitrate_busy (.inr ⟨p, ha⟩), ha] at h; cases h
  | pairWriteOwed a d => rw [arbitrate_pair ha] at h; simp at h
  | free =>
    rw [arbitrate_free ha] at h ⊢
    split at h
    · rw [grantPart_arb] at h; cases h
    · simp [grantComputer] at h
    next hc =>
      split at h
      · rw [grantPart_arb] at h; cases h
      next hp => simp_all

theorem arbitrate_not_pair (x : Side) (s : State) (a : Addr) (d : Word) :
    ((arbitrate x s).tap.get x).arb ≠ .pairWriteOwed a d := by
  cases ha : (s.tap.get x).arb with
  | computer c => rw [arbitrate_busy (.inl ⟨c, ha⟩), ha]; simp
  | part p => rw [arbitrate_busy (.inr ⟨p, ha⟩), ha]; simp
  | pairWriteOwed a d => rw [arbitrate_pair ha]; simp
  | free =>
    rw [arbitrate_free ha]
    split
    · rw [grantPart_arb]; simp
    · simp [grantComputer]
    · split
      · rw [grantPart_arb]; simp
      · rw [ha]; simp

/-- Both arbiters' grants, from `r` on. -/
theorem both_free (hu : u = arbitrate .B (arbitrate .A r)) (h : (u.tap.get x).arb = .free) :
    (u.tap.get x).comp = none ∧ (u.live x = true → partAsks u x = none) := by
  have hB := arbitrate_granting .B (arbitrate .A r)
  rw [← hu] at hB
  cases x with
  | B =>
    rw [hu] at h ⊢
    obtain ⟨he, hc, hp⟩ := arbitrate_free_after h
    rw [he]
    exact ⟨hc, hp⟩
  | A =>
    have ht : u.tap.get .A = (arbitrate .A r).tap.get .A := hB.other.1
    rw [ht] at h ⊢
    rw [hB.live_eq, asks_congr hB.rest ht hB.other.2 (hB.cellWord .A)]
    obtain ⟨he, hc, hp⟩ := arbitrate_free_after h
    rw [he]
    exact ⟨hc, hp⟩

theorem both_not_pair (hu : u = arbitrate .B (arbitrate .A r)) (x : Side) (a : Addr) (d : Word) :
    (u.tap.get x).arb ≠ .pairWriteOwed a d := by
  rw [hu]
  cases x with
  | B => exact arbitrate_not_pair _ _ a d
  | A =>
    rw [show (arbitrate .B (arbitrate .A r)).tap.get .A = (arbitrate .A r).tap.get .A from
      (arbitrate_granting .B (arbitrate .A r)).other.1]
    exact arbitrate_not_pair _ _ a d

theorem both_rest (hu : u = arbitrate .B (arbitrate .A r)) : u = { r with tap := u.tap, pres := u.pres } := by
  have hB := (arbitrate_granting .B (arbitrate .A r)).rest
  have hA := (arbitrate_granting .A r).rest
  rw [← hu] at hB
  conv_lhs => rw [hB, hA]

theorem both_live (hu : u = arbitrate .B (arbitrate .A r)) (x : Side) : u.live x = r.live x := by
  rw [hu, (arbitrate_granting .B _).live_eq, (arbitrate_granting .A _).live_eq]

theorem both_cellWord (hu : u = arbitrate .B (arbitrate .A r)) (x : Side) (c : StatusCell) :
    cellWord u x c = cellWord r x c := by
  rw [hu, (arbitrate_granting .B _).cellWord, (arbitrate_granting .A _).cellWord]

/-! ### The cells owed for what a command changed (R16) -/

theorem owe_has (o : OwedCells) (c d : StatusCell) : (o.owe c).has d = true ↔ o.has d = true ∨ d = c := by
  cases c <;> cases d <;> simp [OwedCells.owe, OwedCells.has]

theorem lowest_eq_none {o : OwedCells} : o.lowest = none ↔ ∀ c, o.has c = false := by
  have hall : (∀ c, o.has c = false) ↔
      o.drive = false ∧ o.side = false ∧ o.map1 = false ∧ o.map2 = false ∧ o.partition = false :=
    ⟨fun h => ⟨h .drive, h .side, h .map1, h .map2, h .partition⟩,
      fun ⟨h1, h2, h3, h4, h5⟩ c => by cases c <;> assumption⟩
  rw [hall]
  unfold OwedCells.lowest
  split_ifs <;> simp_all

/-- From `s` to `t` side `x` owes, of the cells `cs`, those whose contents differ from `s0`, and what it owed before. -/
def OwesOf (s0 : State) (x : Side) (cs : List StatusCell) (s t : State) : Prop :=
  ∃ w, t = { s with tap := s.tap.set x { s.tap.get x with owed := w } } ∧
    ∀ c, w.has c = true ↔ (s.tap.get x).owed.has c = true ∨
      (c ∈ cs ∧ s.live x = true ∧ cellWord s0 x c ≠ cellWord s x c)

theorem OwesOf.cellWord {s0 : State} {cs : List StatusCell} (h : OwesOf s0 x cs s t) (y : Side) (c : StatusCell) :
    cellWord t y c = cellWord s y c := by
  obtain ⟨w, rfl, -⟩ := h
  cases c <;> rfl

theorem OwesOf.refl (s0 : State) (x : Side) (s : State) : OwesOf s0 x [] s s :=
  ⟨(s.tap.get x).owed, by cases x <;> rfl, by simp⟩

theorem OwesOf.step {s0 : State} {cs : List StatusCell} (h : OwesOf s0 x cs s t) (c : StatusCell) :
    OwesOf s0 x (c :: cs) s (oweIfChanged s0 x c t) := by
  have hc := h.cellWord x c
  obtain ⟨w, rfl, hw⟩ := h
  unfold oweIfChanged oweCell
  rw [hc]
  have hl : State.live { s with tap := s.tap.set x { s.tap.get x with owed := w } } x = s.live x := by simp [State.live]
  split
  next he =>
    refine ⟨w, rfl, fun d => (hw d).trans (or_congr_right ?_)⟩
    simp only [List.mem_cons]
    constructor
    · rintro ⟨hd, hr⟩
      exact ⟨.inr hd, hr⟩
    · rintro ⟨rfl | hd, hl', hr⟩
      · exact absurd he hr
      · exact ⟨hd, hl', hr⟩
  next hne =>
    rw [hl]
    split
    next hlive =>
      refine ⟨w.owe c, by simp [State.modTap, Sided.set_set], fun d => ?_⟩
      rw [owe_has, hw, List.mem_cons]
      constructor
      · rintro ((ho | ⟨hd, hr⟩) | rfl)
        · exact .inl ho
        · exact .inr ⟨.inr hd, hr⟩
        · exact .inr ⟨.inl rfl, hlive, hne⟩
      · rintro (ho | ⟨rfl | hd, hr⟩)
        · exact .inl (.inl ho)
        · exact .inr rfl
        · exact .inl (.inr ⟨hd, hr⟩)
    next hdead =>
      refine ⟨w, rfl, fun d => (hw d).trans (or_congr_right ?_)⟩
      simp [hdead]

theorem oweChangedOn_owes (s0 : State) (x : Side) (s : State) :
    OwesOf s0 x [.partition, .map2, .map1, .side, .drive] s (oweChangedOn s0 x s) :=
  (((((OwesOf.refl s0 x s).step .drive).step .side).step .map1).step .map2).step .partition

theorem cell_listed (c : StatusCell) : c ∈ ([.partition, .map2, .map1, .side, .drive] : List StatusCell) := by
  cases c <;> simp

/-- What each side owes when a command's changes are told. -/
theorem oweChanged_owes (s0 v : State) : ∃ t, oweChanged s0 v = { v with tap := t } ∧
    ∀ x, ∃ w, t.get x = { v.tap.get x with owed := w } ∧
      ∀ c, w.has c = true ↔
        (v.tap.get x).owed.has c = true ∨ (v.live x = true ∧ cellWord s0 x c ≠ cellWord v x c) := by
  obtain ⟨a, hA, ha⟩ := oweChangedOn_owes s0 .A v
  have hcw := (oweChangedOn_owes s0 .A v).cellWord .B
  obtain ⟨b, hB, hb⟩ := oweChangedOn_owes s0 .B (oweChangedOn s0 .A v)
  have htB : (oweChangedOn s0 .A v).tap.get .B = v.tap.get .B := by rw [hA]; rfl
  rw [htB] at hB
  refine ⟨(v.tap.set .A { v.tap.get .A with owed := a }).set .B { v.tap.get .B with owed := b }, ?_, fun x => ?_⟩
  · unfold oweChanged
    conv_lhs => rw [hB, hA]
  · cases x with
    | A => exact ⟨a, rfl, fun c => (ha c).trans (by simp only [cell_listed, true_and])⟩
    | B =>
      refine ⟨b, rfl, fun c => (hb c).trans ?_⟩
      rw [htB, hcw]
      simp only [cell_listed, true_and, State.live, htB]

/-! ### The end of a command -/

/-- The state in which a command's changes are told: the blocks have acted. -/
theorem settle_eq (s0 s : State) : settle s0 s =
    arbitrate .B (arbitrate .A (oweChanged s0 (examine (drainTest (reconcileDrive (engineReady s)))))) := rfl

theorem settle_ends (s0 s : State) : EndFrame s (settle s0 s) :=
  arbitrate_ends (arbitrate_ends (oweChangedOn_ends (oweChangedOn_ends (examine_ends (drainTest_ends
    (reconcileDrive_ends (engineReady_ends (EndFrame.refl s))))) s0 .A) s0 .B) .A) .B

theorem examine_rest (s : State) : examine s = { s with sel := (examine s).sel } := by
  unfold examine
  split
  · rfl
  · split <;> rfl

theorem examine_selects (ha : (examine s).activeSlot = none) (he : (examine s).eligible ≠ []) :
    (examine s).sel.isSome = true := by
  have hact : (examine s).activeSlot = s.activeSlot := by rw [examine_rest]; rfl
  have hel : (examine s).eligible = s.eligible := by rw [examine_rest]; rfl
  rw [hact] at ha
  rw [hel] at he
  by_cases hs : s.sel.isSome = true
  · rw [examine_of_stays (.inr (.inl hs))]
    exact hs
  · cases hc : s.choose s.eligible with
    | none => exact absurd (choose_none s _ hc) he
    | some i => rw [examine_of_chosen ha (by simpa using hs) hc]; rfl

theorem beforeOutcomes_table (s : State) :
    (beforeOutcomes s).slots = s.slots ∧ (beforeOutcomes s).drv = s.drv := by
  simp only [beforeOutcomes, State.modIntake_slots, State.modIntake_drv]
  rw [(oweCell_moves .A .map1 _).rest, (oweCell_moves .A .map2 _).rest, (oweCell_moves .B .map1 _).rest,
    (oweCell_moves .B .map2 _).rest]
  exact ⟨rfl, rfl⟩

/-- The drain test changes no slot, nothing of the drive, and no side's life. -/
theorem drainTest_table (s : State) : (drainTest s).slots = s.slots ∧ (drainTest s).drv = s.drv ∧
    ∀ y, (drainTest s).live y = s.live y := by
  unfold drainTest
  split
  · obtain ⟨-, -, -, hslots, -, hdrv, hlive⟩ := giveBoth_spec 1 (beforeOutcomes s)
    rw [commit_eq, hslots, hdrv]
    obtain ⟨hs, hd⟩ := beforeOutcomes_table s
    exact ⟨hs, hd, fun y => (hlive y).trans (beforeOutcomes_live ..)⟩
  · exact ⟨rfl, rfl, fun _ => rfl⟩

/-- A commit that still waits after the drain test has a slot in its way. -/
theorem drainTest_waits (h : (drainTest s).map.protocol = .commitPending) :
    drainTest s = s ∧ ∃ i, holdsCommit s.map (s.slot i) = true := by
  by_cases hd : s.map.protocol = .commitPending ∧ drained s = true
  · have hmap : (drainTest s).map = { s.map.committed with last := .both 1 } := by
      rw [drainTest, if_pos hd, commit_eq, (giveBoth_spec 1 (beforeOutcomes s)).1, beforeOutcomes_map]
    rw [hmap] at h
    cases h
  · have he : drainTest s = s := if_neg hd
    refine ⟨he, ?_⟩
    rw [he] at h
    by_contra hn
    push Not at hn
    exact hd ⟨h, drained_iff.mpr fun i => Bool.eq_false_iff.mpr (hn i)⟩

end Sys2Proof.Machine
end

section
/-! What holds at the end of every command, and the ends of the part's three cell writes (R16, R34, R147). -/

namespace Sys2Proof.Machine

variable {s s0 u v : State} {x : Side}

/-! ### The end of a command -/

/-- What ends every command, once the blocks have acted in `v`: the cells owed, and both grants. -/
theorem settle_tail (hv : v = examine (drainTest (reconcileDrive (engineReady s)))) (hu : u = settle s0 s) :
    ∃ t, u = arbitrate .B (arbitrate .A { v with tap := t }) ∧ ∀ x, ∃ w, t.get x = { v.tap.get x with owed := w } ∧
      ∀ c, w.has c = true ↔
        (v.tap.get x).owed.has c = true ∨ (v.live x = true ∧ cellWord s0 x c ≠ cellWord v x c) := by
  obtain ⟨t, ht, hw⟩ := oweChanged_owes s0 v
  exact ⟨t, by rw [hu, settle_eq, ← hv, ht], hw⟩

theorem settle_rest (hv : v = examine (drainTest (reconcileDrive (engineReady s)))) (hu : u = settle s0 s) :
    u = { v with tap := u.tap, pres := u.pres } ∧ ∀ x, u.live x = v.live x := by
  obtain ⟨t, ht, hw⟩ := settle_tail hv hu
  refine ⟨(both_rest ht).trans rfl, fun x => (both_live ht x).trans ?_⟩
  obtain ⟨w, hx, -⟩ := hw x
  exact (congrArg Tap.live hx).trans rfl

/-- Of the blocks that act at a command's end, the drain test and the selector leave the slots and the drive. -/
theorem settle_table (hv : v = examine (drainTest (reconcileDrive (engineReady s)))) (hu : u = settle s0 s) :
    u.slots = (reconcileDrive (engineReady s)).slots ∧ u.drv = (reconcileDrive (engineReady s)).drv ∧
      ∀ x, u.live x = (reconcileDrive (engineReady s)).live x := by
  obtain ⟨hrest, hlive⟩ := settle_rest hv hu
  obtain ⟨hslots, hdrv, hl⟩ := drainTest_table (reconcileDrive (engineReady s))
  have he := examine_rest (drainTest (reconcileDrive (engineReady s)))
  rw [← hv] at he
  refine ⟨?_, ?_, fun x => (hlive x).trans ?_⟩
  · rw [hrest, he, hslots]
  · rw [hrest, he, hdrv]
  · rw [he]
    exact hl x

theorem idleTarget_congr {t : State} (hd : t.drv = s.drv) (hl : ∀ x, t.live x = s.live x) :
    t.idleTarget = s.idleTarget := by
  simp only [State.idleTarget, State.idleLevel, hd, hl]

theorem waitingSlots_congr {t : State} (h : t.slots = s.slots) : t.waitingSlots = s.waitingSlots := by
  simp only [State.waitingSlots, State.slot, h]

theorem activeSlot_congr {t : State} (h : t.slots = s.slots) : t.activeSlot = s.activeSlot := by
  simp only [State.activeSlot, State.slot, h]

/-- A commit that still waits at a command's end has a slot in its way. -/
theorem settle_commit_waits (hv : v = examine (drainTest (reconcileDrive (engineReady s)))) (hu : u = settle s0 s)
    (hp : u.map.protocol = .commitPending) : ∃ i, holdsCommit u.map (u.slot i) = true := by
  obtain ⟨hrest, -⟩ := settle_rest hv hu
  have he := examine_rest (drainTest (reconcileDrive (engineReady s)))
  rw [← hv] at he
  have hmap : u.map = (drainTest (reconcileDrive (engineReady s))).map := by rw [hrest, he]
  rw [hmap] at hp
  obtain ⟨hstays, i, hi⟩ := drainTest_waits hp
  refine ⟨i, ?_⟩
  rw [hmap, hstays, State.slot, (settle_table hv hu).1]
  exact hi

/-- Settles O4: each block's own last word, which the blocks after it leave. -/
theorem endOfCommandFrame : Obligations.EndOfCommandFrame := by
  unfold Obligations.EndOfCommandFrame
  intro s0 s v u hv hu
  obtain ⟨t, ht, hw⟩ := settle_tail hv hu
  obtain ⟨hrest, hlive⟩ := settle_rest hv hu
  obtain ⟨hslots, hdrv, hlive'⟩ := settle_table hv hu
  have hidle := idleTarget_congr hdrv hlive'
  have hwait := waitingSlots_congr hslots
  have hact := activeSlot_congr hslots
  refine ⟨hu ▸ settle_ends s0 s, ⟨t, ht, hw⟩, fun x hf => ?free, fun x => both_not_pair ht x, fun new hp hn hr => ?commit,
    fun ha he => ?select, fun h => ?_, fun h => ?_, fun h => ?_⟩
  case free =>
    obtain ⟨hc, hasks⟩ := both_free ht hf
    refine ⟨hc, fun hl => ?_⟩
    have hnone := hasks hl
    simp only [partAsks, Option.or_eq_none_iff] at hnone
    obtain ⟨he, hpo, hi, hpr, hst⟩ := hnone
    refine ⟨he, hpo, hi, presenterAsks_eq_none.mp hpr, lowest_eq_none.mp ?_⟩
    simpa [statusAsks] using hst
  case commit =>
    obtain ⟨i, hi⟩ := settle_commit_waits hv hu hp
    obtain ⟨hst, r, htouch, hc⟩ := holdsCommit_iff.mp hi
    rw [commitChanges_of_pending hp hn, changing_iff (hr i r htouch)] at hc
    obtain ⟨c, h1, h2, hch⟩ := hc
    refine ⟨i, r, c, htouch, ?_, ?_, h1, h2, hch⟩
    · rintro h; simp [h] at hst
    · rintro h; simp [h] at hst
  case select =>
    rw [hrest] at ha he ⊢
    subst hv
    exact examine_selects ha he
  all_goals rw [hdrv] at h
  · rw [hwait, hidle]
    exact reconciled_stopped h
  · rw [hwait, hidle, hdrv]
    exact reconciled_parked h
  · rw [hwait, hidle, hdrv, hact]
    exact reconciled_ready h

/-! ### Owed cells and the arbiters -/

theorem pay_has {o : OwedCells} {c d : StatusCell} (h : d ≠ c) : (o.pay c).has d = o.has d := by
  cases c <;> cases d <;> simp_all [OwedCells.pay, OwedCells.has]

theorem partAsks_status {p : PartCycle} {c : StatusCell} (h : partAsks s x = some p) (hk : p.kind = .status c) :
    p.data = cellWord s x c := by
  simp only [partAsks, Option.or_eq_some_iff] at h
  rcases h with h | ⟨-, h | ⟨-, h | ⟨-, h | ⟨-, h⟩⟩⟩⟩
  · obtain ⟨j, hj⟩ := engineAsks_kind h
    rw [hk] at hj; cases hj
  · rcases postingAsks_kind h with hj | ⟨j, hj⟩ <;> · rw [hk] at hj; cases hj
  · rcases intakeAsks_kind h with ⟨j, hj⟩ | ⟨j, hj⟩ <;> · rw [hk] at hj; cases hj
  · unfold presenterAsks at h
    split at h
    · cases h
    · obtain rfl := Option.some.inj h
      cases hk
    · obtain rfl := Option.some.inj h
      cases hk
  · obtain ⟨d, -, rfl⟩ := Option.map_eq_some_iff.mp h
    cases hk
    rfl

theorem grantPart_owed (p : PartCycle) (c : StatusCell) (h : (s.tap.get x).owed.has c = true) :
    ((grantPart x p s).tap.get x).owed.has c = true ∨ p.kind = .status c := by
  unfold grantPart
  split
  next => exact .inl (by simpa using h)
  next => exact .inl (by simpa using h)
  next d hd =>
    by_cases hc : c = d
    · exact .inr (hc ▸ hd)
    · exact .inl (by simpa [pay_has hc] using h)
  next => exact .inl (by simpa using h)

/-- An owed cell stays owed through its side's arbitration, or its write is granted with the contents of the moment. -/
theorem arbitrate_owed {c : StatusCell} (h : (s.tap.get x).owed.has c = true) :
    ((arbitrate x s).tap.get x).owed.has c = true ∨
      ∃ p, ((arbitrate x s).tap.get x).arb = .part p ∧ p.kind = .status c ∧ p.data = cellWord s x c := by
  cases ha : (s.tap.get x).arb with
  | computer _ => rw [arbitrate_busy (.inl ⟨_, ha⟩)]; exact .inl h
  | part _ => rw [arbitrate_busy (.inr ⟨_, ha⟩)]; exact .inl h
  | pairWriteOwed a d => rw [arbitrate_pair ha]; exact .inl (by simpa using h)
  | free =>
    rw [arbitrate_free ha]
    split
    next p hu =>
      refine .inl ((grantPart_owed p c h).resolve_right fun hk => ?_)
      split at hu
      · obtain ⟨-, _, _, -, hj, -⟩ := urgentAsks_iff.mp hu
        rw [hk] at hj; cases hj
      · cases hu
    · exact .inl (by simpa [grantComputer] using h)
    · split
      next p hp =>
        refine (grantPart_owed p c h).imp_right fun hk => ⟨p, grantPart_arb x p s, hk, ?_⟩
        split at hp
        · exact partAsks_status hp hk
        · cases hp
      · exact .inl h

theorem both_owed {r : State} {c : StatusCell} (hu : u = arbitrate .B (arbitrate .A r))
    (h : (r.tap.get x).owed.has c = true) : (u.tap.get x).owed.has c = true ∨
      ∃ p, (u.tap.get x).arb = .part p ∧ p.kind = .status c ∧ p.data = cellWord u x c := by
  rw [both_cellWord hu]
  subst hu
  cases x with
  | A =>
    rw [show (arbitrate .B (arbitrate .A r)).tap.get .A = (arbitrate .A r).tap.get .A from
      (arbitrate_granting .B (arbitrate .A r)).other.1]
    exact arbitrate_owed h
  | B =>
    have ht : (arbitrate .A r).tap.get .B = r.tap.get .B := (arbitrate_granting .A r).other.1
    have hc := (arbitrate_granting .A r).cellWord .B c
    rw [← hc]
    exact arbitrate_owed (by rw [ht]; exact h)

theorem settle_owes {c : StatusCell} (hu : u = settle s0 s) (hl : u.live x = true)
    (hne : cellWord s0 x c ≠ cellWord u x c) : (u.tap.get x).owed.has c = true ∨
      ∃ p, (u.tap.get x).arb = .part p ∧ p.kind = .status c ∧ p.data = cellWord u x c := by
  obtain ⟨t, ht, hw⟩ := settle_tail rfl hu
  rw [(settle_rest rfl hu).2] at hl
  obtain ⟨w, hx, hhas⟩ := hw x
  refine both_owed ht ?_
  have hcell : cellWord u x c = cellWord (examine (drainTest (reconcileDrive (engineReady s)))) x c := by
    rw [both_cellWord ht]
    cases c <;> rfl
  show (t.get x).owed.has c = true
  rw [hx]
  exact (hhas c).mpr (.inr ⟨hl, hcell ▸ hne⟩)

/-! ### The ends of the cell writes (R147, R16) -/

theorem exec_memoryTimeout {k : CycleKind} (h : cycleFor s x k) (wt : Nat) :
    exec (.memoryTimeout x wt) s = .next (settle s (timedOut x k (s.ended x wt []))) := by
  obtain ⟨p, -, rfl, he⟩ := onPart_cycle h wt (t := fun _ => true) rfl (fun p => timedOut x p.kind)
  rw [exec, execMemoryTimeout, he]

theorem exec_noticeCellWriteEnd {e : Option Entry} {acc : Bool} (h : cycleFor s x (.notice e acc)) (a : Bool)
    (wt : Nat) : exec (.noticeCellWriteEnd x a wt) s =
      .next (settle s ((s.ended x wt []).modPres x (fun p => p.noticeEnded acc a))) := by
  obtain ⟨p, -, hk, he⟩ := onPart_cycle h wt (t := CycleKind.isNotice) rfl (fun p => noticeWriteEnded x a p.kind)
  rw [exec, execNoticeCellWriteEnd, he, hk]
  rfl

/-- After a timeout nothing is shown, and the write is owed again unless a later one is. -/
theorem noticeEnded_timedOut (p : Presenter) (acc : Bool) :
    ((∃ f b, OwedWrite.notice f b ∈ p.owed) → p.noticeEnded acc false = { p with shown := none, writing := none }) ∧
    ((∀ f b, OwedWrite.notice f b ∉ p.owed) → p.noticeEnded acc false = { p with
      shown := none, writing := none, owed := p.owed ++ [.notice p.writing acc] }) := by
  have hany : p.owed.any OwedWrite.isNotice = true ↔ ∃ f b, OwedWrite.notice f b ∈ p.owed := by
    rw [List.any_eq_true]
    constructor
    · rintro ⟨o, ho, hn⟩
      cases o with
      | level l => cases hn
      | notice f b => exact ⟨f, b, ho⟩
    · rintro ⟨f, b, ho⟩
      exact ⟨_, ho, rfl⟩
  refine ⟨fun h => ?_, fun h => ?_⟩
  · simp [Presenter.noticeEnded, hany.mpr h]
  · have hn : ¬ p.owed.any OwedWrite.isNotice = true := fun ha => by
      obtain ⟨f, b, ho⟩ := hany.mp ha
      exact h f b ho
    simp [Presenter.noticeEnded, hn]

variable {p : Presenter} {k : NoticeKind} {q w sh : Entry}

theorem join_writing (hk : k ≠ .completion) (hq : p.queue.find? (fun f => f.kind == k) = some q)
    (hw : p.writing = some w) (prio tag code : Nat) : (p.join k prio tag code).writing =
      some (if w.no = q.no then { w with no := if prio < q.prio then p.nextNo else q.no } else w) := by
  rw [join_of_some ((sameKind_eq_find hk).trans hq), hw]
  by_cases hp : prio < q.prio
  · simp [writingAfterMerge, hp]
  · simp [writingAfterMerge, hp]

theorem join_shown (hk : k ≠ .completion) (hq : p.queue.find? (fun f => f.kind == k) = some q)
    (hs : p.shown = some sh) (prio tag code : Nat) : (p.join k prio tag code).shown =
      if sh.no = q.no ∧ ¬ (code = q.code ∧ q.prio ≤ prio) then none else some sh := by
  rw [join_of_some ((sameKind_eq_find hk).trans hq), hs]
  by_cases hn : sh.no = q.no
  · by_cases hp : prio < q.prio
    · simp [shownAfterMerge, hn, hp, Nat.ne_of_gt hp, Nat.not_le.mpr hp]
    · by_cases hc : code = q.code
      · have hsame : ({ sh with no := q.no } : Entry) = sh := by rw [← hn]
        simp [shownAfterMerge, hn, hp, hc, Nat.not_lt.mp hp, hsame]
      · simp [shownAfterMerge, hn, hp, hc, Ne.symm hc]
  · simp [shownAfterMerge, hn, Ne.symm hn]

/-- Settles O48: the ends of the writes, then what leads to them. -/
theorem cellWritesEnd : Obligations.CellWritesEnd := by
  unfold Obligations.CellWritesEnd
  refine ⟨fun x e acc wt c s h => ⟨?answered, fun hc => ?timeout⟩, fun x a wt c s h hc => ?level,
    fun x a wt st c s h hc => ?status, fun p => ?line, fun p k prio tag code q w hk hq hw => ?writing,
    fun p k prio tag code q sh hk hq hs => ?shown, fun p k prio tag code => join_joined .., fun p e => giveBack_returned ..,
    fun p => examine_examined p, fun x s => ?asks, fun x c s0 s u => settle_owes⟩
  case answered =>
    rw [exec_noticeCellWriteEnd h]
    rfl
  case timeout =>
    have he : exec c s = .next (settle s ((s.ended x wt []).modPres x (fun p => p.noticeEnded acc false))) := by
      rcases hc with rfl | rfl
      · exact exec_noticeCellWriteEnd h false wt
      · exact exec_memoryTimeout h wt
    obtain ⟨h1, h2⟩ := noticeEnded_timedOut (s.pres.get x) acc
    rw [he]
    refine ⟨fun ho => ?_, fun ho => ?_⟩
    · rw [← h1 ho]; rfl
    · rw [← h2 ho]; rfl
  case level =>
    rcases hc with rfl | rfl
    · obtain ⟨p, -, -, he⟩ := onPart_cycle h wt (t := (· == .level)) rfl (fun _ s => s)
      rw [exec, execLevelCellWriteEnd, he]
    · exact exec_memoryTimeout h wt
  case status =>
    rcases hc with rfl | rfl
    · obtain ⟨p, -, -, he⟩ := onPart_cycle h wt (t := CycleKind.isStatus) rfl (fun _ s => s)
      rw [exec, execStatusWriteEnd, he]
    · exact exec_memoryTimeout h wt
  case line => simp [Presenter.line, Option.isSome_iff_exists]
  case writing => exact join_writing hk hq hw prio tag code
  case shown => exact join_shown hk hq hs prio tag code
  case asks =>
    refine ⟨fun h => presenterAsks_eq_none.mpr h, fun l more h => ?_, fun acc more h => ?_, fun e acc more h => ?_⟩
    all_goals simp only [presenterAsks, h, askWrite, wordAddr]
    all_goals rfl

end Sys2Proof.Machine
end

section
/-! The engine's data cycles, their timeouts, and the inputs of the drive as events (R14, R33, R38, R120, R121, R127,
R129). -/

namespace Sys2Proof.Machine

variable {s v : State} {x : Side} {i : Fin 12} {st : Status} {c : Word} {wt : Nat}

/-! ### Inputs that are events -/

/-- An event at the controller, whichever command it comes by. -/
theorem exec_inputEvent {cmd : Instr} {ev : DriveEvent} {f : DriveInputs} {k : Clock} (h : InputEvent s cmd ev f k) :
    exec cmd s = .next (settle s (takeDriveEvent { s with clk := k, drv := { s.drv with inp := f }, out := [] } ev)) := by
  rcases h with ⟨rfl, h⟩ | ⟨rfl, h⟩
  · rcases h with ⟨rfl, rfl, h, rfl⟩ | ⟨rfl, rfl, h, rfl⟩ | ⟨rfl, rfl, h, rfl⟩ | ⟨rfl, rfl, h, rfl⟩ | ⟨rfl, rfl, h, rfl⟩ |
      ⟨rfl, rfl, h, rfl⟩ | ⟨rfl, rfl, h, rfl⟩ | ⟨rfl, rfl, h, rfl⟩ | ⟨rfl, rfl, rfl⟩ | ⟨rfl, rfl, h, rfl⟩ | ⟨rfl, rfl, h, rfl⟩
    case inr.inr.inr.inr.inr.inr.inr.inr.inl => rfl
    all_goals exact runIf_true (by simp [h])
  · rcases h with ⟨rfl, rfl, h, rfl⟩ | ⟨rfl, rfl, h, rfl⟩
    all_goals exact runIf_true (by simp [h])

theorem takeDriveEvent_held (h : s.drv.openPending = true) (e : DriveEvent) :
    takeDriveEvent s e = { s with drv := { s.drv with deferred := s.drv.deferred ++ [e] } } :=
  if_pos h

theorem takeDriveEvent_taken (h : s.drv.openPending = false) (e : DriveEvent) :
    takeDriveEvent s e = reconcileDrive (driveEvent s e) :=
  if_neg (by simp [h])

/-- An event that no OPEN entry holds back. -/
theorem exec_driveEvent {cmd : Instr} {ev : DriveEvent} {f : DriveInputs} {k : Clock} (h : InputEvent s cmd ev f k)
    (ho : s.drv.openPending = false) : exec cmd s = .next (settle s
      (reconcileDrive (driveEvent { s with clk := k, drv := { s.drv with inp := f }, out := [] } ev))) :=
  (exec_inputEvent h).trans (congrArg _ (congrArg _ (takeDriveEvent_taken
    (s := { s with clk := k, drv := { s.drv with inp := f }, out := [] }) ho ev)))

/-! ### A cycle's end seen by the engine -/

theorem ended_fence (s : State) (x y : Side) (wt : Nat) (o : List Output) :
    ((s.ended x wt o).tap.get y).fence = (s.tap.get y).fence := by
  rw [ended_tap, Sided.get_set]
  split
  next h => rw [h]
  · rfl

theorem ended_idle (s : State) (x : Side) (wt : Nat) (o : List Output) :
    dataInFlight (s.ended x wt o) x = false := by
  simp [dataInFlight]

theorem SameResult.after_end {e : Engine} (he : e.written = s.eng.written ∧ e.firstDiff = s.eng.firstDiff ∧
    e.target = s.eng.target ∧ e.protectSeen = s.eng.protectSeen)
    (h : SameResult { s.ended x wt [] with eng := e } v) : SameResult s v where
  slots := h.slots
  fences y := (h.fences y).trans (ended_fence s x y wt [])
  engine := ⟨h.engine.1.trans he.1, h.engine.2.1.trans he.2.1, h.engine.2.2.1.trans he.2.2.1,
    h.engine.2.2.2.trans he.2.2.2⟩

theorem SameResult.refl (s : State) : SameResult s s := ⟨rfl, fun _ => rfl, rfl, rfl, rfl, rfl⟩

/-! ### MEMORY_TIMEOUT (R33, R127, R129) -/

/-- An interruption found at the end of a data cycle ends the request at once, whatever its phase. -/
theorem interrupt_after_cycle {e : Engine} (hs : engineSlot s = some i) (hx : (s.slot i).side = x)
    (hn : s.eng.ending = none) (hg : s.drv.writeGate = false) (he : e = { s.eng with abandoned := e.abandoned })
    (st : Status) : RequestEnded s (interrupt st { s.ended x wt [] with eng := e }) i st := by
  have hslot : engineSlot { s.ended x wt [] with eng := e } = some i := by
    rw [← hs, he]
    exact engineSlot_congr rfl rfl
  obtain ⟨v, hover, hslots, hres, hq, -⟩ := interrupt_over hslot (by rw [he]; exact hn)
    (by rw [show (State.slot { s.ended x wt [] with eng := e } i) = s.slot i from rfl, hx]; exact ended_idle s x wt []) st
  exact hover.requestEnded hslots (fun _ => (hres hg).after_end (by rw [he]; exact ⟨rfl, rfl, rfl, rfl⟩)) hq rfl

theorem dataTimedOut_idle (hn : s.eng.ending = none) (hg : s.drv.writeGate = false) :
    dataTimedOut s = interrupt .memoryTimeout { s with eng := { s.eng with abandoned := s.eng.moving } } := by
  unfold dataTimedOut
  split
  next e he => rw [hn] at he; cases he
  next => exact if_neg (by simp [hg])

theorem dataTimedOut_gated (hn : s.eng.ending = none) (hg : s.drv.writeGate = true) :
    dataTimedOut s = { s with eng := { s.eng with
      buf0 := if s.eng.buf0.state = .filling then .none else s.eng.buf0
      buf1 := if s.eng.buf1.state = .filling then .none else s.eng.buf1
      ending := some ⟨.memoryTimeout, s.clk.count, false⟩ } } := by
  unfold dataTimedOut
  split
  next e he => rw [hn] at he; cases he
  next => exact if_pos hg

theorem dataTimedOut_draining (hn : s.eng.ending = some ⟨st, c, true⟩) :
    dataTimedOut s =
      finishEnding { s with eng := { s.eng with ending := some ⟨.memoryTimeout, s.clk.count, false⟩ } } := by
  simp only [dataTimedOut, hn]
  rfl

theorem moving_span {e : Engine} {sp : Span} (h : e.span = some sp) :
    (e.phase = .seeking → e.moving = some (.seek e.moveTo, sp)) ∧
    (e.phase = .recalWait → e.moving = some (.recalibrate, sp)) := by
  constructor <;> · intro hp; simp [Engine.moving, hp, h]

/-- The engine's request after a timeout of its data cycle, with no sector under write gate. -/
theorem dataTimedOut_ends (hs : engineSlot s = some i) (hx : (s.slot i).side = x) (hg : s.drv.writeGate = false)
    (hn : s.eng.ending = none ∨ ∃ st c, s.eng.ending = some ⟨st, c, true⟩) :
    RequestEnded s (dataTimedOut (s.ended x wt [])) i .memoryTimeout ∧
      (s.eng.ending = none → ∀ sp, s.eng.span = some sp →
        (s.eng.phase = .seeking → (dataTimedOut (s.ended x wt [])).eng.abandoned = some (.seek s.eng.moveTo, sp)) ∧
        (s.eng.phase = .recalWait → (dataTimedOut (s.ended x wt [])).eng.abandoned = some (.recalibrate, sp))) := by
  rcases hn with hn | ⟨st, c, hn⟩
  · rw [dataTimedOut_idle (s := s.ended x wt []) hn hg]
    refine ⟨interrupt_after_cycle hs hx hn hg rfl _, fun _ sp hsp => ?_⟩
    rw [interrupt_abandoned]
    exact moving_span hsp
  · rw [dataTimedOut_draining (s := s.ended x wt []) hn]
    have hslot : engineSlot { s.ended x wt [] with
        eng := { s.eng with ending := some ⟨.memoryTimeout, s.clk.count, false⟩ } } = some i := by
      rw [← hs]
      exact engineSlot_congr rfl rfl
    refine ⟨?_, fun h => by rw [hn] at h; cases h⟩
    change RequestEnded s (finishEnding { s.ended x wt [] with
      eng := { s.eng with ending := some ⟨.memoryTimeout, s.clk.count, false⟩ } }) i .memoryTimeout
    rw [finishEnding_eq hslot rfl (by subst hx; exact ended_idle s _ wt []) hg]
    exact (endRequest_over hslot .memoryTimeout s.clk.count).requestEnded rfl
      (fun _ => SameResult.after_end (x := x) (wt := wt)
        (e := { s.eng with ending := some ⟨.memoryTimeout, s.clk.count, false⟩ }) ⟨rfl, rfl, rfl, rfl⟩ (SameResult.refl _))
      rfl rfl

theorem postingTimedOut_eq (h : currentSlot s = some i) :
    postingTimedOut s = finishPosting i { s with post := { s.post with timeoutSeen := true } } := by
  simp only [postingTimedOut, h]
  rfl

/-- A record-less result, with the fetch over (R53). -/
theorem unfetchable_spec (x : Side) (i : Fin 12) (st : Status) (s : State) :
    unfetchable x i st s = { s with
      intake := s.intake.set x { s.intake.get x with fetch := none }
      slots := s.slots.set i { s.slot i with
        recordless := true, words := [], state := .posting, status := some st, residual := 0, stop := 0
        instant := s.clk.count, span := none }
      post := { s.post with queue := s.post.queue ++ [(i, (s.slot i).tenure)] } } := by
  simp only [unfetchable, postRecordless, toPosting, endFetch, State.modSlot, State.modIntake, State.modPost,
    Slot.posted, State.slot]
  simp

/-- Settles O47, by the cycle's requester. -/
theorem memoryTimeoutsAreMet : Obligations.MemoryTimeoutsAreMet := by
  unfold Obligations.MemoryTimeoutsAreMet
  intro x wt i s
  refine ⟨fun p ha hp => ?abandoned, fun t rest n hq hst h => ?posting, fun c k h hf hle => ?take,
    fun c k h hf hgt => ?refused,
    fun n k h hf => ?fetch, fun j h hs hx => ⟨fun hg hn => ?data, fun hg hn => ?gated⟩⟩
  case abandoned =>
    rw [exec, execMemoryTimeout, onPart_eq ha rfl, hp]
    rfl
  case posting =>
    obtain ⟨st, hst⟩ := Option.ne_none_iff_exists'.mp hst
    have hc : currentSlot (s.ended x wt []) = some i := currentSlot_of_head hq hst
    have he : exec (.memoryTimeout x wt) s = .next (settle s (postingTimedOut (s.ended x wt []))) := by
      rcases h with h | h | h <;> exact exec_memoryTimeout h wt
    rw [he, postingTimedOut_eq hc]
    rfl
  case take =>
    rw [exec_memoryTimeout h, timedOut, clearingEnded_eq (s := s.ended x wt []) hf, startReads_spec,
      if_neg (by exact Nat.not_lt.mpr hle)]
    rfl
  case refused =>
    rw [exec_memoryTimeout h, timedOut, clearingEnded_eq (s := s.ended x wt []) hf, startReads_spec,
      if_pos (by exact hgt)]
    rfl
  case fetch =>
    have he : fetchTimedOut x (s.ended x wt []) = unfetchable x i .memoryTimeout (s.ended x wt []) := by
      simp [fetchTimedOut, hf]
    rw [exec_memoryTimeout h, timedOut, he, unfetchable_spec]
    rfl
  case data =>
    obtain ⟨hended, hmoves⟩ := dataTimedOut_ends (wt := wt) hs hx hg hn
    exact ⟨_, exec_memoryTimeout h wt, hended, hmoves⟩
  case gated =>
    rw [exec_memoryTimeout h, timedOut, dataTimedOut_gated (s := s.ended x wt []) hn hg]
    rfl

end Sys2Proof.Machine
end

section
/-! The end of a data cycle: the word that passes, the drain's last word, and the interruption that waits (R38, R41,
R120, R121, R126, R129). -/

namespace Sys2Proof.Machine

variable {s v : State} {x : Side} {i : Fin 12} {st : Status} {c d : Word} {j p : Nat} {sl : Slot} {f : Fence}

/-! ### Buffers -/

theorem setBuf_buffers (e : Engine) (p : Nat) (b : Buffer) :
    e.setBuf p b = { e with buf0 := (e.setBuf p b).buf0, buf1 := (e.setBuf p b).buf1 } := by
  unfold Engine.setBuf
  split <;> rfl

theorem fetched_buffers (e : Engine) (sl : Slot) (p : Nat) (d : Word) :
    e.fetched sl p d = { e with buf0 := (e.fetched sl p d).buf0, buf1 := (e.fetched sl p d).buf1 } := by
  unfold Engine.fetched Engine.fill Engine.setBuf
  dsimp only
  split_ifs <;> rfl

theorem buf_setBuf_succ (e : Engine) (p : Nat) (b : Buffer) : (e.setBuf (p + 1) b).buf p = e.buf p := by
  unfold Engine.setBuf Engine.buf
  by_cases h : p % 2 = 0
  · rw [if_neg (show ¬ (p + 1) % 2 = 0 by omega), if_pos h, if_pos h]
  · rw [if_pos (show (p + 1) % 2 = 0 by omega), if_neg h, if_neg h]

theorem fetched_partial {e : Engine} (h : (e.buf p).words.length + 1 < sl.wordsAt p) :
    e.fetched sl p d = e.setBuf p { e.buf p with words := (e.buf p).words ++ [d] } :=
  if_pos (by simpa using h)

theorem fetched_full {e : Engine} (h : sl.wordsAt p ≤ (e.buf p).words.length + 1) :
    (e.fetched sl p d).buf p = { e.buf p with words := (e.buf p).words ++ [d], state := .full } ∧
    (e.fetched sl p d).buf (p + 1) =
      if p + 1 < sl.sectors ∧ (e.buf (p + 1)).state = .empty then ⟨.filling, p + 1, 0, []⟩ else e.buf (p + 1) := by
  unfold Engine.fetched
  dsimp only
  rw [if_neg (by simpa using h)]
  split
  next hf =>
    rw [buf_setBuf_next] at hf
    rw [Engine.fill, buf_setBuf_succ, buf_setBuf, buf_setBuf, if_pos hf]
    exact ⟨rfl, rfl⟩
  next hf =>
    rw [buf_setBuf_next] at hf
    rw [buf_setBuf, buf_setBuf_next, if_neg hf]
    exact ⟨rfl, rfl⟩

/-! ### The word that passes -/

/-- The state in which the word of an answered data cycle has passed, before any ending. -/
def answered (i : Fin 12) (j : Nat) (d : Word) (s : State) : State :=
  (s.modTap (s.slot i).side (fun t => t.passWord j)).modEng (fun e =>
    if (s.slot i).isKind Kind.diskRead then e.stored (s.slot i) (j / 256) else e.fetched (s.slot i) (j / 256) d)

theorem dataAnswered_answered (h : engineSlot s = some i) : dataAnswered j d s = finishEnding (answered i j d s) :=
  dataAnswered_eq j d s i h

theorem exec_dataCycleEnd (h : cycleFor s x (.data j)) (hs : engineSlot s = some i) (d : Word) (wt : Nat) :
    exec (.dataCycleEnd x d wt) s = .next (settle s (finishEnding (answered i j d (s.ended x wt [])))) := by
  obtain ⟨p, -, hk, he⟩ := onPart_cycle h wt (t := CycleKind.isData) rfl (fun p => dataEnded d p.kind)
  rw [exec, execDataCycleEnd, he, hk, dataEnded, dataAnswered_answered (s := s.ended x wt []) hs]

theorem answered_buffers (i : Fin 12) (j : Nat) (d : Word) (s : State) : (answered i j d s).eng =
    { s.eng with buf0 := (answered i j d s).eng.buf0, buf1 := (answered i j d s).eng.buf1 } := by
  unfold answered
  simp only [State.modEng_eng, State.modTap_eng]
  split
  · rw [stored_eq]
    exact setBuf_buffers ..
  · exact fetched_buffers ..

theorem answered_slot (i : Fin 12) (j : Nat) (d : Word) (s : State) (k : Fin 12) :
    (answered i j d s).slot k = s.slot k := rfl

theorem answered_tap (hx : (s.slot i).side = x) :
    (answered i j d s).tap = s.tap.set x ((s.tap.get x).passWord j) := by
  subst hx
  rfl

theorem answered_engineSlot (h : engineSlot s = some i) : engineSlot (answered i j d s) = some i := by
  rw [← h]
  exact engineSlot_congr rfl (by rw [answered_buffers])

theorem answered_read (h : (s.slot i).isKind Kind.diskRead = true) : (answered i j d s).eng =
    s.eng.setBuf (j / 256) (if (s.eng.buf (j / 256)).moved + 1 < (s.slot i).wordsAt (j / 256) then
      { s.eng.buf (j / 256) with moved := (s.eng.buf (j / 256)).moved + 1 } else .none) := by
  rw [← stored_eq]
  exact if_pos h

theorem answered_fetch (h : (s.slot i).isKind Kind.diskRead = false) :
    (answered i j d s).eng = s.eng.fetched (s.slot i) (j / 256) d :=
  if_neg (by simp [h])

/-! ### Residuals (R130) -/

theorem isKind_iff {g : Kind → Bool} : sl.isKind g = true ↔ ∃ k, sl.kind = some k ∧ g k = true := by
  simp [Slot.isKind, Option.any_eq_true]

theorem residualOf_diskRead (h : sl.isKind Kind.diskRead = true) :
    residualOf s sl = BitVec.ofNat 16 (recCount sl.words - transferIndex s sl) := by
  obtain ⟨k, hk, hd⟩ := isKind_iff.mp h
  cases k <;> simp_all [residualOf, wordsMoved, Slot.isKind, Kind.transfers, Kind.diskRead]

theorem residualOf_diskWrite (h : sl.isKind Kind.diskWrite = true) :
    residualOf s sl = BitVec.ofNat 16 (recCount sl.words - sl.wordsBefore s.eng.written) := by
  obtain ⟨k, hk, hd⟩ := isKind_iff.mp h
  cases k <;> simp_all [residualOf, wordsMoved, Slot.isKind, Kind.transfers, Kind.diskWrite]

theorem residualOf_check (h : sl.kind = some .check) : residualOf s sl =
    BitVec.ofNat 16 (recCount sl.words - (sl.wordsBefore s.eng.m + s.eng.firstDiff.getD 0)) := by
  simp [residualOf, wordsMoved, Slot.isKind, Kind.transfers, h]

theorem transferIndex_of_fence (h : (s.tap.get sl.side).fence = some f) : transferIndex s sl = f.index := by
  simp [transferIndex, h]

/-! ### The hand-over and the interruption that waits (R126, R129) -/

theorem finishEnding_drained (hs : s.eng.ending = some ⟨st, c, true⟩) (hg : s.eng.anyGood = false) :
    finishEnding s = endRequest st c s := by
  simp [finishEnding, hs, endingReady, hg]

/-- The side's tap after a hand-over: the fence is gone, and a held computer cycle joins the arbiter (R42). -/
theorem endRequest_tap (h : engineSlot s = some i) (st : Status) (c : Word) :
    (endRequest st c s).tap = s.tap.set (s.slot i).side
      ({ (s.tap.get (s.slot i).side).release with fence := none } : Tap).abandonData := by
  unfold endRequest
  simp only [h]
  rw [(departure_moves _ _).rest]
  simp only [clearEngine, dropGates, State.modDrv_tap, State.modEng_tap, State.modTap, endFence, Sided.get_set_same,
    Sided.set_set]
  rfl

theorem release_held (t : Tap) : t.release.held = none ∧ t.release.arb = t.arb := by
  unfold Tap.release
  split
  next h => exact ⟨h, rfl⟩
  · exact ⟨rfl, rfl⟩

theorem abandonData_of_free {t : Tap} (h : t.arb = .free) : t.abandonData = t := by
  simp [Tap.abandonData, h]

theorem cutWrite_drv (s : State) : (cutWrite s).drv = { s.drv with writeGate := false } := by
  unfold cutWrite
  split
  · rfl
  next h => rw [← Bool.eq_false_iff.mpr h]

/-- An interruption that finds a data cycle in progress is decided, and waits for the cycle's end. -/
theorem interrupt_waits (hs : engineSlot s = some i) (he : s.eng.ending = none)
    (hd : dataInFlight s (s.slot i).side = true) (st : Status) :
    (interrupt st s).slots = s.slots ∧ (interrupt st s).tap = s.tap ∧
    (interrupt st s).eng.ending = some ⟨st, s.clk.count, false⟩ ∧ (interrupt st s).eng.work = s.eng.work ∧
    (interrupt st s).drv = { s.drv with readGate := false, writeGate := false } := by
  obtain ⟨hslots, htap, -, -, heng, -, -⟩ := cutWrite_keeps_parts s
  have hdrv := cutWrite_drv s
  have hw : (cutWrite s).eng.work = s.eng.work := by rw [heng]
  unfold interrupt
  simp only [he]
  generalize hv : ((cutWrite s).modDrv (fun d => { d with readGate := false })).modEng
    (fun e => { e with ending := some ⟨st, s.clk.count, false⟩, phase := .idle, span := none }) = v
  have hvs : v.slots = s.slots := by rw [← hv]; exact hslots
  have hvt : v.tap = s.tap := by rw [← hv]; exact htap
  have hve : v.eng.ending = some ⟨st, s.clk.count, false⟩ := by rw [← hv]; rfl
  have hvw : v.eng.work = s.eng.work := by rw [← hv]; exact hw
  have hvd : v.drv = { s.drv with readGate := false, writeGate := false } := by
    rw [← hv, State.modEng_drv, State.modDrv_drv, hdrv]
  have hslot : engineSlot v = some i := (engineSlot_congr hvs hvw).trans hs
  have hfly : dataInFlight v (v.slot i).side = true := by
    rw [State.slot, hvs]
    exact (dataInFlight_congr (by rw [hvt])).trans hd
  have hwait : finishEnding v = v := by
    simp [finishEnding, hve, endingReady, engineSide, hslot, hfly]
  rw [hwait]
  exact ⟨hvs, hvt, hve, hvw, hvd⟩

/-- A report of FAULTED to a request that is no RESTORE is an interruption (R126). -/
theorem reportDrive_interrupts (hs : engineSlot s = some i) (hp : s.eng.phase ≠ .finishing)
    (hk : (s.slot i).kind ≠ some .restore) (hf : s.drv.state = .faulted) :
    reportDrive s = interrupt .driveFault { s with eng := { s.eng with abandoned := none } } := by
  have hslot : engineSlot { s with eng := { s.eng with abandoned := none } } = some i :=
    (engineSlot_congr rfl rfl).trans hs
  unfold reportDrive
  simp only [if_neg (show ¬ s.drv.state = .ready by simp [hf])]
  rw [if_neg (by exact fun h => hp h.1)]
  change (match engineSlot { s with eng := { s.eng with abandoned := none } } with | none => _ | some i => _) = _
  rw [hslot]
  simp only
  rw [if_neg (by exact hk)]
  change (match s.drv.state with | .ready => _ | .faulted => _ | _ => _) = _
  rw [hf]
  rfl

theorem dataInFlight_of_cycle (h : cycleFor s x (.data j)) : dataInFlight s x = true := by
  obtain ⟨p, ha, hk, hn⟩ := h
  simp [dataInFlight, ha, hk, hn]

/-- The entry to FAULTED with a data cycle in progress: the request stays, its ending decided. -/
theorem enterFaulted_waits (hs : engineSlot s = some i) (hx : (s.slot i).side = x) (hp : s.eng.phase ≠ .finishing)
    (hk : (s.slot i).kind ≠ some .restore) (he : s.eng.ending = none) (hd : dataInFlight s x = true) (n : Nat) :
    (enterFaulted n s).drv.state = .faulted ∧ (enterFaulted n s).slot i = s.slot i ∧
    (enterFaulted n s).eng.ending = some ⟨.driveFault, s.clk.count, false⟩ ∧
    (enterFaulted n s).eng.work = s.eng.work ∧
    (∀ y, (enterFaulted n s).tap.get y = { s.tap.get y with owed := ((enterFaulted n s).tap.get y).owed }) ∧
    (enterFaulted n s).drv.readGate = false ∧ (enterFaulted n s).drv.writeGate = false := by
  have hw := (setDrive_entering .faulted n s).mod (f := fun d => { d with recovery := false })
    ⟨rfl, rfl, (setDrive_entering .faulted n s).state.2.2⟩ ⟨rfl, rfl, rfl, rfl, rfl, rfl⟩
  unfold enterFaulted
  generalize (setDrive .faulted n s).modDrv (fun d => { d with recovery := false }) = w at hw ⊢
  have hws := hw.same
  have hwi : w.slot i = s.slot i := hws.result.slot i
  have hwp : w.eng.phase ≠ .finishing := by rw [hws.work.2.1]; exact hp
  have hreport := reportDrive_interrupts (hws.engineSlot.trans hs) hwp (by rw [hwi]; exact hk) hw.state.1
  have hslot : engineSlot { w with eng := { w.eng with abandoned := none } } = some i :=
    (engineSlot_congr rfl rfl).trans (hws.engineSlot.trans hs)
  have hfly : dataInFlight { w with eng := { w.eng with abandoned := none } } (w.slot i).side = true := by
    rw [hwi, hx, ← hd]
    exact dataInFlight_congr (hws.cycles x)
  obtain ⟨hslots, htap, hending, hwork, hdrv⟩ := interrupt_waits (s := { w with eng := { w.eng with abandoned := none } })
    hslot (hws.work.2.2.trans he) hfly .driveFault
  rw [← hreport] at hslots htap hending hwork hdrv
  have hcells := notifyDrive_moves 1 (reportDrive w)
  have hn := hcells.rest
  refine ⟨?_, ?_, ?_, ?_, fun y => ?_, ?_, ?_⟩
  · rw [notifyDrive_drv, hdrv]
    exact hw.state.1
  · rw [hn, State.slot, hslots]
    exact hwi
  · rw [hn, hending]
    exact congrArg (fun c => some (⟨.driveFault, c, false⟩ : Ending)) hws.clock
  · rw [hn, hwork]
    exact hws.work.1
  · have ht := hcells.taps y
    rw [htap, show (State.tap { w with eng := { w.eng with abandoned := none } }) = w.tap from rfl, hw.taps y] at ht
    rw [ht]
  · rw [notifyDrive_drv, hdrv]
  · rw [notifyDrive_drv, hdrv]

end Sys2Proof.Machine
end

section
/-! The claim on data cycles, put together from what a word's passing does (R38, R120, R121, R126, R129). -/

namespace Sys2Proof.Machine

variable {s : State} {x : Side} {i : Fin 12} {st : Status} {c d : Word} {j : Nat} {sl : Slot} {f : Fence} {wt : Nat}

/-! ### What the engine asks for -/

theorem engineAsks_read (hs : engineSlot s = some i) (hx : (s.slot i).side = x) (hf : (s.tap.get x).fence = some f)
    (hn : s.eng.ending = none) (hlt : f.index < f.count) (hd : f.dir = .diskRead)
    (hb : (s.eng.buf (f.index / 256)).state = .good) :
    engineAsks s x = some ⟨.data f.index, .write, BitVec.ofNat 18 (f.buffer + f.index + f.stride * (f.index / 256)),
      (s.eng.buf (f.index / 256)).words.getD (f.index % 256) 0, false⟩ := by
  simp [engineAsks, hs, hf, hx, engineMoves, hn, Nat.not_le.mpr hlt, hd, hb, askWrite, bufferAddr]

theorem engineAsks_fetch (hs : engineSlot s = some i) (hx : (s.slot i).side = x) (hf : (s.tap.get x).fence = some f)
    (hn : s.eng.ending = none) (hlt : f.index < f.count) (hd : f.dir = .fromMemory)
    (hb : (s.eng.buf (f.index / 256)).state = .filling) :
    engineAsks s x = some ⟨.data f.index, .read, BitVec.ofNat 18 (f.buffer + f.index + f.stride * (f.index / 256)),
      0, false⟩ := by
  simp [engineAsks, hs, hf, hx, engineMoves, hn, Nat.not_le.mpr hlt, hd, hb, askRead, bufferAddr]

/-! ### The answered cycle with no ending decided -/

/-- What the side's tap is once a word has passed. -/
theorem answered_end_tap (hx : (s.slot i).side = x) (hf : (s.tap.get x).fence = some f) (hj : f.index = j) :
    let u := answered i j d (s.ended x wt [])
    (u.tap.get x).fence = some { f with index := j + 1 } ∧ (u.tap.get x).arb = .free ∧
    (∀ c, (s.tap.get x).held = some c → wordIndex f c.addr = some j →
      (u.tap.get x).held = none ∧ (u.tap.get x).comp = some c) ∧
    ((∀ c, (s.tap.get x).held = some c → wordIndex f c.addr ≠ some j) →
      (u.tap.get x).held = (s.tap.get x).held ∧ (u.tap.get x).comp = (s.tap.get x).comp) ∧
    u.tap.get x.other = s.tap.get x.other := by
  intro u
  have htap : u.tap = s.tap.set x (({ s.tap.get x with arb := .free } : Tap).passWord j) := by
    have h := answered_tap (s := s.ended x wt []) (j := j) (d := d) hx
    rw [ended_tap, Sided.get_set_same, Sided.set_set] at h
    exact h
  have hg : u.tap.get x = ({ s.tap.get x with arb := .free } : Tap).passWord j := by rw [htap, Sided.get_set_same]
  obtain ⟨hfence, harb, hheld, hother⟩ := passWord_spec ({ s.tap.get x with arb := .free } : Tap) f j hf
  rw [hg]
  exact ⟨by rw [hfence, hj], harb, hheld, hother, by rw [htap, Sided.get_set_other]⟩

theorem ended_engineSlot (h : engineSlot s = some i) : engineSlot (s.ended x wt []) = some i :=
  (engineSlot_congr rfl rfl).trans h

/-- A request handed over after a data cycle's answer, from the state in which the word has passed. -/
theorem answered_over (hs : engineSlot s = some i) (hx : (s.slot i).side = x) :
    let v := answered i j d (s.ended x wt [])
    HandedOver v (endRequest st c v) i st c ∧ ((endRequest st c v).tap.get x).fence = none ∧
      ((endRequest st c v).tap.get x).arb = .free ∧ ((endRequest st c v).tap.get x).held = none := by
  intro v
  have hslot : engineSlot v = some i := answered_engineSlot (ended_engineSlot hs)
  have hover := endRequest_over hslot st c
  have htap := endRequest_tap hslot st c
  have hside : (v.slot i).side = x := hx
  rw [hside] at htap
  have harb : (v.tap.get x).arb = .free := by
    rw [show v.tap = _ from answered_tap (s := s.ended x wt []) hx, Sided.get_set_same, ended_tap, Sided.get_set_same]
    unfold Tap.passWord
    split
    · rfl
    · dsimp only
      split
      · exact (release_held _).2
      · rfl
  obtain ⟨hheld, harb'⟩ := release_held (v.tap.get x)
  rw [htap, Sided.get_set_same, abandonData_of_free (by exact harb'.trans harb)]
  exact ⟨hover, rfl, harb'.trans harb, hheld⟩

/-- The residual of a disk read that is handed over once word `j` has passed. -/
theorem answered_residual_read (hx : (s.slot i).side = x) (hf : (s.tap.get x).fence = some f) (hj : f.index = j)
    (hr : (s.slot i).isKind Kind.diskRead = true) :
    residualOf (answered i j d (s.ended x wt [])) (s.slot i) =
      BitVec.ofNat 16 (recCount (s.slot i).words - (j + 1)) := by
  have hfence := (answered_end_tap (wt := wt) (d := d) hx hf hj).1
  rw [residualOf_diskRead hr, transferIndex_of_fence (by rw [hx]; exact hfence)]

/-- Settles O50: the word that passes, the drain's end, and the interruption that waits for the cycle. -/
theorem dataCyclesMoveWords : Obligations.DataCyclesMoveWords := by
  unfold Obligations.DataCyclesMoveWords
  rintro x i f sl b j p s hs rfl hx hf hj rfl rfl
  refine ⟨fun hn hlt => ⟨fun hd hb => ?asksWrite, fun hd hb => ?asksRead⟩, fun d wt h hn => ?passes,
    fun d wt st c h he hr hlast hgood => ?drained, fun h hn hp hk hst hfault ho => ?faultRise,
    fun d wt st c h he hg => ?interrupted⟩
  case asksWrite => subst hj; exact engineAsks_read hs hx hf hn hlt hd hb
  case asksRead => subst hj; exact engineAsks_fetch hs hx hf hn hlt hd hb
  case passes =>
    have hbuf := answered_buffers i j d (s.ended x wt [])
    refine ⟨_, exec_dataCycleEnd h hs d wt, ?_⟩
    rw [finishEnding_none (by rw [hbuf]; exact hn)]
    obtain ⟨hfence, harb, hheld, hcomp, hother⟩ := answered_end_tap (wt := wt) (d := d) hx hf hj
    refine ⟨hfence, harb, hheld, hcomp, fun hr => answered_read (s := s.ended x wt []) hr, fun hr hlt => ?_,
      fun hr hge => ?_, by rw [hbuf]; rfl, by rw [hbuf]; rfl, rfl, rfl, hother, rfl, rfl, rfl, rfl, rfl⟩
    · rw [answered_fetch (s := s.ended x wt []) hr]
      exact fetched_partial hlt
    · rw [answered_fetch (s := s.ended x wt []) hr]
      exact fetched_full hge
  case drained =>
    refine ⟨_, exec_dataCycleEnd h hs d wt, ?_⟩
    have hbuf := answered_buffers i j d (s.ended x wt [])
    have heng := answered_read (s := s.ended x wt []) (j := j) (d := d) hr
    have hmoved : ¬ (s.eng.buf (j / 256)).moved + 1 < (s.slot i).wordsAt (j / 256) := Nat.not_lt.mpr hlast
    have hgood' : (answered i j d (s.ended x wt [])).eng.anyGood = false := by
      rw [anyGood_of _ (j / 256), heng, buf_setBuf, buf_setBuf_next, if_neg (by exact hmoved)]
      exact Bool.or_eq_false_iff.mpr ⟨rfl, beq_eq_false_iff_ne.mpr hgood⟩
    rw [finishEnding_drained (by rw [hbuf]; exact he) hgood']
    obtain ⟨hover, hfence, -, -⟩ := answered_over (st := st) (c := c) (j := j) (d := d) (wt := wt) hs hx
    have hslot := hover.slot
    rw [answered_slot, ended_slot] at hslot
    rw [hslot, hover.engine]
    exact ⟨rfl, rfl, rfl, hfence, answered_residual_read hx hf hj hr, rfl⟩
  case faultRise =>
    have hev : InputEvent s .faultRise .faultRise { s.drv.inp with fault := true } s.clk := by
      unfold InputEvent
      simp [hfault]
    refine ⟨_, exec_driveEvent hev ho, ?_⟩
    have hrise : driveEvent { s with clk := s.clk, drv := { s.drv with inp := { s.drv.inp with fault := true } }, out := [] }
        .faultRise = enterFaulted 4 { s with drv := { s.drv with inp := { s.drv.inp with fault := true } }, out := [] } := by
      simp [driveEvent, faultRose, hst]
    obtain ⟨h1, h2, h3, h4, h5, h6, h7⟩ := enterFaulted_waits
      (s := { s with drv := { s.drv with inp := { s.drv.inp with fault := true } }, out := [] }) (x := x) (i := i)
      ((engineSlot_congr rfl rfl).trans hs) hx hp hk hn ((dataInFlight_congr rfl).trans (dataInFlight_of_cycle h)) 4
    rw [hrise, reconcileDrive_other (by rw [h1]; simp) (by rw [h1]; simp) (by rw [h1]; simp)]
    refine ⟨h1, h2, h3, h4, ?_, ?_, ?_, h6, h7⟩
    · rw [h5]
    · rw [h5]; exact hf
    · rw [h5]
  case interrupted =>
    refine ⟨_, exec_dataCycleEnd h hs d wt, ?_⟩
    have hbuf := answered_buffers i j d (s.ended x wt [])
    obtain ⟨hover, hfence, harb, hheld⟩ := answered_over (st := st) (c := c) (j := j) (d := d) (wt := wt) hs hx
    have hidle : dataInFlight (answered i j d (s.ended x wt []))
        ((answered i j d (s.ended x wt [])).slot i).side = false := by
      rw [show ((answered i j d (s.ended x wt [])).slot i).side = x from hx]
      unfold dataInFlight
      rw [(answered_end_tap (wt := wt) (d := d) hx hf hj).2.1]
    rw [finishEnding_eq (answered_engineSlot (ended_engineSlot hs)) (by rw [hbuf]; exact he) hidle hg]
    have hslot := hover.slot
    rw [answered_slot, ended_slot] at hslot
    rw [hslot, hover.engine]
    refine ⟨rfl, rfl, rfl, hfence, harb, hheld, rfl, rfl, fun hr => answered_residual_read hx hf hj hr, fun hw => ?_,
      fun hk hm => ?_⟩
    · have hres := residualOf_diskWrite (s := answered i j d (s.ended x wt [])) hw
      rw [hbuf] at hres
      exact hres
    · have hres := residualOf_check (s := answered i j d (s.ended x wt [])) hk
      have hm' : ¬ (s.slot i).sectors ≤ s.eng.m := Nat.not_le.mpr hm
      rw [hbuf, Slot.wordsBefore, if_neg (by exact hm')] at hres
      exact hres

end Sys2Proof.Machine
end

section
/-! What the engine's own steps at a sector may touch, once for all of them: the frame of a mark's and a sector's
effect. -/

namespace Sys2Proof.Machine

variable {s t u : State} {i j : Fin 12} {sl : Slot} {st : Status} {c : Word}

/-! ### Re-examinations -/

/-- What every turn of a re-examination keeps, the whole of it keeps. -/
theorem reexamineAfter_induct {P : State → Prop} (hturn : ∀ t j, P t → P (reexamineOne t j)) (sl : Slot) (h : P s) :
    P (reexamineAfter sl s) := by
  have hfold : ∀ (d : List (Fin 12)) t, P t → P (d.foldl reexamineOne t) := fun d => by
    induction d with
    | nil => exact fun t ht => ht
    | cons a d ih => exact fun t ht => ih _ (hturn t a ht)
  have hpasses : ∀ fuel calls t, P t → P (reexaminePasses fuel calls t) := fun fuel => by
    induction fuel with
    | zero => exact fun calls t ht => ht
    | succ fuel ih =>
      intro calls t ht
      cases calls with
      | zero => exact ht
      | succ calls => exact ih _ _ (hfold _ t ht)
  unfold reexamineAfter
  split
  · exact hpasses _ _ s h
  · exact h

/-- What a slot's deadline span may become while other blocks act: it stays, or is gone with the slot's entry to
POSTING. -/
def SpanFollows (a b : Slot) : Prop :=
  (b.span = a.span ∧ (a.state = .posting → b.state = .posting)) ∨
    (a.state ≠ .posting ∧ b.state = .posting ∧ b.span = none)

theorem SpanFollows.refl (a : Slot) : SpanFollows a a := .inl ⟨rfl, id⟩

theorem SpanFollows.trans {a b d : Slot} (h : SpanFollows a b) (k : SpanFollows b d) : SpanFollows a d := by
  rcases h with ⟨h1, h2⟩ | ⟨h1, h2, h3⟩
  · rcases k with ⟨k1, k2⟩ | ⟨k1, k2, k3⟩
    · exact .inl ⟨k1.trans h1, fun hp => k2 (h2 hp)⟩
    · exact .inr ⟨fun hp => k1 (h2 hp), k2, k3⟩
  · rcases k with ⟨k1, k2⟩ | ⟨k1, -, -⟩
    · exact .inr ⟨h1, k2 h2, k1.trans h3⟩
    · exact absurd h2 k1

theorem postNeverActive_spans (h : (s.slot i).state ≠ .posting) (st : Status) (j : Fin 12) :
    SpanFollows (s.slot j) ((postNeverActive i st s).slot j) := by
  unfold postNeverActive
  rw [toPosting_slot]
  split
  next hj => subst hj; exact .inr ⟨h, rfl, rfl⟩
  · exact SpanFollows.refl _

theorem examine_slot (s : State) (j : Fin 12) : (examine s).slot j = s.slot j := by
  rw [examine_rest]
  rfl

theorem toWaiting_spans (h : (s.slot i).state ≠ .posting) (j : Fin 12) :
    SpanFollows (s.slot j) ((toWaiting i s).slot j) := by
  unfold toWaiting
  rw [State.slot_modSlot]
  split
  next hj => subst hj; exact .inl ⟨rfl, fun hp => absurd hp h⟩
  · exact SpanFollows.refl _

theorem grantLock_spans (h : (s.slot i).state ≠ .posting) (j : Fin 12) :
    SpanFollows (s.slot j) ((grantLock i s).slot j) := by
  unfold grantLock
  split
  · exact postNeverActive_spans h .ok j
  · exact postNeverActive_spans h .lockTableFull j

theorem reexamineOne_spans (s : State) (i j : Fin 12) : SpanFollows (s.slot j) ((reexamineOne s i).slot j) := by
  by_cases hl : (s.slot i).state = .lockwait
  · have hp : (s.slot i).state ≠ .posting := by rw [hl]; simp
    by_cases hk : (s.slot i).kind = some .lock
    · rw [reexamineOne_of_lock rfl hl hk]
      split
      · exact postNeverActive_spans hp _ j
      · split
        · exact postNeverActive_spans hp _ j
        · split
          · exact SpanFollows.refl _
          · exact grantLock_spans hp j
    · rw [reexamineOne_of_read hl hk]
      split
      · exact SpanFollows.refl _
      · rw [examine_slot]
        exact toWaiting_spans hp j
  · rw [show reexamineOne s i = s from if_pos hl]
    exact SpanFollows.refl _

/-! ### The frame -/

/-- From `s` to `t` the engine did of its own steps at a sector, its request being the one in slot `i` if it has one. -/
structure EngineWorks (i : Fin 12) (s t : State) : Prop where
  rest : t = { s with
    tap := t.tap, slots := t.slots, locks := t.locks, sel := t.sel, eng := t.eng, drv := t.drv, out := t.out
    post := { s.post with queue := t.post.queue } }
  drive : t.drv = { s.drv with
    readGate := t.drv.readGate, writeGate := t.drv.writeGate, cylAddr := t.drv.cylAddr, headSel := t.drv.headSel
    move := t.drv.move, markSeen := t.drv.markSeen }
  abandoned : t.eng.abandoned = s.eng.abandoned
  work : ∀ w, t.eng.work = some w → w.1 = i
  spans : ∀ j, SpanFollows (s.slot j) (t.slot j)
  others : ∀ j, j ≠ i → (s.slot j).state ≠ .lockwait → t.slot j = s.slot j
  sel : s.sel.isSome = true → t.sel = s.sel

theorem engineSlot_work {k : Fin 12} (h : engineSlot s = some k) : ∃ n, s.eng.work = some (k, n) := by
  unfold engineSlot at h
  split at h
  · cases h
  next a n hw =>
    split at h
    · obtain rfl := Option.some.inj h
      exact ⟨n, hw⟩
    · cases h

theorem EngineWorks.refl (h : engineSlot s = some i) : EngineWorks i s s where
  rest := rfl
  drive := rfl
  abandoned := rfl
  work w hw := by
    obtain ⟨n, hn⟩ := engineSlot_work h
    rw [hn] at hw
    exact (Option.some.inj hw) ▸ rfl
  spans j := SpanFollows.refl _
  others j _ _ := rfl
  sel _ := rfl

theorem EngineWorks.engineSlot (h : EngineWorks i s t) {k : Fin 12} (hk : engineSlot t = some k) : k = i := by
  obtain ⟨n, hn⟩ := engineSlot_work hk
  exact h.work _ hn

theorem EngineWorks.trans (h : EngineWorks i s t) (k : EngineWorks i t u) : EngineWorks i s u where
  rest := by
    conv_lhs => rw [k.rest, h.rest]
  drive := by
    conv_lhs => rw [k.drive, h.drive]
  abandoned := k.abandoned.trans h.abandoned
  work := k.work
  spans j := (h.spans j).trans (k.spans j)
  others j hj hl := by
    have ht := h.others j hj hl
    exact (k.others j hj (by rw [ht]; exact hl)).trans ht
  sel hs := (k.sel (by rw [h.sel hs]; exact hs)).trans (h.sel hs)

/-- A change of the engine alone that keeps its request and the abandoned movement. -/
theorem EngineWorks.modEng (h : EngineWorks i s t) {f : Engine → Engine} (hw : (f t.eng).work = t.eng.work)
    (ha : (f t.eng).abandoned = t.eng.abandoned) : EngineWorks i s (t.modEng f) :=
  h.trans ⟨rfl, rfl, ha, fun w h' => h.work w (hw ▸ h'), fun _ => SpanFollows.refl _, fun _ _ _ => rfl, fun _ => rfl⟩

/-- A change of the drive's gates, address lines and movement alone. -/
theorem EngineWorks.modDrv (h : EngineWorks i s t) {f : Drive → Drive} (hf : f t.drv = { t.drv with
    readGate := (f t.drv).readGate, writeGate := (f t.drv).writeGate, cylAddr := (f t.drv).cylAddr
    headSel := (f t.drv).headSel, move := (f t.drv).move, markSeen := (f t.drv).markSeen }) :
    EngineWorks i s (t.modDrv f) :=
  h.trans ⟨rfl, hf, rfl, h.work, fun _ => SpanFollows.refl _, fun _ _ _ => rfl, fun _ => rfl⟩

theorem EngineWorks.emit (h : EngineWorks i s t) (o : List Output) : EngineWorks i s { t with out := o } :=
  h.trans ⟨rfl, rfl, rfl, h.work, fun _ => SpanFollows.refl _, fun _ _ _ => rfl, fun _ => rfl⟩

/-- A change of the request's own slot that keeps its state and span. -/
theorem EngineWorks.modSlot (h : EngineWorks i s t) {f : Slot → Slot} (hs : (f (t.slot i)).state = (t.slot i).state)
    (hp : (f (t.slot i)).span = (t.slot i).span) : EngineWorks i s (t.modSlot i f) := by
  refine h.trans ⟨rfl, rfl, rfl, h.work, fun j => ?_, fun j hj _ => State.slot_modSlot_ne _ _ hj, fun _ => rfl⟩
  rw [State.slot_modSlot]
  split
  next hj => subst hj; exact .inl ⟨hp, fun hx => hs.trans hx⟩
  · exact SpanFollows.refl _

/-! ### The engine's steps -/

theorem endRequest_spans (h : engineSlot s = some i) (st : Status) (c : Word) (j : Fin 12) :
    SpanFollows (s.slot j) ((endRequest st c s).slot j) := by
  unfold endRequest
  simp only [h]
  have hact : (s.slot i).state ≠ .posting := by
    unfold Machine.engineSlot at h
    split at h
    · cases h
    · split at h
      next hc => obtain rfl := Option.some.inj h; rw [hc.1]; simp
      · cases h
  refine reexamineAfter_induct (P := fun t => SpanFollows (s.slot j) (t.slot j))
    (fun t k ht => ht.trans (reexamineOne_spans t k j)) _ ?_
  rw [examine_slot]
  show SpanFollows (s.slot j) ((toPosting i st (residualOf s (s.slot i)) (stopOf s (s.slot i) st) c s).slot j)
  rw [toPosting_slot]
  split
  next hj => subst hj; exact .inr ⟨hact, rfl, rfl⟩
  · exact SpanFollows.refl _

theorem clearEngine_works (h : EngineWorks i s t) : EngineWorks i s (clearEngine t) :=
  h.trans ⟨rfl, rfl, rfl, fun w hw => (by cases hw), fun _ => SpanFollows.refl _, fun _ _ _ => rfl, fun _ => rfl⟩

theorem endRequest_works (h : EngineWorks i s t) (st : Status) (c : Word) : EngineWorks i s (endRequest st c t) := by
  cases hk : engineSlot t with
  | none =>
    rw [endRequest, hk]
    exact clearEngine_works h
  | some k =>
    obtain rfl := h.engineSlot hk
    have ho := endRequest_over hk st c
    refine h.trans ⟨?_, ?_, ?_, fun w hw => ?_, endRequest_spans hk st c, ho.others, ho.sel⟩
    · conv_lhs => rw [ho.rest, ← endRequest_out st c t]
    · rw [ho.drive]
    · rw [ho.engine]; rfl
    · rw [ho.engine] at hw; cases hw

theorem finishEnding_works (h : EngineWorks i s t) : EngineWorks i s (finishEnding t) := by
  unfold finishEnding
  split
  · exact h
  · split
    · exact endRequest_works h _ _
    · exact h

theorem found_works (h : EngineWorks i s t) (st : Status) : EngineWorks i s (found st t) :=
  finishEnding_works ((h.modDrv rfl).modEng rfl rfl)

theorem rotate_works (h : EngineWorks i s t) (sl : Slot) : EngineWorks i s (rotate sl t) :=
  (h.modEng rfl rfl).modDrv rfl

theorem startSeek_works (h : EngineWorks i s t) (k : Nat) (b : Bool) : EngineWorks i s (startSeek k b t) :=
  ((h.modEng rfl rfl).modDrv rfl).emit _

theorem startRecal_works (h : EngineWorks i s t) (k : Nat) : EngineWorks i s (startRecal k t) :=
  ((h.modEng rfl rfl).modDrv rfl).emit _

theorem dropReadGate_works (h : EngineWorks i s t) :
    EngineWorks i s (t.modDrv (fun d => { d with readGate := false })) := h.modDrv rfl

theorem dropGates_works (h : EngineWorks i s t) : EngineWorks i s (dropGates t) := h.modDrv rfl

theorem dropWriteGate_works (h : EngineWorks i s t) : EngineWorks i s (dropWriteGate t) := by
  unfold dropWriteGate
  split
  · exact (h.modDrv (f := fun d => { d with writeGate := false }) rfl).emit _
  · exact h

theorem nextTarget_works (h : EngineWorks i s t) (sl : Slot) : EngineWorks i s (nextTarget sl t) := by
  unfold nextTarget
  dsimp only
  split
  · exact startSeek_works (h.modEng rfl rfl) _ _
  · exact rotate_works (h.modEng rfl rfl) sl

theorem finishTarget_works (h : EngineWorks i s t) (sl : Slot) (st : Status) :
    EngineWorks i s (finishTarget sl st t) := by
  unfold finishTarget
  split
  · exact nextTarget_works h sl
  · exact found_works (h.modEng rfl rfl) st

theorem setBuf_works (h : EngineWorks i s t) (p : Nat) (b : Buffer) :
    EngineWorks i s (t.modEng (fun e => e.setBuf p b)) :=
  h.modEng (by rw [setBuf_buffers]) (by rw [setBuf_buffers])

theorem refill_buffers (e : Engine) (m n : Nat) :
    e.refill m n = { e with buf0 := (e.refill m n).buf0, buf1 := (e.refill m n).buf1 } := by
  unfold Engine.refill Engine.fill
  split <;> exact setBuf_buffers ..

theorem refill_works (h : EngineWorks i s t) (m n : Nat) : EngineWorks i s (t.modEng (fun e => e.refill m n)) :=
  h.modEng (by rw [refill_buffers]) (by rw [refill_buffers])

theorem countReread_works (h : EngineWorks i s t) : EngineWorks i s (countReread i t) := by
  unfold countReread
  split
  · exact h
  · exact h.modSlot rfl rfl

theorem headerFail_works (h : EngineWorks i s t) : EngineWorks i s (headerFail t) := by
  unfold headerFail
  split
  · exact h
  · dsimp only
    split
    · exact startRecal_works ((dropReadGate_works h).modEng rfl rfl) _
    · exact found_works (dropReadGate_works h) _

theorem dataFail_works (h : EngineWorks i s t) : EngineWorks i s (dataFail t) := by
  unfold dataFail
  split
  · exact h
  next k hk =>
    obtain rfl := h.engineSlot hk
    have hc := countReread_works (setBuf_works (dropReadGate_works h) t.eng.m (t.eng.buf t.eng.m).dropReceived)
    dsimp only
    split
    · exact found_works hc _
    · split
      · exact rotate_works (hc.modEng rfl rfl) _
      · exact startRecal_works (hc.modEng rfl rfl) _

theorem sectorWritten_works (h : EngineWorks i s t) (k : Fin 12) (b : Bool) :
    EngineWorks i s (sectorWritten k b t) := by
  have hw := (dropGates_works h).modEng (f := fun e => { e with written := if b then e.written + 1 else e.written })
    rfl rfl
  cases hs : t.eng.ending.isSome with
  | true =>
    rw [show sectorWritten k b t = finishEnding _ from if_pos hs]
    exact finishEnding_works hw
  | false =>
    rw [show sectorWritten k b t = finishTarget _ _ _ from if_neg (by exact hs ▸ Bool.false_ne_true)]
    exact finishTarget_works (refill_works hw _ _) _ _

theorem earlyMark_works (h : EngineWorks i s t) : EngineWorks i s (earlyMark t) := by
  unfold earlyMark
  split
  · exact clearEngine_works (dropWriteGate_works h)
  · split
    · exact h
    · split
      · exact headerFail_works h
      · split
        · exact sectorWritten_works (dropWriteGate_works h) _ _
        · exact dataFail_works h
  · exact h

theorem dataGood_works (h : EngineWorks i s t) : EngineWorks i s (dataGood i t) := by
  unfold dataGood
  dsimp only
  split
  · exact dropReadGate_works (countReread_works h)
  · exact (dropReadGate_works (countReread_works h)).modSlot rfl rfl

theorem judgeRead_works (h : EngineWorks i s t) (data : List Word) (chk : Option Word) :
    EngineWorks i s (judgeRead i data chk t) := by
  unfold judgeRead
  split
  · exact finishTarget_works (dataGood_works (setBuf_works h _ _)) _ _
  · exact dataFail_works h

theorem judgeCheck_works (h : EngineWorks i s t) (data : List Word) (chk : Option Word) :
    EngineWorks i s (judgeCheck i data chk t) := by
  unfold judgeCheck
  split
  · dsimp only
    split
    · exact found_works ((dataGood_works h).modEng rfl rfl) _
    · exact finishTarget_works (refill_works (dataGood_works h) _ _) _ _
  · exact dataFail_works h

theorem sectorOver_works (h : EngineWorks i s t) (data : List Word) (chk : Option Word) :
    EngineWorks i s (sectorOver data chk t) := by
  unfold sectorOver
  split
  · exact h
  · split
    · exact clearEngine_works (h.emit _)
    · split
      · exact h
      next k hk =>
        obtain rfl := h.engineSlot hk
        split
        · split
          · exact judgeRead_works h data chk
          · exact h
        · split
          · exact judgeRead_works h data chk
          · exact h
        · exact judgeCheck_works h data chk
        · exact sectorWritten_works (h.emit _) _ _
        · exact sectorWritten_works (h.emit _) _ _
        · exact h
    · exact h

end Sys2Proof.Machine
end

section
/-! The slot clock (O51): ticks, marks and index, and the spans that run on it. -/

namespace Sys2Proof.Machine

variable {s : State}

theorem exec_sectorMark (n : BitVec 4) (s : State) :
    exec (.sectorMark n) s = .next (settle s (markArrives n s.begun)) := rfl

/-! ### Spans on the clock -/

theorem tick_of (f : Span → Span) {c : Word} (hf : ∀ sp, f sp = ⟨sp.endsAt, sp.reached || sp.endsAt == c⟩) :
    Span.tick c = f := by
  funext sp
  rw [hf, Span.tick]
  by_cases h : sp.endsAt = c
  · rw [if_pos h]; simp [h]
  · rw [if_neg h]; simp [show (sp.endsAt == c) = false from beq_false_of_ne h]

/-- A mark's tick, with what it does to a span said by one function for both sources. -/
theorem markTick_eq {f : Span → Span} (hf : ∀ sp, f sp =
    ⟨sp.endsAt, sp.reached || (s.clk.source == .marks && sp.endsAt == s.clk.count + 1)⟩) :
    markTick s = { s with
      clk := ⟨if s.clk.source = .marks then s.clk.count + 1 else s.clk.count, s.clk.source⟩
      slots := s.slots.map (fun sl => { sl with span := sl.span.map f })
      map := { s.map with span := s.map.span.map f }
      drv := { s.drv with span := s.drv.span.map f }
      eng := { s.eng with span := s.eng.span.map f, abandoned := s.eng.abandoned.map (fun m => (m.1, f m.2)) } } := by
  cases hs : s.clk.source with
  | marks =>
    have ht : Span.tick (s.clk.count + 1) = f := tick_of f (by simpa [hs] using hf)
    rw [markTick, hs, ← ht]
    simp only [tick, hs, if_true]
  | timer =>
    have hid : f = id := funext fun sp => by rw [hf, hs]; simp [show (ClockSource.timer == .marks) = false from rfl]
    have hslots : s.slots.map (fun sl => { sl with span := sl.span.map id }) = s.slots := by
      simp
    have hab : s.eng.abandoned.map (fun m => (m.1, id m.2)) = s.eng.abandoned := by simp
    have hm : markTick s = s := by rw [markTick, hs]
    rw [hm, hid, hslots, hab, ← hs, if_neg (show ¬ s.clk.source = .marks by rw [hs]; simp)]
    simp only [Option.map_id, id]

/-- What a span has come to after `n` increments from the count `t`. -/
theorem ticks_eq (t : Word) {k : Nat} (hk : 1 ≤ k) (hk2 : k ≤ 65535) (n : Nat) :
    (List.range n).foldl (fun sp d => sp.tick (t + BitVec.ofNat 16 (d + 1))) (spanFrom t k) =
      ⟨t + BitVec.ofNat 16 k, decide (k ≤ n)⟩ := by
  induction n with
  | zero => simp [spanFrom]; omega
  | succ n ih =>
    rw [List.range_succ, List.foldl_append, ih, List.foldl_cons, List.foldl_nil, Span.tick]
    by_cases hn : k ≤ n
    · simp [hn, Nat.le_succ_of_le hn]
    · by_cases he : k = n + 1
      · simp [he]
      · have hd : (BitVec.ofNat 16 k) ≠ BitVec.ofNat 16 (n + 1) := by
          intro h
          have h := congrArg BitVec.toNat h
          simp only [BitVec.toNat_ofNat] at h
          omega
        rw [if_neg (fun h => hd (by simpa using h))]
        simp [hn]
        omega

/-! ### A mark -/

theorem slot_of_map {t : State} {g : Slot → Slot} (h : t.slots = s.slots.map g) (j : Fin 12) :
    t.slot j = g (s.slot j) := by
  unfold State.slot
  simp [h]

/-- An early mark leaves the clock, the map and every span but the engine's own, and a slot's that it sends to
POSTING. -/
theorem earlyMark_leaves (s : State) :
    (earlyMark s).clk = s.clk ∧ (earlyMark s).map = s.map ∧ (earlyMark s).drv = { s.drv with
        readGate := (earlyMark s).drv.readGate, writeGate := (earlyMark s).drv.writeGate
        cylAddr := (earlyMark s).drv.cylAddr, headSel := (earlyMark s).drv.headSel, move := (earlyMark s).drv.move
        markSeen := (earlyMark s).drv.markSeen } ∧
      (earlyMark s).eng.abandoned = s.eng.abandoned ∧ ∀ j, SpanFollows (s.slot j) ((earlyMark s).slot j) := by
  by_cases hf : s.eng.phase = .finishing
  · rw [earlyMark, hf]
    dsimp only
    unfold stopFinishing dropWriteGate
    split <;> exact ⟨rfl, rfl, rfl, rfl, fun j => SpanFollows.refl _⟩
  · cases hi : engineSlot s with
    | some i =>
      have h := earlyMark_works (EngineWorks.refl hi)
      refine ⟨?_, ?_, ?_, h.abandoned, h.spans⟩
      · rw [h.rest]
      · rw [h.rest]
      · exact h.drive
    | none =>
      have he : earlyMark s = s := by
        unfold earlyMark
        rw [hi]
        split
        next h => exact absurd h hf
        · rfl
        · rfl
      rw [he]
      exact ⟨rfl, rfl, rfl, rfl, fun j => SpanFollows.refl _⟩

theorem earlyMark_of_closed (h1 : s.eng.phase ≠ .inSector) (h2 : s.eng.phase ≠ .finishing) : earlyMark s = s := by
  unfold earlyMark
  split
  next h => exact absurd h h2
  next h => exact absurd h h1
  · rfl

theorem markAtEngine_leaves (n : Nat) (s : State) :
    markAtEngine n s = { s with eng := (markAtEngine n s).eng, drv := (markAtEngine n s).drv } ∧
      (markAtEngine n s).eng.span = s.eng.span ∧ (markAtEngine n s).eng.abandoned = s.eng.abandoned ∧
      (markAtEngine n s).drv.span = s.drv.span := by
  unfold markAtEngine
  split
  · exact ⟨rfl, rfl, rfl, rfl⟩
  · dsimp only
    split <;> exact ⟨rfl, rfl, rfl, rfl⟩

/-- Settles O51. -/
theorem clockTicksAndSource : Obligations.ClockTicksAndSource := by
  unfold Obligations.ClockTicksAndSource
  refine ⟨fun f s hf hs => ?_, fun f n s hf => ⟨_, exec_sectorMark n s, ?_⟩, fun s hs hu => ?_, fun t k n hk hk2 => ?_⟩
  · rw [← tick_of f hf]
    exact runIf_true (by simp [hs])
  · obtain ⟨hclk, hmap, hdrv, hab, hsp⟩ := earlyMark_leaves (recordMark n s.begun)
    obtain ⟨hr, hes, hea, hds⟩ := markAtEngine_leaves n.toNat (markTick (earlyMark (recordMark n s.begun)))
    have ht := markTick_eq (s := earlyMark (recordMark n s.begun)) (f := f) (by rw [hclk]; exact hf)
    have hm : markArrives n s.begun = _ := hr
    refine ⟨?_, ?_, ?_, ?_, fun j => ?_, fun h1 h2 => ⟨?_, ?_⟩⟩
    · rw [hm]
      show (markTick _).clk = _
      rw [ht, hclk]
      rfl
    · rw [hm]
      show (markTick _).map = _
      rw [ht, hmap]
      rfl
    · refine hds.trans ?_
      rw [ht]
      exact congrArg (Option.map f) (by rw [hdrv]; rfl)
    · exact hea.trans (by rw [ht, hab]; rfl)
    · rw [hm]
      change ((markTick _).slot j).span = _ ∨ _ ∧ ((markTick _).slot j).state = _ ∧ ((markTick _).slot j).span = _
      rw [slot_of_map (congrArg State.slots ht)]
      rcases hsp j with ⟨h, -⟩ | ⟨h1, h2, h3⟩
      · exact .inl (congrArg (Option.map f) h)
      · exact .inr ⟨h1, h2, congrArg (Option.map f) h3⟩
    · rw [hm]
      show (markTick _).slots = _
      rw [ht, earlyMark_of_closed (s := recordMark n s.begun) h1 h2]
      rfl
    · exact hes.trans (by rw [ht, earlyMark_of_closed (s := recordMark n s.begun) h1 h2]; rfl)
  · exact runIf_true (by simp [hs, hu])
  · rw [ticks_eq t hk hk2]
    exact decide_eq_true_iff

end Sys2Proof.Machine
end

section
/-! How a sector's step ends at the engine: the next target, the hand-over after the last one, a header mismatch, a data
check failure and a write's sector. -/

namespace Sys2Proof.Machine

variable {s t v : State} {i : Fin 12} {sl : Slot} {st : Status} {c : Word}

theorem engineSlot_iff : engineSlot s = some i ↔
    s.eng.work = some (i, (s.slot i).tenure) ∧ (s.slot i).state = .active := by
  unfold engineSlot
  cases hw : s.eng.work with
  | none => simp
  | some w =>
    obtain ⟨a, n⟩ := w
    constructor
    · intro h
      by_cases hc : (s.slot a).state = .active ∧ (s.slot a).tenure = n
      · obtain ⟨ha, hn⟩ := hc
        obtain rfl : a = i := by simpa [ha, hn] using h
        exact ⟨by rw [hn], ha⟩
      · simp [hc] at h
    · rintro ⟨h, ha⟩
      obtain ⟨rfl, rfl⟩ := Prod.mk.inj (Option.some.inj h)
      simp [ha]

/-- The engine's slot is the same in two states that agree on its work and on the slot's state and tenure. -/
theorem engineSlot_at (hw : t.eng.work = s.eng.work) (hs : (t.slot i).state = (s.slot i).state)
    (ht : (t.slot i).tenure = (s.slot i).tenure) : engineSlot t = some i ↔ engineSlot s = some i := by
  rw [engineSlot_iff, engineSlot_iff, hw, hs, ht]

/-! ### The next target, or the last -/

theorem nextTarget_goes (hr : v.drv.readGate = false) (hc : v.clk.count = s.clk.count) :
    GoesToNext sl v.eng.m s (nextTarget sl v) := by
  unfold nextTarget
  dsimp only
  by_cases he : endsCylinder (sl.sectorAt v.eng.m).2 = true
  · rw [if_pos he]
    exact ⟨rfl, rfl, rfl, hr, fun h => absurd (endsCylinder_iff.mp he) h, fun _ => ⟨rfl, rfl, rfl,
      congrArg (fun c => some (spanFrom c 64)) hc, rfl⟩⟩
  · rw [if_neg he]
    exact ⟨rfl, rfl, rfl, hr, fun _ => ⟨rfl, rfl⟩, fun h => absurd (endsCylinder_iff.mpr h) he⟩

/-- What the way to the next target leaves as it is. -/
theorem nextTarget_leaves (sl : Slot) (v : State) : (nextTarget sl v).slots = v.slots ∧ (nextTarget sl v).tap = v.tap ∧
    (nextTarget sl v).eng.written = v.eng.written ∧ (nextTarget sl v).eng.buf0 = v.eng.buf0 ∧
    (nextTarget sl v).eng.buf1 = v.eng.buf1 ∧ (nextTarget sl v).drv.writeGate = v.drv.writeGate ∧
    ∃ more, (nextTarget sl v).out = v.out ++ more := by
  unfold nextTarget
  dsimp only
  split
  · exact ⟨rfl, rfl, rfl, rfl, rfl, rfl, _, rfl⟩
  · exact ⟨rfl, rfl, rfl, rfl, rfl, rfl, [], (List.append_nil _).symm⟩

theorem finishTarget_goes (h : v.eng.m + 1 < sl.sectors) : finishTarget sl st v = nextTarget sl v := by
  rw [finishTarget_eq, if_pos h]

theorem finishTarget_last (hi : engineSlot v = some i) (h : sl.sectors ≤ v.eng.m + 1) (hg : v.eng.anyGood = false) :
    HandedOver (foundState st (lastState v)) (finishTarget sl st v) i st v.clk.count := by
  rw [finishTarget_eq, if_neg (by omega)]
  exact found_over st (lastState v) i hi hg

theorem finishTarget_draining (h : sl.sectors ≤ v.eng.m + 1) (hg : v.eng.anyGood = true) :
    finishTarget sl st v = foundState st (lastState v) := by
  rw [finishTarget_eq, if_neg (by omega)]
  exact found_waits st (lastState v) hg

/-- The fields of a result handed over. -/
theorem HandedOver.told (h : HandedOver t v i st c) : (v.slot i).state = .posting ∧ (v.slot i).status = some st ∧
    (v.slot i).instant = c ∧ (v.slot i).span = none ∧ (v.slot i).residual = residualOf t (t.slot i) := by
  rw [h.slot]
  exact ⟨rfl, rfl, rfl, rfl, rfl⟩

theorem finishTarget_grows (v : State) (sl : Slot) (st : Status) :
    ∃ more, (finishTarget sl st v).out = v.out ++ more := by
  rw [finishTarget_eq]
  split
  · exact (nextTarget_leaves sl v).2.2.2.2.2.2
  · refine ⟨[], ?_⟩
    rw [List.append_nil]
    exact finishEnding_out _

/-! ### A write's sector -/

/-- The engine once a write's sector is over, before it goes on. -/
def writtenState (i : Fin 12) (b : Bool) (v : State) : State :=
  (dropGates v).modEng (fun e =>
    { e with written := if b then e.written + 1 else e.written }.refill e.m (v.slot i).sectors)

theorem sectorWritten_eq (he : v.eng.ending = none) (b : Bool) : sectorWritten i b v =
    finishTarget (v.slot i) (if v.eng.protectSeen.isSome then .writeProtected else .ok) (writtenState i b v) :=
  if_neg (by exact he ▸ Bool.false_ne_true)

theorem writtenState_fields (i : Fin 12) (b : Bool) (v : State) :
    (writtenState i b v).eng.work = v.eng.work ∧ (writtenState i b v).eng.m = v.eng.m ∧
      (writtenState i b v).eng.written = (if b then v.eng.written + 1 else v.eng.written) ∧
      (writtenState i b v).eng.buf v.eng.m =
        (if v.eng.m + 2 < (v.slot i).sectors then ⟨.filling, v.eng.m + 2, 0, []⟩ else ⟨.empty, 0, 0, []⟩) ∧
      (writtenState i b v).eng.buf (v.eng.m + 1) = v.eng.buf (v.eng.m + 1) := by
  obtain ⟨h1, h2, h3, -, -, -, -⟩ := refill_fields { v.eng with written := if b then v.eng.written + 1 else v.eng.written }
    v.eng.m (v.slot i).sectors
  exact ⟨h1, h3, h2, refill_buf _ _ _, refill_next _ _ _⟩

theorem writtenState_engineSlot (b : Bool) : engineSlot (writtenState i b v) = engineSlot v :=
  engineSlot_congr rfl (writtenState_fields i b v).1

theorem writtenState_anyGood (b : Bool) (hb : (v.eng.buf (v.eng.m + 1)).state ≠ .good) :
    (writtenState i b v).eng.anyGood = false := by
  obtain ⟨-, -, -, h1, h2⟩ := writtenState_fields i b v
  rw [anyGood_of _ v.eng.m, h1, h2]
  split <;> simp [hb]

/-- A write's sector that is not the last. -/
theorem sectorWritten_next (he : v.eng.ending = none) (hm : v.eng.m + 1 < (v.slot i).sectors) (b : Bool) :
    GoesToNext (v.slot i) v.eng.m v (sectorWritten i b v) ∧ (sectorWritten i b v).tap = v.tap ∧
      (sectorWritten i b v).slots = v.slots ∧
      (sectorWritten i b v).eng.written = (if b then v.eng.written + 1 else v.eng.written) ∧
      (sectorWritten i b v).eng.buf v.eng.m =
        (if v.eng.m + 2 < (v.slot i).sectors then ⟨.filling, v.eng.m + 2, 0, []⟩ else ⟨.empty, 0, 0, []⟩) ∧
      (sectorWritten i b v).drv.writeGate = false := by
  obtain ⟨-, hwm, hww, hwb, -⟩ := writtenState_fields i b v
  obtain ⟨ns, nt, nw, n0, n1, ng, -⟩ := nextTarget_leaves (v.slot i) (writtenState i b v)
  rw [sectorWritten_eq he, finishTarget_goes (by rw [hwm]; exact hm)]
  have hgo := nextTarget_goes (sl := v.slot i) (v := writtenState i b v) (s := v) rfl rfl
  rw [hwm] at hgo
  exact ⟨hgo, nt, ns, nw.trans hww, (buf_of n0 n1 _).trans hwb, ng⟩

/-- A write's last sector, with nothing left to drain: the request ends. -/
theorem sectorWritten_last (hi : engineSlot v = some i) (he : v.eng.ending = none)
    (hm : (v.slot i).sectors ≤ v.eng.m + 1) (hb : (v.eng.buf (v.eng.m + 1)).state ≠ .good) (b : Bool) :
    ∃ t, HandedOver t (sectorWritten i b v) i (if v.eng.protectSeen.isSome then .writeProtected else .ok) v.clk.count ∧
      t.slot i = v.slot i ∧ t.eng.written = (if b then v.eng.written + 1 else v.eng.written) := by
  obtain ⟨-, hwm, hww, -, -⟩ := writtenState_fields i b v
  rw [sectorWritten_eq he]
  exact ⟨_, finishTarget_last ((writtenState_engineSlot b).trans hi) (by rw [hwm]; exact hm)
    (writtenState_anyGood b hb), rfl, hww⟩

theorem sectorWritten_gates (hi : engineSlot v = some i) (he : v.eng.ending = none) (b : Bool) :
    (sectorWritten i b v).drv.writeGate = false ∧ (sectorWritten i b v).drv.readGate = false := by
  by_cases hm : v.eng.m + 1 < (v.slot i).sectors
  · obtain ⟨⟨-, -, -, hr, -⟩, -, -, -, -, hw⟩ := sectorWritten_next he hm b
    exact ⟨hw, hr⟩
  · rw [sectorWritten_eq he, finishTarget_eq, if_neg (by rw [(writtenState_fields i b v).2.1]; exact hm)]
    cases hg : (lastState (writtenState i b v)).eng.anyGood with
    | true => rw [found_waits _ _ hg]; exact ⟨rfl, rfl⟩
    | false =>
      rw [(found_over _ (lastState (writtenState i b v)) i ((writtenState_engineSlot b).trans hi) hg).drive]
      exact ⟨rfl, rfl⟩

theorem sectorWritten_grows (he : v.eng.ending = none) (b : Bool) :
    ∃ more, (sectorWritten i b v).out = v.out ++ more := by
  rw [sectorWritten_eq he]
  exact finishTarget_grows (writtenState i b v) _ _

/-! ### A header that fails (R119) -/

/-- The first mismatch: the engine recalibrates. -/
theorem headerFail_first (hi : engineSlot v = some i) (hm : v.eng.mismatches = 0) : headerFail v = { v with
    eng := { v.eng with
      mismatches := 1, sector := none, headerOk := false, heldOff := false, phase := .recalWait
      moveTo := ((v.slot i).start.getD 0 + v.eng.m) / 32, seekRetry := true, span := some ⟨v.clk.count + 256, false⟩ }
    drv := { v.drv with readGate := false, move := some .recalibrate, markSeen := false }
    out := v.out ++ [.recalibrate] } := by
  unfold headerFail
  rw [hi]
  exact if_pos hm

theorem headerFail_again (hi : engineSlot v = some i) (hm : v.eng.mismatches ≠ 0) : headerFail v =
    found .headerMismatch (v.modDrv (fun d => { d with readGate := false })) := by
  unfold headerFail
  rw [hi]
  exact if_neg hm

/-- The second mismatch with nothing to drain: the request ends. -/
theorem headerFail_ends (hi : engineSlot v = some i) (hm : v.eng.mismatches ≠ 0) (hg : v.eng.anyGood = false) :
    RequestEnded v (headerFail v) i .headerMismatch := by
  rw [headerFail_again hi hm]
  have ho := found_over .headerMismatch (v.modDrv (fun d => { d with readGate := false })) i hi hg
  exact ho.requestEnded rfl (fun _ => ⟨rfl, fun _ => rfl, rfl, rfl, rfl, rfl⟩) rfl rfl

/-- The second mismatch while words of a disk read wait: they are drained first. -/
theorem headerFail_drains (hi : engineSlot v = some i) (hm : v.eng.mismatches ≠ 0) (hg : v.eng.anyGood = true) :
    headerFail v = foundState .headerMismatch v := by
  rw [headerFail_again hi hm]
  exact found_waits _ _ hg

/-! ### A data check that fails (R124) -/

/-- The slot after a read of the sector that was a reread, if it was one. -/
def Slot.reread (sl : Slot) (n : Nat) : Slot := if n = 0 then sl else { sl with rereads := min 15 (sl.rereads + 1) }

/-- The engine and the slot once a sector's data has failed, before the ladder. -/
def failedState (i : Fin 12) (v : State) : State :=
  countReread i ((v.modDrv (fun d => { d with readGate := false })).modEng
    (fun e => e.setBuf e.m (e.buf e.m).dropReceived))

theorem countReread_slot (i : Fin 12) (v : State) : (countReread i v).slot i = (v.slot i).reread v.eng.rereads := by
  unfold countReread Slot.reread
  split
  · rfl
  · rw [State.slot_modSlot_same]
    rfl

theorem countReread_leaves (i : Fin 12) (v : State) : countReread i v = { v with slots := (countReread i v).slots } := by
  unfold countReread
  split <;> rfl

theorem failedState_eq (i : Fin 12) (v : State) : failedState i v = { v with
    slots := (failedState i v).slots, eng := v.eng.setBuf v.eng.m (v.eng.buf v.eng.m).dropReceived
    drv := { v.drv with readGate := false } } :=
  countReread_leaves i _

theorem failedState_slot (i : Fin 12) (v : State) :
    (failedState i v).slot i = (v.slot i).reread v.eng.rereads := by
  refine (countReread_slot i _).trans ?_
  show (v.slot i).reread (v.eng.setBuf _ _).rereads = _
  rw [setBuf_buffers]

theorem failedState_engine (i : Fin 12) (v : State) :
    (failedState i v).eng.work = v.eng.work ∧ (failedState i v).eng.rereads = v.eng.rereads ∧
      (failedState i v).eng.recalibrated = v.eng.recalibrated ∧ (failedState i v).eng.target = v.eng.target ∧
      (failedState i v).eng.m = v.eng.m := by
  rw [failedState_eq]
  obtain ⟨h1, h2, h3, h4, -, -, -, -, h5⟩ := setBuf_fields v.eng v.eng.m (v.eng.buf v.eng.m).dropReceived
  exact ⟨h2, h3, h4, h1, h5⟩

theorem failedState_anyGood (h0 : (v.eng.buf v.eng.m).state ≠ .good) (h1 : (v.eng.buf (v.eng.m + 1)).state ≠ .good) :
    (failedState i v).eng.anyGood = false := by
  rw [failedState_eq]
  show (v.eng.setBuf _ _).anyGood = _
  rw [anyGood_of _ v.eng.m, buf_setBuf, buf_setBuf_next]
  unfold Buffer.dropReceived
  split <;> simp_all [Buffer.none]

theorem failedState_engineSlot (hi : engineSlot v = some i) : engineSlot (failedState i v) = some i := by
  obtain ⟨hw, -, -, -, -⟩ := failedState_engine i v
  have hs := failedState_slot i v
  have hst : ((v.slot i).reread v.eng.rereads).state = (v.slot i).state ∧
      ((v.slot i).reread v.eng.rereads).tenure = (v.slot i).tenure := by
    unfold Slot.reread
    split <;> exact ⟨rfl, rfl⟩
  exact (engineSlot_at hw (by rw [hs, hst.1]) (by rw [hs, hst.2])).mpr hi

/-- A reread of the sector (R124). -/
theorem dataFail_again (hi : engineSlot v = some i) (hr : v.eng.recalibrated = false) (hn : v.eng.rereads < 3) :
    dataFail v = rotate ((failedState i v).slot i)
      ((failedState i v).modEng (fun e => { e with rereads := e.rereads + 1 })) := by
  obtain ⟨-, h1, h2, -, -⟩ := failedState_engine i v
  unfold dataFail
  rw [hi]
  show (if (failedState i v).eng.recalibrated then _ else if (failedState i v).eng.rereads < 3 then _ else _) = _
  rw [h1, h2, if_neg (by rw [hr]; simp), if_pos hn]
  rfl

/-- The recalibrate after three rereads (R124). -/
theorem dataFail_recals (hi : engineSlot v = some i) (hr : v.eng.recalibrated = false) (hn : 3 ≤ v.eng.rereads) :
    dataFail v = startRecal (((v.slot i).start.getD 0 + v.eng.m) / 32)
      ((failedState i v).modEng (fun e => { e with recalibrated := true, sector := none, headerOk := false })) := by
  obtain ⟨-, h1, h2, -, h3⟩ := failedState_engine i v
  have hs : ((failedState i v).slot i).start = (v.slot i).start := by
    rw [failedState_slot]
    unfold Slot.reread
    split <;> rfl
  unfold dataFail
  rw [hi]
  show (if (failedState i v).eng.recalibrated then _ else if (failedState i v).eng.rereads < 3 then _ else
    startRecal ((((failedState i v).slot i).start.getD 0 + (failedState i v).eng.m) / 32) _) = _
  rw [h1, h2, h3, hs, if_neg (by rw [hr]; simp), if_neg (by omega)]
  rfl

/-- The end with DATA_CHECK after the recalibrate, with nothing left to drain (R124). -/
theorem dataFail_ends (hi : engineSlot v = some i) (hr : v.eng.recalibrated = true)
    (h0 : (v.eng.buf v.eng.m).state ≠ .good) (h1 : (v.eng.buf (v.eng.m + 1)).state ≠ .good) :
    HandedOver (foundState .dataCheck (failedState i v)) (dataFail v) i .dataCheck v.clk.count := by
  have hd : dataFail v = found .dataCheck (failedState i v) := by
    obtain ⟨-, -, h2, -, -⟩ := failedState_engine i v
    unfold dataFail
    rw [hi]
    show (if (failedState i v).eng.recalibrated then _ else _) = _
    rw [h2, if_pos hr]
    rfl
  have hk : (failedState i v).clk = v.clk := by rw [failedState_eq]
  have ho := found_over .dataCheck (failedState i v) i (failedState_engineSlot hi) (failedState_anyGood h0 h1)
  rw [hd, ← hk]
  exact ho

end Sys2Proof.Machine
end

section
/-! The sector's events before its end (O52): the mark, also an early one, the header's judgement and the data's
start. -/

namespace Sys2Proof.Machine

variable {s t u v w : State} {i : Fin 12} {sl : Slot} {st : Status} {n : Nat}

/-! ### A mark after an early one -/

/-- A span at a mark, with the clock `k` before it. -/
def markSpan (k : Clock) (sp : Span) : Span :=
  ⟨sp.endsAt, sp.reached || (k.source == .marks && sp.endsAt == k.count + 1)⟩

theorem markSpan_later {k : Clock} {d : Word} (hd : d ≠ 1) :
    markSpan k ⟨k.count + d, false⟩ = ⟨k.count + d, false⟩ := by
  have : (k.count + d == k.count + 1) = false := beq_false_of_ne (fun h => hd (by simpa using h))
  simp only [markSpan, this, Bool.and_false, Bool.or_false]

/-- A mark's tick, and what the mark is to the engine: what follows an early mark. -/
def marked (n : Nat) (w : State) : State := markAtEngine n (markTick w)

/-- What is left of `w` once its mark has ticked. -/
theorem markTick_fields (w : State) : markTick w = { w with
    clk := ⟨if w.clk.source = .marks then w.clk.count + 1 else w.clk.count, w.clk.source⟩
    slots := w.slots.map (fun sl => { sl with span := sl.span.map (markSpan w.clk) })
    map := { w.map with span := w.map.span.map (markSpan w.clk) }
    drv := { w.drv with span := w.drv.span.map (markSpan w.clk) }
    eng := { w.eng with
      span := w.eng.span.map (markSpan w.clk), abandoned := w.eng.abandoned.map (fun m => (m.1, markSpan w.clk m.2)) } } :=
  markTick_eq fun _ => rfl

theorem markTick_slot (w : State) (j : Fin 12) :
    (markTick w).slot j = { w.slot j with span := (w.slot j).span.map (markSpan w.clk) } :=
  slot_of_map (congrArg State.slots (markTick_fields w)) j

theorem markTick_engineSlot (h : engineSlot (markTick w) = some i) : engineSlot w = some i :=
  (engineSlot_at (by rw [markTick_fields]) (by rw [markTick_slot]) (by rw [markTick_slot])).mp h

/-- The mark is not the target's, or the target cannot be opened. -/
def Passes (n : Nat) (w : State) : Prop :=
  ∀ i, engineSlot w = some i → w.eng.phase = .rotating → ((w.slot i).start.getD 0 + w.eng.m) % 16 = n →
    (w.slot i).isKind Kind.diskRead = false ∧ (w.eng.buf w.eng.m).state ≠ .full

theorem marked_passes (h : Passes n w) : marked n w = markTick w := by
  unfold marked markAtEngine
  cases hi : engineSlot (markTick w) with
  | none => rfl
  | some i =>
    dsimp only
    rw [if_neg]
    rintro ⟨h1, h2, h3⟩
    rw [markTick_slot] at h2 h3
    rw [markTick_fields] at h1 h2 h3
    obtain ⟨h4, h5⟩ := h i (markTick_engineSlot hi) h1 h2
    rcases h3 with h3 | h3
    · exact Bool.false_ne_true (h4.symm.trans h3)
    · exact h5 h3

theorem passes_of_phase (h : w.eng.phase ≠ .rotating) : Passes n w := fun _ _ hp => absurd hp h

theorem passes_of_idle (h : w.eng.work = none) : Passes n w := fun i hi => by
  obtain ⟨k, hk⟩ := engineSlot_work hi
  rw [h] at hk
  cases hk

/-- What a mark does to the fields that it may touch. -/
theorem marked_leaves (n : Nat) (w : State) :
    marked n w = { markTick w with eng := (marked n w).eng, drv := (marked n w).drv } ∧
      (marked n w).eng.target = w.eng.target ∧ (marked n w).eng.written = w.eng.written ∧
      (marked n w).eng.rereads = w.eng.rereads ∧ (marked n w).eng.buf0 = w.eng.buf0 ∧
      (marked n w).eng.buf1 = w.eng.buf1 ∧ (marked n w).drv.writeGate = w.drv.writeGate ∧
      (marked n w).drv.mark = w.drv.mark ∧ (marked n w).drv.wordTime = w.drv.wordTime := by
  refine ⟨(markAtEngine_leaves n (markTick w)).1, ?_⟩
  unfold marked markAtEngine
  split
  · rw [markTick_fields]
    exact ⟨rfl, rfl, rfl, rfl, rfl, rfl, rfl, rfl⟩
  · dsimp only
    split
    · rw [markTick_fields]
      exact ⟨rfl, rfl, rfl, rfl, rfl, rfl, rfl, rfl⟩
    · rw [markTick_fields]
      exact ⟨rfl, rfl, rfl, rfl, rfl, rfl, rfl, rfl⟩

theorem marked_clk (n : Nat) (w : State) :
    (marked n w).clk = ⟨if w.clk.source = .marks then w.clk.count + 1 else w.clk.count, w.clk.source⟩ := by
  rw [(marked_leaves n w).1, markTick_fields]

theorem marked_slot (n : Nat) (w : State) (j : Fin 12) :
    (marked n w).slot j = { w.slot j with span := (w.slot j).span.map (markSpan w.clk) } := by
  rw [(marked_leaves n w).1]
  exact markTick_slot w j

theorem RequestEnded.marked (h : RequestEnded s w i st) (n : Nat) : RequestEnded s (marked n w) i st := by
  have hp := marked_passes (n := n) (passes_of_idle h.engine.1)
  refine ⟨?_, fun hg => ?_, ?_, ?_, ?_, ?_⟩
  · rw [marked_slot]
    exact h.posted
  · rw [marked_slot, h.result hg]
    rfl
  · rw [hp, markTick_fields]
    exact h.queue
  · rw [hp, markTick_fields]
    exact h.fence
  · rw [hp, markTick_fields]
    exact h.engine
  · rw [hp, markTick_fields]
    exact h.gates

/-! ### The target's own mark -/

theorem protectHolds_iff : protectHolds sl s = true ↔ sl.isKind Kind.diskWrite = true ∧
    (s.eng.protectSeen ≠ none ∨ (sl.platter = some .C ∧ s.drv.inp.writeProtect = true)) := by
  simp [protectHolds, Option.isSome_iff_ne_none, or_comm]

theorem marked_opens (hi : engineSlot w = some i) (hp : w.eng.phase = .rotating)
    (hn : ((w.slot i).start.getD 0 + w.eng.m) % 16 = n)
    (hb : (w.slot i).isKind Kind.diskRead = true ∨ (w.eng.buf w.eng.m).state = .full) :
    (marked n w).eng.phase = .inSector ∧ (marked n w).drv.readGate = true ∧ (marked n w).eng.headerOk = false ∧
      (marked n w).eng.sector = some ((w.slot i).platter.getD .C, (w.slot i).start.getD 0 + w.eng.m) ∧
      (marked n w).eng.heldOff = protectHolds (w.slot i) w ∧
      (marked n w).eng.protectSeen =
        (if protectHolds (w.slot i) w then some (w.eng.protectSeen.getD w.eng.m) else w.eng.protectSeen) := by
  have hti : engineSlot (markTick w) = some i :=
    (engineSlot_at (by rw [markTick_fields]) (by rw [markTick_slot]) (by rw [markTick_slot])).mpr hi
  have ho : marked n w = openTarget ((markTick w).slot i) (markTick w) := by
    unfold marked markAtEngine
    rw [hti]
    refine if_pos ⟨?_, ?_, ?_⟩
    · rw [markTick_fields]; exact hp
    · rw [markTick_slot, markTick_fields]; exact hn
    · rw [markTick_slot, markTick_fields]; exact hb
  rw [ho, markTick_slot, markTick_fields]
  exact ⟨rfl, rfl, rfl, rfl, rfl, rfl⟩

/-! ### A sound header that names the sector (R5) -/

theorem headOf_lt (p : Platter) (k : Nat) : headOf p k < 4 := by
  unfold headOf
  cases p <;> split <;> decide

theorem headerGood_iff {p : Platter} {k : Nat} (hs : s.eng.sector = some (p, k)) (hk : k < 12800) (hdr chk : Word) :
    headerGood hdr chk s = true ↔ hdr = 0x8000 ||| sectorWord p k ∧ chk = ~~~hdr := by
  have hh := headOf_lt p k
  have hx := header_toNat (cylOf k) (headOf p k) (secOf k) (by unfold cylOf; omega) hh (by unfold secOf; omega)
  have hlt := hdr.isLt
  have hbit : hdr.getLsbD 15 = true ↔ 32768 ≤ hdr.toNat := by
    rw [BitVec.getLsbD, Nat.testBit_eq_decide_div_mod_eq, decide_eq_true_iff]
    omega
  simp only [headerGood, headerSound, headerMatches, hs, Option.any_some, Bool.and_eq_true, beq_iff_eq, hbit,
    field_toNat, decide_eq_true_iff]
  have heq : hdr = 0x8000 ||| sectorWord p k ↔ hdr.toNat = 32768 + cylOf k * 64 + headOf p k * 16 + secOf k := by
    rw [← hx, BitVec.toNat_inj]
    rfl
  have hc : cylOf k < 400 := by unfold cylOf; omega
  have hsec : secOf k < 16 := by unfold secOf; omega
  rw [heq]
  constructor
  · rintro ⟨⟨⟨h1, h2⟩, -⟩, ⟨h3, h4⟩, h5⟩
    exact ⟨by omega, h2⟩
  · rintro ⟨h1, h2⟩
    exact ⟨⟨⟨by omega, h2⟩, by omega⟩, ⟨by omega, by omega⟩, by omega⟩

/-! ### The clauses of O52 -/

/-- Every mark is recorded, and the clock counts it while the source is MARKS (R9). -/
theorem mark_recorded (n : BitVec 4) (s : State) : (markArrives n s.begun).drv.mark = n ∧
    (markArrives n s.begun).drv.wordTime = 0 ∧ (markArrives n s.begun).clk =
      ⟨if s.clk.source = .marks then s.clk.count + 1 else s.clk.count, s.clk.source⟩ := by
  obtain ⟨hclk, -, hdrv, -⟩ := earlyMark_leaves (recordMark n s.begun)
  obtain ⟨-, -, -, -, -, -, -, hm, hw⟩ := marked_leaves n.toNat (earlyMark (recordMark n s.begun))
  refine ⟨hm.trans (by rw [hdrv]; rfl), hw.trans (by rw [hdrv]; rfl), ?_⟩
  refine (marked_clk n.toNat (earlyMark (recordMark n s.begun))).trans ?_
  rw [hclk]
  rfl

/-- A mark with no sector open. -/
theorem mark_closed {n : BitVec 4} (h1 : s.eng.phase ≠ .inSector) (h2 : s.eng.phase ≠ .finishing) :
    markArrives n s.begun = marked n.toNat (recordMark n s.begun) := by
  show marked n.toNat (earlyMark (recordMark n s.begun)) = _
  rw [earlyMark_of_closed (s := recordMark n s.begun) h1 h2]

theorem sectorsOpen_closed (n : BitVec 4) (s : State) (h1 : s.eng.phase ≠ .inSector) (h2 : s.eng.phase ≠ .finishing) :
    ∃ u, exec (.sectorMark n) s = .next (settle s u) ∧ u.drv.mark = n ∧ u.drv.wordTime = 0 ∧
      u.clk = ⟨if s.clk.source = .marks then s.clk.count + 1 else s.clk.count, s.clk.source⟩ ∧ u.out = [] ∧
      u.tap = s.tap ∧ u.intake = s.intake ∧ u.pres = s.pres ∧ u.post = s.post ∧ u.counter = s.counter ∧
      u.eng.target = s.eng.target ∧ u.eng.buf0 = s.eng.buf0 ∧ u.eng.buf1 = s.eng.buf1 ∧ u.drv.writeGate = s.drv.writeGate ∧
      (∀ i k, engineSlot s = some i → s.eng.phase = .rotating → k = (s.slot i).start.getD 0 + s.eng.m → k % 16 = n.toNat →
        (s.slot i).isKind Kind.diskRead = true ∨ (s.eng.buf s.eng.m).state = .full →
        u.eng.phase = .inSector ∧ u.drv.readGate = true ∧ u.eng.headerOk = false ∧
          u.eng.sector = some ((s.slot i).platter.getD .C, k) ∧
          ((s.slot i).isKind Kind.diskWrite = true →
              s.eng.protectSeen ≠ none ∨ ((s.slot i).platter = some .C ∧ s.drv.inp.writeProtect = true) →
            u.eng.heldOff = true ∧ u.eng.protectSeen = some (s.eng.protectSeen.getD s.eng.m)) ∧
          ((s.slot i).isKind Kind.diskWrite = false ∨
              s.eng.protectSeen = none ∧ ((s.slot i).platter ≠ some .C ∨ s.drv.inp.writeProtect = false) →
            u.eng.heldOff = false ∧ u.eng.protectSeen = s.eng.protectSeen)) ∧
      (engineSlot s = none ∨ s.eng.phase ≠ .rotating ∨
          (∃ i, engineSlot s = some i ∧ (((s.slot i).start.getD 0 + s.eng.m) % 16 ≠ n.toNat ∨
            ((s.slot i).isKind Kind.diskRead = false ∧ (s.eng.buf s.eng.m).state ≠ .full))) →
        u.eng.phase = s.eng.phase ∧ u.drv.readGate = s.drv.readGate ∧ u.eng.sector = s.eng.sector) := by
  obtain ⟨hm, hw, hk⟩ := mark_recorded n s
  have hu := mark_closed (n := n) h1 h2
  obtain ⟨hr, ht, -, -, hb0, hb1, hg, -, -⟩ := marked_leaves n.toNat (recordMark n s.begun)
  rw [markTick_fields, ← hu] at hr
  rw [← hu] at ht hb0 hb1 hg
  refine ⟨_, exec_sectorMark n s, hm, hw, hk, by rw [hr]; rfl, by rw [hr]; rfl, by rw [hr]; rfl, by rw [hr]; rfl,
    by rw [hr]; rfl, by rw [hr]; rfl, ht, hb0, hb1, hg, ?_, fun hc => ?_⟩
  · rintro i k hi hp rfl hn hb
    obtain ⟨g1, g2, g3, g4, g5, g6⟩ := marked_opens (n := n.toNat) (w := recordMark n s.begun) hi hp hn hb
    rw [← hu] at g1 g2 g3 g4 g5 g6
    refine ⟨g1, g2, g3, g4, fun hd hpr => ?_, fun hpr => ?_⟩
    · have hold : protectHolds (s.slot i) (recordMark n s.begun) = true := protectHolds_iff.mpr ⟨hd, hpr⟩
      rw [show (recordMark n s.begun).slot i = s.slot i from rfl, hold] at g5 g6
      exact ⟨g5, g6⟩
    · have hold : protectHolds (s.slot i) (recordMark n s.begun) = false := by
        refine Bool.eq_false_iff.mpr fun h => ?_
        obtain ⟨hd, hpr'⟩ := protectHolds_iff.mp h
        rcases hpr with hpr | ⟨hn, hpr⟩
        · rw [hpr] at hd; cases hd
        · rcases hpr' with hpr' | ⟨ha, hb⟩
          · exact hpr' hn
          · rcases hpr with hpr | hpr
            · exact hpr ha
            · exact Bool.false_ne_true (hpr.symm.trans hb)
      rw [show (recordMark n s.begun).slot i = s.slot i from rfl, hold] at g5 g6
      exact ⟨g5, g6⟩
  · have hp : Passes n.toNat (recordMark n s.begun) := by
      intro i hi hrot hsec
      rcases hc with hc | hc | ⟨j, hj, hc⟩
      · exact absurd ((show engineSlot s = some i from hi).symm.trans hc) (by simp)
      · exact absurd hrot hc
      · obtain rfl := Option.some.inj ((show engineSlot s = some i from hi).symm.trans hj)
        rcases hc with hc | hc
        · exact absurd hsec hc
        · exact hc
    rw [hu, marked_passes hp, markTick_fields]
    exact ⟨rfl, rfl, rfl⟩

end Sys2Proof.Machine
end

section
/-! An early mark (O52): it comes while a sector is open, and ends it. -/

namespace Sys2Proof.Machine

variable {s t u v w : State} {i : Fin 12} {sl : Slot} {st : Status} {n : BitVec 4} {m a : Nat}

theorem earlyMark_header (hi : engineSlot s = some i) (hp : s.eng.phase = .inSector) (hk : s.eng.headerOk = false) :
    earlyMark s = headerFail s := by
  unfold earlyMark
  rw [hp, hi, hk]
  rfl

theorem earlyMark_written (hi : engineSlot s = some i) (hp : s.eng.phase = .inSector) (hk : s.eng.headerOk = true)
    (hd : (s.slot i).isKind Kind.diskWrite = true) :
    earlyMark s = sectorWritten i s.drv.writeGate (dropWriteGate s) := by
  unfold earlyMark
  rw [hp, hi, hk]
  exact if_pos hd

theorem earlyMark_data (hi : engineSlot s = some i) (hp : s.eng.phase = .inSector) (hk : s.eng.headerOk = true)
    (hd : (s.slot i).isKind Kind.diskWrite = false) : earlyMark s = dataFail s := by
  unfold earlyMark
  rw [hp, hi, hk]
  exact if_neg (by exact hd ▸ Bool.false_ne_true)

/-- A mark passes an engine whose target has another number. -/
theorem passes_of_sector {k : Nat} (hw : EngineWorks i v w) (hs : (w.slot i).start = sl.start)
    (ht : w.eng.m = m) (hn : k ≠ (sl.start.getD 0 + m) % 16) : Passes k w := by
  intro j hj _ hm
  obtain rfl := hw.engineSlot hj
  rw [hs, ht] at hm
  exact absurd hm.symm hn

theorem dropWriteGate_leaves (s : State) : dropWriteGate s = { s with
    drv := { s.drv with writeGate := false }, out := (dropWriteGate s).out } := by
  unfold dropWriteGate
  split
  · rfl
  next h => rw [← Bool.eq_false_iff.mpr h]

theorem dropWriteGate_cuts {p : Platter} {k : Nat} (hg : s.drv.writeGate = true) (hq : s.eng.sector = some (p, k)) :
    (dropWriteGate s).out = s.out ++ [.sectorCut p k] := by
  rw [dropWriteGate, if_pos hg, hq]
  rfl

theorem dropWriteGate_closed (hg : s.drv.writeGate = false) : (dropWriteGate s).out = s.out := by
  rw [dropWriteGate, if_neg (by rw [hg]; simp)]

/-- The mark recorded and the outputs gone, the engine's work is the same. -/
theorem recordMark_same (n : BitVec 4) (s : State) : SameWork s (recordMark n s.begun) :=
  ⟨⟨rfl, fun _ => rfl, rfl, rfl, rfl, rfl⟩, ⟨rfl, rfl, rfl⟩, fun _ => rfl, rfl, rfl, rfl⟩

/-- An early mark before the header: the first mismatch. -/
theorem earlyMark_first (hi : engineSlot s = some i) (hp : s.eng.phase = .inSector) (hk : s.eng.headerOk = false)
    (hm : s.eng.mismatches = 0) : (markArrives n s.begun).drv.readGate = false ∧
      (markArrives n s.begun).drv.move = some .recalibrate ∧ (markArrives n s.begun).out = [.recalibrate] ∧
      (markArrives n s.begun).eng.phase = .recalWait ∧ (markArrives n s.begun).eng.mismatches = 1 ∧
      (markArrives n s.begun).eng.moveTo = ((s.slot i).start.getD 0 + s.eng.m) / 32 ∧
      (markArrives n s.begun).eng.seekRetry = true ∧
      (markArrives n s.begun).eng.span = some ⟨s.clk.count + 256, false⟩ ∧ (markArrives n s.begun).eng.sector = none := by
  have hu : markArrives n s.begun = marked n.toNat (headerFail (recordMark n s.begun)) :=
    congrArg (marked n.toNat) (earlyMark_header (s := recordMark n s.begun) hi hp hk)
  rw [headerFail_first (v := recordMark n s.begun) hi hm] at hu
  rw [hu, marked_passes (passes_of_phase (by simp)), markTick_fields]
  exact ⟨rfl, rfl, rfl, rfl, rfl, rfl, rfl, congrArg some (markSpan_later (k := s.clk) (by decide)), rfl⟩

theorem earlyMark_second (hi : engineSlot s = some i) (hp : s.eng.phase = .inSector) (hk : s.eng.headerOk = false)
    (hm : s.eng.mismatches ≠ 0) (hg : s.eng.anyGood = false) :
    RequestEnded s (markArrives n s.begun) i .headerMismatch := by
  have hu : markArrives n s.begun = marked n.toNat (headerFail (recordMark n s.begun)) :=
    congrArg (marked n.toNat) (earlyMark_header (s := recordMark n s.begun) hi hp hk)
  rw [hu]
  exact ((recordMark_same n s).ended (headerFail_ends (v := recordMark n s.begun) hi hm hg)).marked n.toNat

/-- An early mark over a write's sector. -/
theorem earlyMark_write (hi : engineSlot s = some i) (hsl : sl = s.slot i) (hme : m = s.eng.m)
    (ha : a = sl.start.getD 0 + m) (hp : s.eng.phase = .inSector) (hk : s.eng.headerOk = true)
    (hd : sl.isKind Kind.diskWrite = true) (he : s.eng.ending = none) : ∃ u, u = markArrives n s.begun ∧
      u.drv.writeGate = false ∧
        (∀ p k, s.drv.writeGate = true → s.eng.sector = some (p, k) → ∃ more, u.out = .sectorCut p k :: more) ∧
        (m + 1 < sl.sectors → u.eng.target = some (m + 1) ∧
          u.eng.written = (if s.drv.writeGate then s.eng.written + 1 else s.eng.written) ∧
          (a % 32 = 31 → u.eng.phase = .seeking) ∧
          (a % 32 ≠ 31 → n.toNat ≠ (a + 1) % 16 → u.eng.phase = .rotating ∧ u.drv.readGate = false)) ∧
        (sl.sectors ≤ m + 1 → (s.eng.buf (m + 1)).state ≠ .good → (u.slot i).state = .posting ∧
          (u.slot i).instant = s.clk.count ∧
          (u.slot i).status = some (if s.eng.protectSeen.isSome then .writeProtected else .ok)) := by
  subst hsl hme ha
  have hv := dropWriteGate_leaves (recordMark n s.begun)
  have hvo : ∀ p k, s.drv.writeGate = true → s.eng.sector = some (p, k) →
      (dropWriteGate (recordMark n s.begun)).out = [.sectorCut p k] :=
    fun p k hg hq => dropWriteGate_cuts (s := recordMark n s.begun) hg hq
  have hu : markArrives n s.begun =
      marked n.toNat (sectorWritten i s.drv.writeGate (dropWriteGate (recordMark n s.begun))) :=
    congrArg (marked n.toNat) (earlyMark_written (s := recordMark n s.begun) hi hp hk hd)
  generalize dropWriteGate (recordMark n s.begun) = v at hv hvo hu
  have hve : v.eng = s.eng := by rw [hv]; rfl
  have hvs : v.slot i = s.slot i := by rw [hv]; rfl
  have hvi : engineSlot v = some i := by rw [hv]; exact hi
  have hvk : v.clk = s.clk := by rw [hv]; rfl
  have hven : v.eng.ending = none := by rw [hve]; exact he
  obtain ⟨hr, ht, hwr, -, -, -, hg, -, -⟩ := marked_leaves n.toNat (sectorWritten i s.drv.writeGate v)
  refine ⟨_, hu.symm, hg.trans (sectorWritten_gates hvi hven _).1, fun p k hgt hq => ?_, fun hm => ?_, fun hm hb => ?_⟩
  · obtain ⟨more, hmore⟩ := sectorWritten_grows (i := i) hven s.drv.writeGate
    refine ⟨more, ?_⟩
    rw [hr, markTick_fields]
    exact hmore.trans (by rw [hvo p k hgt hq]; rfl)
  · obtain ⟨⟨g1, -, -, g4, g5, g6⟩, -, hws, hww, -⟩ :=
      sectorWritten_next (i := i) hven (by rw [hve, hvs]; exact hm) s.drv.writeGate
    rw [hvs, hve] at g5 g6
    rw [hve] at g1 hww
    refine ⟨ht.trans g1, hwr.trans hww, fun h31 => ?_, fun h31 hn => ?_⟩
    · obtain ⟨hps, -⟩ := g6 h31
      rw [marked_passes (passes_of_phase (by rw [hps]; simp)), markTick_fields]
      exact hps
    · obtain ⟨hps, -⟩ := g5 h31
      have hp := passes_of_sector (k := n.toNat) (w := sectorWritten i s.drv.writeGate v) (sl := s.slot i)
        (m := s.eng.m + 1) (sectorWritten_works (EngineWorks.refl hvi) i _)
        (by rw [show (sectorWritten i s.drv.writeGate v).slot i = v.slot i from congrArg (·[i]) hws, hvs])
        (congrArg (Option.getD · 0) g1) hn
      rw [marked_passes hp, markTick_fields]
      exact ⟨hps, g4⟩
  · obtain ⟨t, ho, -, -⟩ := sectorWritten_last hvi hven (by rw [hve, hvs]; exact hm) (by rw [hve]; exact hb) s.drv.writeGate
    obtain ⟨h1, h2, h3, -, -⟩ := ho.told
    rw [marked_slot]
    exact ⟨h1, h3.trans (by rw [hvk]), h2.trans (by rw [hve])⟩

/-- An early mark over the data of a read or CHECK: a reread. -/
theorem earlyMark_reread (hi : engineSlot s = some i) (hsl : sl = s.slot i) (hme : m = s.eng.m)
    (ha : a = sl.start.getD 0 + m) (hp : s.eng.phase = .inSector) (hk : s.eng.headerOk = true)
    (hd : sl.isKind Kind.diskWrite = false) (hr : s.eng.recalibrated = false) (hn : s.eng.rereads < 3) :
    ∃ u, u = markArrives n s.begun ∧ u.eng.rereads = s.eng.rereads + 1 ∧ u.eng.target = s.eng.target ∧ u.out = [] ∧
      (n.toNat ≠ a % 16 → u.eng.phase = .rotating ∧ u.drv.readGate = false) := by
  subst hsl hme ha
  have hu : markArrives n s.begun = marked n.toNat (dataFail (recordMark n s.begun)) :=
    congrArg (marked n.toNat) (earlyMark_data (s := recordMark n s.begun) hi hp hk hd)
  have hw := dataFail_works (EngineWorks.refl (show engineSlot (recordMark n s.begun) = some i from hi))
  have hf := dataFail_again (v := recordMark n s.begun) hi hr hn
  obtain ⟨-, f1, -, f3, f4⟩ := failedState_engine i (recordMark n s.begun)
  have fs := failedState_slot i (recordMark n s.begun)
  have fe := failedState_eq i (recordMark n s.begun)
  generalize failedState i (recordMark n s.begun) = v at hf f1 f3 f4 fs fe
  obtain ⟨hl, ht, -, hrr, -, -, -, -, -⟩ := marked_leaves n.toNat (dataFail (recordMark n s.begun))
  refine ⟨_, hu.symm, hrr.trans ?_, ht.trans ?_, ?_, fun hn => ?_⟩
  · rw [hf]; exact congrArg (· + 1) f1
  · rw [hf]; exact f3
  · rw [hl, markTick_fields, hf]
    exact congrArg State.out fe
  · have hpass := passes_of_sector (k := n.toNat) (sl := s.slot i) (m := s.eng.m) hw
      (by
        rw [hf]
        show (v.slot i).start = _
        rw [fs]
        unfold Slot.reread
        split <;> rfl)
      (by rw [hf]; exact f4) hn
    rw [marked_passes hpass, markTick_fields, hf]
    refine ⟨rfl, ?_⟩
    show v.drv.readGate = false
    rw [fe]

/-- An early mark over the data of a read or CHECK after three rereads: a recalibrate. -/
theorem earlyMark_recal (hi : engineSlot s = some i) (hsl : sl = s.slot i) (hme : m = s.eng.m)
    (ha : a = sl.start.getD 0 + m) (hp : s.eng.phase = .inSector) (hk : s.eng.headerOk = true)
    (hd : sl.isKind Kind.diskWrite = false) (hr : s.eng.recalibrated = false) (hn : 3 ≤ s.eng.rereads) :
    ∃ u, u = markArrives n s.begun ∧ u.eng.phase = .recalWait ∧ u.eng.recalibrated = true ∧
      u.out = [.recalibrate] ∧ u.eng.moveTo = a / 32 ∧ u.drv.readGate = false := by
  subst hsl hme ha
  have hu : markArrives n s.begun = marked n.toNat (dataFail (recordMark n s.begun)) :=
    congrArg (marked n.toNat) (earlyMark_data (s := recordMark n s.begun) hi hp hk hd)
  have fe := failedState_eq i (recordMark n s.begun)
  refine ⟨_, hu.symm, ?_⟩
  rw [dataFail_recals (v := recordMark n s.begun) hi hr hn, marked_passes (passes_of_phase (by exact Phase.noConfusion)),
    markTick_fields]
  generalize failedState i (recordMark n s.begun) = v at fe
  refine ⟨rfl, rfl, ?_, rfl, ?_⟩
  · show v.out ++ [.recalibrate] = _
    rw [fe]
    rfl
  · show v.drv.readGate = false
    rw [fe]

/-- An early mark over the data of a read or CHECK after the recalibrate, with nothing left to drain. -/
theorem earlyMark_fails (hi : engineSlot s = some i) (hp : s.eng.phase = .inSector) (hk : s.eng.headerOk = true)
    (hd : (s.slot i).isKind Kind.diskWrite = false) (hr : s.eng.recalibrated = true)
    (h1 : (s.eng.buf (s.eng.m + 1)).state ≠ .good) (h0 : (s.eng.buf s.eng.m).state ≠ .good) :
    ∃ u, u = markArrives n s.begun ∧ (u.slot i).state = .posting ∧ (u.slot i).status = some .dataCheck ∧
      (u.slot i).instant = s.clk.count := by
  have hu : markArrives n s.begun = marked n.toNat (dataFail (recordMark n s.begun)) :=
    congrArg (marked n.toNat) (earlyMark_data (s := recordMark n s.begun) hi hp hk hd)
  obtain ⟨t1, t2, t3, -, -⟩ := (dataFail_ends (v := recordMark n s.begun) hi hr h0 h1).told
  refine ⟨_, hu.symm, ?_⟩
  rw [marked_slot]
  exact ⟨t1, t2, t3⟩

end Sys2Proof.Machine
end

section
/-! The header's judgement and the data's start (O52), with a mark that finds the engine finishing. -/

namespace Sys2Proof.Machine

variable {s t u v w : State} {i : Fin 12} {sl : Slot} {st : Status} {n : BitVec 4} {m a c k : Nat} {p : Platter}
  {hdr chk : Word}

/-! ### FINISHING -/

theorem mark_finishing (hp : s.eng.phase = .finishing) :
    ∃ u, exec (.sectorMark n) s = .next (settle s u) ∧ u.drv.mark = n ∧ u.eng.work = none ∧ u.eng.phase = .idle ∧
      u.drv.readGate = false ∧ u.drv.writeGate = false ∧ (s.drv.writeGate = false → u.out = []) ∧
      (∀ p k, s.drv.writeGate = true → s.eng.sector = some (p, k) → u.out = [.sectorCut p k]) := by
  have hu : markArrives n s.begun = marked n.toNat (stopFinishing (recordMark n s.begun)) := by
    refine congrArg (marked n.toNat) ?_
    unfold earlyMark
    rw [show (recordMark n s.begun).eng.phase = .finishing from hp]
  refine ⟨_, exec_sectorMark n s, (mark_recorded n s).1, ?_⟩
  rw [hu, marked_passes (passes_of_phase (by exact Phase.noConfusion)), markTick_fields]
  refine ⟨rfl, rfl, rfl, rfl, fun hg => ?_, fun p k hg hq => ?_⟩
  · exact dropWriteGate_closed (s := recordMark n s.begun) hg
  · exact dropWriteGate_cuts (s := recordMark n s.begun) hg hq

/-! ### The header -/

theorem exec_headerJudged (hdr chk : Word) (s : State) :
    exec (.headerJudged hdr chk) s = .next (settle s (judgeHeader hdr chk (atWordTime 27 s.begun))) := rfl

theorem judgeHeader_good (hi : engineSlot s = some i) (hp : s.eng.phase = .inSector) (hk : s.eng.headerOk = false)
    (hg : headerGood hdr chk s = true) : judgeHeader hdr chk s =
      if (s.slot i).isKind Kind.diskWrite then headerMatchedWrite (s.slot i) s
      else s.modEng (fun e => { e with headerOk := true }) := by
  unfold judgeHeader
  rw [hk, hp, hi]
  dsimp only
  rw [hg]
  rfl

theorem judgeHeader_bad (hi : engineSlot s = some i) (hp : s.eng.phase = .inSector) (hk : s.eng.headerOk = false)
    (hg : ¬ headerGood hdr chk s = true) : judgeHeader hdr chk s = headerFail s := by
  unfold judgeHeader
  rw [hk, hp, hi]
  dsimp only
  rw [Bool.eq_false_iff.mpr hg]
  rfl

theorem judgeHeader_finishing (hp : s.eng.phase = .finishing) (hk : s.eng.headerOk = false) :
    judgeHeader hdr chk s = headerFinishing (headerGood hdr chk s) s := by
  unfold judgeHeader
  rw [hk, hp]
  rfl

theorem mayWrite_iff : mayWrite s = true ↔ s.drv.inp.onCylinder = true ∧ s.drv.inp.fault = false ∧
    (s.drv.inp.writeProtect = false ∨ 2 ≤ s.drv.headSel) := by
  simp [mayWrite, and_assoc, Nat.succ_le_iff]

theorem headerMatchedWrite_held (hd : sl.isKind Kind.diskWrite = true) (hh : s.eng.heldOff = true ∨
    s.eng.protectSeen ≠ none ∨ (sl.platter = some .C ∧ s.drv.inp.writeProtect = true)) :
    headerMatchedWrite sl s = { s with
      eng := { s.eng with
        headerOk := true, heldOff := true, protectSeen := some (s.eng.protectSeen.getD s.eng.m) }
      drv := { s.drv with readGate := false } } := by
  have hold : (s.eng.heldOff || protectHolds sl s) = true := by
    rcases hh with hh | hh
    · rw [hh]; rfl
    · rw [protectHolds_iff.mpr ⟨hd, hh⟩, Bool.or_true]
  unfold headerMatchedWrite
  rw [hold]
  rfl

theorem headerMatchedWrite_writes (h1 : s.eng.heldOff = false) (h2 : s.eng.protectSeen = none)
    (h3 : sl.platter ≠ some .C ∨ s.drv.inp.writeProtect = false) (hw : mayWrite s = true) :
    headerMatchedWrite sl s = { s with
      eng := { s.eng with headerOk := true }, drv := { s.drv with readGate := false, writeGate := true } } := by
  have hold : protectHolds sl s = false := by
    refine Bool.eq_false_iff.mpr fun h => ?_
    obtain ⟨-, h | ⟨h, h'⟩⟩ := protectHolds_iff.mp h
    · exact h h2
    · rcases h3 with h3 | h3
      · exact h3 h
      · exact Bool.false_ne_true (h3.symm.trans h')
  unfold headerMatchedWrite
  rw [h1, hold]
  refine (if_pos (show mayWrite s = true from hw)).trans ?_
  show ({ s with eng := { s.eng with headerOk := true, heldOff := false }, drv := _ } : State) = _
  rw [← h1]
  rfl

theorem headerMatchedWrite_leaves (sl : Slot) (s : State) : (headerMatchedWrite sl s).slots = s.slots ∧
    (headerMatchedWrite sl s).tap = s.tap ∧ (headerMatchedWrite sl s).out = s.out ∧
    (headerMatchedWrite sl s).eng.buf0 = s.eng.buf0 ∧ (headerMatchedWrite sl s).eng.buf1 = s.eng.buf1 ∧
    (headerMatchedWrite sl s).eng.target = s.eng.target := by
  unfold headerMatchedWrite
  dsimp only
  split
  · exact ⟨rfl, rfl, rfl, rfl, rfl, rfl⟩
  · split <;> exact ⟨rfl, rfl, rfl, rfl, rfl, rfl⟩

theorem anyGood_eq (e : Engine) : e.anyGood = true ↔ e.buf0.state = .good ∨ e.buf1.state = .good := by
  simp [Engine.anyGood]

/-- A header of the engine's own request. -/
theorem header_judged (hi : engineSlot s = some i) (hsl : sl = s.slot i) (hp : s.eng.phase = .inSector)
    (hk : s.eng.headerOk = false) (hq : s.eng.sector = some (p, k)) (hkl : k < 12800)
    (hc : c = (sl.start.getD 0 + s.eng.m) / 32) :
    ∃ u, exec (.headerJudged hdr chk) s = .next (settle s u) ∧
      (hdr = 0x8000 ||| sectorWord p k → chk = ~~~hdr →
        u.slots = s.slots ∧ u.tap = s.tap ∧ u.out = [] ∧ u.eng.buf0 = s.eng.buf0 ∧ u.eng.buf1 = s.eng.buf1 ∧
        u.eng.target = s.eng.target ∧
        (sl.isKind Kind.diskWrite = false → u.eng = { s.eng with headerOk := true } ∧
          u.drv = { s.drv with wordTime := 27 }) ∧
        (sl.isKind Kind.diskWrite = true →
          (s.eng.heldOff = true ∨ s.eng.protectSeen ≠ none ∨ (sl.platter = some .C ∧ s.drv.inp.writeProtect = true) →
            u.eng.phase = .inSector ∧ u.eng.headerOk = true ∧ u.eng.heldOff = true ∧
              u.eng.protectSeen = some (s.eng.protectSeen.getD s.eng.m) ∧
              u.drv = { s.drv with wordTime := 27, readGate := false }) ∧
          (s.eng.heldOff = false → s.eng.protectSeen = none → sl.platter ≠ some .C ∨ s.drv.inp.writeProtect = false →
            s.drv.inp.onCylinder = true → s.drv.inp.fault = false → s.drv.inp.writeProtect = false ∨ 2 ≤ s.drv.headSel →
            u.eng.phase = .inSector ∧ u.eng.headerOk = true ∧ u.eng.protectSeen = none ∧
              u.drv = { s.drv with wordTime := 27, readGate := false, writeGate := true }))) ∧
      (¬ (hdr = 0x8000 ||| sectorWord p k ∧ chk = ~~~hdr) →
        (s.eng.mismatches = 0 → u.slots = s.slots ∧ u.tap = s.tap ∧ u.out = [.recalibrate] ∧ u.drv.readGate = false ∧
          u.drv.move = some .recalibrate ∧
          u.eng = { s.eng with
            mismatches := 1, sector := none, headerOk := false, heldOff := false, phase := .recalWait, moveTo := c
            seekRetry := true, span := some ⟨s.clk.count + 256, false⟩ }) ∧
        (s.eng.mismatches ≠ 0 → s.eng.buf0.state ≠ .good → s.eng.buf1.state ≠ .good → s.drv.writeGate = false →
          RequestEnded s u i .headerMismatch) ∧
        (s.eng.mismatches ≠ 0 → s.eng.buf0.state = .good ∨ s.eng.buf1.state = .good →
          u.slots = s.slots ∧ u.tap = s.tap ∧ u.out = [] ∧ u.drv.readGate = false ∧ u.eng.phase = .draining ∧
            u.eng.span = none ∧ u.eng.ending = some ⟨.headerMismatch, s.clk.count, true⟩)) := by
  subst hsl hc
  refine ⟨_, exec_headerJudged hdr chk s, fun h1 h2 => ?_, fun hbad => ?_⟩
  · have hg : headerGood hdr chk (atWordTime 27 s.begun) = true := (headerGood_iff (by exact hq) hkl hdr chk).mpr ⟨h1, h2⟩
    have hj := judgeHeader_good (s := atWordTime 27 s.begun) hi hp hk hg
    rw [hj, show (atWordTime 27 s.begun).slot i = s.slot i from rfl]
    cases hd : (s.slot i).isKind Kind.diskWrite with
    | false =>
      exact ⟨rfl, rfl, rfl, rfl, rfl, rfl, fun _ => ⟨rfl, rfl⟩, fun h => (by cases h)⟩
    | true =>
      obtain ⟨l1, l2, l3, l4, l5, l6⟩ := headerMatchedWrite_leaves (s.slot i) (atWordTime 27 s.begun)
      refine ⟨l1, l2, l3, l4, l5, l6, fun h => (by cases h), fun _ => ⟨fun hh => ?_, fun g1 g2 g3 g4 g5 g6 => ?_⟩⟩
      · rw [if_pos rfl, headerMatchedWrite_held (s := atWordTime 27 s.begun) hd hh]
        exact ⟨hp, rfl, rfl, rfl, rfl⟩
      · rw [if_pos rfl, headerMatchedWrite_writes (s := atWordTime 27 s.begun) g1 g2 g3 (mayWrite_iff.mpr ⟨g4, g5, g6⟩)]
        exact ⟨hp, rfl, g2, rfl⟩
  · have hg : ¬ headerGood hdr chk (atWordTime 27 s.begun) = true :=
      fun h => hbad ((headerGood_iff (by exact hq) hkl hdr chk).mp h)
    rw [judgeHeader_bad (s := atWordTime 27 s.begun) hi hp hk hg]
    refine ⟨fun hm => ?_, fun hm h0 h1 _ => ?_, fun hm h => ?_⟩
    · rw [headerFail_first (v := atWordTime 27 s.begun) hi hm]
      exact ⟨rfl, rfl, rfl, rfl, rfl, rfl⟩
    · have hb : s.eng.anyGood = false := Bool.eq_false_iff.mpr fun h => by
        rcases (anyGood_eq _).mp h with h | h
        · exact h0 h
        · exact h1 h
      have hsame : SameWork s (atWordTime 27 s.begun) :=
        ⟨⟨rfl, fun _ => rfl, rfl, rfl, rfl, rfl⟩, ⟨rfl, rfl, rfl⟩, fun _ => rfl, rfl, rfl, rfl⟩
      exact hsame.ended (headerFail_ends (v := atWordTime 27 s.begun) hi hm hb)
    · rw [headerFail_drains (v := atWordTime 27 s.begun) hi hm ((anyGood_eq _).mpr h)]
      exact ⟨rfl, rfl, rfl, rfl, rfl, rfl, rfl⟩

theorem headerFinishing_stops (hw : s.drv.writeGate = false) : headerFinishing false s = { s with
    eng := Engine.cleared s.eng.abandoned, drv := { s.drv with readGate := false } } := by
  show clearEngine (dropWriteGate s) = _
  have hs : dropWriteGate s = s := if_neg (by rw [hw]; simp)
  rw [hs]
  show ({ s with eng := _, drv := { s.drv with readGate := false, writeGate := false } } : State) = _
  rw [← hw]
  rfl

theorem headerFinishing_holds (h : s.eng.heldOff = true ∨ s.drv.inp.onCylinder = false ∨ s.drv.inp.fault = true ∨
    (s.drv.inp.writeProtect = true ∧ s.drv.headSel < 2)) : headerFinishing true s = { s with
      eng := { s.eng with headerOk := true }, drv := { s.drv with readGate := false } } := by
  unfold headerFinishing
  rw [if_pos rfl]
  refine if_neg fun hc => ?_
  obtain ⟨h1, h2⟩ := Bool.and_eq_true_iff.mp hc
  obtain ⟨g1, g2, g3⟩ := mayWrite_iff.mp h2
  rcases h with h | h | h | ⟨h, h'⟩
  · exact Bool.false_ne_true ((congrArg not h).symm.trans h1)
  · exact Bool.false_ne_true (h.symm.trans g1)
  · exact Bool.false_ne_true (g2.symm.trans h)
  · rcases g3 with g3 | g3
    · exact Bool.false_ne_true (g3.symm.trans h)
    · exact absurd g3 (by exact Nat.not_le.mpr h')

theorem headerFinishing_writes (h : s.eng.heldOff = false) (hw : mayWrite s = true) : headerFinishing true s = { s with
    eng := { s.eng with headerOk := true }, drv := { s.drv with readGate := false, writeGate := true } } := by
  unfold headerFinishing
  rw [if_pos rfl]
  refine if_pos ?_
  exact Bool.and_eq_true_iff.mpr ⟨by exact h ▸ rfl, hw⟩

/-! ### The data's start (R120) -/

theorem data_starts (hi : engineSlot s = some i) (hsl : sl = s.slot i) (hm : m = s.eng.m)
    (hp : s.eng.phase = .inSector) (hk : s.eng.headerOk = true) (hd : sl.isKind Kind.diskRead = true) :
    ((s.eng.buf m).state = .empty → exec .sectorDataStart s = .next (settle s
      { s with eng := s.eng.setBuf m ⟨.receiving, m, 0, []⟩, drv := { s.drv with wordTime := 40 }, out := [] })) ∧
    ((s.eng.buf m).state ≠ .empty → exec .sectorDataStart s = .next (settle s
      { s with
        eng := { s.eng with phase := .rotating, sector := none, headerOk := false, heldOff := false }
        drv := { s.drv with
          wordTime := 40, readGate := false, headSel := headOf (sl.platter.getD .C) (sl.start.getD 0 + m) }
        out := [] })) := by
  subst hsl hm
  have hs : dataStart (atWordTime 40 s.begun) = if (s.eng.buf s.eng.m).state = .empty
      then (atWordTime 40 s.begun).modEng (fun e => e.setBuf e.m ⟨.receiving, e.m, 0, []⟩)
      else rotate (s.slot i) ((atWordTime 40 s.begun).modDrv (fun d => { d with readGate := false })) := by
    unfold dataStart
    rw [show engineSlot (atWordTime 40 s.begun) = some i from hi]
    exact if_pos ⟨hp, hk, hd⟩
  have he : exec .sectorDataStart s = .next (settle s (dataStart (atWordTime 40 s.begun))) := rfl
  refine ⟨fun hb => ?_, fun hb => ?_⟩
  · rw [he, hs, if_pos hb]
    rfl
  · rw [he, hs, if_neg hb]
    rfl

/-- A header judged in FINISHING (R128). -/
theorem header_finishing (hp : s.eng.phase = .finishing) (hk : s.eng.headerOk = false)
    (hq : s.eng.sector = some (p, k)) (hkl : k < 12800) (hw : s.drv.writeGate = false) :
    (¬ (hdr = 0x8000 ||| sectorWord p k ∧ chk = ~~~hdr) → exec (.headerJudged hdr chk) s = .next (settle s
      { s with
        eng := Engine.cleared s.eng.abandoned
        drv := { s.drv with wordTime := 27, readGate := false }
        out := [] })) ∧
    (hdr = 0x8000 ||| sectorWord p k → chk = ~~~hdr →
      (s.eng.heldOff = true ∨ s.drv.inp.onCylinder = false ∨ s.drv.inp.fault = true ∨
          (s.drv.inp.writeProtect = true ∧ s.drv.headSel < 2) →
        exec (.headerJudged hdr chk) s = .next (settle s
          { s with
            eng := { s.eng with headerOk := true }
            drv := { s.drv with wordTime := 27, readGate := false }
            out := [] })) ∧
      (s.eng.heldOff = false → s.drv.inp.onCylinder = true → s.drv.inp.fault = false →
          s.drv.inp.writeProtect = false ∨ 2 ≤ s.drv.headSel →
        exec (.headerJudged hdr chk) s = .next (settle s
          { s with
            eng := { s.eng with headerOk := true }
            drv := { s.drv with wordTime := 27, readGate := false, writeGate := true }
            out := [] }))) := by
  have hg := headerGood_iff (s := atWordTime 27 s.begun) (by exact hq) hkl hdr chk
  rw [exec_headerJudged, judgeHeader_finishing (s := atWordTime 27 s.begun) hp hk]
  refine ⟨fun hbad => ?_, fun h1 h2 => ?_⟩
  · rw [Bool.eq_false_iff.mpr fun h => hbad (hg.mp h), headerFinishing_stops (s := atWordTime 27 s.begun) hw]
    rfl
  · rw [hg.mpr ⟨h1, h2⟩]
    refine ⟨fun h => ?_, fun g1 g2 g3 g4 => ?_⟩
    · rw [headerFinishing_holds (s := atWordTime 27 s.begun) h]
      rfl
    · rw [headerFinishing_writes (s := atWordTime 27 s.begun) g1 (mayWrite_iff.mpr ⟨g2, g3, g4⟩)]
      rfl

theorem notDiskWrite (h : sl.kind = some .read ∨ sl.kind = some .contRead ∨ sl.kind = some .check) :
    sl.isKind Kind.diskWrite = false := by
  rcases h with h | h | h <;> simp [Slot.isKind, h, Kind.diskWrite]

/-- Settles O52. -/
theorem sectorsOpen : Obligations.SectorsOpen := by
  unfold Obligations.SectorsOpen
  refine ⟨sectorsOpen_closed, fun n i sl m a s hi hsl hm ha hp => ?_, fun n s hp => mark_finishing hp,
    fun hdr chk i sl p k c s hi hsl hp hk hq hkl hc => header_judged hi hsl hp hk hq hkl hc,
    fun hdr chk p k s hp hk hq hkl hw => header_finishing hp hk hq hkl hw,
    fun i sl m s hi hsl hm hp hk hd => data_starts hi hsl hm hp hk hd⟩
  obtain ⟨r1, r2, r3⟩ := mark_recorded n s
  have hw := earlyMark_works (EngineWorks.refl (show engineSlot (recordMark n s.begun) = some i from hi))
  have hr := (marked_leaves n.toNat (earlyMark (recordMark n s.begun))).1
  rw [markTick_fields] at hr
  refine ⟨_, exec_sectorMark n s, r1, r2, r3, (congrArg State.intake hr).trans (by rw [hw.rest]; rfl),
    (congrArg State.pres hr).trans (by rw [hw.rest]; rfl), (congrArg State.counter hr).trans (by rw [hw.rest]; rfl),
    fun hk h0 => ?_, fun hk h0 hg _ => earlyMark_second hi hp hk h0 hg,
    fun hk hd he => ?_, fun hk hd => ⟨fun h1 h2 => ?_, fun h1 h2 => ?_, fun h1 h2 h3 => ?_⟩⟩
  · have h := earlyMark_first (n := n) hi hp hk h0
    rw [ha, hsl, hm]
    exact h
  · obtain ⟨u, rfl, h⟩ := earlyMark_write (n := n) hi hsl hm ha hp hk hd he
    exact h
  · obtain ⟨u, rfl, h⟩ := earlyMark_reread (n := n) hi hsl hm ha hp hk (notDiskWrite hd) h1 h2
    exact h
  · obtain ⟨u, rfl, h⟩ := earlyMark_recal (n := n) hi hsl hm ha hp hk (notDiskWrite hd) h1 h2
    exact h
  · subst hsl hm
    obtain ⟨u, rfl, h⟩ := earlyMark_fails (n := n) hi hp hk (notDiskWrite hd) h1 h2 h3
    exact h

end Sys2Proof.Machine
end

section
/-! The end of a sector (O53). -/

namespace Sys2Proof.Machine

variable {s t u v w : State} {i : Fin 12} {sl : Slot} {st : Status} {m k : Nat} {p : Platter}
  {data : List Word} {chk : Option Word}

theorem exec_sectorEnd (data : List Word) (chk : Option Word) (s : State) :
    exec (.sectorEnd data chk) s = .next (settle s (sectorOver data chk (atWordTime 296 s.begun))) := rfl

theorem readsGood_iff : readsGood data chk = true ↔ data.length = 256 ∧ chk = some (dataCheck data) := by
  simp [readsGood]

/-! ### The sector put out -/

theorem sentSector_open {ws : List Word} (hg : s.drv.writeGate = true) (hq : s.eng.sector = some (p, k))
    (hws : ws = zeroFilled (s.eng.buf s.eng.m).words) :
    sentSector s = [.sectorSent p k ((List.finRange 12).map Config.gapSync) ws (dataCheck ws)] := by
  rw [sentSector, if_pos hg, hq, hws]
  rfl

theorem sentSector_closed (hg : s.drv.writeGate = false) : sentSector s = [] := if_neg (by exact hg ▸ Bool.false_ne_true)

theorem sectorOver_finishing (hp : s.eng.phase = .finishing) (hk : s.eng.headerOk = true) :
    sectorOver data chk s = clearEngine { s with out := s.out ++ sentSector s } := by
  unfold sectorOver
  rw [hk, hp]
  rfl

theorem finishing_sends (hp : s.eng.phase = .finishing) (hk : s.eng.headerOk = true) (hw : s.drv.writeGate = true)
    (hq : s.eng.sector = some (p, k)) : ∃ gap ws, gap.length = 12 ∧
      ws = (s.eng.buf s.eng.m).words ++ List.replicate (256 - (s.eng.buf s.eng.m).words.length) 0 ∧
      exec (.sectorEnd data chk) s = .next (settle s
        { s with
          eng := Engine.cleared s.eng.abandoned
          drv := { s.drv with wordTime := 296, readGate := false, writeGate := false }
          out := [.sectorSent p k gap ws (dataCheck ws)] }) := by
  refine ⟨(List.finRange 12).map Config.gapSync, _, by simp, rfl, ?_⟩
  rw [exec_sectorEnd, sectorOver_finishing (s := atWordTime 296 s.begun) hp hk,
    sentSector_open (s := atWordTime 296 s.begun) hw hq rfl]
  rfl

theorem finishing_held (hp : s.eng.phase = .finishing) (hk : s.eng.headerOk = true) (hw : s.drv.writeGate = false) :
    exec (.sectorEnd data chk) s = .next (settle s
      { s with
        eng := Engine.cleared s.eng.abandoned
        drv := { s.drv with wordTime := 296, readGate := false }
        out := [] }) := by
  rw [exec_sectorEnd, sectorOver_finishing (s := atWordTime 296 s.begun) hp hk,
    sentSector_closed (s := atWordTime 296 s.begun) hw]
  show Host.Outcome.next (settle s { s with
    eng := Engine.cleared s.eng.abandoned
    drv := { s.drv with wordTime := 296, readGate := false, writeGate := false }
    out := [] }) = _
  rw [← hw]

/-! ### The branches of the target's sector -/

theorem sectorOver_target (hi : engineSlot s = some i) (hp : s.eng.phase = .inSector) (hk : s.eng.headerOk = true) :
    ((s.slot i).isKind Kind.diskRead = true → (s.eng.buf s.eng.m).state = .receiving →
      sectorOver data chk s = judgeRead i data chk s) ∧
    ((s.slot i).kind = some .check → sectorOver data chk s = judgeCheck i data chk s) ∧
    ((s.slot i).isKind Kind.diskWrite = true → sectorOver data chk s =
      sectorWritten i s.drv.writeGate { s with out := s.out ++ sentSector s }) := by
  unfold sectorOver
  rw [hk, hp, hi]
  refine ⟨fun hd hb => ?_, fun hd => ?_, fun hd => ?_⟩
  · obtain ⟨a, ha, hd⟩ := isKind_iff.mp hd
    cases a with
    | read => simp only [ha, hb]; rfl
    | contRead => simp only [ha, hb]; rfl
    | _ => cases hd
  · simp only [hd]; rfl
  · obtain ⟨a, ha, hd⟩ := isKind_iff.mp hd
    cases a with
    | write => simp only [ha]; rfl
    | contWrite => simp only [ha]; rfl
    | _ => cases hd

/-- The slot once its sector's data read good. -/
def Slot.good (sl : Slot) (n : Nat) : Slot :=
  if n = 0 then sl else { sl with retried := true, rereads := min 15 (sl.rereads + 1) }

theorem dataGood_slot (i : Fin 12) (v : State) : (dataGood i v).slot i = (v.slot i).good v.eng.rereads := by
  rw [dataGood_eq]
  unfold Slot.good
  split
  · rfl
  · exact State.slot_modSlot_same _ _ _

theorem dataGood_leaves (i : Fin 12) (v : State) : dataGood i v =
    { v with slots := (dataGood i v).slots, drv := { v.drv with readGate := false } } := by
  rw [dataGood_eq]
  split <;> rfl

theorem Slot.good_fields (sl : Slot) (n : Nat) : (sl.good n).state = sl.state ∧ (sl.good n).tenure = sl.tenure ∧
    (sl.good n).words = sl.words ∧ (sl.good n).start = sl.start ∧ (sl.good n).platter = sl.platter ∧
    (sl.good n).n = sl.n := by
  unfold Slot.good
  split <;> exact ⟨rfl, rfl, rfl, rfl, rfl, rfl⟩

theorem dataGood_engineSlot (hi : engineSlot v = some i) : engineSlot (dataGood i v) = some i := by
  have hs := dataGood_slot i v
  obtain ⟨h1, h2, -⟩ := (v.slot i).good_fields v.eng.rereads
  exact (engineSlot_at (by rw [dataGood_leaves]) (by rw [hs, h1]) (by rw [hs, h2])).mpr hi

theorem Slot.good_goes {n : Nat} (h : GoesToNext (sl.good n) m s u) : GoesToNext sl m s u := by
  obtain ⟨-, -, -, hs, hp, -⟩ := sl.good_fields n
  unfold GoesToNext at h ⊢
  rw [hs, hp] at h
  exact h

/-! ### A disk read's sector that reads good -/

theorem judgeRead_good (i : Fin 12) (v : State) (hg : readsGood data chk = true) :
    ∃ w, w = judgeRead i data chk v ∧ w.eng.buf v.eng.m = ⟨.good, v.eng.m, 0, data⟩ ∧ w.tap = v.tap ∧
      w.slot i = (v.slot i).good v.eng.rereads ∧
      (v.eng.m + 1 < (v.slot i).sectors → GoesToNext (v.slot i) v.eng.m v w) ∧
      ((v.slot i).sectors ≤ v.eng.m + 1 → w.eng.phase = .draining ∧ w.eng.ending = some ⟨.ok, v.clk.count, true⟩) := by
  have hj : judgeRead i data chk v = finishTarget
      ((dataGood i (v.modEng (fun e => e.setBuf e.m ⟨.good, e.m, 0, data⟩))).slot i)
      .ok (dataGood i (v.modEng (fun e => e.setBuf e.m ⟨.good, e.m, 0, data⟩))) := if_pos hg
  have hs := dataGood_slot i (v.modEng (fun e => e.setBuf e.m ⟨.good, e.m, 0, data⟩))
  have hl := dataGood_leaves i (v.modEng (fun e => e.setBuf e.m ⟨.good, e.m, 0, data⟩))
  obtain ⟨-, -, hr, -, -, -, -, -, hm⟩ := setBuf_fields v.eng v.eng.m ⟨.good, v.eng.m, 0, data⟩
  have hb := buf_setBuf v.eng v.eng.m ⟨.good, v.eng.m, 0, data⟩
  rw [show (v.modEng (fun e => e.setBuf e.m ⟨.good, e.m, 0, data⟩)).slot i = v.slot i from rfl,
    show (v.modEng (fun e => e.setBuf e.m ⟨.good, e.m, 0, data⟩)).eng.rereads = v.eng.rereads from hr] at hs
  generalize dataGood i (v.modEng (fun e => e.setBuf e.m ⟨.good, e.m, 0, data⟩)) = x at hj hs hl
  have hxe : x.eng = v.eng.setBuf v.eng.m ⟨.good, v.eng.m, 0, data⟩ := by rw [hl]; rfl
  have hxm : x.eng.m = v.eng.m := by rw [hxe]; exact hm
  have hxb : x.eng.buf v.eng.m = ⟨.good, v.eng.m, 0, data⟩ := by rw [hxe]; exact hb
  have hsec : (x.slot i).sectors = (v.slot i).sectors := by
    rw [hs]
    exact congrArg (Option.getD · 0) ((v.slot i).good_fields v.eng.rereads).2.2.2.2.2
  have hxg : x.eng.anyGood = true := by rw [anyGood_of _ v.eng.m, hxb]; rfl
  rw [hj]
  by_cases hn : v.eng.m + 1 < (v.slot i).sectors
  · rw [finishTarget_goes (by rw [hxm, hsec]; exact hn)]
    obtain ⟨ns, nt, -, n0, n1, -, -⟩ := nextTarget_leaves (x.slot i) x
    refine ⟨_, rfl, (buf_of n0 n1 _).trans hxb, nt.trans (by rw [hl]; rfl), ?_, fun _ => ?_, fun h => absurd hn (by omega)⟩
    · exact (congrArg (·[i]) ns).trans hs
    · have hgo := nextTarget_goes (sl := x.slot i) (v := x) (s := v) (by rw [hl]) (by rw [hl]; rfl)
      rw [hxm, hs] at hgo
      rw [hs]
      exact Slot.good_goes hgo
  · rw [finishTarget_draining (by rw [hxm, hsec]; omega) hxg]
    refine ⟨_, rfl, hxb, by rw [hl]; rfl, hs, fun h => absurd h hn, fun _ => ⟨rfl, ?_⟩⟩
    show some _ = _
    rw [hl]
    rfl

/-! ### A sector of a read or CHECK whose data fails -/

theorem dataFail_goes (hi : engineSlot v = some i) (hr : v.eng.recalibrated = false) :
    ∃ w, w = dataFail v ∧ w.eng.target = v.eng.target ∧ w.drv.readGate = false ∧ w.tap = v.tap ∧
      w.slot i = (v.slot i).reread v.eng.rereads ∧
      (v.eng.rereads < 3 → w.eng.phase = .rotating ∧ w.eng.rereads = v.eng.rereads + 1 ∧ w.out = v.out) ∧
      (3 ≤ v.eng.rereads → w.eng.phase = .recalWait ∧ w.eng.recalibrated = true ∧ w.out = v.out ++ [.recalibrate] ∧
        w.eng.moveTo = ((v.slot i).start.getD 0 + v.eng.m) / 32 ∧ w.eng.seekRetry = true ∧
        w.eng.span = some ⟨v.clk.count + 256, false⟩) := by
  obtain ⟨-, f1, -, f3, -⟩ := failedState_engine i v
  have fs := failedState_slot i v
  have fe := failedState_eq i v
  by_cases hn : v.eng.rereads < 3
  · have hf := dataFail_again hi hr hn
    generalize failedState i v = x at f1 f3 fs fe hf
    rw [hf]
    refine ⟨_, rfl, f3, ?_, ?_, fs, fun _ => ⟨rfl, congrArg (· + 1) f1, ?_⟩, fun h => absurd hn (by omega)⟩
    · show x.drv.readGate = false
      rw [fe]
    · show x.tap = v.tap
      rw [fe]
    · show x.out = v.out
      rw [fe]
  · have hf := dataFail_recals hi hr (Nat.le_of_not_lt hn)
    generalize failedState i v = x at f1 f3 fs fe hf
    rw [hf]
    refine ⟨_, rfl, f3, ?_, ?_, fs, fun h => absurd h hn, fun _ => ⟨rfl, rfl, ?_, rfl, rfl, ?_⟩⟩
    · show x.drv.readGate = false
      rw [fe]
    · show x.tap = v.tap
      rw [fe]
    · show x.out ++ [.recalibrate] = v.out ++ [.recalibrate]
      rw [fe]
    · show some (spanFrom x.clk.count 256) = _
      rw [fe]
      rfl

/-! ### A CHECK's sector that reads good -/

/-- A CHECK's sector compared with no difference, before the engine goes on. -/
def comparedState (i : Fin 12) (v : State) : State :=
  (dataGood i v).modEng (fun e => e.refill v.eng.m (v.slot i).sectors)

theorem comparedState_fields (i : Fin 12) (v : State) :
    (comparedState i v).tap = v.tap ∧ (comparedState i v).clk = v.clk ∧ (comparedState i v).drv.readGate = false ∧
      (comparedState i v).eng.work = v.eng.work ∧ (comparedState i v).eng.m = v.eng.m ∧
      (comparedState i v).eng.buf v.eng.m =
        (if v.eng.m + 2 < (v.slot i).sectors then ⟨.filling, v.eng.m + 2, 0, []⟩ else ⟨.empty, 0, 0, []⟩) ∧
      (comparedState i v).eng.buf (v.eng.m + 1) = v.eng.buf (v.eng.m + 1) := by
  have hl := dataGood_leaves i v
  unfold comparedState
  generalize dataGood i v = x at hl
  rw [hl]
  obtain ⟨hw, -, hm, -, -, -, -⟩ := refill_fields v.eng v.eng.m (v.slot i).sectors
  exact ⟨rfl, rfl, rfl, hw, hm, refill_buf _ _ _, refill_next _ _ _⟩

theorem comparedState_engineSlot (hi : engineSlot v = some i) : engineSlot (comparedState i v) = some i := by
  obtain ⟨-, -, -, hw, -⟩ := comparedState_fields i v
  obtain ⟨h1, h2, -⟩ := (v.slot i).good_fields v.eng.rereads
  have hs : (comparedState i v).slot i = (v.slot i).good v.eng.rereads := dataGood_slot i v
  exact (engineSlot_at hw (by rw [hs, h1]) (by rw [hs, h2])).mpr hi

theorem judgeCheck_same (hi : engineSlot v = some i) (hg : readsGood data chk = true)
    (hd : firstDifference data (v.eng.buf v.eng.m).words ((v.slot i).wordsAt v.eng.m) = none) :
    ∃ w, w = judgeCheck i data chk v ∧
      (v.eng.m + 1 < (v.slot i).sectors → GoesToNext (v.slot i) v.eng.m v w ∧ w.tap = v.tap ∧ w.eng.buf v.eng.m =
        if v.eng.m + 2 < (v.slot i).sectors then ⟨.filling, v.eng.m + 2, 0, []⟩ else ⟨.empty, 0, 0, []⟩) ∧
      ((v.slot i).sectors ≤ v.eng.m + 1 → (v.eng.buf (v.eng.m + 1)).state ≠ .good →
        (w.slot i).state = .posting ∧ (w.slot i).status = some .ok ∧ (w.slot i).instant = v.clk.count) := by
  have hj : judgeCheck i data chk v = finishTarget (v.slot i) .ok (comparedState i v) := by
    unfold judgeCheck
    rw [if_pos hg]
    dsimp only
    rw [show (dataGood i v).eng = v.eng by rw [dataGood_leaves], hd]
    rfl
  obtain ⟨ft, fk, fr, -, fm, fb, fn⟩ := comparedState_fields i v
  refine ⟨_, rfl, fun hn => ?_, fun hn hng => ?_⟩
  · rw [hj, finishTarget_goes (by rw [fm]; exact hn)]
    obtain ⟨-, nt, -, n0, n1, -, -⟩ := nextTarget_leaves (v.slot i) (comparedState i v)
    have hgo := nextTarget_goes (sl := v.slot i) (v := comparedState i v) (s := v) fr (by rw [fk])
    rw [fm] at hgo
    exact ⟨hgo, nt.trans ft, (buf_of n0 n1 _).trans fb⟩
  · have hany : (comparedState i v).eng.anyGood = false := by
      rw [anyGood_of _ v.eng.m, fb, fn]
      split <;> simp [hng]
    have ho := finishTarget_last (sl := v.slot i) (st := .ok) (comparedState_engineSlot hi) (by rw [fm]; exact hn) hany
    obtain ⟨t1, t2, t3, -, -⟩ := ho.told
    rw [hj]
    exact ⟨t1, t2, t3.trans (by rw [fk])⟩

/-- A word that differs ends a CHECK (R122). -/
theorem judgeCheck_differs (hi : engineSlot v = some i) (hg : readsGood data chk = true)
    (hk : (v.slot i).kind = some .check)
    (hd : firstDifference data (v.eng.buf v.eng.m).words ((v.slot i).wordsAt v.eng.m) = some k)
    (h0 : (v.eng.buf v.eng.m).state ≠ .good) (h1 : (v.eng.buf (v.eng.m + 1)).state ≠ .good) :
    ∃ w, w = judgeCheck i data chk v ∧ (w.slot i).state = .posting ∧ (w.slot i).status = some .compareFailed ∧
      (w.slot i).residual =
        BitVec.ofNat 16 (recCount (v.slot i).words - ((v.slot i).wordsBefore v.eng.m + k)) := by
  have hl := dataGood_leaves i v
  have hxi := dataGood_engineSlot hi
  have hs := dataGood_slot i v
  have hj : judgeCheck i data chk v =
      found .compareFailed ((dataGood i v).modEng (fun e => { e with firstDiff := some k })) := by
    unfold judgeCheck
    rw [if_pos hg]
    dsimp only
    rw [show (dataGood i v).eng = v.eng by rw [hl], hd]
  generalize dataGood i v = x at hl hxi hs hj
  have hxe : x.eng = v.eng := by rw [hl]
  have hany : (x.modEng (fun e => { e with firstDiff := some k })).eng.anyGood = false := by
    show x.eng.anyGood = false
    rw [hxe, anyGood_of _ v.eng.m]
    simp [h0, h1]
  have ho := found_over .compareFailed (x.modEng (fun e => { e with firstDiff := some k })) i hxi hany
  obtain ⟨t1, t2, -, -, t5⟩ := ho.told
  obtain ⟨-, -, hw, -, -, hn⟩ := (v.slot i).good_fields v.eng.rereads
  rw [hj]
  refine ⟨_, rfl, t1, t2, t5.trans ?_⟩
  show residualOf _ (x.slot i) = _
  rw [hs, residualOf_check (by unfold Slot.kind; rw [hw]; exact hk), hw]
  show BitVec.ofNat 16 (_ - (((v.slot i).good v.eng.rereads).wordsBefore x.eng.m + k)) = _
  rw [hxe]
  unfold Slot.wordsBefore Slot.sectors
  rw [hw, hn]

/-! ### A write's sector -/

/-- The state in which a write's sector is over: what was sent is put out. -/
def sentState (s : State) : State := { s with out := s.out ++ sentSector s }

theorem sectorEnd_write (hi : engineSlot s = some i) (hp : s.eng.phase = .inSector) (hk : s.eng.headerOk = true)
    (hd : (s.slot i).isKind Kind.diskWrite = true) (he : s.eng.ending = none) :
    ∃ u, u = sectorOver data chk (atWordTime 296 s.begun) ∧ u.drv.writeGate = false ∧ u.drv.readGate = false ∧
      (∀ p k ws, s.drv.writeGate = true → s.eng.sector = some (p, k) →
        ws = (s.eng.buf s.eng.m).words ++ List.replicate (256 - (s.eng.buf s.eng.m).words.length) 0 →
        ∃ gap more, gap.length = 12 ∧ u.out = .sectorSent p k gap ws (dataCheck ws) :: more) ∧
      (s.eng.m + 1 < (s.slot i).sectors → GoesToNext (s.slot i) s.eng.m s u ∧ u.tap = s.tap ∧ u.slot i = s.slot i ∧
        u.eng.written = (if s.drv.writeGate then s.eng.written + 1 else s.eng.written) ∧
        u.eng.buf s.eng.m =
          if s.eng.m + 2 < (s.slot i).sectors then ⟨.filling, s.eng.m + 2, 0, []⟩ else ⟨.empty, 0, 0, []⟩) ∧
      ((s.slot i).sectors ≤ s.eng.m + 1 → (s.eng.buf (s.eng.m + 1)).state ≠ .good →
        (u.slot i).state = .posting ∧ (u.slot i).instant = s.clk.count ∧
        (u.slot i).status = some (if s.eng.protectSeen.isSome then .writeProtected else .ok) ∧
        (u.slot i).residual = BitVec.ofNat 16 (recCount (s.slot i).words -
          (s.slot i).wordsBefore (if s.drv.writeGate then s.eng.written + 1 else s.eng.written))) := by
  have hu : sectorOver data chk (atWordTime 296 s.begun) =
      sectorWritten i s.drv.writeGate (sentState (atWordTime 296 s.begun)) :=
    (sectorOver_target (s := atWordTime 296 s.begun) hi hp hk).2.2 hd
  refine ⟨_, rfl, ?_⟩
  rw [hu]
  have hvi : engineSlot (sentState (atWordTime 296 s.begun)) = some i := hi
  have hve : (sentState (atWordTime 296 s.begun)).eng.ending = none := he
  obtain ⟨g1, g2⟩ := sectorWritten_gates hvi hve s.drv.writeGate
  refine ⟨g1, g2, fun p k ws hg hq hws => ?_, fun hm => ?_, fun hm hb => ?_⟩
  · obtain ⟨more, hmore⟩ := sectorWritten_grows (i := i) hve s.drv.writeGate
    refine ⟨(List.finRange 12).map Config.gapSync, more, by simp, hmore.trans ?_⟩
    show ([] ++ sentSector (atWordTime 296 s.begun)) ++ more = _
    rw [sentSector_open (s := atWordTime 296 s.begun) hg hq hws]
    rfl
  · obtain ⟨h1, h2, h3, h4, h5, -⟩ :=
      sectorWritten_next (i := i) (v := sentState (atWordTime 296 s.begun)) hve hm s.drv.writeGate
    exact ⟨h1, h2, congrArg (·[i]) h3, h4, h5⟩
  · obtain ⟨t, ho, hts, htw⟩ := sectorWritten_last hvi hve hm hb s.drv.writeGate
    obtain ⟨t1, t2, t3, -, t5⟩ := ho.told
    refine ⟨t1, t3, t2, ?_⟩
    rw [t5, hts, show (sentState (atWordTime 296 s.begun)).slot i = s.slot i from rfl, residualOf_diskWrite hd, htw]
    rfl

/-- The transfer kinds but the writes are the disk reads and CHECK. -/
theorem readOrCheck {a : Kind} (ha : sl.kind = some a) (ht : a.transfers = true)
    (hd : sl.isKind Kind.diskWrite = false) : sl.isKind Kind.diskRead = true ∨ sl.kind = some .check := by
  cases a with
  | read => exact .inl (by simp [Slot.isKind, ha, Kind.diskRead])
  | contRead => exact .inl (by simp [Slot.isKind, ha, Kind.diskRead])
  | check => exact .inr ha
  | write => simp [Slot.isKind, ha, Kind.diskWrite] at hd
  | contWrite => simp [Slot.isKind, ha, Kind.diskWrite] at hd
  | _ => cases ht

/-- Settles O53. -/
theorem sectorsEnd : Obligations.SectorsEnd := by
  unfold Obligations.SectorsEnd
  refine ⟨fun data chk p k s hp hk hw hq => finishing_sends hp hk hw hq,
    fun data chk s hp hk hw => finishing_held hp hk hw,
    fun i sl m data chk s hi hsl hm hp hk hrcv htr he => ?_⟩
  subst hsl hm
  have hw := sectorOver_works (data := data) (chk := chk)
    (EngineWorks.refl (show engineSlot (atWordTime 296 s.begun) = some i from hi))
  obtain ⟨hread, hcheck, -⟩ := sectorOver_target (data := data) (chk := chk) (s := atWordTime 296 s.begun) hi hp hk
  refine ⟨_, exec_sectorEnd data chk s, by rw [hw.rest]; rfl, by rw [hw.rest]; rfl, by rw [hw.rest]; rfl,
    by rw [hw.rest]; rfl, by rw [hw.rest]; rfl, hw.sel, hw.others, fun hd h1 h2 => ?_, fun hd hbad => ?_,
    fun hd h1 h2 hsame => ?_, fun k hd h1 h2 hlt hne hmin h0 hb => ?_, fun hd => ?_⟩
  · obtain ⟨w, hj, j1, j2, j3, j4, j5⟩ := judgeRead_good i (atWordTime 296 s.begun) (readsGood_iff.mpr ⟨h1, h2⟩)
    rw [hread hd (hrcv hd), ← hj]
    refine ⟨j1, j2, fun h => j3.trans (if_pos h), fun h => j3.trans (if_neg h), fun h => j4 h, j5⟩
  · have hfail : sectorOver data chk (atWordTime 296 s.begun) = dataFail (atWordTime 296 s.begun) := by
      have hng : ¬ readsGood data chk = true := fun h => hbad (readsGood_iff.mp h)
      obtain ⟨a, ha, hta⟩ := isKind_iff.mp htr
      rcases readOrCheck ha hta hd with hd' | hd'
      · exact (hread hd' (hrcv hd')).trans (if_neg hng)
      · exact (hcheck hd').trans (if_neg hng)
    rw [hfail]
    refine ⟨fun hr => ?_, fun hr hb h0 => ?_⟩
    · obtain ⟨w, hj, j1, j2, j3, j4, j5, j6⟩ := dataFail_goes (v := atWordTime 296 s.begun) hi hr
      rw [← hj]
      exact ⟨j1, j2, j3, fun h => j4.trans (if_pos h), fun h => j4.trans (if_neg h), j5, j6⟩
    · have ho := dataFail_ends (v := atWordTime 296 s.begun) hi hr h0 hb
      obtain ⟨t1, t2, t3, -, -⟩ := ho.told
      refine ⟨t1, t2, t3, ?_, by rw [ho.engine]; rfl⟩
      have hside : ((failedState i (atWordTime 296 s.begun)).slot i).side = (s.slot i).side := by
        rw [failedState_slot]
        unfold Slot.reread
        split <;> rfl
      rw [← hside]
      exact ho.fence
  · obtain ⟨w, hj, j1, j2⟩ := judgeCheck_same (v := atWordTime 296 s.begun) hi (readsGood_iff.mpr ⟨h1, h2⟩)
      (firstDifference_none.mpr hsame)
    rw [hcheck hd, ← hj]
    exact ⟨j1, j2⟩
  · obtain ⟨w, hj, j1⟩ := judgeCheck_differs (v := atWordTime 296 s.begun) hi (readsGood_iff.mpr ⟨h1, h2⟩) hd
      (firstDifference_some hlt hne hmin) h0 hb
    rw [hcheck hd, ← hj]
    exact j1
  · obtain ⟨u, rfl, h⟩ := sectorEnd_write (data := data) (chk := chk) hi hp hk hd he
    exact h

end Sys2Proof.Machine
end

section
/-! Entries of the drive controller seen from the command's state, and the events that make the drive FAULTED (O56). -/

namespace Sys2Proof.Machine

variable {s t u : State} {i : Fin 12} {f : DriveInputs} {k : Clock} {cause : Nat} {e : Word}

/-! ### An event told -/

/-- The state in which the controller is told an event: its inputs are `f`, the slot clock is `k`, and the outputs of
the command before are gone. -/
def told (f : DriveInputs) (k : Clock) (s : State) : State := { s with clk := k, drv := { s.drv with inp := f }, out := [] }

theorem told_same (hk : k.count = s.clk.count) : SameWork s (told f k s) :=
  ⟨⟨rfl, fun _ => rfl, rfl, rfl, rfl, rfl⟩, ⟨rfl, rfl, rfl⟩, fun _ => rfl, rfl, hk, rfl⟩

theorem told_frame (f : DriveInputs) (k : Clock) (s : State) : DriveFrame s (told f k s) :=
  ⟨⟨rfl, rfl, rfl, rfl⟩, fun _ => rfl, ⟨rfl, rfl, rfl, rfl, rfl⟩, fun _ _ _ => rfl⟩

/-- An entry to FAULTED seen from an earlier state with the same work and presenters. -/
theorem FaultEntry.of_same (hs : SameWork s t) (hf : DriveFrame s t) (hp : t.pres = s.pres)
    (hl : ∀ y, t.live y = s.live y) (h : FaultEntry t u cause) : FaultEntry s u cause where
  state := h.state
  notices y := by rw [h.notices y, hl, hp]
  request i ha := hs.ended (h.request i (hs.atWork ha))
  abandoned := h.abandoned
  frame := hf.trans h.frame

/-- An entry to another state seen so. -/
theorem StateEntry.of_same {st : DriveState} {sp : Option Span} {o : List Output} (hs : SameWork s t)
    (hf : DriveFrame s t) (he : t.eng = s.eng) (h : StateEntry t u st sp o) : StateEntry s u st sp o where
  state := h.state
  out := h.out
  request hr i ha hk := hs.ended (h.request hr i (hs.atWork ha) (by rw [hs.result.slot i]; exact hk))
  restore i ha hk := by
    obtain ⟨h1, h2⟩ := h.restore i (hs.atWork ha) (by rw [hs.result.slot i]; exact hk)
    rw [he] at h1 h2
    rw [hs.result.slot i] at h2
    exact ⟨fun hr hst => hs.ended (h1 hr hst), fun hr => ⟨fun hst => hs.ended ((h2 hr).1 hst), (h2 hr).2⟩⟩
  abandoned := h.abandoned
  frame := hf.trans h.frame

theorem FaultEntry.told (hk : k.count = s.clk.count) (h : FaultEntry (told f k s) u cause) : FaultEntry s u cause :=
  h.of_same (told_same hk) (told_frame f k s) rfl (fun _ => rfl)

theorem StateEntry.told {st : DriveState} {sp : Option Span} {o : List Output} (hk : k.count = s.clk.count)
    (h : StateEntry (told f k s) u st sp o) : StateEntry s u st sp o :=
  h.of_same (told_same hk) (told_frame f k s) rfl

/-! ### FAULTED -/

theorem enterFaulted_clk (c : Nat) (s : State) : (enterFaulted c s).clk = s.clk := by
  rw [(enterFaulted_moves (.refl s) c).rest]

theorem enterFaulted_inp (c : Nat) (s : State) : (enterFaulted c s).drv.inp = s.drv.inp := by
  obtain ⟨r, w, h⟩ := enterFaulted_drv c s
  rw [h]

theorem faultRose_entry (h : s.drv.state = .spinningUp ∨ s.drv.state = .recalibrating ∨ s.drv.state = .ready ∨
    s.drv.state = .parked) : faultRose s = enterFaulted 4 s := by
  unfold faultRose
  rcases h with h | h | h | h <;> rw [h]

theorem fault_rise (h : s.drv.inp.fault = false) (ho : s.drv.openPending = false)
    (hst : s.drv.state = .spinningUp ∨ s.drv.state = .recalibrating ∨ s.drv.state = .ready ∨ s.drv.state = .parked) :
    exec .faultRise s = .next (settle s (enterFaulted 4 (told { s.drv.inp with fault := true } s.clk s))) := by
  have hev : InputEvent s .faultRise .faultRise { s.drv.inp with fault := true } s.clk :=
    .inl ⟨rfl, .inr <| .inr <| .inr <| .inr <| .inr <| .inr <| .inl ⟨rfl, rfl, h, rfl⟩⟩
  rw [exec_driveEvent hev ho]
  have hr := faultRose_entry (s := told { s.drv.inp with fault := true } s.clk s) hst
  have hs := (enterFaulted_entry 4 (told { s.drv.inp with fault := true } s.clk s)).state.1
  show Host.Outcome.next (settle s (reconcileDrive (faultRose (told { s.drv.inp with fault := true } s.clk s)))) = _
  rw [hr, reconcileDrive_other (by rw [hs]; simp) (by rw [hs]; simp) (by rw [hs]; simp)]

/-- The timeout of an abandoned movement (R115). -/
theorem abandoned_span {m : Movement} (ha : s.eng.abandoned = some (m, ⟨e, true⟩)) :
    ∃ u, exec .abandonedMovementSpanEnd s = .next (settle s u) ∧ FaultEntry s u m.cause ∧ u.clk = s.clk ∧
      u.drv.inp = { s.drv.inp with
        fault := s.drv.inp.fault || decide (Instr.abandonedMovementSpanEnd = Instr.faultRise) } ∧
      (s.drv.writeGate = false → u.out = []) := by
  have he : exec .abandonedMovementSpanEnd s =
      .next (settle s (enterFaulted m.cause (s.begun.modEng (fun e => { e with abandoned := none })))) := by
    refine (runIf_true (by simp [abandonedSpanEnded, ha, spanReached])).trans ?_
    unfold abandonedTimedOut
    rw [show s.begun.eng.abandoned = _ from ha]
  have hs : SameWork s (s.begun.modEng (fun e => { e with abandoned := none })) :=
    ⟨⟨rfl, fun _ => rfl, rfl, rfl, rfl, rfl⟩, ⟨rfl, rfl, rfl⟩, fun _ => rfl, rfl, rfl, rfl⟩
  have hf : DriveFrame s (s.begun.modEng (fun e => { e with abandoned := none })) :=
    ⟨⟨rfl, rfl, rfl, rfl⟩, fun _ => rfl, ⟨rfl, rfl, rfl, rfl, rfl⟩, fun _ _ _ => rfl⟩
  refine ⟨_, he, (enterFaulted_entry m.cause _).of_same hs hf rfl (fun _ => rfl), enterFaulted_clk _ _, ?_,
    fun hg => enterFaulted_out m.cause (s := s.begun.modEng (fun e => { e with abandoned := none })) hg⟩
  rw [enterFaulted_inp, decide_eq_false (by simp), Bool.or_false]
  rfl

/-- Settles O56. -/
theorem faultsAreEntered : Obligations.FaultsAreEntered := by
  unfold Obligations.FaultsAreEntered
  intro c cause e s h
  have hown : c ≠ .faultRise → exec c s = .next (settle s (enterFaulted cause s.begun)) →
      ∃ u, exec c s = .next (settle s u) ∧ FaultEntry s u cause ∧ u.clk = s.clk ∧
      u.drv.inp = { s.drv.inp with fault := s.drv.inp.fault || decide (c = .faultRise) } ∧
      (s.drv.writeGate = false → u.out = []) := fun hc he => by
    refine ⟨_, he, FaultEntry.told rfl (f := s.drv.inp) (k := s.clk) (enterFaulted_entry cause s.begun),
      enterFaulted_clk _ _, ?_, fun hg => (enterFaulted_out cause (s := s.begun) hg)⟩
    rw [enterFaulted_inp, decide_eq_false hc, Bool.or_false]
    rfl
  rcases h with ⟨rfl, rfl, hf, ho, hst⟩ | ⟨rfl, rfl, hp, hsp, hr⟩ | ⟨rfl, rfl, hsp, hp⟩ | ⟨rfl, rfl, m, ha⟩ |
    ⟨rfl, rfl, ha⟩ | ⟨rfl, rfl, hst, hsp⟩ | ⟨rfl, rfl, hst, hsp⟩ | ⟨rfl, rfl, hst, hr, hsp⟩
  · refine ⟨_, fault_rise hf ho hst, FaultEntry.told rfl (enterFaulted_entry _ _), enterFaulted_clk _ _, ?_,
      fun hg => enterFaulted_out 4 (s := told _ s.clk s) hg⟩
    rw [enterFaulted_inp, hf]
    rfl
  · exact hown (by simp) ((runIf_true (by simp [seekSpanEnded, hp, hsp, spanReached])).trans
      (congrArg _ (congrArg _ (if_pos hr))))
  · exact hown (by simp) (runIf_true (by rcases hp with hp | ⟨hp, hq⟩ <;> simp_all [recalSpanEnded, spanReached]))
  · exact abandoned_span ha
  · exact abandoned_span ha
  · exact hown (by simp) (runIf_true (by simp [stateSpanEnded, hst, hsp, spanReached]))
  · exact hown (by simp) (runIf_true (by simp [stateSpanEnded, hst, hsp, spanReached]))
  · exact hown (by simp) (runIf_true (by simp [faultResetSpanEnded, hst, hsp, hr, spanReached]))

end Sys2Proof.Machine
end

section
/-! The OPEN entry sequence (R163): its steps 2 to 7, and the entry to OPEN before them. -/

namespace Sys2Proof.Machine

variable {s t u v w : State} {i j : Fin 12}

/-! ### Platter C's waiting slots (R76) -/

/-- The slot waits on platter C, so that an OPEN entry posts it with MEDIUM_CHANGED. -/
def Slot.WaitsOnC (sl : Slot) : Prop := (sl.state = .waiting ∨ sl.state = .lockwait) ∧ sl.platter = some .C

theorem mediumChanged_slot (s : State) (i j : Fin 12) :
    (j = i → (s.slot j).WaitsOnC →
      ((mediumChanged s i).slot j).state = .posting ∧ ((mediumChanged s i).slot j).status = some .mediumChanged) ∧
    (¬ (j = i ∧ (s.slot j).WaitsOnC) → (mediumChanged s i).slot j = s.slot j) := by
  unfold mediumChanged
  dsimp only
  by_cases hc : (s.slot i).WaitsOnC
  · rw [if_pos (by exact hc)]
    unfold postNeverActive
    rw [toPosting_slot]
    by_cases hj : j = i
    · rw [if_pos hj]
      exact ⟨fun _ _ => ⟨rfl, rfl⟩, fun h => absurd ⟨hj, hj ▸ hc⟩ h⟩
    · rw [if_neg hj]
      exact ⟨fun h => absurd h hj, fun _ => rfl⟩
  · rw [if_neg (by exact hc)]
    exact ⟨fun h hw => absurd (h ▸ hw) hc, fun _ => rfl⟩

theorem mediumChanged_rest (s : State) (i : Fin 12) : mediumChanged s i = { s with
    slots := (mediumChanged s i).slots, post := { s.post with queue := (mediumChanged s i).post.queue } } := by
  unfold mediumChanged
  dsimp only
  split <;> rfl

theorem mediumChanged_foldl (d : List (Fin 12)) : ∀ s : State,
    d.foldl mediumChanged s = { s with
      slots := (d.foldl mediumChanged s).slots
      post := { s.post with queue := (d.foldl mediumChanged s).post.queue } } ∧
    ∀ j, (j ∈ d → (s.slot j).WaitsOnC → ((d.foldl mediumChanged s).slot j).state = .posting ∧
        ((d.foldl mediumChanged s).slot j).status = some .mediumChanged) ∧
      (¬ (j ∈ d ∧ (s.slot j).WaitsOnC) → (d.foldl mediumChanged s).slot j = s.slot j) := by
  induction d with
  | nil => exact fun s => ⟨rfl, fun j => ⟨fun h => absurd h List.not_mem_nil, fun _ => rfl⟩⟩
  | cons a d ih =>
    intro s
    rw [List.foldl_cons]
    obtain ⟨hr, hs⟩ := ih (mediumChanged s a)
    refine ⟨?_, fun j => ?_⟩
    · have hm := mediumChanged_rest s a
      generalize mediumChanged s a = t at hr hm ⊢
      generalize d.foldl mediumChanged t = u at hr ⊢
      conv_lhs => rw [hr, hm]
    · obtain ⟨h1, h2⟩ := mediumChanged_slot s a j
      obtain ⟨h3, h4⟩ := hs j
      by_cases hw : (s.slot j).WaitsOnC
      · by_cases ha : j = a
        · obtain ⟨p1, p2⟩ := h1 ha hw
          have hstay := h4 (by
            rintro ⟨-, ⟨hw' | hw', -⟩⟩
            · rw [p1] at hw'; cases hw'
            · rw [p1] at hw'; cases hw')
          rw [hstay]
          exact ⟨fun _ _ => ⟨p1, p2⟩, fun h => absurd ⟨ha ▸ List.mem_cons_self, hw⟩ h⟩
        · have hsame := h2 (fun h => ha h.1)
          rw [hsame] at h3 h4
          refine ⟨fun hm hw => h3 ((List.mem_cons.mp hm).resolve_left ha) hw, fun h => h4 fun h' => h ⟨?_, h'.2⟩⟩
          exact List.mem_cons_of_mem _ h'.1
      · have hsame := h2 (fun h => hw h.2)
        rw [hsame] at h4
        exact ⟨fun _ h => absurd h hw, fun _ => h4 (fun h => hw h.2)⟩

/-! ### What the sequence leaves -/

theorem freeLocks_locks {p : Lock → Bool} {k : Fin 8} {l : Lock} (h : (freeLocks p s).locks[k] = some l) :
    s.locks[k] = some l ∧ p l = false := by
  simp only [freeLocks, Fin.getElem_fin, Vector.getElem_map] at h
  split at h
  · cases h
  next hp =>
    rw [h] at hp
    exact ⟨h, by simpa using hp⟩

theorem notify_tap (x : Side) (k : NoticeKind) (p g c : Nat) (s : State) : (notify x k p g c s).tap = s.tap := by
  unfold notify
  split <;> rfl

theorem notifyDrive_tap (c : Nat) (s : State) : (notifyDrive c s).tap = s.tap := by
  unfold notifyDrive
  rw [notify_tap, notify_tap]

/-- Step 2 and 3 of the sequence. -/
def openCounts (s : State) : State :=
  oweCell .B .side (oweCell .A .side (s.modDrv (fun d =>
    { d with generation := d.generation + 1, mounted := .both false, openPending := false })))

/-- Steps 4 to 6: platter C's slots, locks and what the table then lets in. -/
def openTables (s : State) : State :=
  reexamine (freeLocks (fun l => l.platter == .C) (endPlatterC s))

theorem openRest_eq (s : State) : openRest s =
    notifyDrive 2 (((openTables (openCounts s)).modIntake .A dropCursorC).modIntake .B dropCursorC) := rfl

theorem openTables_rest (s : State) : openTables s = { s with
    slots := (openTables s).slots, locks := (openTables s).locks, sel := (openTables s).sel
    post := { s.post with queue := (openTables s).post.queue } } := by
  have hx := (mediumChanged_foldl slotIds s).1
  unfold openTables endPlatterC
  generalize slotIds.foldl mediumChanged s = x at hx
  have hy := (reexamineFor_moves (slotIds.countP (leavesAtOpen s)) x).rest
  generalize reexamineFor (slotIds.countP (leavesAtOpen s)) x = y at hy
  have hz := (reexamine_moves (freeLocks (fun l => l.platter == .C) y)).rest
  generalize hw : freeLocks (fun l => l.platter == .C) y = w at hz
  have hwr : w = { y with locks := w.locks } := by rw [← hw]; rfl
  generalize reexamine w = z at hz
  conv_lhs => rw [hz, hwr, hy, hx]

/-- Platter C's slots are posted; the other slots that were not in LOCKWAIT stay; a lock that is left is on platter F. -/
theorem openTables_spec (s : State) (hl : ∀ i, (s.slot i).state = .lockwait → (s.slot i).kind = some .lock →
    (s.slot i).platter = some (recLockPlatter (s.slot i).words)) :
    (s.sel.isSome = true → (openTables s).sel = s.sel) ∧
    (∀ i, (s.slot i).WaitsOnC → ((openTables s).slot i).state = .posting ∧
      ((openTables s).slot i).status = some .mediumChanged) ∧
    (∀ i, (s.slot i).state ≠ .lockwait → ¬ (s.slot i).WaitsOnC → (openTables s).slot i = s.slot i) ∧
    (∀ (k : Fin 8) (l : Lock), (openTables s).locks[k] = some l → l.platter = .F) := by
  obtain ⟨xr, xs⟩ := mediumChanged_foldl slotIds s
  have xs : ∀ j, _ := fun j => xs j
  unfold openTables endPlatterC
  generalize slotIds.foldl mediumChanged s = x at xr xs
  have hy := reexamineFor_moves (slotIds.countP (leavesAtOpen s)) x
  generalize reexamineFor (slotIds.countP (leavesAtOpen s)) x = y at hy
  have hz := reexamine_moves (freeLocks (fun l => l.platter == .C) y)
  generalize hw : freeLocks (fun l => l.platter == .C) y = w at hz
  have hwr : w = { y with locks := w.locks } := by rw [← hw]; rfl
  have hws : ∀ i, w.slot i = y.slot i := fun i => by rw [hwr]; rfl
  generalize reexamine w = z at hz
  have hall : ∀ j, j ∈ slotIds := fun j => by fin_cases j <;> decide
  -- a slot that no longer waits in LOCKWAIT after the postings is not moved again
  have keep : ∀ i, (x.slot i).state ≠ .lockwait → z.slot i = x.slot i := by
    intro i hi
    have h1 : y.slot i = x.slot i := (hy.slots i).resolve_right fun h => hi h.1
    have h2 : z.slot i = w.slot i := (hz.slots i).resolve_right fun h => hi (by rw [← h1, ← hws]; exact h.1)
    rw [h2, hws, h1]
  refine ⟨fun hs => ?_, fun i hc => ?_, fun i hi hc => ?_, fun k l hk => ?_⟩
  · have h1 : x.sel = s.sel := by rw [xr]
    have h2 : w.sel = x.sel := by rw [hwr]; exact hy.sel (by rw [h1]; exact hs)
    rw [hz.sel (by rw [h2, h1]; exact hs), h2, h1]
  · obtain ⟨p1, p2⟩ := (xs i).1 (hall i) hc
    rw [keep i (by rw [p1]; simp)]
    exact ⟨p1, p2⟩
  · have hx := (xs i).2 (fun h => hc h.2)
    rw [keep i (by rw [hx]; exact hi), hx]
  · rcases hz.locks k l hk with h | ⟨i, h1, h2, rfl⟩
    · rw [← hw] at h
      obtain ⟨-, hp⟩ := freeLocks_locks h
      cases hpl : l.platter with
      | F => rfl
      | C => rw [hpl] at hp; cases hp
    · rw [hws] at h1 h2 ⊢
      have hyx := hy.stays h1
      rw [hyx] at h1 h2 ⊢
      have hnc : ¬ (s.slot i).WaitsOnC := fun hc => by
        rw [((xs i).1 (hall i) hc).1] at h1
        cases h1
      have hxs := (xs i).2 (fun h => hnc h.2)
      rw [hxs] at h1 h2 ⊢
      show recLockPlatter (s.slot i).words = .F
      cases hpl : recLockPlatter (s.slot i).words with
      | F => rfl
      | C => exact absurd ⟨.inr h1, by rw [hl i h1 h2, hpl]⟩ hnc

theorem openCounts_eq (s : State) : openCounts s = { s with
    tap := (openCounts s).tap
    drv := { s.drv with generation := s.drv.generation + 1, mounted := .both false, openPending := false } } := by
  have hp : (openCounts s).pres = s.pres := (oweCell_pres _ _ _).trans (oweCell_pres _ _ _)
  have hm := (oweCell_moves .A .side (s.modDrv (fun d =>
    { d with generation := d.generation + 1, mounted := .both false, openPending := false }))).trans
      (oweCell_moves .B .side _)
  conv_lhs => rw [openCounts, hm.rest]
  rw [← hp]
  rfl

theorem openCounts_live (s : State) (y : Side) : (openCounts s).live y = s.live y := by
  unfold openCounts
  rw [oweCell_live, oweCell_live]
  rfl

theorem openCounts_owed (s : State) (y : Side) (h : s.live y = true) : ((openCounts s).tap.get y).owed.side = true := by
  unfold openCounts
  rw [oweCell_owed, oweCell_live, oweCell_owed]
  cases y <;> simp [OwedCells.owe, h]

theorem dropCursorC_fields (u : Intake) : (dropCursorC u).cursor = u.cursor.filter (fun c => c.1 == .F) ∧
    (dropCursorC u).list = u.list := by
  have hp : (fun c : Platter × Nat => c.1 != .C) = fun c => c.1 == .F := by
    funext c
    cases c.1 <;> rfl
  exact ⟨by rw [dropCursorC, hp], rfl⟩

/-- What the sequence leaves besides what `OpenDone` names. -/
theorem openRest_drive (s : State) : (openRest s).drv =
      { s.drv with generation := s.drv.generation + 1, mounted := .both false, openPending := false } ∧
    (openRest s).out = s.out ∧ (openRest s).eng = s.eng ∧ (openRest s).clk = s.clk ∧
    (openRest s).map = s.map ∧ (openRest s).counter = s.counter := by
  have hn := (notifyDrive_moves 2 (((openTables (openCounts s)).modIntake .A dropCursorC).modIntake .B dropCursorC)).rest
  have ht := openTables_rest (openCounts s)
  have hc := openCounts_eq s
  rw [← openRest_eq] at hn
  generalize openRest s = u at hn ⊢
  generalize openTables (openCounts s) = t at hn ht
  rw [hn]
  show t.drv = _ ∧ t.out = _ ∧ t.eng = _ ∧ t.clk = _ ∧ t.map = _ ∧ t.counter = _
  rw [ht]
  show (openCounts s).drv = _ ∧ (openCounts s).out = _ ∧ (openCounts s).eng = _ ∧ (openCounts s).clk = _ ∧
    (openCounts s).map = _ ∧ (openCounts s).counter = _
  rw [hc]
  exact ⟨rfl, rfl, rfl, rfl, rfl, rfl⟩

/-- The sequence's steps 2 to 7, from a state whose lock requests name their platter. -/
theorem openRest_done (hl : ∀ i, (s.slot i).state = .lockwait → (s.slot i).kind = some .lock →
    (s.slot i).platter = some (recLockPlatter (s.slot i).words)) : OpenDone s (openRest s) := by
  obtain ⟨d1, -, -, d4, d5, d6⟩ := openRest_drive s
  have hc := openCounts_eq s
  have hcs : ∀ i, (openCounts s).slot i = s.slot i := fun i => by rw [hc]; rfl
  have tr := openTables_rest (openCounts s)
  obtain ⟨tsel, tw, tk, tl⟩ := openTables_spec (openCounts s) (fun i => by rw [hcs]; exact hl i)
  have hlive := openCounts_live s
  have howed := openCounts_owed s
  have hn := (notifyDrive_moves 2 (((openTables (openCounts s)).modIntake .A dropCursorC).modIntake .B dropCursorC)).rest
  have hpres := notifyDrive_pres 2 (((openTables (openCounts s)).modIntake .A dropCursorC).modIntake .B dropCursorC)
  have htap := notifyDrive_tap 2 (((openTables (openCounts s)).modIntake .A dropCursorC).modIntake .B dropCursorC)
  rw [← openRest_eq] at hn hpres htap
  generalize openRest s = u at d1 d4 d5 d6 hn hpres htap ⊢
  generalize openTables (openCounts s) = t at tr tsel tw tk tl hn hpres htap
  generalize openCounts s = c at hc hcs hlive howed tr tsel tw tk
  have hslot : ∀ i, u.slot i = t.slot i := fun i => by rw [hn]; rfl
  have hint : t.intake = s.intake := by rw [tr, hc]
  have hprs : t.pres = s.pres := by rw [tr, hc]
  have htp : t.tap = c.tap := by rw [tr]
  have hsel0 : c.sel = s.sel := by rw [hc]
  refine ⟨by rw [d1]; exact ⟨rfl, fun y => Sided.get_both _ _, rfl, rfl, rfl⟩, fun i hw hp => ?_, fun i hw hc ha => ?_,
    fun k l hk => tl k l (by rw [hn] at hk; exact hk), fun y => ?_, fun y => ?_, fun y hy => ?_, fun hs => ?_, d5, d6, d4⟩
  · rw [hslot]
    exact tw i (by rw [hcs]; exact ⟨hw, hp⟩)
  · rw [hslot, tk i (by rw [hcs]; exact hw) (by rw [hcs]; exact fun h => hc ⟨h.1.resolve_right hw, h.2⟩), hcs]
  · have hi : u.intake.get y = dropCursorC (s.intake.get y) := by
      rw [hn, ← hint]
      cases y <;> rfl
    rw [hi]
    exact dropCursorC_fields _
  · rw [hpres y]
    show (if t.live y then ((t.pres.get y).join .drive 1 0 2).examine else t.pres.get y) = _
    have hlt : t.live y = s.live y := by rw [← hlive y, State.live, htp]; rfl
    rw [hprs, hlt]
  · rw [htap]
    show (t.tap.get y).owed.side = true
    rw [htp]
    exact howed y hy
  · rw [hn]
    show t.sel = s.sel
    rw [tsel (by rw [hsel0]; exact hs), hsel0]

/-- What the sequence does is the same from two states that agree on the parts it works on. -/
theorem OpenDone.of_same (hd : t.drv.generation = s.drv.generation ∧ t.drv.cyl = s.drv.cyl ∧ t.drv.idle = s.drv.idle)
    (hs : t.slots = s.slots) (hi : t.intake = s.intake) (hp : t.pres = s.pres) (hl : ∀ y, t.live y = s.live y)
    (he : t.sel = s.sel) (hr : t.map = s.map ∧ t.counter = s.counter ∧ t.clk = s.clk) (h : OpenDone t u) :
    OpenDone s u := by
  obtain ⟨d1, d2, d3⟩ := hd
  obtain ⟨r1, r2, r3⟩ := hr
  have hslot : ∀ i, t.slot i = s.slot i := fun i => by unfold State.slot; rw [hs]
  obtain ⟨o1, o2, o3, o4, o5⟩ := h.drive
  obtain ⟨k1, k2, k3⟩ := h.rest
  refine ⟨⟨by rw [o1, d1], o2, o3, o4.trans d2, o5.trans d3⟩, fun i => ?_, fun i => ?_, h.locks, fun y => ?_, fun y => ?_,
    fun y hy => h.statusCells y (by rw [hl]; exact hy), fun hs' => ?_, k1.trans r1, k2.trans r2, k3.trans r3⟩
  · rw [← hslot]; exact h.waiting i
  · rw [← hslot]; exact h.others i
  · rw [← hi]; exact h.cursors y
  · rw [← hp, ← hl]; exact h.notices y
  · rw [← he] at hs' ⊢; exact h.selection hs'

/-! ### The entry to OPEN -/

/-- A report of OPEN ends any request at work, a RESTORE too (R126, R133). -/
theorem reportDrive_opened (ha : AtWork s i) (h : s.drv.state = .opened) : RequestEnded s (reportDrive s) i .notReady := by
  by_cases hk : (s.slot i).kind = some .restore
  · have hr : reportRestore (s.modEng (fun e => { e with abandoned := none })) =
        interrupt .notReady (s.modEng (fun e => { e with abandoned := none })) := by
      unfold reportRestore
      rw [show (s.modEng (fun e => { e with abandoned := none })).drv.state = .opened from h]
      cases (s.modEng (fun e => { e with abandoned := none })).eng.restore with
      | none => rfl
      | some r => cases r <;> rfl
    rw [reportDrive_atWork ha (by rw [h]; simp), if_pos hk, hr]
    exact (sameWork_abandoned s).ended (interrupt_ended ((sameWork_abandoned s).atWork ha) .notReady)
  · exact (reportDrive_ended ha (by rw [h]; simp)).2 (by rw [h]; simp) hk

/-- OPEN set, before the engine is told. -/
def openSet (s : State) : State := (setDrive .opened 0 s).modDrv (fun d => { d with recovery := false })

theorem openSet_entering (s : State) : Entering s (openSet s) .opened 0 none s.out :=
  (setDrive_entering .opened 0 s).mod ⟨rfl, rfl, (setDrive_entering .opened 0 s).state.2.2⟩ ⟨rfl, rfl, rfl, rfl, rfl, rfl⟩

theorem openSet_drv (s : State) : (reportDrive (openSet s)).drv = { s.drv with
    state := .opened, cause := 0, span := none, recovery := false
    readGate := (reportDrive (openSet s)).drv.readGate, writeGate := (reportDrive (openSet s)).drv.writeGate } := by
  have h : (openSet s).drv = { s.drv with state := .opened, cause := 0, span := none, recovery := false } := by
    show ({ (setDrive .opened 0 s).drv with recovery := false } : Drive) = _
    rw [setDrive_drv]
  conv_lhs => rw [reportDrive_drv, h]

theorem enterOpen_active (h : s.activeSlot ≠ none) :
    enterOpen s = (reportDrive (openSet s)).modDrv (fun d => { d with openPending := true }) :=
  if_pos (Option.isSome_iff_ne_none.mpr h)

theorem enterOpen_inactive (h : s.activeSlot = none) : enterOpen s = openRest (reportDrive (openSet s)) :=
  if_neg (fun hc => Option.isSome_iff_ne_none.mp hc h)

/-- The entry to OPEN, whether a slot is ACTIVE or not. -/
theorem enterOpen_leaves (s : State) : (enterOpen s).drv.state = .opened ∧ (enterOpen s).drv.cause = 0 ∧
    (enterOpen s).drv.span = none ∧ (enterOpen s).drv.recovery = false ∧ (enterOpen s).drv.inp = s.drv.inp ∧
    (enterOpen s).clk = s.clk ∧ (enterOpen s).eng.abandoned = none := by
  have hd := openSet_drv s
  have hk : (reportDrive (openSet s)).clk = s.clk := by rw [(reportDrive_moves _).rest, (openSet_entering s).rest]
  have ha : (reportDrive (openSet s)).eng.abandoned = none :=
    reportDrive_abandoned (by rw [(openSet_entering s).state.1]; simp)
  by_cases h : s.activeSlot = none
  · obtain ⟨o1, -, o3, o4, -, -⟩ := openRest_drive (reportDrive (openSet s))
    rw [enterOpen_inactive h, o1, o3, o4, hd]
    exact ⟨rfl, rfl, rfl, rfl, rfl, hk, ha⟩
  · rw [enterOpen_active h]
    show (reportDrive (openSet s)).drv.state = _ ∧ (reportDrive (openSet s)).drv.cause = _ ∧
      (reportDrive (openSet s)).drv.span = _ ∧ (reportDrive (openSet s)).drv.recovery = _ ∧
      (reportDrive (openSet s)).drv.inp = _ ∧ _ ∧ _
    rw [hd]
    exact ⟨rfl, rfl, rfl, rfl, rfl, hk, ha⟩

/-- With no slot ACTIVE the sequence is gone through at once. -/
theorem enterOpen_done (h : s.activeSlot = none) (he : engineSlot s = none) (hp : s.eng.phase ≠ .finishing)
    (hl : ∀ i, (s.slot i).state = .lockwait → (s.slot i).kind = some .lock →
      (s.slot i).platter = some (recLockPlatter (s.slot i).words)) :
    OpenDone s (enterOpen s) ∧ (enterOpen s).out = s.out := by
  have hw := openSet_entering s
  obtain ⟨ab, hr⟩ := reportDrive_none (s := openSet s) (hw.same.engineSlot.trans he) (by rw [hw.same.work.2.1]; exact hp)
  have hslots : (reportDrive (openSet s)).slots = s.slots := by rw [hr]; exact hw.same.result.slots
  have hslot : ∀ i, (reportDrive (openSet s)).slot i = s.slot i := fun i => by unfold State.slot; rw [hslots]
  have hrest := hw.rest
  have hlive := hw.live
  have hdrive := hw.drive
  have ho : (reportDrive (openSet s)).out = s.out := by rw [hr, hrest]; rfl
  rw [enterOpen_inactive h]
  refine ⟨OpenDone.of_same ?_ hslots ?_ ?_ (fun y => ?_) ?_ ?_ (openRest_done fun i => ?_), (openRest_drive _).2.1.trans ho⟩
  · rw [hr]
    exact ⟨hdrive.2.2.1, hdrive.1, hdrive.2.2.2.2⟩
  · rw [hr, hrest]; rfl
  · rw [hr, hrest]; rfl
  · rw [hr]; exact hlive y
  · rw [hr, hrest]; rfl
  · rw [hr, hrest]; exact ⟨rfl, rfl, rfl⟩
  · rw [hslot]; exact hl i

/-- With a slot ACTIVE the sequence waits, and the request ends. -/
theorem enterOpen_waits (h : s.activeSlot ≠ none) : (enterOpen s).drv.openPending = true ∧
    (enterOpen s).drv.generation = s.drv.generation ∧ (enterOpen s).drv.mounted = s.drv.mounted ∧
    (enterOpen s).intake = s.intake ∧ (enterOpen s).pres = s.pres ∧
    ∀ i, AtWork s i → RequestEnded s (enterOpen s) i .notReady := by
  have hw := openSet_entering s
  have hd := openSet_drv s
  have hi : (reportDrive (openSet s)).intake = s.intake := by rw [(reportDrive_moves _).rest, hw.rest]
  have hp : (reportDrive (openSet s)).pres = s.pres := by rw [(reportDrive_moves _).rest, hw.rest]
  have hend : ∀ i, AtWork s i → RequestEnded s (reportDrive (openSet s)) i .notReady := fun i ha =>
    hw.same.ended (reportDrive_opened (hw.same.atWork ha) hw.state.1)
  rw [enterOpen_active h]
  generalize reportDrive (openSet s) = v at hd hi hp hend
  refine ⟨rfl, ?_, ?_, hi, hp, fun i ha => ?_⟩
  · show v.drv.generation = _
    rw [hd]
  · show v.drv.mounted = _
    rw [hd]
  · obtain ⟨h1, h2, h3, h4, h5, h6⟩ := hend i ha
    exact ⟨h1, h2, h3, h4, h5, h6⟩

end Sys2Proof.Machine
end

section
/-! The events that move the drive between its other states (O57). -/

namespace Sys2Proof.Machine

variable {s t u v w : State} {i : Fin 12} {f : DriveInputs} {k : Clock} {c : Instr} {ev : DriveEvent} {e : Word}

theorem exec_told (h : InputEvent s c ev f k) (ho : s.drv.openPending = false) :
    exec c s = .next (settle s (reconcileDrive (driveEvent (told f k s) ev))) := exec_driveEvent h ho

/-! ### The inputs and the clock after an entry -/

theorem enterOffline_keeps_told (s : State) : (enterOffline s).clk = s.clk ∧ (enterOffline s).drv.inp = s.drv.inp ∧
    (enterOffline s).drv.recovery = false := by
  obtain ⟨r, w, h⟩ := enterOffline_drv s
  rw [h, (enterOffline_moves (.refl s)).rest]
  exact ⟨rfl, rfl, rfl⟩

theorem enterStopped_keeps_told (s : State) : (enterStopped s).clk = s.clk ∧ (enterStopped s).drv.inp = s.drv.inp := by
  obtain ⟨r, w, h⟩ := enterStopped_drv s
  rw [h, (enterStopped_moves (.refl s)).rest]
  exact ⟨rfl, rfl⟩

theorem enterRecalibrating_keeps_told (s : State) : (enterRecalibrating s).clk = s.clk ∧
    (enterRecalibrating s).drv.inp = s.drv.inp ∧ (enterRecalibrating s).drv.move = some .recalibrate ∧
    (enterRecalibrating s).drv.homed = false ∧
    (s.drv.inp.fault = false → (enterRecalibrating s).drv.recovery = s.drv.recovery) := by
  obtain ⟨r, w, h⟩ := enterRecalibrating_drv s
  rw [h, (enterRecalibrating_moves (.refl s)).rest]
  split
  next hf => exact ⟨rfl, rfl, rfl, rfl, fun h => absurd (h.symm.trans hf) Bool.false_ne_true⟩
  · exact ⟨rfl, rfl, rfl, rfl, fun _ => rfl⟩

theorem enterSpinningUp_keeps_told (s : State) : (enterSpinningUp s).clk = s.clk ∧
    (enterSpinningUp s).drv.inp = s.drv.inp ∧
    (s.drv.inp.fault = false → (enterSpinningUp s).drv.recovery = s.drv.recovery) := by
  obtain ⟨r, w, h⟩ := enterSpinningUp_drv s
  rw [h, (enterSpinningUp_moves (.refl s)).rest]
  split
  next hf => exact ⟨rfl, rfl, fun h => absurd (h.symm.trans hf) Bool.false_ne_true⟩
  · split <;> exact ⟨rfl, rfl, fun _ => rfl⟩

/-! ### Power and speed -/

theorem OpenDone.told (h : OpenDone (told f s.clk s) u) : OpenDone s u :=
  OpenDone.of_same (t := Machine.told f s.clk s) ⟨rfl, rfl, rfl⟩ rfl rfl rfl (fun _ => rfl) rfl ⟨rfl, rfl, rfl⟩ h

theorem power_falls (ho : s.drv.openPending = false) (hp : s.drv.inp.power = true) (hs : s.drv.state ≠ .offline) :
    ∃ v, exec .powerPresentFall s = .next (settle s (reconcileDrive v)) ∧ StateEntry s v .offline none [] ∧
      v.pres = s.pres ∧ v.drv.recovery = false ∧ v.clk = ⟨s.clk.count, .timer⟩ ∧
      v.drv.inp = { s.drv.inp with power := false, upToSpeed := false } := by
  have hev : InputEvent s .powerPresentFall .powerFall { s.drv.inp with power := false, upToSpeed := false }
      ⟨s.clk.count, .timer⟩ := by simp [InputEvent, hp]
  have hd : driveEvent (told { s.drv.inp with power := false, upToSpeed := false } ⟨s.clk.count, .timer⟩ s) .powerFall =
      enterOffline (told { s.drv.inp with power := false, upToSpeed := false } ⟨s.clk.count, .timer⟩ s) := if_neg hs
  obtain ⟨h1, h2, h3⟩ := enterOffline_keeps_told
    (told { s.drv.inp with power := false, upToSpeed := false } ⟨s.clk.count, .timer⟩ s)
  refine ⟨_, (exec_told hev ho).trans (by rw [hd]), StateEntry.told (k := ⟨s.clk.count, .timer⟩) rfl (enterOffline_entry _),
    enterOffline_pres _, h3, h1, h2⟩

theorem power_rises (ho : s.drv.openPending = false) (hp : s.drv.inp.power = false) (hs : s.drv.state = .offline)
    (hc : s.drv.inp.cartridgeClosed = true) :
    ∃ v, exec .powerPresentRise s = .next (settle s (reconcileDrive v)) ∧ v.clk = s.clk ∧
      v.drv.inp = { s.drv.inp with power := true } ∧
      (s.drv.inp.upToSpeed = false → StateEntry s v .stopped none [] ∧ v.pres = s.pres) ∧
      (s.drv.inp.upToSpeed = true → s.drv.inp.fault = false → v.pres = s.pres ∧
        StateEntry s v .recalibrating (some ⟨s.clk.count + 256, false⟩) [.recalibrate]) ∧
      (s.drv.inp.upToSpeed = true → s.drv.inp.fault = true → v.drv.state = .faulted ∧ v.drv.cause = 4) := by
  have hev : InputEvent s .powerPresentRise .powerRise { s.drv.inp with power := true } s.clk := by
    simp [InputEvent, hp]
  generalize hw : told { s.drv.inp with power := true } s.clk s = w
  have hwi : w.drv.inp = { s.drv.inp with power := true } := by rw [← hw]; rfl
  have hd : driveEvent w .powerRise = if s.drv.inp.upToSpeed then enterRecalibrating w else enterStopped w := by
    show powerRose w = _
    unfold powerRose
    rw [if_pos (by rw [← hw]; exact hs), if_neg (by rw [hwi]; simp [hc]), hwi]
  have hex := exec_told hev ho
  rw [hw, hd] at hex
  cases hu : s.drv.inp.upToSpeed with
  | false =>
    rw [hu, if_neg Bool.false_ne_true] at hex
    obtain ⟨h1, h2⟩ := enterStopped_keeps_told w
    subst hw
    exact ⟨_, hex, h1, h2, fun _ => ⟨StateEntry.told rfl (enterStopped_entry _), enterStopped_pres _⟩,
      fun h => (by cases h), fun h => (by cases h)⟩
  | true =>
    rw [hu, if_pos rfl] at hex
    obtain ⟨h1, h2, -⟩ := enterRecalibrating_keeps_told w
    subst hw
    exact ⟨_, hex, h1, h2, fun h => (by cases h),
      fun _ hf => ⟨enterRecalibrating_pres hf, StateEntry.told rfl (enterRecalibrating_entry hf rfl)⟩,
      fun _ hf => enterRecalibrating_faulted hf⟩

theorem power_opens (ho : s.drv.openPending = false) (hp : s.drv.inp.power = false) (hs : s.drv.state = .offline)
    (hc : s.drv.inp.cartridgeClosed = false) :
    ∃ v, exec .powerPresentRise s = .next (settle s v) ∧ v.clk = s.clk ∧
      v.drv.state = .opened ∧ v.drv.cause = 0 ∧ v.drv.span = none ∧ v.drv.recovery = false ∧
      v.drv.inp = { s.drv.inp with power := true } ∧
      (s.activeSlot = none → engineSlot s = none → s.eng.phase ≠ .finishing →
        (∀ i, (s.slot i).state = .lockwait → (s.slot i).kind = some .lock →
          (s.slot i).platter = some (recLockPlatter (s.slot i).words)) → OpenDone s v ∧ v.out = []) ∧
      (s.activeSlot ≠ none → v.drv.openPending = true ∧ ∀ i, AtWork s i → RequestEnded s v i .notReady) := by
  have hev : InputEvent s .powerPresentRise .powerRise { s.drv.inp with power := true } s.clk := by
    simp [InputEvent, hp]
  generalize hw : told { s.drv.inp with power := true } s.clk s = w
  have hd : driveEvent w .powerRise = enterOpen w := by
    show powerRose w = _
    unfold powerRose
    rw [if_pos (by rw [← hw]; exact hs), if_pos (by rw [← hw]; simp [told, hc])]
  have hex := exec_told hev ho
  obtain ⟨h1, h2, h3, h4, h5, h6, -⟩ := enterOpen_leaves w
  rw [hw, hd, reconcileDrive_other (by rw [h1]; simp) (by rw [h1]; simp) (by rw [h1]; simp)] at hex
  subst hw
  refine ⟨_, hex, h6, h1, h2, h3, h4, h5, fun ha he hp hl => ?_, fun ha => ?_⟩
  · obtain ⟨hdone, hout⟩ := enterOpen_done (s := told { s.drv.inp with power := true } s.clk s) ha he hp hl
    exact ⟨hdone.told, hout⟩
  · obtain ⟨g1, -, -, -, -, g6⟩ := enterOpen_waits (s := told { s.drv.inp with power := true } s.clk s) ha
    exact ⟨g1, fun i hi => (told_same rfl).ended (g6 i ((told_same rfl).atWork hi))⟩

/-- A fall of up to speed in OPEN. -/
theorem speed_falls_open (ho : s.drv.openPending = false) (hu : s.drv.inp.upToSpeed = true) (hs : s.drv.state = .opened) :
    ∃ v, exec .upToSpeedFall s = .next (settle s (reconcileDrive v)) ∧ v.clk = ⟨s.clk.count, .timer⟩ ∧
      v.pres = s.pres ∧ v.drv.inp = { s.drv.inp with upToSpeed := false } ∧
      (s.drv.inp.cartridgeClosed = true → StateEntry s v .stopped none []) ∧
      (s.drv.inp.cartridgeClosed = false → v.drv.state = .opened ∧ v.eng = s.eng ∧ v.slots = s.slots ∧ v.out = []) := by
  have hev : InputEvent s .upToSpeedFall .upToSpeedFall { s.drv.inp with upToSpeed := false } ⟨s.clk.count, .timer⟩ := by
    simp [InputEvent, hu]
  generalize hw : told { s.drv.inp with upToSpeed := false } ⟨s.clk.count, .timer⟩ s = w
  have hws : w.drv.state = .opened := by rw [← hw]; exact hs
  have hd : driveEvent w .upToSpeedFall = if s.drv.inp.cartridgeClosed then enterStopped w else w := by
    show upToSpeedFell w = _
    unfold upToSpeedFell leaveOpen
    rw [hws]
    cases hc : s.drv.inp.cartridgeClosed with
    | true => exact if_pos ⟨rfl, by rw [← hw]; exact hc, by rw [← hw]; rfl⟩
    | false =>
      have hwc : w.drv.inp.cartridgeClosed = false := by rw [← hw]; exact hc
      exact if_neg fun h => Bool.false_ne_true (hwc.symm.trans h.2.1)
  have hex := exec_told hev ho
  rw [hw, hd] at hex
  cases hc : s.drv.inp.cartridgeClosed with
  | true =>
    rw [hc, if_pos rfl] at hex
    obtain ⟨h1, h2⟩ := enterStopped_keeps_told w
    subst hw
    exact ⟨_, hex, h1, enterStopped_pres _, h2, fun _ => StateEntry.told (k := ⟨s.clk.count, .timer⟩) rfl
      (enterStopped_entry _), fun h => (by cases h)⟩
  | false =>
    rw [hc, if_neg Bool.false_ne_true] at hex
    subst hw
    exact ⟨_, hex, rfl, rfl, rfl, fun h => (by cases h), fun _ => ⟨hs, rfl, rfl, rfl⟩⟩

theorem speed_falls (ho : s.drv.openPending = false) (hu : s.drv.inp.upToSpeed = true)
    (hs : s.drv.state = .recalibrating ∨ s.drv.state = .ready ∨ s.drv.state = .parked) :
    ∃ v, exec .upToSpeedFall s = .next (settle s (reconcileDrive v)) ∧ v.clk = ⟨s.clk.count, .timer⟩ ∧
      v.drv.inp = { s.drv.inp with upToSpeed := false } ∧
      (s.drv.inp.fault = false → v.pres = s.pres ∧
        StateEntry s v .spinningUp (some ⟨s.clk.count + 25600, false⟩) [.spindleStart]) ∧
      (s.drv.inp.fault = true → v.drv.state = .faulted ∧ v.drv.cause = 4) := by
  have hev : InputEvent s .upToSpeedFall .upToSpeedFall { s.drv.inp with upToSpeed := false } ⟨s.clk.count, .timer⟩ := by
    simp [InputEvent, hu]
  generalize hw : told { s.drv.inp with upToSpeed := false } ⟨s.clk.count, .timer⟩ s = w
  have hd : driveEvent w .upToSpeedFall = enterSpinningUp w := by
    show upToSpeedFell w = _
    unfold upToSpeedFell
    rw [show w.drv.state = s.drv.state by rw [← hw]; rfl]
    rcases hs with hs | hs | hs <;> rw [hs]
  have hex := exec_told hev ho
  rw [hw, hd] at hex
  obtain ⟨h1, h2, -⟩ := enterSpinningUp_keeps_told w
  subst hw
  exact ⟨_, hex, h1, h2, fun hf => ⟨enterSpinningUp_pres hf rfl,
    StateEntry.told (k := ⟨s.clk.count, .timer⟩) rfl (enterSpinningUp_entry hf rfl rfl)⟩,
    fun hf => enterSpinningUp_faulted hf⟩

/-! ### RECALIBRATING -/

/-- An event that enters RECALIBRATING (R157, R158). -/
theorem event_recalibrates (hev : InputEvent s c ev f s.clk) (ho : s.drv.openPending = false)
    (hd : driveEvent (told f s.clk s) ev = enterRecalibrating (told f s.clk s)) (hf : f.fault = s.drv.inp.fault) :
    ∃ v, exec c s = .next (settle s (reconcileDrive v)) ∧ v.clk = s.clk ∧ v.drv.inp = f ∧
      (s.drv.inp.fault = false → v.pres = s.pres ∧ v.drv.move = some .recalibrate ∧ v.drv.homed = false ∧
        StateEntry s v .recalibrating (some ⟨s.clk.count + 256, false⟩) [.recalibrate]) ∧
      (s.drv.inp.fault = true → v.drv.state = .faulted ∧ v.drv.cause = 4) := by
  have hex := exec_told hev ho
  rw [hd] at hex
  obtain ⟨h1, h2, h3, h4, -⟩ := enterRecalibrating_keeps_told (told f s.clk s)
  refine ⟨_, hex, h1, h2, fun hff => ⟨enterRecalibrating_pres (by exact hf.trans hff), h3, h4,
    StateEntry.told rfl (enterRecalibrating_entry (by exact hf.trans hff) rfl)⟩,
    fun hff => enterRecalibrating_faulted (by exact hf.trans hff)⟩

/-! ### READY -/

/-- READY set, before the engine is told. -/
def readySet (s : State) : State := (setDrive .ready 0 s).modDrv (fun d => { d with recovery := false })

theorem readySet_entering (s : State) : Entering s (readySet s) .ready 0 none s.out :=
  (setDrive_entering .ready 0 s).mod ⟨rfl, rfl, (setDrive_entering .ready 0 s).state.2.2⟩ ⟨rfl, rfl, rfl, rfl, rfl, rfl⟩

/-- A report of READY ends a RESTORE taken in FAULTED with OK (R133). -/
theorem reportDrive_restored (hi : engineSlot s = some i) (hs : s.drv.state = .ready)
    (hk : (s.slot i).kind = some .restore) (hr : s.eng.restore = some .faulted) :
    reportDrive s = endRequest .ok s.clk.count s := by
  unfold reportDrive
  dsimp only
  rw [if_pos hs, if_neg (by exact fun h => h.2 hs), hi]
  dsimp only
  rw [if_pos hk]
  unfold reportRestore
  rw [hr, hs]

theorem enterReady_restored (ha : AtWork s i) (hk : (s.slot i).kind = some .restore) (hr : s.eng.restore = some .faulted) :
    RequestEnded s (enterReady s) i .ok := by
  have hw := readySet_entering s
  have hwe : (readySet s).eng = s.eng := by rw [hw.rest]
  have hwi := hw.same.engineSlot.trans ha.slot
  have hrep := reportDrive_restored hwi hw.state.1 (by rw [hw.same.result.slot i]; exact hk) (by rw [hwe]; exact hr)
  have hend : RequestEnded s (reportDrive (readySet s)) i .ok := by
    rw [hrep]
    have ho := endRequest_over hwi .ok (readySet s).clk.count
    exact hw.same.ended (ho.requestEnded rfl (fun _ => ⟨rfl, fun _ => rfl, rfl, rfl, rfl, rfl⟩) rfl rfl)
  show RequestEnded s (if s.drv.recovery then notifyDrive 3 (reportDrive (readySet s)) else reportDrive (readySet s)) i .ok
  split
  · exact hend.cells (notifyDrive_moves 3 _)
  · exact hend

/-- READY is entered from a state with the same work and presenters. -/
theorem enterReady_from (hs : SameWork s w) (he : w.eng = s.eng) (hp : w.pres = s.pres) (hl : ∀ y, w.live y = s.live y)
    (hr : w.drv.recovery = s.drv.recovery) :
    (enterReady w).drv.state = .ready ∧ (enterReady w).drv.cause = 0 ∧ (enterReady w).drv.span = none ∧
      (enterReady w).drv.recovery = false ∧ (enterReady w).drv.cyl = w.drv.cyl ∧
      (∀ i, AtWork s i → (s.slot i).kind = some .restore → s.eng.restore = some .faulted →
        RequestEnded s (enterReady w) i .ok) ∧
      ∀ y, (enterReady w).pres.get y = if s.drv.recovery && s.live y then ((s.pres.get y).join .drive 1 0 3).examine
        else s.pres.get y := by
  obtain ⟨r, g, hd⟩ := enterReady_drv w
  rw [hd]
  refine ⟨rfl, rfl, rfl, rfl, rfl, fun i ha hk hres => ?_, fun y => ?_⟩
  · exact hs.ended (enterReady_restored (hs.atWork ha) (by rw [hs.result.slot i]; exact hk) (by rw [he]; exact hres))
  · rw [enterReady_pres, hp, hl, hr]

theorem readyIfHomed_ready (h1 : s.drv.state = .recalibrating) (h2 : s.drv.homed = true)
    (h3 : s.drv.inp.headsLoaded = true) : readyIfHomed s = enterReady s := if_pos ⟨h1, h2, h3⟩

/-- On cylinder rises after the recalibrate of RECALIBRATING (R157). -/
theorem onCylinderRose_ready (hs : s.drv.state = .recalibrating) (hm : s.drv.move = some .recalibrate)
    (hh : s.drv.inp.headsLoaded = true) (ha : s.eng.abandoned = none)
    (hp : s.eng.phase = .idle ∨ s.eng.phase = .restoring ∧ s.eng.restore = some .faulted) :
    onCylinderRose s = enterReady (s.modDrv cylinderRecorded) := by
  have hab : abandonedEnded (s.modDrv cylinderRecorded) = s.modDrv cylinderRecorded := if_pos (by exact ha ▸ rfl)
  have hmv : movementEnded (s.modDrv cylinderRecorded) = s.modDrv cylinderRecorded := by
    unfold movementEnded
    rcases hp with hp | ⟨hp, hr⟩
    · rw [show (s.modDrv cylinderRecorded).eng.phase = _ from hp]
    · rw [show (s.modDrv cylinderRecorded).eng.phase = _ from hp]
      exact if_neg (by rw [show (s.modDrv cylinderRecorded).eng.restore = _ from hr]; simp)
  unfold onCylinderRose
  rw [if_neg (by rw [hs]; simp)]
  dsimp only
  rw [hab, hmv, ite_self]
  exact readyIfHomed_ready hs (by simp [cylinderRecorded, hm]) hh

theorem drive_readies (ho : s.drv.openPending = false) (hst : s.drv.state = .recalibrating)
    (h : (c = .headsLoadedRise ∧ s.drv.inp.headsLoaded = false ∧ s.drv.homed = true) ∨
      (c = .onCylinderRise ∧ s.drv.inp.onCylinder = false ∧ s.drv.move = some .recalibrate ∧
        s.drv.inp.headsLoaded = true ∧ s.eng.abandoned = none ∧
        (s.eng.phase = .idle ∨ s.eng.phase = .restoring ∧ s.eng.restore = some .faulted))) :
    ∃ v, exec c s = .next (settle s (reconcileDrive v)) ∧ v.drv.state = .ready ∧ v.drv.cause = 0 ∧ v.drv.span = none ∧
      v.drv.recovery = false ∧ v.drv.cyl = (if c = .onCylinderRise then 0 else s.drv.cyl) ∧
      (∀ i, AtWork s i → (s.slot i).kind = some .restore → s.eng.restore = some .faulted → RequestEnded s v i .ok) ∧
      ∀ y, v.pres.get y = if s.drv.recovery && s.live y then ((s.pres.get y).join .drive 1 0 3).examine
        else s.pres.get y := by
  rcases h with ⟨rfl, hh, hho⟩ | ⟨rfl, hc, hm, hh, ha, hp⟩
  · have hev : InputEvent s .headsLoadedRise .headsRise { s.drv.inp with headsLoaded := true } s.clk := by
      simp [InputEvent, hh]
    have hd : driveEvent (told { s.drv.inp with headsLoaded := true } s.clk s) .headsRise =
        enterReady (told { s.drv.inp with headsLoaded := true } s.clk s) := readyIfHomed_ready hst hho rfl
    have hex := exec_told hev ho
    rw [hd] at hex
    obtain ⟨h1, h2, h3, h4, h5, h6, h7⟩ := enterReady_from (s := s)
      (w := told { s.drv.inp with headsLoaded := true } s.clk s) (told_same rfl) rfl rfl (fun _ => rfl) rfl
    exact ⟨_, hex, h1, h2, h3, h4, h5, h6, h7⟩
  · have hev : InputEvent s .onCylinderRise .onCylinderRise { s.drv.inp with onCylinder := true } s.clk := by
      simp [InputEvent, hc]
    have hd : driveEvent (told { s.drv.inp with onCylinder := true } s.clk s) .onCylinderRise =
        enterReady ((told { s.drv.inp with onCylinder := true } s.clk s).modDrv cylinderRecorded) :=
      onCylinderRose_ready (s := told { s.drv.inp with onCylinder := true } s.clk s) hst hm hh ha hp
    have hex := exec_told hev ho
    rw [hd] at hex
    obtain ⟨h1, h2, h3, h4, h5, h6, h7⟩ := enterReady_from (s := s)
      (w := (told { s.drv.inp with onCylinder := true } s.clk s).modDrv cylinderRecorded)
      ⟨⟨rfl, fun _ => rfl, rfl, rfl, rfl, rfl⟩, ⟨rfl, rfl, rfl⟩, fun _ => rfl, rfl, rfl, rfl⟩ rfl rfl (fun _ => rfl) rfl
    refine ⟨_, hex, h1, h2, h3, h4, h5.trans ?_, h6, h7⟩
    simp [cylinderRecorded, told, hm]

/-! ### The delays of idle control, and the end of a fault (R160, R162) -/

theorem park_ends (hst : s.drv.state = .ready) (hsp : s.drv.span = some ⟨e, true⟩) :
    ∃ v, exec .parkDelayEnd s = .next (settle s v) ∧ StateEntry s v .parked none [.headRetract] ∧ v.pres = s.pres ∧
      v.clk = s.clk := by
  refine ⟨_, runIf_true (by simp [stateSpanEnded, hst, hsp, spanReached]), ?_, enterParked_pres _,
    by rw [(enterParked_moves (.refl s.begun)).rest]; rfl⟩
  exact StateEntry.told (f := s.drv.inp) (k := s.clk) rfl (enterParked_entry s.begun)

theorem spinDown_ends (hst : s.drv.state = .parked) (hsp : s.drv.span = some ⟨e, true⟩) :
    ∃ v, exec .spinDownDelayEnd s = .next (settle s v) ∧ StateEntry s v .stopped none [.spindleStop] ∧
      v.pres = s.pres ∧ v.clk = s.clk := by
  refine ⟨_, runIf_true (by simp [stateSpanEnded, hst, hsp, spanReached]), ?_, enterStopped_pres _,
    by rw [(enterStopped_moves (.refl (s.begun.emit .spindleStop))).rest]; rfl⟩
  exact StateEntry.of_same (t := s.begun.emit .spindleStop)
    ⟨⟨rfl, fun _ => rfl, rfl, rfl, rfl, rfl⟩, ⟨rfl, rfl, rfl⟩, fun _ => rfl, rfl, rfl, rfl⟩
    ⟨⟨rfl, rfl, rfl, rfl⟩, fun _ => rfl, ⟨rfl, rfl, rfl, rfl, rfl⟩, fun _ _ _ => rfl⟩ rfl (enterStopped_entry _)

theorem fault_falls (ho : s.drv.openPending = false) (hst : s.drv.state = .faulted) (hr : s.drv.recovery = true)
    (hsp : s.drv.span ≠ none) (hf : s.drv.inp.fault = true) :
    ∃ v, exec .faultFall s = .next (settle s (reconcileDrive v)) ∧ v.drv.recovery = true ∧ v.pres = s.pres ∧
      v.drv.inp = { s.drv.inp with fault := false } ∧
      (s.drv.inp.upToSpeed = true →
        StateEntry s v .recalibrating (some ⟨s.clk.count + 256, false⟩) [.recalibrate]) ∧
      (s.drv.inp.upToSpeed = false →
        StateEntry s v .spinningUp (some ⟨s.clk.count + 25600, false⟩) [.spindleStart]) := by
  have hev : InputEvent s .faultFall .faultFall { s.drv.inp with fault := false } s.clk := by simp [InputEvent, hf]
  have hd : driveEvent (told { s.drv.inp with fault := false } s.clk s) .faultFall =
      if s.drv.inp.upToSpeed then enterRecalibrating (told { s.drv.inp with fault := false } s.clk s)
      else enterSpinningUp (told { s.drv.inp with fault := false } s.clk s) :=
    if_pos ⟨hst, hr, Option.isSome_iff_ne_none.mpr hsp⟩
  have hex := exec_told hev ho
  rw [hd] at hex
  cases hu : s.drv.inp.upToSpeed with
  | true =>
    rw [hu, if_pos rfl] at hex
    obtain ⟨-, h2, -, -, h5⟩ := enterRecalibrating_keeps_told (told { s.drv.inp with fault := false } s.clk s)
    exact ⟨_, hex, (h5 rfl).trans hr, enterRecalibrating_pres rfl, h2,
      fun _ => StateEntry.told rfl (enterRecalibrating_entry rfl rfl), fun h => (by cases h)⟩
  | false =>
    rw [hu, if_neg Bool.false_ne_true] at hex
    obtain ⟨-, h2, h3⟩ := enterSpinningUp_keeps_told (told { s.drv.inp with fault := false } s.clk s)
    exact ⟨_, hex, (h3 rfl).trans hr, enterSpinningUp_pres rfl hu, h2, fun h => (by cases h),
      fun _ => StateEntry.told rfl (enterSpinningUp_entry rfl hu rfl)⟩

/-! ### Events that do not move the drive -/

/-- An event that leaves the controller's state alone. -/
theorem event_recorded (hev : InputEvent s c ev f k) (ho : s.drv.openPending = false)
    (hd : driveEvent (told f k s) ev = told f k s) : exec c s = .next (settle s (reconcileDrive (told f k s))) := by
  have hex := exec_told hev ho
  rw [hd] at hex
  exact hex

theorem upToSpeedFell_same (h : s.drv.state = .stopped ∨ s.drv.state = .spinningUp ∨ s.drv.state = .faulted ∨
    s.drv.state = .offline) : upToSpeedFell s = s := by
  unfold upToSpeedFell
  rcases h with h | h | h | h <;> rw [h]

theorem faultRose_same (h : s.drv.state = .faulted ∨ s.drv.state = .stopped ∨ s.drv.state = .opened ∨
    s.drv.state = .offline) : faultRose s = s := by
  unfold faultRose
  rcases h with h | h | h | h <;> rw [h]

/-- Settles O57. -/
theorem driveStatesChange : Obligations.DriveStatesChange := by
  unfold Obligations.DriveStatesChange
  refine fun e s ho => ⟨power_falls ho, power_rises ho, power_opens ho, speed_falls_open ho, fun c f h => ?_,
    speed_falls ho, fun c h hst => drive_readies ho hst h, park_ends, spinDown_ends, fault_falls ho, fun c f h => ?_,
    fun c f h => ?_, fun hp hs => ?_⟩
  · rcases h with ⟨rfl, hs, hu, rfl⟩ | ⟨rfl, hs, hu, rfl⟩ | ⟨rfl, hs, hm, hu, rfl⟩
    · exact event_recalibrates (ev := .upToSpeedRise) (by simp [InputEvent, hu]) ho (if_pos hs) rfl
    · exact event_recalibrates (ev := .headsFall) (by simp [InputEvent, hu]) ho (if_pos hs) rfl
    · exact event_recalibrates (ev := .onCylinderFall) (by simp [InputEvent, hu]) ho (if_pos ⟨hs, hm⟩) rfl
  · rcases h with ⟨rfl, hs, hu, rfl⟩ | ⟨rfl, hs, hu, rfl⟩ | ⟨rfl, hs, hu, rfl⟩ | ⟨rfl, hs, hu, rfl⟩ | ⟨rfl, hs, hu, rfl⟩ |
      ⟨rfl, hs, hu, rfl⟩
    · exact event_recorded (k := s.clk) (ev := .upToSpeedRise) (by simp [InputEvent, hu]) ho (if_neg hs)
    · exact event_recorded (k := s.clk) (ev := .headsRise) (by simp [InputEvent, hu]) ho (if_neg (fun h => hs h.1))
    · exact event_recorded (k := s.clk) (ev := .headsFall) (by simp [InputEvent, hu]) ho (if_neg hs)
    · exact event_recorded (k := s.clk) (ev := .onCylinderFall) (by simp [InputEvent, hu]) ho
        (if_neg (fun h => hs.elim (fun g => g h.1) (fun g => g h.2)))
    · exact event_recorded (k := s.clk) (ev := .faultRise) (by simp [InputEvent, hu]) ho (faultRose_same hs)
    · exact event_recorded (k := s.clk) (ev := .faultFall) (by simp [InputEvent, hu]) ho
        (if_neg (fun h => hs.elim (fun g => g h.1) (fun g => Bool.false_ne_true (g.symm.trans h.2.1))))
  · rcases h with ⟨rfl, hu, hs, rfl⟩ | ⟨rfl, hu, hs, rfl⟩
    · exact event_recorded (k := ⟨s.clk.count, .timer⟩) (ev := .upToSpeedFall) (by simp [InputEvent, hu]) ho
        (upToSpeedFell_same hs)
    · exact event_recorded (k := ⟨s.clk.count, .timer⟩) (ev := .powerFall) (by simp [InputEvent, hu]) ho (if_pos hs)
  · exact event_recorded (k := s.clk) (ev := .powerRise) (by simp [InputEvent, hp]) ho (if_neg hs)

end Sys2Proof.Machine
end

section
/-! The cartridge's events and write-protect (O59). -/

namespace Sys2Proof.Machine

variable {s t u v w : State} {i : Fin 12} {f : DriveInputs} {c : Instr} {m n : Nat} {level : Bool}

/-! ### The OPEN entry -/

theorem opensDrive_same (h : s.drv.state = .opened ∨ s.drv.state = .offline) : opensDrive s = s := by
  unfold opensDrive
  rcases h with h | h <;> rw [h]

theorem opensDrive_enters (h1 : s.drv.state ≠ .opened) (h2 : s.drv.state ≠ .offline) : opensDrive s = enterOpen s := by
  unfold opensDrive
  split
  next h => exact absurd h h1
  next h => exact absurd h h2
  all_goals rfl

/-- The two events that open the drive (R163). -/
theorem exec_opens (ho : s.drv.openPending = false) (h : (c = .loadSwitchPressed ∧ f = s.drv.inp) ∨
    (c = .cartridgeClosedFall ∧ s.drv.inp.cartridgeClosed = true ∧ f = { s.drv.inp with cartridgeClosed := false })) :
    exec c s = .next (settle s (reconcileDrive (opensDrive (told f s.clk s)))) := by
  rcases h with ⟨rfl, rfl⟩ | ⟨rfl, hc, rfl⟩
  · exact exec_told (k := s.clk) (ev := .loadSwitch) (by simp [InputEvent]) ho
  · exact exec_told (k := s.clk) (ev := .closedFall) (by simp [InputEvent, hc]) ho

theorem drive_opens (ho : s.drv.openPending = false) (h : (c = .loadSwitchPressed ∧ f = s.drv.inp) ∨
    (c = .cartridgeClosedFall ∧ s.drv.inp.cartridgeClosed = true ∧ f = { s.drv.inp with cartridgeClosed := false })) :
    (s.drv.state = .opened ∨ s.drv.state = .offline →
      exec c s = .next (settle s { s with drv := { s.drv with inp := f }, out := [] })) ∧
    (s.drv.state ≠ .opened → s.drv.state ≠ .offline →
      ∃ u, exec c s = .next (settle s u) ∧ u.drv.state = .opened ∧ u.drv.cause = 0 ∧ u.drv.span = none ∧
        u.drv.recovery = false ∧ u.drv.inp = f ∧ u.clk = s.clk ∧ u.eng.abandoned = none ∧
        (s.activeSlot = none → engineSlot s = none → s.eng.phase ≠ .finishing →
          (∀ i, (s.slot i).state = .lockwait → (s.slot i).kind = some .lock →
            (s.slot i).platter = some (recLockPlatter (s.slot i).words)) → OpenDone s u ∧ u.out = []) ∧
        (s.activeSlot ≠ none → u.drv.openPending = true ∧ u.drv.generation = s.drv.generation ∧
          u.drv.mounted = s.drv.mounted ∧ u.intake = s.intake ∧ u.pres = s.pres ∧
          ∀ i, AtWork s i → RequestEnded s u i .notReady)) := by
  have hex := exec_opens ho h
  refine ⟨fun hs => ?_, fun h1 h2 => ?_⟩
  · rw [opensDrive_same (s := told f s.clk s) hs] at hex
    have hst : (told f s.clk s).drv.state ≠ .stopped ∧ (told f s.clk s).drv.state ≠ .parked ∧
        (told f s.clk s).drv.state ≠ .ready := by
      show s.drv.state ≠ _ ∧ s.drv.state ≠ _ ∧ s.drv.state ≠ _
      rcases hs with hs | hs <;> simp [hs]
    rw [reconcileDrive_other hst.1 hst.2.1 hst.2.2] at hex
    exact hex
  · obtain ⟨g1, g2, g3, g4, g5, g6, g7⟩ := enterOpen_leaves (told f s.clk s)
    rw [opensDrive_enters (s := told f s.clk s) h1 h2,
      reconcileDrive_other (by rw [g1]; simp) (by rw [g1]; simp) (by rw [g1]; simp)] at hex
    refine ⟨_, hex, g1, g2, g3, g4, g5, g6, g7, fun ha he hp hl => ?_, fun ha => ?_⟩
    · obtain ⟨hdone, hout⟩ := enterOpen_done (s := told f s.clk s) ha he hp hl
      exact ⟨hdone.told, hout⟩
    · obtain ⟨k1, k2, k3, k4, k5, k6⟩ := enterOpen_waits (s := told f s.clk s) ha
      exact ⟨k1, k2, k3, k4, k5, fun i hi => (told_same rfl).ended (k6 i ((told_same rfl).atWork hi))⟩

theorem open_resumes (ho : s.drv.openPending = true) (ha : s.activeSlot = none)
    (hl : ∀ i, (s.slot i).state = .lockwait → (s.slot i).kind = some .lock →
      (s.slot i).platter = some (recLockPlatter (s.slot i).words)) :
    ∃ v, exec .openEntryResume s = .next (settle s (s.drv.deferred.foldl takeHeldEvent v)) ∧ OpenDone s v ∧
      v.drv.state = s.drv.state ∧ v.drv.deferred = [] := by
  obtain ⟨h1, -⟩ := openRest_drive (s.begun.modDrv (fun d => { d with deferred := [] }))
  refine ⟨openRest (s.begun.modDrv (fun d => { d with deferred := [] })), runIf_true (by simp [ho, ha]), ?_, by rw [h1]; rfl,
    by rw [h1]; rfl⟩
  exact OpenDone.of_same (t := s.begun.modDrv (fun d => { d with deferred := [] })) ⟨rfl, rfl, rfl⟩ rfl rfl rfl
    (fun _ => rfl) rfl ⟨rfl, rfl, rfl⟩ (openRest_done hl)

theorem cartridge_closes (ho : s.drv.openPending = false) (hc : s.drv.inp.cartridgeClosed = false)
    (hs : s.drv.state = .opened) :
    (s.drv.inp.upToSpeed = false →
      ∃ v, exec .cartridgeClosedRise s = .next (settle s (reconcileDrive v)) ∧ StateEntry s v .stopped none [] ∧
        v.pres = s.pres ∧ v.drv.inp = { s.drv.inp with cartridgeClosed := true }) ∧
    (s.drv.inp.upToSpeed = true → exec .cartridgeClosedRise s = .next (settle s
      { s with drv := { s.drv with inp := { s.drv.inp with cartridgeClosed := true } }, out := [] })) := by
  have hev : InputEvent s .cartridgeClosedRise .closedRise { s.drv.inp with cartridgeClosed := true } s.clk := by
    simp [InputEvent, hc]
  have hex := exec_told hev ho
  generalize hw : told { s.drv.inp with cartridgeClosed := true } s.clk s = w at hex
  have hst : w.drv.state = .opened := by rw [← hw]; exact hs
  refine ⟨fun hu => ?_, fun hu => ?_⟩
  · have hd : driveEvent w .closedRise = enterStopped w :=
      if_pos ⟨hst, by rw [← hw]; rfl, by rw [← hw]; exact hu⟩
    rw [hd] at hex
    subst hw
    exact ⟨_, hex, StateEntry.told rfl (enterStopped_entry _), enterStopped_pres _, (enterStopped_keeps_told _).2⟩
  · have hwu : w.drv.inp.upToSpeed = true := by rw [← hw]; exact hu
    have hd : driveEvent w .closedRise = w := if_neg fun h => Bool.false_ne_true (h.2.2.symm.trans hwu)
    rw [hd, reconcileDrive_other (by rw [hst]; simp) (by rw [hst]; simp) (by rw [hst]; simp)] at hex
    subst hw
    exact hex

/-! ### Write-protect (R13, R117) -/

/-- Write-protect at its new level, before it acts. -/
def protectTold (level : Bool) (s : State) : State := told { s.drv.inp with writeProtect := level } s.clk s

theorem exec_writeProtect (h : s.drv.inp.writeProtect ≠ level) : exec (.writeProtectChange level) s =
    .next (settle s (if level then protectRises (protectTold level s) else protectTold level s)) :=
  runIf_true (by simpa using h)

theorem protect_quiet (hl : s.drv.inp.writeProtect ≠ level)
    (h : level = false ∨ s.drv.writeGate = false ∨ (∃ k, s.eng.sector = some (.F, k))) :
    exec (.writeProtectChange level) s = .next (settle s
      { s with drv := { s.drv with inp := { s.drv.inp with writeProtect := level } }, out := [] }) := by
  rw [exec_writeProtect hl]
  cases level with
  | false => rfl
  | true =>
    have hn : ¬ ((protectTold true s).drv.writeGate &&
        (protectTold true s).eng.sector.any (fun q => q.1 == .C)) = true := by
      show ¬ (s.drv.writeGate && s.eng.sector.any (fun q => q.1 == .C)) = true
      rcases h with h | h | ⟨k, h⟩ <;> simp_all
    have hr : protectRises (protectTold true s) = protectTold true s := if_neg hn
    rw [if_pos rfl, hr]
    rfl

/-- The engine after write-protect has cut the sector of its request. -/
def protectCut (s : State) : State := (dropWriteGate (protectTold true s)).modEng
  (fun e => { e with protectSeen := some (e.protectSeen.getD e.m) })

theorem protectRises_cut {k : Nat} (hg : s.drv.writeGate = true) (hq : s.eng.sector = some (.C, k)) :
    protectRises (protectTold true s) = match engineSlot (dropWriteGate (protectTold true s)) with
      | none => dropWriteGate (protectTold true s)
      | some i =>
        if (dropWriteGate (protectTold true s)).eng.phase = .inSector then sectorWritten i true (protectCut s)
        else dropWriteGate (protectTold true s) := by
  refine if_pos ?_
  show (s.drv.writeGate && s.eng.sector.any (fun q => q.1 == .C)) = true
  rw [hg, hq]
  rfl

theorem protectCut_fields {k : Nat} (hg : s.drv.writeGate = true) (hq : s.eng.sector = some (.C, k)) :
    (protectCut s).slots = s.slots ∧ (protectCut s).clk = s.clk ∧ (protectCut s).out = [.sectorCut .C k] ∧
      (protectCut s).eng = { s.eng with protectSeen := some (s.eng.protectSeen.getD s.eng.m) } := by
  have hl := dropWriteGate_leaves (protectTold true s)
  have ho := dropWriteGate_cuts (s := protectTold true s) hg hq
  unfold protectCut
  generalize dropWriteGate (protectTold true s) = w at hl ho
  rw [hl]
  exact ⟨rfl, rfl, ho, rfl⟩

theorem nextTarget_protect (sl : Slot) (v : State) : (nextTarget sl v).eng.protectSeen = v.eng.protectSeen := by
  unfold nextTarget
  dsimp only
  split <;> rfl

/-- The rise of write-protect over the engine's own sector of platter C. -/
theorem exec_protectCut {k : Nat} (hl : s.drv.inp.writeProtect ≠ true) (hg : s.drv.writeGate = true)
    (hq : s.eng.sector = some (.C, k)) (hi : engineSlot s = some i) (hp : s.eng.phase = .inSector) :
    exec (.writeProtectChange true) s = .next (settle s (sectorWritten i true (protectCut s))) := by
  have hwl := dropWriteGate_leaves (protectTold true s)
  have hwi : engineSlot (dropWriteGate (protectTold true s)) = some i := by rw [hwl]; exact hi
  have hwp : (dropWriteGate (protectTold true s)).eng.phase = .inSector := by rw [hwl]; exact hp
  rw [exec_writeProtect hl, if_pos rfl, protectRises_cut hg hq, hwi]
  dsimp only
  rw [if_pos hwp]

theorem protect_goes_on {k : Nat} (hl : s.drv.inp.writeProtect ≠ true) (hg : s.drv.writeGate = true)
    (hq : s.eng.sector = some (.C, k)) (hi : engineSlot s = some i) (hp : s.eng.phase = .inSector)
    (he : s.eng.ending = none) (hm : s.eng.m + 1 < (s.slot i).sectors) :
    ∃ u more, exec (.writeProtectChange true) s = .next (settle s u) ∧ u.drv.writeGate = false ∧
      u.out = .sectorCut .C k :: more ∧ u.eng.written = s.eng.written + 1 ∧
      u.eng.protectSeen = some (s.eng.protectSeen.getD s.eng.m) ∧ GoesToNext (s.slot i) s.eng.m s u := by
  have hex := exec_protectCut hl hg hq hi hp
  obtain ⟨c1, c2, c3, c4⟩ := protectCut_fields hg hq
  generalize protectCut s = v at hex c1 c2 c3 c4
  have hvs : v.slot i = s.slot i := by unfold State.slot; rw [c1]
  have hvm : v.eng.m = s.eng.m := by rw [c4]; rfl
  have hve : v.eng.ending = none := by rw [c4]; exact he
  obtain ⟨g1, -, -, g4, -, g6⟩ := sectorWritten_next (i := i) hve (by rw [hvm, hvs]; exact hm) true
  obtain ⟨more, hmore⟩ := sectorWritten_grows (i := i) hve true
  have hps : (sectorWritten i true v).eng.protectSeen = v.eng.protectSeen := by
    rw [sectorWritten_eq hve, finishTarget_goes (by rw [(writtenState_fields i true v).2.1, hvm, hvs]; exact hm),
      nextTarget_protect]
    exact (refill_fields _ _ _).2.2.2.2.2.2
  rw [hvs, hvm] at g1
  refine ⟨_, more, hex, g6, by rw [hmore, c3]; rfl, g4.trans (by rw [c4]; rfl), hps.trans (by rw [c4]), ?_⟩
  unfold GoesToNext at g1 ⊢
  rw [c2] at g1
  exact g1

theorem protect_ends {k : Nat} (hl : s.drv.inp.writeProtect ≠ true) (hg : s.drv.writeGate = true)
    (hq : s.eng.sector = some (.C, k)) (hi : engineSlot s = some i) (hp : s.eng.phase = .inSector)
    (he : s.eng.ending = none) (hm : (s.slot i).sectors ≤ s.eng.m + 1) (hb : (s.eng.buf (s.eng.m + 1)).state ≠ .good) :
    ∃ u, exec (.writeProtectChange true) s = .next (settle s u) ∧ u.drv.writeGate = false ∧
      u.out = [.sectorCut .C k] ∧ (u.slot i).state = .posting ∧ (u.slot i).status = some .writeProtected ∧
      (u.slot i).instant = s.clk.count ∧ u.eng.work = none := by
  have hex := exec_protectCut hl hg hq hi hp
  obtain ⟨c1, c2, c3, c4⟩ := protectCut_fields hg hq
  generalize protectCut s = v at hex c1 c2 c3 c4
  have hvs : v.slot i = s.slot i := by unfold State.slot; rw [c1]
  have hvm : v.eng.m = s.eng.m := by rw [c4]; rfl
  have hve : v.eng.ending = none := by rw [c4]; exact he
  have hvi : engineSlot v = some i := (engineSlot_congr c1 (by rw [c4])).trans hi
  have hvl : (v.slot i).sectors ≤ v.eng.m + 1 := by rw [hvm, hvs]; exact hm
  have hvb : (v.eng.buf (v.eng.m + 1)).state ≠ .good := by rw [hvm, c4]; exact hb
  obtain ⟨t, ho, -, -⟩ := sectorWritten_last hvi hve hvl hvb true
  obtain ⟨t1, t2, t3, -, -⟩ := ho.told
  have hout : (sectorWritten i true v).out = v.out := by
    rw [sectorWritten_eq hve, finishTarget_eq, if_neg (by rw [(writtenState_fields i true v).2.1]; omega)]
    exact finishEnding_out _
  refine ⟨_, hex, (sectorWritten_gates hvi hve true).1, hout.trans c3, t1, ?_, t3.trans (by rw [c2]), by rw [ho.engine]; rfl⟩
  rw [t2, c4]
  rfl

theorem protect_finishing {k : Nat} (hl : s.drv.inp.writeProtect ≠ true) (hg : s.drv.writeGate = true)
    (hq : s.eng.sector = some (.C, k)) (hp : s.eng.phase = .finishing) :
    exec (.writeProtectChange true) s = .next (settle s
      { s with
        drv := { s.drv with inp := { s.drv.inp with writeProtect := true }, writeGate := false }
        out := [.sectorCut .C k] }) := by
  have hwl := dropWriteGate_leaves (protectTold true s)
  have ho := dropWriteGate_cuts (s := protectTold true s) hg hq
  rw [ho] at hwl
  have hwp : ¬ (dropWriteGate (protectTold true s)).eng.phase = .inSector := by
    rw [hwl]
    show ¬ s.eng.phase = _
    rw [hp]
    simp
  rw [exec_writeProtect hl, if_pos rfl, protectRises_cut hg hq]
  cases engineSlot (dropWriteGate (protectTold true s)) with
  | none => exact congrArg (fun u => Host.Outcome.next (settle s u)) hwl
  | some i => exact congrArg (fun u => Host.Outcome.next (settle s u)) ((if_neg hwp).trans hwl)

/-- Settles O59. -/
theorem cartridgeEventsAct : Obligations.CartridgeEventsAct := by
  unfold Obligations.CartridgeEventsAct
  refine ⟨fun c f s ho h => drive_opens ho h, fun s ho ha hl => open_resumes ho ha hl, fun e s ho => ?_,
    fun s ho hc hs => cartridge_closes ho hc hs, fun c ev f k s hev => ⟨fun ho => ?_, fun ho => exec_driveEvent hev ho⟩,
    fun level s hl => ⟨protect_quiet hl, ?_, ?_, ?_⟩⟩
  · rw [takeHeldEvent, takeDriveEvent_taken ho]
  · exact (exec_inputEvent hev).trans (congrArg (fun u => Host.Outcome.next (settle s u))
      (takeDriveEvent_held (s := told f k s) ho ev))
  · rintro i k m rfl hg hq hi hp he rfl hm
    exact protect_goes_on hl hg hq hi hp he hm
  · rintro i k m rfl hg hq hi hp he rfl hm hb
    exact protect_ends hl hg hq hi hp he hm hb
  · rintro k rfl hg hq hp
    exact protect_finishing hl hg hq hp

end Sys2Proof.Machine
end

section
/-! The engine takes the ACTIVE slot (O54), and what an arrival of the actuator does. -/

namespace Sys2Proof.Machine

variable {s t u v w : State} {i : Fin 12} {sl : Slot} {c : Nat}

theorem activeSlot_state (h : s.activeSlot = some i) : (s.slot i).state = .active := by
  have := List.find?_some h
  simpa using this

/-! ### An arrival -/

/-- What an arrival that has not been judged leaves: the request has begun, and no movement's span runs. -/
def arriving (s : State) : State := s.modEng (fun e => { e with begun := true, span := none })

theorem arrive_eq (hi : engineSlot s = some i) : arrive s =
    if (s.slot i).kind = some .seek then found .ok (arriving s)
    else if !s.eng.begun && (s.slot i).isKind Kind.diskWrite && (s.slot i).platter == some .C && s.drv.inp.writeProtect then
      found .writeProtected (arriving s)
    else rotate (s.slot i) (arriving s) := by
  unfold arrive
  rw [hi]
  rfl

/-- Write-protect found at the first arrival of a write of platter C (R116). -/
theorem protectedArrival_iff : (!s.eng.begun && sl.isKind Kind.diskWrite && sl.platter == some .C &&
    s.drv.inp.writeProtect) = true ↔ s.eng.begun = false ∧ sl.isKind Kind.diskWrite = true ∧ sl.platter = some .C ∧
      s.drv.inp.writeProtect = true := by
  simp [and_assoc]

theorem arrived_found {st : Status} (hs : SameWork s w) (hi : engineSlot w = some i) (hg : w.eng.anyGood = false) :
    RequestEnded s (found st (arriving w)) i st := by
  have ho := found_over st (arriving w) i hi hg
  exact hs.ended (ho.requestEnded rfl (fun _ => ⟨rfl, fun _ => rfl, rfl, rfl, rfl, rfl⟩) rfl rfl)

theorem diskWrite_not_seek (h : sl.isKind Kind.diskWrite = true) : sl.kind ≠ some .seek := by
  intro hk
  simp [Slot.isKind, hk, Kind.diskWrite] at h

theorem arrive_rotates (hi : engineSlot s = some i) (hk : (s.slot i).kind ≠ some .seek)
    (hn : (s.slot i).isKind Kind.diskWrite = false ∨ (s.slot i).platter ≠ some .C ∨ s.drv.inp.writeProtect = false ∨
      s.eng.begun = true) : arrive s = rotate (s.slot i) (arriving s) := by
  rw [arrive_eq hi, if_neg hk, if_neg]
  intro h
  obtain ⟨h1, h2, h3, h4⟩ := protectedArrival_iff.mp h
  rcases hn with hn | hn | hn | hn
  · exact Bool.false_ne_true (hn.symm.trans h2)
  · exact hn h3
  · exact Bool.false_ne_true (hn.symm.trans h4)
  · exact Bool.false_ne_true (h1.symm.trans hn)

/-- The actuator arrives in `w`, whose work is that of `s`. -/
theorem arrive_arrived (hs : SameWork s w) (hi : engineSlot w = some i) (hb : w.eng.begun = s.eng.begun)
    (hg : w.eng.anyGood = s.eng.anyGood) (hp : w.drv.inp.writeProtect = s.drv.inp.writeProtect) :
    Arrived s (arrive w) i := by
  have hsl := hs.result.slot i
  refine ⟨fun hk ha _ => ?_, fun hd hpl hw hbg ha _ => ?_, fun hk hn => ?_⟩
  · rw [arrive_eq hi, hsl, if_pos hk]
    exact arrived_found hs hi (hg.trans ha)
  · rw [arrive_eq hi, hsl, if_neg (diskWrite_not_seek hd),
      if_pos (protectedArrival_iff.mpr ⟨hb.trans hbg, hd, hpl, hp.trans hw⟩)]
    exact arrived_found hs hi (hg.trans ha)
  · rw [arrive_rotates hi (by rw [hsl]; exact hk) (by rw [hsl, hp, hb]; exact hn), hsl]
    refine ⟨rfl, rfl, rfl, hs.result.engine.2.2.1, hs.result.slots, ?_⟩
    show headOf _ (_ + w.eng.m) = _
    rw [hs.result.m]
    rfl

/-! ### The engine's taking of a slot (R113) -/

/-- The engine with slot `i` as its new work, before anything is done for it. -/
def taken (i : Fin 12) (s : State) : State := s.modEng (fun e =>
  { Engine.cleared e.abandoned with work := some (i, (s.slot i).tenure), target := some 0 })

theorem taken_engineSlot (ha : s.activeSlot = some i) : engineSlot (taken i s) = some i :=
  engineSlot_iff.mpr ⟨rfl, activeSlot_state ha⟩

theorem engineReady_takes (ha : s.activeSlot = some i) (hn : engineSlot s ≠ some i) (hp : s.eng.phase ≠ .finishing) :
    engineReady s = engineTakes i s := by
  unfold engineReady
  rw [ha]
  exact if_pos ⟨hp, hn⟩

/-- The kinds whose first buffer fills from memory when their request is taken (R121). -/
def Slot.prefetches (sl : Slot) : Prop := sl.kind = some .write ∨ sl.kind = some .contWrite ∨ sl.kind = some .check

theorem prefetches_iff : (sl.isKind Kind.transfers && !sl.isKind Kind.diskRead) = true ↔ sl.prefetches := by
  unfold Slot.prefetches Slot.isKind
  cases sl.kind with
  | none => simp
  | some k => cases k <;> simp [Kind.transfers, Kind.diskRead]

/-- The engine's new work with its first buffer filling where it prefetches. -/
def prefetching (i : Fin 12) (s : State) : State :=
  if (s.slot i).isKind Kind.transfers && !(s.slot i).isKind Kind.diskRead then (taken i s).modEng (fun e => e.fill 0)
  else taken i s

theorem prefetching_eq (i : Fin 12) (s : State) :
    prefetching i s = (taken i s).modEng (fun e => { e with buf0 := (prefetching i s).eng.buf0 }) ∧
      ((s.slot i).prefetches → (prefetching i s).eng.buf0 = ⟨.filling, 0, 0, []⟩) ∧
      (prefetching i s).eng.anyGood = false := by
  unfold prefetching
  split
  next h => exact ⟨rfl, fun _ => rfl, rfl⟩
  next h => exact ⟨rfl, fun hp => absurd (prefetches_iff.mpr hp) h, rfl⟩

theorem firstCylinder_eq (sl : Slot) : sl.firstCylinder =
    if sl.kind = some .seek then recCylinder sl.words else sl.start.getD 0 / 32 := rfl

/-- A request that is no RESTORE, taken in READY. -/
theorem engineTakes_ready (hs : s.drv.state = .ready) (hk : (s.slot i).kind ≠ some .restore) :
    engineTakes i s = if s.eng.abandoned.isSome then prefetching i s else beginRequest (prefetching i s) := by
  have hab : (prefetching i s).eng.abandoned = s.eng.abandoned := by
    rw [(prefetching_eq i s).1]
    rfl
  unfold engineTakes
  show (match s.drv.state with | .ready => _ | .faulted => _ | _ => _) = _
  rw [hs]
  dsimp only
  rw [if_neg hk, ← hab]
  rfl

theorem beginRequest_eq (hi : engineSlot s = some i) : beginRequest s =
    if s.drv.cyl = (s.slot i).firstCylinder then arrive s else startSeek (s.slot i).firstCylinder false s := by
  unfold beginRequest
  rw [hi]

theorem prefetching_engineSlot (ha : s.activeSlot = some i) : engineSlot (prefetching i s) = some i := by
  refine (engineSlot_congr ?_ ?_).trans (taken_engineSlot ha)
  · rw [(prefetching_eq i s).1]; rfl
  · rw [(prefetching_eq i s).1]; rfl

theorem taken_seeks (ha : s.activeSlot = some i) (hs : s.drv.state = .ready) (hk : (s.slot i).kind ≠ some .restore)
    (hab : s.eng.abandoned = none) (hc : s.drv.cyl ≠ (s.slot i).firstCylinder) :
    engineTakes i s = startSeek (s.slot i).firstCylinder false (prefetching i s) := by
  have hp := prefetching_engineSlot ha
  have he := (prefetching_eq i s).1
  rw [engineTakes_ready hs hk, hab, if_neg (by simp), beginRequest_eq hp]
  generalize prefetching i s = x at he
  have hx : x.slot i = s.slot i := by rw [he]; rfl
  rw [hx]
  refine if_neg ?_
  rw [he]
  exact hc

theorem taken_arrives (ha : s.activeSlot = some i) (hs : s.drv.state = .ready) (hk : (s.slot i).kind ≠ some .restore)
    (hab : s.eng.abandoned = none) (hc : s.drv.cyl = (s.slot i).firstCylinder) :
    engineTakes i s = arrive (prefetching i s) := by
  have hp := prefetching_engineSlot ha
  have he := (prefetching_eq i s).1
  rw [engineTakes_ready hs hk, hab, if_neg (by simp), beginRequest_eq hp]
  generalize prefetching i s = x at he
  have hx : x.slot i = s.slot i := by rw [he]; rfl
  rw [hx]
  refine if_pos ?_
  rw [he]
  exact hc

/-- A request that is no RESTORE, taken in READY (R113, R116). -/
theorem takes_ready (ha : s.activeSlot = some i) (hsl : sl = s.slot i) (hu : u = engineTakes i s)
    (hc : c = (if sl.kind = some .seek then recCylinder sl.words else sl.start.getD 0 / 32))
    (hs : s.drv.state = .ready) (hk : sl.kind ≠ some .restore) :
    (sl.kind = some .write ∨ sl.kind = some .contWrite ∨ sl.kind = some .check → s.eng.abandoned ≠ none ∨ s.drv.cyl ≠ c →
      u.eng.buf0 = ⟨.filling, 0, 0, []⟩) ∧
    (s.eng.abandoned ≠ none → u.eng.phase = .idle ∧ u.eng.begun = false ∧ u.eng.work = some (i, sl.tenure) ∧
      u.out = s.out ∧ u.eng.abandoned = s.eng.abandoned ∧ u.slots = s.slots ∧ u.drv = s.drv) ∧
    (s.eng.abandoned = none → s.drv.cyl = c → s.drv.writeGate = false →
      (sl.kind = some .seek → (u.slot i).state = .posting ∧ (u.slot i).status = some .ok) ∧
      (sl.isKind Kind.diskWrite = true → sl.platter = some .C → s.drv.inp.writeProtect = true →
        (u.slot i).state = .posting ∧ (u.slot i).status = some .writeProtected) ∧
      (sl.kind ≠ some .seek → sl.isKind Kind.diskWrite = false ∨ sl.platter ≠ some .C ∨
          s.drv.inp.writeProtect = false →
        u.eng.phase = .rotating ∧ u.eng.begun = true ∧ u.eng.target = some 0 ∧ u.slots = s.slots ∧
          u.drv.headSel = headOf (sl.platter.getD .C) (sl.start.getD 0) ∧
          (sl.kind = some .write ∨ sl.kind = some .contWrite ∨ sl.kind = some .check →
            u.eng.buf0 = ⟨.filling, 0, 0, []⟩))) ∧
    (s.eng.abandoned = none → s.drv.cyl ≠ c →
      u.eng.phase = .seeking ∧ u.eng.moveTo = c ∧ u.eng.span = some ⟨s.clk.count + 64, false⟩ ∧
        u.eng.seekRetry = false ∧ u.drv.cylAddr = c ∧ u.drv.move = some (.seek c) ∧ u.slots = s.slots ∧
        u.out = s.out ++ [.seekStrobe c]) := by
  rw [← firstCylinder_eq] at hc
  subst hsl hu hc
  have hpi := prefetching_engineSlot ha
  obtain ⟨he, hbuf, hgood⟩ := prefetching_eq i s
  have hwaits : s.eng.abandoned ≠ none → engineTakes i s = prefetching i s := fun hab => by
    rw [engineTakes_ready hs hk, if_pos (Option.isSome_iff_ne_none.mpr hab)]
  have hseeks := taken_seeks ha hs hk
  have harr := taken_arrives ha hs hk
  generalize prefetching i s = x at hpi he hbuf hgood hwaits hseeks harr
  refine ⟨fun hp hor => ?_, fun hab => ?_, fun hab hcy hw => ⟨fun hse => ?_, fun hd hpl hwp => ?_, fun hns hnp => ?_⟩,
    fun hab hcy => ?_⟩
  · by_cases hab : s.eng.abandoned = none
    · rw [hseeks hab (hor.resolve_left (fun h => h hab))]
      exact hbuf hp
    · rw [hwaits hab]
      exact hbuf hp
  · rw [hwaits hab, he]
    exact ⟨rfl, rfl, rfl, rfl, rfl, rfl, rfl⟩
  all_goals have hxs : x.slot i = s.slot i := by rw [he]; rfl
  · rw [harr hab hcy]
    obtain ⟨h1, -, -⟩ := arrive_arrived (SameWork.refl x) hpi rfl rfl rfl
    obtain ⟨p1, p2, -⟩ := (h1 (by rw [hxs]; exact hse) hgood (by rw [he]; exact hw)).posted
    exact ⟨p1, p2⟩
  · rw [harr hab hcy]
    obtain ⟨-, h2, -⟩ := arrive_arrived (SameWork.refl x) hpi rfl rfl rfl
    obtain ⟨p1, p2, -⟩ := (h2 (by rw [hxs]; exact hd) (by rw [hxs]; exact hpl) (by rw [he]; exact hwp) (by rw [he]; rfl) hgood
      (by rw [he]; exact hw)).posted
    exact ⟨p1, p2⟩
  · rw [harr hab hcy, arrive_rotates hpi (by rw [hxs]; exact hns) (by
      rw [hxs, show x.drv = s.drv by rw [he]; rfl]
      exact hnp.imp_right (fun h => h.imp_right .inl)), hxs]
    refine ⟨rfl, rfl, ?_, ?_, ?_, hbuf⟩
    · show x.eng.target = some 0
      rw [he]; rfl
    · show x.slots = s.slots
      rw [he]; rfl
    · show headOf _ ((s.slot i).start.getD 0 + x.eng.m) = _
      rw [he]
      rfl
  · rw [hseeks hab hcy]
    refine ⟨rfl, rfl, ?_, rfl, rfl, rfl, ?_, ?_⟩
    · show some (spanFrom x.clk.count 64) = _
      rw [he]; rfl
    · show x.slots = s.slots
      rw [he]; rfl
    · show x.out ++ _ = _
      rw [he]; rfl

/-! ### A RESTORE in FAULTED, and the other states -/

/-- A report to a RESTORE taken in FAULTED that goes on in RECALIBRATING or SPINNING_UP (R133). -/
theorem reportDrive_recovers (hi : engineSlot s = some i) (hp : s.eng.phase ≠ .finishing)
    (hk : (s.slot i).kind = some .restore) (hr : s.eng.restore = some .faulted)
    (hs : s.drv.state = .recalibrating ∨ s.drv.state = .spinningUp) :
    reportDrive s = s.modEng (fun e => { e with abandoned := none }) := by
  have hslot : engineSlot (s.modEng (fun e => { e with abandoned := none })) = some i := hi
  unfold reportDrive
  dsimp only
  rw [if_neg (show ¬ s.drv.state = .ready by rcases hs with hs | hs <;> rw [hs] <;> simp), if_neg (by exact fun h => hp h.1),
    hslot]
  dsimp only
  rw [if_pos (by exact hk)]
  unfold reportRestore
  rw [show (s.modEng (fun e => { e with abandoned := none })).eng.restore = _ from hr]
  rcases hs with hs | hs <;> rw [show (s.modEng (fun e => { e with abandoned := none })).drv.state = _ from hs]

/-- A RESTORE taken in FAULTED, with its fault reset out (R133, R162). -/
def recovering (i : Fin 12) (s : State) : State :=
  (((taken i s).modEng (fun e => { e with phase := .restoring, restore := some .faulted })).modDrv
    (fun d => { d with recovery := true })).emit .faultReset

theorem engineTakes_recovers (hs : s.drv.state = .faulted) (hk : (s.slot i).kind = some .restore) :
    engineTakes i s = if s.drv.inp.fault then startStateSpan 256 (recovering i s)
      else if s.drv.inp.upToSpeed then enterRecalibrating (recovering i s) else enterSpinningUp (recovering i s) := by
  unfold engineTakes
  show (match s.drv.state with | .ready => _ | .faulted => _ | _ => _) = _
  rw [hs]
  exact if_pos hk

/-- The entry `w` of a drive state goes on with the RESTORE. -/
theorem recovering_runs {st : DriveState} {cause : Nat} {sp : Option Span} {o : List Output}
    (ha : s.activeSlot = some i) (hk : (s.slot i).kind = some .restore) (h : Entering (recovering i s) w st cause sp o)
    (hst : st = .recalibrating ∨ st = .spinningUp) :
    reportDrive w = w.modEng (fun e => { e with abandoned := none }) ∧ w.eng.phase = .restoring ∧ w.slots = s.slots := by
  have hr := h.rest
  have hi : engineSlot (recovering i s) = some i := engineSlot_iff.mpr ⟨rfl, activeSlot_state ha⟩
  have hwp : w.eng.phase = .restoring := by rw [hr]; rfl
  have hwr : w.eng.restore = some .faulted := by rw [hr]; rfl
  have hws : w.slots = s.slots := by rw [hr]; rfl
  refine ⟨reportDrive_recovers (h.same.engineSlot.trans hi) (by rw [hwp]; simp) ?_ hwr ?_, hwp, hws⟩
  · unfold State.slot
    rw [hws]
    exact hk
  · rw [h.state.1]
    exact hst

theorem takes_faulted (ha : s.activeSlot = some i) (hs : s.drv.state = .faulted) (hk : (s.slot i).kind = some .restore)
    (hu : u = engineTakes i s) :
    (s.drv.inp.fault = true → u.out = s.out ++ [.faultReset] ∧ u.drv.state = .faulted ∧ u.drv.recovery = true ∧
      u.drv.span = some ⟨s.clk.count + 256, false⟩ ∧ u.eng.phase = .restoring ∧ u.slots = s.slots) ∧
    (s.drv.inp.fault = false → s.drv.inp.upToSpeed = true → u.out = s.out ++ [.faultReset, .recalibrate] ∧
      u.drv.state = .recalibrating ∧ u.drv.recovery = true ∧ u.drv.span = some ⟨s.clk.count + 256, false⟩ ∧
      u.eng.phase = .restoring ∧ u.slots = s.slots) ∧
    (s.drv.inp.fault = false → s.drv.inp.upToSpeed = false → u.out = s.out ++ [.faultReset, .spindleStart] ∧
      u.drv.state = .spinningUp ∧ u.drv.recovery = true ∧ u.drv.span = some ⟨s.clk.count + 25600, false⟩ ∧
      u.eng.phase = .restoring ∧ u.slots = s.slots) := by
  rw [engineTakes_recovers hs hk] at hu
  refine ⟨fun hf => ?_, fun hf hup => ?_, fun hf hup => ?_⟩
  · rw [hf, if_pos rfl] at hu
    subst hu
    exact ⟨rfl, hs, rfl, rfl, rfl, rfl⟩
  · rw [hf, hup, if_neg Bool.false_ne_true, if_pos rfl] at hu
    have h := beforeRecal_entering (recovering i s)
    obtain ⟨h1, h2, h3⟩ := recovering_runs ha hk h (.inl rfl)
    obtain ⟨-, -, -, -, h4⟩ := enterRecalibrating_keeps_told (recovering i s)
    obtain ⟨e1, e2, e3⟩ := h.state
    have hrec : u.drv.recovery = true := by rw [hu, h4 hf]; rfl
    rw [enterRecalibrating_eq, show (recovering i s).drv.inp.fault = false from hf, if_neg Bool.false_ne_true, h1] at hu
    subst hu
    refine ⟨?_, e1, hrec, e3, h2, h3⟩
    show (beforeRecal (recovering i s)).out = _
    rw [h.rest]
    exact List.append_assoc s.out [.faultReset] [.recalibrate]
  · rw [hf, hup, if_neg Bool.false_ne_true, if_neg Bool.false_ne_true] at hu
    have h := beforeSpin_entering (recovering i s)
    obtain ⟨h1, h2, h3⟩ := recovering_runs ha hk h (.inr rfl)
    obtain ⟨-, -, h4⟩ := enterSpinningUp_keeps_told (recovering i s)
    obtain ⟨e1, e2, e3⟩ := h.state
    have hrec : u.drv.recovery = true := by rw [hu, h4 hf]; rfl
    rw [enterSpinningUp_eq, show (recovering i s).drv.inp.fault = false from hf,
      show (recovering i s).drv.inp.upToSpeed = false from hup, if_neg Bool.false_ne_true,
      if_neg Bool.false_ne_true, h1] at hu
    subst hu
    refine ⟨?_, e1, hrec, e3, h2, h3⟩
    show (beforeSpin (recovering i s)).out = _
    rw [h.rest]
    exact List.append_assoc s.out [.faultReset] [.spindleStart]

/-- A request that finds the drive in no state for it ends at once. -/
theorem taken_interrupted (ha : s.activeSlot = some i) (st : Status)
    (hc : ∀ p j, (s.tap.get (s.slot i).side).arb = .part p → p.kind = .data j → p.abandoned = true) :
    ((interrupt st (taken i s)).slot i).state = .posting ∧ ((interrupt st (taken i s)).slot i).status = some st ∧
      ((interrupt st (taken i s)).slot i).instant = s.clk.count := by
  have hat : AtWork (taken i s) i := ⟨taken_engineSlot ha, Phase.noConfusion, rfl, hc⟩
  obtain ⟨v, ho, -⟩ := interrupt_over hat.slot hat.ending hat.idle st
  obtain ⟨t1, t2, t3, -, -⟩ := ho.told
  exact ⟨t1, t2, t3⟩

/-- Settles O54. -/
theorem engineTakesTheActiveSlot : Obligations.EngineTakesTheActiveSlot := by
  unfold Obligations.EngineTakesTheActiveSlot
  intro i sl c s u ha hn hp hsl hu hc
  rw [engineReady_takes ha hn hp] at hu
  refine ⟨fun hs hk => ?_, fun hs hk => takes_ready ha hsl hu hc hs hk, fun hs hk => ?_, fun hcy => ⟨fun hs hk => ?_,
    fun h1 h2 => ?_⟩⟩
  · subst hsl hu
    unfold engineTakes
    show (match s.drv.state with | .ready => _ | .faulted => _ | _ => _) = _
    rw [hs]
    exact if_pos hk
  · subst hsl
    exact takes_faulted ha hs hk hu
  · subst hsl hu
    have he : engineTakes i s = interrupt .driveFault (taken i s) := by
      unfold engineTakes
      show (match s.drv.state with | .ready => _ | .faulted => _ | _ => _) = _
      rw [hs]
      exact if_neg hk
    rw [he]
    exact taken_interrupted ha .driveFault hcy
  · subst hsl hu
    have he : engineTakes i s = interrupt .notReady (taken i s) := by
      unfold engineTakes
      show (match s.drv.state with | .ready => _ | .faulted => _ | _ => _) = _
      split
      next h => exact absurd h h1
      next h => exact absurd h h2
      all_goals rfl
    rw [he]
    exact taken_interrupted ha .notReady hcy

end Sys2Proof.Machine
end

section
/-! A movement of the actuator ends (O55). -/

namespace Sys2Proof.Machine

variable {s t u v w : State} {i : Fin 12} {c : Nat} {e : Word}

/-! ### What the engine does at an arrival, with a request or without -/

theorem engineWorks_any (s : State) : ∃ i, EngineWorks i s s := by
  refine ⟨(s.eng.work.map Prod.fst).getD 0, rfl, rfl, rfl, fun w hw => ?_, fun j => SpanFollows.refl _, fun j _ _ => rfl,
    fun _ => rfl⟩
  rw [hw]
  rfl

theorem arrive_works (h : EngineWorks i s t) : EngineWorks i s (arrive t) := by
  cases hk : engineSlot t with
  | none =>
    unfold arrive
    rw [hk]
    exact h
  | some k =>
    have ha : EngineWorks i s (arriving t) := h.modEng rfl rfl
    rw [arrive_eq hk]
    split
    · exact found_works ha _
    · split
      · exact found_works ha _
      · exact rotate_works ha _

theorem beginRequest_works (h : EngineWorks i s t) : EngineWorks i s (beginRequest t) := by
  unfold beginRequest
  split
  · exact h
  · dsimp only
    split
    · exact arrive_works h
    · exact startSeek_works h _ _

theorem movementEnded_works (h : EngineWorks i s t) : EngineWorks i s (movementEnded t) := by
  unfold movementEnded
  split
  · exact arrive_works h
  · split
    · exact arrive_works h
    · exact startSeek_works h _ _
  · split
    · exact endRequest_works h _ _
    · exact h
  · exact h

/-- The state in which the engine learns that on cylinder rose: no movement is abandoned any more. -/
def settledMove (s : State) : State := (s.modDrv cylinderRecorded).modEng (fun e => { e with abandoned := none })

/-- The engine's part of a rise of on cylinder. -/
def engineRose (s : State) : State :=
  if s.drv.move.isSome ∧ (abandonedEnded (s.modDrv cylinderRecorded)).eng.phase = s.eng.phase then
    movementEnded (abandonedEnded (s.modDrv cylinderRecorded))
  else abandonedEnded (s.modDrv cylinderRecorded)

theorem onCylinderRose_eq (h : s.drv.state ≠ .offline) : onCylinderRose s = readyIfHomed (engineRose s) := if_neg h

theorem settledMove_same (h : s.eng.abandoned = none) : s.modDrv cylinderRecorded = settledMove s := by
  show _ = ({ s.modDrv cylinderRecorded with eng := { s.eng with abandoned := none } } : State)
  rw [← h]
  rfl

theorem abandonedEnded_works (h : EngineWorks i (settledMove s) (settledMove s)) :
    EngineWorks i (settledMove s) (abandonedEnded (s.modDrv cylinderRecorded)) := by
  unfold abandonedEnded
  by_cases ha : s.eng.abandoned = none
  · rw [if_pos (by exact ha ▸ rfl), settledMove_same ha]
    exact h
  · rw [if_neg (by exact fun h => ha (Option.isNone_iff_eq_none.mp h))]
    dsimp only
    split
    · exact beginRequest_works h
    · exact h

theorem engineRose_works (s : State) : ∃ i, EngineWorks i (settledMove s) (engineRose s) := by
  obtain ⟨i, h⟩ := engineWorks_any (settledMove s)
  refine ⟨i, ?_⟩
  unfold engineRose
  split
  · exact movementEnded_works (abandonedEnded_works h)
  · exact abandonedEnded_works h

theorem readyIfHomed_leaves (s : State) : (readyIfHomed s).intake = s.intake ∧ (readyIfHomed s).map = s.map ∧
    (readyIfHomed s).counter = s.counter ∧ (readyIfHomed s).clk = s.clk ∧ (readyIfHomed s).drv.inp = s.drv.inp ∧
    (readyIfHomed s).drv.cyl = s.drv.cyl ∧ (readyIfHomed s).drv.mounted = s.drv.mounted := by
  unfold readyIfHomed
  split
  · obtain ⟨r, g, hd⟩ := enterReady_drv s
    have hm := (enterReady_moves (.refl s)).rest
    rw [hd]
    generalize enterReady s = u at hm
    rw [hm]
    exact ⟨rfl, rfl, rfl, rfl, rfl, rfl, rfl⟩
  · exact ⟨rfl, rfl, rfl, rfl, rfl, rfl, rfl⟩

/-- What a rise of on cylinder records, and the blocks that it leaves. -/
theorem onCylinderRose_leaves (h : s.drv.state ≠ .offline) :
    (onCylinderRose s).intake = s.intake ∧ (onCylinderRose s).map = s.map ∧
    (onCylinderRose s).counter = s.counter ∧ (onCylinderRose s).clk = s.clk ∧ (onCylinderRose s).drv.inp = s.drv.inp ∧
    (onCylinderRose s).drv.cyl = (cylinderRecorded s.drv).cyl ∧ (onCylinderRose s).drv.mounted = s.drv.mounted := by
  obtain ⟨i, hw⟩ := engineRose_works s
  obtain ⟨h1, h2, h3, h4, h5, h6, h7⟩ := readyIfHomed_leaves (engineRose s)
  rw [onCylinderRose_eq h, h1, h2, h3, h4, h5, h6, h7, hw.drive]
  have hr := hw.rest
  generalize engineRose s = u at hr
  rw [hr]
  exact ⟨rfl, rfl, rfl, rfl, rfl, rfl, rfl⟩

/-- With the drive READY the engine's part is all there is. -/
theorem onCylinderRose_ready_same (h : s.drv.state = .ready) : onCylinderRose s = engineRose s ∧
    (engineRose s).pres = s.pres ∧ (engineRose s).eng.abandoned = none := by
  obtain ⟨i, hw⟩ := engineRose_works s
  have hst : (engineRose s).drv.state = .ready := by rw [hw.drive]; exact h
  have hp : (engineRose s).pres = s.pres := by
    have hr := hw.rest
    generalize engineRose s = u at hr
    rw [hr]
    rfl
  refine ⟨?_, hp, hw.abandoned⟩
  rw [onCylinderRose_eq (by rw [h]; simp)]
  exact if_neg fun hc => by rw [hst] at hc; cases hc.1

/-! ### The engine's own movement -/

theorem engineRose_own (ha : s.eng.abandoned = none) (hm : s.drv.move ≠ none) :
    engineRose s = movementEnded (s.modDrv cylinderRecorded) := by
  have hab : abandonedEnded (s.modDrv cylinderRecorded) = s.modDrv cylinderRecorded := if_pos (by exact ha ▸ rfl)
  unfold engineRose
  rw [hab]
  exact if_pos ⟨Option.isSome_iff_ne_none.mpr hm, rfl⟩

/-- A state whose drive alone has been told something has the same work. -/
theorem modDrv_same {f : Drive → Drive} (hs : SameWork s t) (hg : (f t.drv).writeGate = t.drv.writeGate) :
    SameWork s (t.modDrv f) :=
  ⟨⟨hs.result.slots, hs.result.fences, hs.result.engine⟩, hs.work, hs.cycles, hg.trans hs.gate, hs.clock, hs.queue⟩

/-! ### A request that waited for an abandoned movement -/

theorem movementEnded_idle (h : s.eng.phase = .idle) : movementEnded s = s := by
  unfold movementEnded
  rw [h]

theorem engineRose_waited (ha : s.eng.abandoned ≠ none) (hp : s.eng.phase = .idle) (hb : s.eng.begun = false)
    (he : s.eng.ending = none) : engineRose s = beginRequest (settledMove s) := by
  have hab : abandonedEnded (s.modDrv cylinderRecorded) = beginRequest (settledMove s) := by
    unfold abandonedEnded
    rw [if_neg (by exact fun h => ha (Option.isNone_iff_eq_none.mp h))]
    exact if_pos ⟨hp, hb, he⟩
  unfold engineRose
  rw [hab, hp]
  split
  next h => exact movementEnded_idle h.2
  · rfl

/-- On cylinder told, before the controller acts on it. -/
def cylinderTold (s : State) : State := told { s.drv.inp with onCylinder := true } s.clk s

theorem cylinderTold_same (s : State) : SameWork s ((cylinderTold s).modDrv cylinderRecorded) :=
  modDrv_same (told_same rfl) rfl

theorem settledMove_work (s : State) : SameWork s (settledMove (cylinderTold s)) :=
  ⟨⟨rfl, fun _ => rfl, rfl, rfl, rfl, rfl⟩, ⟨rfl, rfl, rfl⟩, fun _ => rfl, rfl, rfl, rfl⟩

theorem settledMove_engine (s : State) : (settledMove (cylinderTold s)).eng.begun = s.eng.begun ∧
    (settledMove (cylinderTold s)).eng.anyGood = s.eng.anyGood := ⟨rfl, rfl⟩

/-- What the start of a seek leaves behind, whatever state it finds. -/
theorem startSeek_seeks (c : Nat) (r : Bool) (s : State) :
    (startSeek c r s).eng.phase = .seeking ∧ (startSeek c r s).eng.moveTo = c ∧ (startSeek c r s).eng.seekRetry = r ∧
    (startSeek c r s).eng.span = some ⟨s.clk.count + 64, false⟩ ∧ (startSeek c r s).drv.cylAddr = c ∧
    (startSeek c r s).drv.move = some (.seek c) ∧ (startSeek c r s).out = s.out ++ [.seekStrobe c] ∧
    (startSeek c r s).slots = s.slots ∧ (startSeek c r s).eng.buf0 = s.eng.buf0 ∧
    (startSeek c r s).eng.buf1 = s.eng.buf1 := ⟨rfl, rfl, rfl, rfl, rfl, rfl, rfl, rfl, rfl, rfl⟩

theorem own_movement (hi : engineSlot s = some i) (ha : s.eng.abandoned = none) (hm : s.drv.move ≠ none)
    (hv : v = engineRose (cylinderTold s)) :
    (s.eng.phase = .seeking ∨ (s.eng.phase = .recalWait ∧ s.eng.moveTo = 0) → Arrived s v i) ∧
    (s.eng.phase = .recalWait → s.eng.moveTo ≠ 0 → v.eng.phase = .seeking ∧ v.eng.seekRetry = true ∧
      v.eng.span = some ⟨s.clk.count + 64, false⟩ ∧ v.drv.cylAddr = s.eng.moveTo ∧
      v.drv.move = some (.seek s.eng.moveTo) ∧ v.out = [.seekStrobe s.eng.moveTo] ∧ v.slots = s.slots) ∧
    (s.eng.phase = .restoring → s.eng.restore = some .ready → RequestEnded s v i .ok) := by
  rw [engineRose_own (s := cylinderTold s) ha hm] at hv
  have hs := cylinderTold_same s
  have hwi : engineSlot ((cylinderTold s).modDrv cylinderRecorded) = some i := hi
  have hph : ((cylinderTold s).modDrv cylinderRecorded).eng.phase = s.eng.phase := rfl
  unfold movementEnded at hv
  rw [hph] at hv
  refine ⟨fun h => ?_, fun hp hmv => ?_, fun hp hr => ?_⟩
  · have hva : v = arrive ((cylinderTold s).modDrv cylinderRecorded) := by
      rcases h with h | ⟨h, h0⟩
      · rw [h] at hv
        exact hv
      · rw [h] at hv
        exact hv.trans (if_pos h0)
    rw [hva]
    exact arrive_arrived hs hwi rfl rfl rfl
  · rw [hp] at hv
    rw [hv.trans (if_neg hmv)]
    obtain ⟨h1, -, h3, h4, h5, h6, h7, h8, -, -⟩ :=
      startSeek_seeks s.eng.moveTo true ((cylinderTold s).modDrv cylinderRecorded)
    exact ⟨h1, h3, h4, h5, h6, h7, h8.trans hs.result.slots⟩
  · rw [hp] at hv
    rw [hv.trans (if_pos hr)]
    have ho := endRequest_over hwi .ok s.clk.count
    exact hs.ended (ho.requestEnded rfl (fun _ => ⟨rfl, fun _ => rfl, rfl, rfl, rfl, rfl⟩) rfl rfl)

theorem waited_movement (hi : engineSlot s = some i) (ha : s.eng.abandoned ≠ none) (hp : s.eng.phase = .idle)
    (hb : s.eng.begun = false) (he : s.eng.ending = none) (hc : c = (s.slot i).firstCylinder)
    (hv : v = engineRose (cylinderTold s)) :
    ((settledMove (cylinderTold s)).drv.cyl = c → Arrived s v i) ∧
    ((settledMove (cylinderTold s)).drv.cyl ≠ c → v.eng.phase = .seeking ∧ v.eng.moveTo = c ∧ v.eng.seekRetry = false ∧
      v.eng.span = some ⟨s.clk.count + 64, false⟩ ∧ v.drv.cylAddr = c ∧ v.drv.move = some (.seek c) ∧
      v.out = [.seekStrobe c] ∧ v.slots = s.slots ∧ v.eng.buf0 = s.eng.buf0 ∧ v.eng.buf1 = s.eng.buf1) := by
  have hwi : engineSlot (settledMove (cylinderTold s)) = some i := hi
  rw [engineRose_waited (s := cylinderTold s) ha hp hb he, beginRequest_eq hwi,
    show (settledMove (cylinderTold s)).slot i = s.slot i from rfl, ← hc] at hv
  refine ⟨fun h => ?_, fun h => ?_⟩
  · obtain ⟨hb, hg⟩ := settledMove_engine s
    rw [hv.trans (if_pos h)]
    exact arrive_arrived (settledMove_work s) hwi hb hg rfl
  · rw [hv.trans (if_neg h)]
    obtain ⟨h1, h2, h3, h4, h5, h6, h7, h8, h9, h10⟩ := startSeek_seeks c false (settledMove (cylinderTold s))
    exact ⟨h1, h2, h3, h4, h5, h6, h7, h8.trans (settledMove_work s).result.slots, h9, h10⟩

/-- Settles O55. -/
theorem movementsEnd : Obligations.MovementsEnd := by
  unfold Obligations.MovementsEnd
  refine ⟨fun e s hp hsp hr => ?_, fun s hc ho => ?_⟩
  · refine (runIf_true (by simp [seekSpanEnded, hp, hsp, spanReached])).trans ?_
    rw [show seekTimedOut s.begun = _ from if_neg (by exact hr ▸ Bool.false_ne_true)]
    rfl
  · have hev : InputEvent s .onCylinderRise .onCylinderRise { s.drv.inp with onCylinder := true } s.clk := by
      simp [InputEvent, hc]
    have hex : exec .onCylinderRise s = .next (settle s (reconcileDrive (onCylinderRose (cylinderTold s)))) :=
      (exec_told hev ho).trans rfl
    by_cases hoff : s.drv.state = .offline
    · have hd : onCylinderRose (cylinderTold s) = cylinderTold s := if_pos hoff
      refine ⟨cylinderTold s, hex.trans (by rw [hd]),
        rfl, fun _ => ⟨rfl, rfl⟩, fun h => absurd hoff h, rfl, rfl, rfl, rfl, rfl, fun h => ?_⟩
      rw [hoff] at h
      cases h
    · obtain ⟨l1, l2, l3, l4, l5, l6, l7⟩ := onCylinderRose_leaves (s := cylinderTold s) hoff
      refine ⟨onCylinderRose (cylinderTold s), hex, l5, fun h => absurd h hoff,
        fun _ => ⟨fun c hm => ?_, fun hm => ?_, fun hm => ?_⟩, l1, l2, l3, l4, l7, fun hr => ?_⟩
      · rw [l6]
        simp [cylinderRecorded, cylinderTold, told, hm]
      · rw [l6]
        simp [cylinderRecorded, cylinderTold, told, hm]
      · rw [l6]
        simp [cylinderRecorded, cylinderTold, told, hm]
      · obtain ⟨r1, r2, r3⟩ := onCylinderRose_ready_same (s := cylinderTold s) hr
        refine ⟨by rw [r1, r2]; rfl, by rw [r1]; exact r3, fun i hi ha hm => own_movement hi ha hm r1,
          fun i c hi ha hp hb he hcc => ?_⟩
        rw [l6]
        exact waited_movement hi ha hp hb he (by rw [firstCylinder_eq]; exact hcc) r1

end Sys2Proof.Machine
end

section
/-! The words the part reads and computes (O60). -/

namespace Sys2Proof.Machine

variable {s : State} {sl : Slot} {w : Word} {k : Nat}

/-! ### The record's fields (R20 to R23) -/

/-- A bit of a word, by the word's value. -/
theorem getLsbD_iff_div (w : Word) (k : Nat) : w.getLsbD k = true ↔ w.toNat / 2 ^ k % 2 = 1 := by
  rw [BitVec.getLsbD, Nat.testBit_eq_decide_div_mod_eq, decide_eq_true_iff]

/-- A word's low field. -/
theorem field_low (w : Word) (len : Nat) : field w 0 len = w.toNat % 2 ^ len := by
  rw [field_toNat, pow_zero, Nat.div_one]

theorem recKind_of_code (r : List Word) {n : Nat} (h : (r.getD 0 0).toNat / 4096 = n) : recKind r =
    match (generalizing := false) n with
    | 0 => some .read
    | 1 => some .write
    | 2 => some .check
    | 3 => some .seek
    | 4 => some .contRead
    | 5 => some .contWrite
    | 6 => some .lock
    | 7 => some .unlock
    | 8 => some .mountAck
    | 9 => some .restore
    | _ => none := by
  rw [← h, ← field_top]
  rfl

theorem recKind_unknown (r : List Word) (h : 10 ≤ (r.getD 0 0).toNat / 4096) : recKind r = none := by
  obtain ⟨n, hn⟩ := Nat.exists_eq_add_of_le h
  exact recKind_of_code r (hn.trans (Nat.add_comm 10 n))

theorem recClass_read (r : List Word) : recClass r =
    if (r.getD 0 0).toNat / 1024 % 4 = 3 then 2 else (r.getD 0 0).toNat / 1024 % 4 := by
  unfold recClass
  rw [field_toNat]
  show min 2 ((r.getD 0 0).toNat / 1024 % 4) = _
  split <;> omega

theorem recTag_read (r : List Word) : recTag r = (r.getD 2 0).toNat / 1024 := by
  have := (r.getD 2 0).isLt
  unfold recTag
  rw [field_toNat]
  show (r.getD 2 0).toNat / 1024 % 64 = _
  omega

theorem recSignalWidth_read (r : List Word) (v : Nat) (hv : v = (if (r.getD 8 0).toNat / 16 % 16 = 0 then 1
      else if 8 < (r.getD 8 0).toNat / 16 % 16 then 8 else (r.getD 8 0).toNat / 16 % 16)) :
    recSignalWidth r = if 16 < (r.getD 8 0).toNat % 16 + v then 16 - (r.getD 8 0).toNat % 16 else v := by
  have hw : min 8 (max 1 ((r.getD 8 0).toNat / 16 % 16)) = v := by
    rw [hv]
    split
    · omega
    · split <;> omega
  unfold recSignalWidth recSignalOffset
  rw [field_toNat, field_low]
  show min (min 8 (max 1 ((r.getD 8 0).toNat / 16 % 16))) (16 - (r.getD 8 0).toNat % 16) = _
  rw [hw]
  split <;> omega

theorem min_eq_ite (a b : Nat) : min a b = if a < b then a else b := by
  split <;> omega

theorem recordRead (r : List Word) : RecordRead r (fun k => (r.getD k 0).toNat) where
  kind := ⟨recKind_of_code r, recKind_of_code r, recKind_of_code r, recKind_of_code r, recKind_of_code r,
    recKind_of_code r, recKind_of_code r, recKind_of_code r, recKind_of_code r, recKind_of_code r, recKind_unknown r⟩
  cls := recClass_read r
  fenceWait := getLsbD_iff_div _ 9
  dropIfLate := getLsbD_iff_div _ 8
  linkCondition := field_toNat _ 6 2
  priority := field_low _ 4
  cylinder := field_low _ 9
  tag := recTag_read r
  head := field_toNat _ 4 2
  sector := field_low _ 4
  lockPlatter := if_congr (getLsbD_iff_div _ 5) rfl rfl
  lastCylinder := field_low _ 9
  exclusive := by
    have h := getLsbD_iff_div (r.getD 6 0) 0
    rwa [pow_zero, Nat.div_one] at h
  noWait := getLsbD_iff_div _ 1
  buffer := congrArg (· * 65536 + _) (field_low _ 2)
  count := rfl
  stride := min_eq_ite _ _
  deadline := min_eq_ite _ _
  signalAddr := congrArg (· * 65536 + _) (field_toNat _ 8 2)
  signalOffset := field_low _ 4
  signalWidth := recSignalWidth_read r
  signalValue := field_low _ 8
  link := rfl

theorem kindsNamed (k : Kind) : KindsNamed k where
  transfers := by cases k <;> decide
  diskRead := by cases k <;> decide
  diskWrite := by cases k <;> decide
  usesDeadline := by cases k <;> decide
  lockRead := by cases k <;> decide
  setsCursor := by cases k <;> decide

/-! ### The cells and the words of a result and a notice -/

theorem DriveState.code_lt (d : DriveState) : d.code < 8 := by
  cases d <;> decide

theorem Protocol.code_lt (p : Protocol) : p.code < 4 := by
  rcases p with _ | (_ | _) | _ <;> decide

theorem Status.code_lt (st : Status) : st.code < 32 := by
  cases st <;> decide

theorem NoticeKind.code_lt (k : NoticeKind) : k.code < 4 := by
  cases k <;> decide

theorem cellWord_side (s : State) (x : Side) : cellWord s x .side =
    sideCell (slotIds.countP (fun i => (s.slot i).state != .free && (s.slot i).side == x))
      (s.intake.get x).overrun (s.pres.get x).lost (s.drv.mounted.get x) (s.intake.get x).cursor.isSome := by
  rw [List.countP_eq_length_filter]
  rfl

theorem driveCell_toNat (d : Drive) (h : d.cause ≤ 4) : (driveCell d).toNat =
    d.state.code * 4096 + d.inp.writeProtect.toNat * 2048 + d.cause * 256 + d.generation.toNat := by
  have hc := d.state.code_lt
  unfold driveCell
  simp only [append_toNat, BitVec.toNat_ofNat, BitVec.toNat_ofBool]
  omega

theorem sideCell_toNat (a b c : Nat) (m v : Bool) (ha : a ≤ 8) (hb : b ≤ 15) (hc : c ≤ 15) :
    (sideCell a b c m v).toNat = a + b * 16 + c * 256 + m.toNat * 4096 + v.toNat * 8192 := by
  unfold sideCell
  simp only [append_toNat, BitVec.toNat_ofNat, BitVec.toNat_ofBool]
  omega

theorem partitionCell_toNat (m : RegionMap) (x : Side) (h : m.last.get x ≤ 5) : (partitionCell m x).toNat =
    m.protocol.code + (m.proposal.get x).isSealed.toNat * 4 + (m.proposal.get x).mark1.toNat * 8 +
      (m.proposal.get x).mark2.toNat * 16 + m.last.get x * 256 := by
  have hc := m.protocol.code_lt
  unfold partitionCell
  simp only [append_toNat, BitVec.toNat_ofNat, BitVec.toNat_ofBool]
  omega

theorem resultWord_toNat (sl : Slot) (h : sl.rereads ≤ 15) : sl.resultWord.toNat = (sl.status.getD .ok).code +
    sl.retried.toNat * 32 + sl.late.toNat * 64 + sl.touchedFlag.toNat * 128 + sl.rereads * 256 := by
  have hc := (sl.status.getD .ok).code_lt
  unfold Slot.resultWord
  simp only [append_toNat, BitVec.toNat_ofNat, BitVec.toNat_ofBool]
  omega

theorem noticeWord_toNat (e : Entry) (hp : e.prio ≤ 7) (ht : e.tag ≤ 63) (hc : e.code ≤ 31) : e.word.toNat =
    e.kind.code * 16384 + e.prio * 2048 + e.tag * 32 + e.code := by
  have hk := e.kind.code_lt
  unfold Entry.word
  simp only [append_toNat, BitVec.toNat_ofNat]
  omega

theorem late_iff (sl : Slot) : sl.late = true ↔
    ∃ d, sl.deadline = some d ∧ (sl.passed = true ∨ d = sl.instant ∨ 4095 < (d - sl.instant).toNat) := by
  unfold Slot.late
  cases sl.deadline with
  | none => simp
  | some d =>
    have hz : d - sl.instant = 0 ↔ d = sl.instant := sub_eq_zero
    simp only [Bool.or_eq_true, beq_iff_eq, hz, decide_eq_true_iff, or_assoc, Option.some.injEq, exists_eq_left']

/-! ### Residuals and stop positions (R26, R130, R131) -/

theorem addressWord_toNat {c h k : Nat} (hc : c < 512) (hh : h < 4) (hk : k < 16) :
    (addressWord c h k).toNat = c * 64 + h * 16 + k := by
  unfold addressWord
  simp only [append_toNat, BitVec.toNat_ofNat]
  omega

/-- The stop position of a sector is its disk address. -/
theorem sectorWord_address (p : Platter) {i : Nat} (hi : i < 12800) : DiskAddress (sectorWord p i) p i := by
  have hhead : headOf p i = (if p = .F then 2 else 0) + i / 16 % 2 := by
    unfold headOf
    cases p <;> simp only [evenHead] <;> split <;> simp <;> omega
  unfold DiskAddress sectorWord
  rw [addressWord_toNat (by unfold cylOf; omega) (headOf_lt p i) (by unfold secOf; omega), hhead]
  rfl

theorem recCylinder_lt (r : List Word) : recCylinder r < 512 := by
  unfold recCylinder
  rw [field_low]
  exact Nat.mod_lt _ (by decide)

theorem recHead_lt (r : List Word) : recHead r < 4 := by
  unfold recHead
  rw [field_toNat]
  exact Nat.mod_lt _ (by decide)

theorem recSector_lt (r : List Word) : recSector r < 16 := by
  unfold recSector
  rw [field_low]
  exact Nat.mod_lt _ (by decide)

/-- The stop position at a cylinder's first sector. -/
theorem cylinderWord_toNat (r : List Word) : (addressWord (recCylinder r) 0 0).toNat = recCylinder r * 64 :=
  addressWord_toNat (recCylinder_lt r) (by decide) (by decide)

theorem neverActiveResidual_rows {k : Kind} (hk : sl.kind = some k) :
    (k.transfers = true → neverActiveResidual sl = recWord sl.words 5) ∧
    (k.transfers = false → neverActiveResidual sl = 0) := by
  have h : neverActiveResidual sl = if k.transfers then recWord sl.words 5 else 0 := by
    unfold neverActiveResidual
    rw [hk]
  rw [h]
  exact ⟨fun ht => if_pos ht, fun ht => if_neg (ht ▸ Bool.false_ne_true)⟩

/-- The stop position of a continue that never was ACTIVE: its own start, else the cursor, else 0 (R26). -/
theorem neverActiveStop_continues {c : Option (Platter × Nat)} (hk : sl.kind = some .contRead ∨ sl.kind = some .contWrite) :
    (∀ p i, sl.platter = some p → sl.start = some i → neverActiveStop c sl = sectorWord p i) ∧
    (sl.platter = none ∨ sl.start = none → neverActiveStop c sl = c.elim 0 (fun q => sectorWord q.1 q.2)) := by
  have h : neverActiveStop c sl = (match sl.platter, sl.start with
      | some p, some i => sectorWord p i
      | _, _ =>
        match c with
        | some (p, i) => sectorWord p i
        | none => 0) := by
    unfold neverActiveStop
    rcases hk with hk | hk <;> rw [hk] <;> rfl
  rw [h]
  refine ⟨fun p i hp hi => by rw [hp, hi], fun hn => ?_⟩
  rcases hn with hn | hn
  · rw [hn]
    cases c <;> rfl
  · rw [hn]
    cases sl.platter <;> cases c <;> rfl

theorem evenHead_eq (p : Platter) : evenHead p = if p = .F then 2 else 0 := by
  cases p <;> rfl

theorem neverActiveStop_locks {c : Option (Platter × Nat)} (hk : sl.kind = some .lock ∨ sl.kind = some .unlock) :
    (neverActiveStop c sl).toNat = recCylinder sl.words * 64 + if recLockPlatter sl.words = .F then 32 else 0 := by
  have h : neverActiveStop c sl = addressWord (recCylinder sl.words) (evenHead (recLockPlatter sl.words)) 0 := by
    unfold neverActiveStop
    rcases hk with hk | hk <;> rw [hk]
  rw [h, addressWord_toNat (recCylinder_lt _) (by rw [evenHead_eq]; split <;> omega) (by decide), evenHead_eq]
  split <;> omega

/-- The rows of R26's table for a request that never was ACTIVE. -/
theorem neverActiveStop_rows {k : Kind} (c : Option (Platter × Nat)) (hk : sl.kind = some k) :
    (k = .read ∨ k = .write ∨ k = .check → (neverActiveStop c sl).toNat =
      recCylinder sl.words * 64 + recHead sl.words * 16 + recSector sl.words) ∧
    (k = .contRead ∨ k = .contWrite →
      (∀ p i, sl.platter = some p → sl.start = some i → i < 12800 → DiskAddress (neverActiveStop c sl) p i) ∧
      (∀ p i, sl.platter = none ∨ sl.start = none → c = some (p, i) → i < 12800 →
        DiskAddress (neverActiveStop c sl) p i) ∧
      (sl.platter = none ∨ sl.start = none → c = none → neverActiveStop c sl = 0)) ∧
    (k = .seek → (neverActiveStop c sl).toNat = recCylinder sl.words * 64) ∧
    (k = .lock ∨ k = .unlock → (neverActiveStop c sl).toNat =
      recCylinder sl.words * 64 + if recLockPlatter sl.words = .F then 32 else 0) ∧
    (k = .mountAck ∨ k = .restore → neverActiveStop c sl = 0) := by
  refine ⟨fun h => ?_, fun h => ?_, fun h => ?_, fun h => ?_, fun h => ?_⟩
  · have hs : neverActiveStop c sl = addressWord (recCylinder sl.words) (recHead sl.words) (recSector sl.words) := by
      unfold neverActiveStop
      rw [hk]
      rcases h with rfl | rfl | rfl <;> rfl
    rw [hs]
    exact addressWord_toNat (recCylinder_lt _) (recHead_lt _) (recSector_lt _)
  · obtain ⟨h1, h2⟩ := neverActiveStop_continues (sl := sl) (c := c) (by rw [hk]; simpa using h)
    refine ⟨fun p i hp hi hlt => ?_, fun p i hn hc hlt => ?_, fun hn hc => ?_⟩
    · rw [h1 p i hp hi]
      exact sectorWord_address p hlt
    · rw [h2 hn, hc]
      exact sectorWord_address p hlt
    · rw [h2 hn, hc]
      rfl
  · subst h
    have hs : neverActiveStop c sl = addressWord (recCylinder sl.words) 0 0 := by
      unfold neverActiveStop
      rw [hk]
    rw [hs]
    exact cylinderWord_toNat _
  · exact neverActiveStop_locks (by rw [hk]; simpa using h)
  · unfold neverActiveStop
    rw [hk]
    rcases h with rfl | rfl <;> rfl

theorem residualOf_no_transfer (h : sl.kind = some .seek ∨ sl.kind = some .restore) : residualOf s sl = 0 := by
  refine if_neg fun ht => ?_
  obtain ⟨k, hk, ht⟩ := isKind_iff.mp ht
  rcases h with h | h <;> (rw [h] at hk; cases hk; cases ht)

/-- The rows of R130. -/
theorem residualOf_rows (sl : Slot) (s : State) :
    (∀ f, sl.isKind Kind.diskRead = true → (s.tap.get sl.side).fence = some f →
      residualOf s sl = BitVec.ofNat 16 (recCount sl.words - f.index)) ∧
    (sl.isKind Kind.diskWrite = true → residualOf s sl = BitVec.ofNat 16
      (recCount sl.words - if sl.sectors ≤ s.eng.written then recCount sl.words else 256 * s.eng.written)) ∧
    (sl.kind = some .check → s.eng.m < sl.sectors → residualOf s sl =
      BitVec.ofNat 16 (recCount sl.words - (256 * s.eng.m + s.eng.firstDiff.getD 0))) ∧
    (sl.kind = some .seek ∨ sl.kind = some .restore → residualOf s sl = 0) := by
  refine ⟨fun f hr hf => ?_, residualOf_diskWrite, fun hk hm => ?_, residualOf_no_transfer⟩
  · rw [residualOf_diskRead hr, transferIndex_of_fence hf]
  · rw [residualOf_check hk, Slot.wordsBefore, if_neg (by omega)]

/-- The stop position of a transfer by the status it ended with (R131). -/
theorem stopOf_transfer (h : sl.isKind Kind.transfers = true) (st : Status) : stopOf s sl st =
    match st with
    | .ok => sectorWord (sl.sectorAt 0).1 (min (platterSectors - 1) (sl.sectorAt sl.sectors).2)
    | .writeProtected => sl.stopAt (s.eng.protectSeen.getD 0)
    | _ =>
      match firstIncomplete s sl with
      | some k => sl.stopAt k
      | none => (0#1 ++ Config.stopNoneLeft (sl.sectorAt 0).1 (sl.sectorAt 0).2 sl.sectors : BitVec (1 + 15)) := by
  obtain ⟨k, hk, ht⟩ := isKind_iff.mp h
  unfold stopOf
  rw [hk]
  cases k with
  | seek | lock | unlock | mountAck | restore => cases ht
  | read | write | check | contRead | contWrite => rfl

theorem stopOf_incomplete (h : sl.isKind Kind.transfers = true) {st : Status} (h1 : st ≠ .ok) (h2 : st ≠ .writeProtected)
    (hk : firstIncomplete s sl = some k) : stopOf s sl st = sl.stopAt k := by
  rw [stopOf_transfer h, hk]
  cases st with
  | ok => exact absurd rfl h1
  | writeProtected => exact absurd rfl h2
  | _ => rfl

theorem firstIncomplete_diskRead {f : Fence} (h : sl.isKind Kind.diskRead = true)
    (hf : (s.tap.get sl.side).fence = some f) (hc : f.index < recCount sl.words) (hn : f.index / 256 < sl.sectors) :
    firstIncomplete s sl = some (f.index / 256) := by
  obtain ⟨k, hk, hr⟩ := isKind_iff.mp h
  unfold firstIncomplete
  rw [hk, transferIndex_of_fence hf]
  have hpos : (if recCount sl.words ≤ f.index then sl.sectors else f.index / 256) = f.index / 256 := if_neg (by omega)
  cases k with
  | write | check | contWrite | seek | lock | unlock | mountAck | restore => cases hr
  | read | contRead =>
    dsimp only
    rw [hpos]
    exact if_pos hn

theorem firstIncomplete_diskWrite (h : sl.isKind Kind.diskWrite = true) (hn : s.eng.written < sl.sectors) :
    firstIncomplete s sl = some s.eng.written := by
  obtain ⟨k, hk, hr⟩ := isKind_iff.mp h
  unfold firstIncomplete
  rw [hk]
  cases k with
  | read | check | contRead | seek | lock | unlock | mountAck | restore => cases hr
  | write | contWrite => exact if_pos hn

theorem firstIncomplete_check (h : sl.kind = some .check) (hn : s.eng.m < sl.sectors) :
    firstIncomplete s sl = some s.eng.m := by
  unfold firstIncomplete
  rw [h]
  exact if_pos hn

/-- The stop position at position `k` of an extent is that sector's disk address. -/
theorem stopAt_address {p : Platter} {i : Nat} (hp : sl.platter = some p) (hi : sl.start = some i)
    (hlt : i + k < 12800) : DiskAddress (sl.stopAt k) p (i + k) := by
  have h : sl.stopAt k = sectorWord p (i + k) := by
    unfold Slot.stopAt Slot.sectorAt
    rw [hp, hi]
    rfl
  rw [h]
  exact sectorWord_address p hlt

/-- The rows of R131 for a transfer. -/
theorem stopOf_rows {p : Platter} {i0 : Nat} (st : Status) (hp : sl.platter = some p) (hi : sl.start = some i0)
    (ht : sl.isKind Kind.transfers = true) (hend : i0 + sl.sectors ≤ 12800) :
    (st = .ok → DiskAddress (stopOf s sl st) p (min 12799 (i0 + sl.sectors))) ∧
    (st = .writeProtected → s.eng.protectSeen.getD 0 < sl.sectors →
      DiskAddress (stopOf s sl st) p (i0 + s.eng.protectSeen.getD 0)) ∧
    (st ≠ .ok → st ≠ .writeProtected →
      (∀ f, sl.isKind Kind.diskRead = true → (s.tap.get sl.side).fence = some f → f.index < recCount sl.words →
        f.index / 256 < sl.sectors → DiskAddress (stopOf s sl st) p (i0 + f.index / 256)) ∧
      (sl.isKind Kind.diskWrite = true → s.eng.written < sl.sectors →
        DiskAddress (stopOf s sl st) p (i0 + s.eng.written)) ∧
      (sl.kind = some .check → s.eng.m < sl.sectors → DiskAddress (stopOf s sl st) p (i0 + s.eng.m))) := by
  refine ⟨fun h => ?_, fun h hk => ?_, fun h1 h2 => ⟨fun f hr hf hc hn => ?_, fun hw hn => ?_, fun hk hn => ?_⟩⟩
  · subst h
    have hs : stopOf s sl .ok = sectorWord p (min 12799 (i0 + sl.sectors)) := by
      rw [stopOf_transfer ht]
      unfold Slot.sectorAt
      rw [hp, hi]
      rfl
    rw [hs]
    exact sectorWord_address p (by omega)
  · subst h
    rw [stopOf_transfer ht]
    exact stopAt_address hp hi (by omega)
  · rw [stopOf_incomplete ht h1 h2 (firstIncomplete_diskRead hr hf hc hn)]
    exact stopAt_address hp hi (by omega)
  · rw [stopOf_incomplete ht h1 h2 (firstIncomplete_diskWrite hw hn)]
    exact stopAt_address hp hi (by omega)
  · rw [stopOf_incomplete ht h1 h2 (firstIncomplete_check hk hn)]
    exact stopAt_address hp hi (by omega)

theorem stopOf_no_transfer (sl : Slot) (st : Status) (s : State) :
    (sl.kind = some .seek → (stopOf s sl st).toNat = recCylinder sl.words * 64) ∧
    (sl.kind = some .restore → stopOf s sl st = 0) := by
  refine ⟨fun hk => ?_, fun hk => ?_⟩
  · have h : stopOf s sl st = addressWord (recCylinder sl.words) 0 0 := by
      unfold stopOf
      rw [hk]
    rw [h]
    exact cylinderWord_toNat _
  · unfold stopOf
    rw [hk]

/-! ### The data check (R6) -/

theorem crcBit_eq (r : Word) (b : Bool) :
    crcBit r b = if b = r.getLsbD 15 then r <<< 1 else (r <<< 1) ^^^ 0x1021 := by
  unfold crcBit
  cases b <;> cases r.getLsbD 15 <;> rfl

/-- One word more in the data check. -/
theorem dataCheck_append (ws : List Word) (w : Word) : dataCheck (ws ++ [w]) =
    (List.range 16).foldl (fun (r : Word) (k : Nat) =>
      if w.getLsbD (15 - k) = r.getLsbD 15 then r <<< 1 else (r <<< 1) ^^^ 0x1021) (dataCheck ws) := by
  have hbits : bitsOf w = (List.range 16).map (fun k => w.getLsbD (15 - k)) := rfl
  have hlast : dataCheck (ws ++ [w]) = (bitsOf w).foldl crcBit (dataCheck ws) := by
    unfold dataCheck
    rw [List.foldl_append]
    rfl
  rw [hlast, hbits, List.foldl_map]
  simp only [crcBit_eq]

/-- Settles O60. -/
theorem wordsHaveTheirLayout : Obligations.WordsHaveTheirLayout := by
  unfold Obligations.WordsHaveTheirLayout
  refine ⟨recordRead, kindsNamed, fun sl f => ⟨rfl, isKind_iff⟩, fun sl => rfl, fun sl n p hn => ?_, rfl, rfl, rfl, rfl,
    rfl, fun s x => ⟨rfl, cellWord_side s x, rfl, rfl, rfl⟩, fun sl => ⟨rfl, rfl, rfl⟩, driveCell_toNat, sideCell_toNat,
    partitionCell_toNat, resultWord_toNat, late_iff, noticeWord_toNat, fun sl k c hk => ?_, residualOf_rows,
    fun sl p i0 st s hp hi ht hend => stopOf_rows st hp hi ht hend, stopOf_no_transfer, rfl, dataCheck_append⟩
  · subst hn
    exact ⟨rfl, rfl⟩
  · obtain ⟨h1, h2⟩ := neverActiveResidual_rows hk
    exact ⟨h1, h2, neverActiveStop_rows c hk⟩

end Sys2Proof.Machine
end

section
/-! A part reset: every block, the computer cycles that pass, and the drive state taken from the inputs (O12, O13). -/

namespace Sys2Proof.Machine

variable {s t u c : State}

/-! ### What the drive controller leaves while nothing is under way -/

/-- `u` is `c` but for the drive state with its span, cause and movement, the cells that live sides owe for it, the
presenters and the outputs. -/
structure Restarted (c u : State) : Prop where
  rest : u = { c with tap := u.tap, drv := u.drv, pres := u.pres, out := u.out }
  taps : ∀ x, u.tap.get x = { c.tap.get x with owed := (u.tap.get x).owed }
  owed : ∀ x, c.live x = false → (u.tap.get x).owed = (c.tap.get x).owed
  drive : u.drv = { c.drv with
    state := u.drv.state, cause := u.drv.cause, span := u.drv.span, recovery := u.drv.recovery, homed := u.drv.homed
    move := u.drv.move, markSeen := u.drv.markSeen }
  recovery : c.drv.recovery = false → u.drv.recovery = false

theorem Restarted.refl (s : State) : Restarted s s := ⟨rfl, fun _ => rfl, fun _ _ => rfl, rfl, id⟩

theorem Restarted.live (h : Restarted c u) (x : Side) : u.live x = c.live x := by
  show (u.tap.get x).live = _
  rw [h.taps x]
  rfl

theorem Restarted.trans (h : Restarted c t) (k : Restarted t u) : Restarted c u where
  rest := by
    have hr := h.rest
    have kr := k.rest
    generalize t.tap = taps, t.pres = press, t.out = outs, t.drv = drv at hr
    rw [kr, hr]
  taps x := by rw [k.taps x, h.taps x]
  owed x hx := (k.owed x ((h.live x).trans hx)).trans (h.owed x hx)
  drive := by
    have hd := h.drive
    have kd := k.drive
    generalize t.drv = td at hd kd
    generalize u.drv = ud at kd ⊢
    rw [kd, hd]
  recovery hr := k.recovery (h.recovery hr)

/-- A change of the drive's state, span, cause, recovery and movement. -/
theorem Restarted.modDrv (h : Restarted c t) {f : Drive → Drive} (hf : f t.drv = { t.drv with
      state := (f t.drv).state, cause := (f t.drv).cause, span := (f t.drv).span, recovery := (f t.drv).recovery
      homed := (f t.drv).homed, move := (f t.drv).move, markSeen := (f t.drv).markSeen })
    (hr : t.drv.recovery = false → (f t.drv).recovery = false) : Restarted c (t.modDrv f) :=
  h.trans ⟨rfl, fun _ => rfl, fun _ _ => rfl, hf, hr⟩

theorem Restarted.emit (h : Restarted c t) (o : Output) : Restarted c (t.emit o) :=
  h.trans ⟨rfl, fun _ => rfl, fun _ _ => rfl, rfl, id⟩

theorem oweCell_restarted (x : Side) (k : StatusCell) (s : State) : Restarted s (oweCell x k s) := by
  have hm := oweCell_moves x k s
  have hd : (oweCell x k s).drv = s.drv := by rw [hm.rest]
  refine ⟨?_, hm.taps, fun y hy => ?_, by rw [hd], fun hr => by rw [hd]; exact hr⟩
  · have hr := hm.rest
    generalize oweCell x k s = w at hr hd ⊢
    rw [hr]
  · rw [oweCell_owed, if_neg]
    rintro ⟨rfl, hl⟩
    exact Bool.false_ne_true (hy.symm.trans hl)

theorem setDrive_restarted (st : DriveState) (k : Nat) (s : State) : Restarted s (setDrive st k s) := by
  have h : Restarted s (s.modDrv (fun d => { d with state := st, cause := k, span := none })) :=
    (Restarted.refl s).modDrv rfl id
  unfold setDrive
  dsimp only
  split
  · exact h
  · exact (h.trans (oweCell_restarted _ _ _)).trans (oweCell_restarted _ _ _)

theorem notifyDrive_restarted (k : Nat) (s : State) : Restarted s (notifyDrive k s) := by
  have hm := notifyDrive_moves k s
  have ht := notifyDrive_tap k s
  have hd := notifyDrive_drv k s
  refine ⟨?_, hm.taps, fun y _ => by rw [ht], by rw [hd], fun hr => by rw [hd]; exact hr⟩
  have hr := hm.rest
  generalize notifyDrive k s = w at hr hd ht ⊢
  rw [hr]

/-! ### The entries with no engine at work -/

theorem reportDrive_idle (he : s.eng = Engine.cleared none) (hs : s.drv.state ≠ .ready) : reportDrive s = s := by
  obtain ⟨ab, hab⟩ := reportDrive_none (s := s) (by unfold engineSlot; rw [he]; rfl) (by rw [he]; simp [Engine.cleared])
  have hn := reportDrive_abandoned hs
  rw [hab] at hn
  have hnone : ab = none := hn
  have hz : s.eng.abandoned = ab := by rw [he, hnone]; rfl
  rw [hab, ← hz]
  rfl

theorem beforeRecal_restarted (s : State) : Restarted s (beforeRecal s) :=
  ((((setDrive_restarted .recalibrating 0 s).modDrv rfl id).modDrv rfl id).modDrv rfl id).emit .recalibrate

theorem beforeSpin_restarted (s : State) : Restarted s (beforeSpin s) :=
  ((setDrive_restarted .spinningUp 0 s).modDrv rfl id).emit .spindleStart

theorem Restarted.engine (h : Restarted c u) : u.eng = c.eng := by rw [h.rest]

theorem enterFaulted_restarted (k : Nat) (he : s.eng = Engine.cleared none) : Restarted s (enterFaulted k s) := by
  have h := (setDrive_restarted .faulted k s).modDrv (f := fun d => { d with recovery := false }) rfl (fun _ => rfl)
  have hi : reportDrive ((setDrive .faulted k s).modDrv (fun d => { d with recovery := false })) =
      (setDrive .faulted k s).modDrv (fun d => { d with recovery := false }) := by
    refine reportDrive_idle (h.engine.trans he) ?_
    show (setDrive .faulted k s).drv.state ≠ _
    rw [setDrive_drv]
    simp
  unfold enterFaulted
  rw [hi]
  exact h.trans (notifyDrive_restarted _ _)

theorem spanFrom_zero (k : Nat) : spanFrom 0 k = ⟨BitVec.ofNat 16 k, false⟩ := by
  unfold spanFrom
  rw [zero_add]

/-- How an entry that issues the pulse `o`, to `st` with the span `sp`, ends where nothing is under way: in that state,
or in FAULTED with cause 4 where the fault input is asserted (R157). -/
structure Started (s u : State) (st : DriveState) (sp : Span) (o : Output) : Prop where
  kept : Restarted s u
  out : u.out = s.out ++ [o]
  clear : s.drv.inp.fault = false → u.drv.state = st ∧ u.drv.span = some sp ∧ u.drv.cause = 0
  fault : s.drv.inp.fault = true → u.drv.state = .faulted ∧ u.drv.cause = 4 ∧ u.drv.span = none

/-- The end of an entry from what stands before its report. -/
theorem Started.of_entering {w : State} {st : DriveState} {sp : Span} {o : Output} (he : s.eng = Engine.cleared none)
    (hg : s.drv.writeGate = false) (hr : Restarted s w)
    (hw : Entering s w st 0 (some sp) (s.out ++ [o])) (hst : st ≠ .ready) :
    Started s (if s.drv.inp.fault then enterFaulted 4 (reportDrive w) else reportDrive w) st sp o := by
  have hwe : w.eng = Engine.cleared none := hr.engine.trans he
  have hout : w.out = s.out ++ [o] := by rw [hw.rest]
  rw [reportDrive_idle hwe (by rw [hw.state.1]; exact hst)]
  by_cases hf : s.drv.inp.fault = true
  · rw [if_pos hf]
    obtain ⟨r, g, hd⟩ := enterFaulted_drv 4 w
    refine ⟨hr.trans (enterFaulted_restarted 4 hwe), ?_, fun h => absurd (h.symm.trans hf) Bool.false_ne_true, fun _ => ?_⟩
    · rw [enterFaulted_out 4 (hw.gate.trans hg), hout]
    · rw [hd]
      exact ⟨rfl, rfl, rfl⟩
  · rw [if_neg hf]
    exact ⟨hr, hout, fun _ => ⟨hw.state.1, hw.state.2.2, hw.state.2.1⟩, fun h => absurd h hf⟩

theorem enterRecalibrating_started (he : s.eng = Engine.cleared none) (hg : s.drv.writeGate = false) :
    Started s (enterRecalibrating s) .recalibrating (spanFrom s.clk.count 256) .recalibrate := by
  rw [enterRecalibrating_eq]
  exact .of_entering he hg (beforeRecal_restarted s) (beforeRecal_entering s) (by simp)

theorem enterSpinningUp_started (he : s.eng = Engine.cleared none) (hg : s.drv.writeGate = false)
    (hu : s.drv.inp.upToSpeed = false) :
    Started s (enterSpinningUp s) .spinningUp (spanFrom s.clk.count 25600) .spindleStart := by
  rw [enterSpinningUp_eq, hu, if_neg (c := false = true) Bool.false_ne_true]
  exact .of_entering he hg (beforeSpin_restarted s) (beforeSpin_entering s) (by simp)

/-! ### The drive state after part reset (R165) -/

section Cleared

variable {swA swB : BitVec 13} {a b : Bool} {inp : DriveInputs} {r : Sided (Option CompCycle) × List Output}

/-- The cleared state with the cartridge in and the spindle stopped. -/
def stoppedAtReset (s : State) : State := s.modDrv (fun d => { d with state := .stopped })

theorem stoppedAtReset_waits : (stoppedAtReset (t.cleared swA swB a b inp r)).waitingSlots = [] := by
  refine List.filter_eq_nil_iff.mpr fun i _ => ?_
  rw [show (stoppedAtReset (t.cleared swA swB a b inp r)).slot i = Slot.empty 0 from
    cleared_slot (t := t) i swA swB a b inp r]
  simp [Slot.empty]

/-- STOPPED is left at once just where a side comes out live (R157, R159). -/
theorem stoppedAtReset_target : (stoppedAtReset (t.cleared swA swB a b inp r)).idleTarget < 2 ↔ a = false ∨ b = false := by
  show min (if (!a) = true then 0 else 2) (if (!b) = true then 0 else 2) < 2 ↔ _
  cases a <;> cases b <;> decide

theorem reconcile_stopped : reconcileDrive (stoppedAtReset (t.cleared swA swB a b inp r)) =
    if a = false ∨ b = false then enterSpinningUp (stoppedAtReset (t.cleared swA swB a b inp r))
    else stoppedAtReset (t.cleared swA swB a b inp r) := by
  rw [reconcileDrive_stopped rfl]
  refine if_congr ?_ rfl rfl
  rw [stoppedAtReset_target, stoppedAtReset_waits]
  simp

/-- The rows of R165 over the inputs. -/
theorem driveStateAtReset_eq : driveStateAtReset (t.cleared swA swB a b inp r) =
    if inp.power = false then t.cleared swA swB a b inp r
    else if inp.cartridgeClosed = false then (t.cleared swA swB a b inp r).modDrv (fun d => { d with state := .opened })
    else if inp.upToSpeed = true then enterRecalibrating (t.cleared swA swB a b inp r)
    else if a = false ∨ b = false then enterSpinningUp (stoppedAtReset (t.cleared swA swB a b inp r))
    else stoppedAtReset (t.cleared swA swB a b inp r) := by
  rw [← reconcile_stopped]
  show (if (!inp.power) = true then _ else if (!inp.cartridgeClosed) = true then _ else _) = _
  simp only [Bool.not_eq_true']
  rfl

theorem stoppedAtReset_restarted (s : State) : Restarted s (stoppedAtReset s) := (Restarted.refl s).modDrv rfl id

theorem driveStateAtReset_restarted :
    Restarted (t.cleared swA swB a b inp r) (driveStateAtReset (t.cleared swA swB a b inp r)) := by
  rw [driveStateAtReset_eq]
  split
  · exact .refl _
  · split
    · exact (Restarted.refl _).modDrv rfl id
    · split
      · exact (enterRecalibrating_started rfl rfl).kept
      next hu =>
        split
        · exact (stoppedAtReset_restarted _).trans (enterSpinningUp_started rfl rfl (Bool.eq_false_iff.mpr hu)).kept
        · exact stoppedAtReset_restarted _

/-! ### Coming out of the reset (R46) -/

theorem outOfReset_leaves (x : Side) (i : Bool) (s : State) :
    outOfReset x i s = { s with tap := (outOfReset x i s).tap, pres := (outOfReset x i s).pres } := by
  unfold outOfReset
  split <;> rfl

/-- A tap and a presenter as side `x` comes out of the reset. -/
theorem outOfReset_same (x : Side) (i : Bool) (s : State) :
    (outOfReset x i s).tap.get x = (if i then s.tap.get x else { s.tap.get x with live := true, owed := .all }) ∧
    (outOfReset x i s).pres.get x = if i then s.pres.get x else (s.pres.get x).oweNotice none := by
  cases i <;> cases x <;> exact ⟨rfl, rfl⟩

theorem outOfReset_other {x y : Side} (h : y ≠ x) (i : Bool) (s : State) :
    (outOfReset x i s).tap.get y = s.tap.get y ∧ (outOfReset x i s).pres.get y = s.pres.get y := by
  cases i with
  | true => exact ⟨rfl, rfl⟩
  | false => exact ⟨Sided.get_set_ne _ _ h, Sided.get_set_ne _ _ h⟩

/-- Whether side `x`'s init line is asserted at the reset's end. -/
def initOf (a b : Bool) : Side → Bool
  | .A => a
  | .B => b

/-- The state in which the two sides come out. -/
def atReset (swA swB : BitVec 13) (a b : Bool) (inp : DriveInputs) (r : Sided (Option CompCycle) × List Output)
    (s : State) : State :=
  resetPresenters (driveStateAtReset (s.cleared swA swB a b inp r))

theorem partReset_side (x : Side) :
    (partReset swA swB a b inp r s).tap.get x = (if initOf a b x then (atReset swA swB a b inp r s).tap.get x
      else { (atReset swA swB a b inp r s).tap.get x with live := true, owed := .all }) ∧
    (partReset swA swB a b inp r s).pres.get x = if initOf a b x then Presenter.reset
      else Presenter.reset.oweNotice none := by
  have hp : ∀ y, (atReset swA swB a b inp r s).pres.get y = Presenter.reset := fun y => by cases y <;> rfl
  show (outOfReset .B b (outOfReset .A a (atReset swA swB a b inp r s))).tap.get x = _ ∧
    (outOfReset .B b (outOfReset .A a (atReset swA swB a b inp r s))).pres.get x = _
  cases x with
  | A =>
    obtain ⟨h1, h2⟩ := outOfReset_other (x := .B) (y := .A) (by simp) b (outOfReset .A a (atReset swA swB a b inp r s))
    obtain ⟨k1, k2⟩ := outOfReset_same .A a (atReset swA swB a b inp r s)
    rw [h1, h2, k1, k2, hp]
    exact ⟨rfl, rfl⟩
  | B =>
    obtain ⟨h1, h2⟩ := outOfReset_other (x := .A) (y := .B) (by simp) a (atReset swA swB a b inp r s)
    obtain ⟨k1, k2⟩ := outOfReset_same .B b (outOfReset .A a (atReset swA swB a b inp r s))
    rw [k1, k2, h1, h2, hp]
    exact ⟨rfl, rfl⟩

/-- A part reset's other blocks are those of the cleared state, the drive's state apart. -/
theorem partReset_leaves : partReset swA swB a b inp r s =
      { s.cleared swA swB a b inp r with
        tap := (partReset swA swB a b inp r s).tap, pres := (partReset swA swB a b inp r s).pres
        drv := (driveStateAtReset (s.cleared swA swB a b inp r)).drv
        out := (driveStateAtReset (s.cleared swA swB a b inp r)).out } := by
  have hr : atReset swA swB a b inp r s = { s.cleared swA swB a b inp r with
      tap := (atReset swA swB a b inp r s).tap, pres := (atReset swA swB a b inp r s).pres
      drv := (driveStateAtReset (s.cleared swA swB a b inp r)).drv
      out := (driveStateAtReset (s.cleared swA swB a b inp r)).out } := by
    unfold atReset resetPresenters
    have h := (driveStateAtReset_restarted (t := s) (swA := swA) (swB := swB) (a := a) (b := b) (inp := inp) (r := r)).rest
    generalize driveStateAtReset (s.cleared swA swB a b inp r) = v at h ⊢
    rw [h]
  show outOfReset .B b (outOfReset .A a (atReset swA swB a b inp r s)) = _
  have ha := outOfReset_leaves .A a (atReset swA swB a b inp r s)
  have hb := outOfReset_leaves .B b (outOfReset .A a (atReset swA swB a b inp r s))
  rw [show partReset swA swB a b inp r s = outOfReset .B b (outOfReset .A a (atReset swA swB a b inp r s)) from rfl]
  generalize outOfReset .B b (outOfReset .A a (atReset swA swB a b inp r s)) = w at hb ⊢
  generalize outOfReset .A a (atReset swA swB a b inp r s) = v at ha hb
  generalize atReset swA swB a b inp r s = z at ha hr
  generalize (driveStateAtReset (s.cleared swA swB a b inp r)).drv = d at hr ⊢
  generalize (driveStateAtReset (s.cleared swA swB a b inp r)).out = o at hr ⊢
  rw [hb, ha, hr]

/-- The taps after the drive state is taken: the cleared ones, with nothing owed on a side that stays IN_RESET. -/
theorem atReset_tap (x : Side) : ∃ o, (atReset swA swB a b inp r s).tap.get x =
    { (s.cleared swA swB a b inp r).tap.get x with owed := o } ∧ (initOf a b x = true → o = .clear) := by
  have h := driveStateAtReset_restarted (t := s) (swA := swA) (swB := swB) (a := a) (b := b) (inp := inp) (r := r)
  refine ⟨_, h.taps x, fun hi => (h.owed x ?_).trans ?_⟩
  · cases x
    · exact congrArg not hi
    · exact congrArg not hi
  · cases x <;> rfl

theorem partReset_live (x : Side) : (partReset swA swB a b inp r s).live x = !initOf a b x := by
  obtain ⟨o, ht, -⟩ := atReset_tap (s := s) (swA := swA) (swB := swB) (a := a) (b := b) (inp := inp) (r := r) x
  show ((partReset swA swB a b inp r s).tap.get x).live = _
  rw [(partReset_side x).1, ht]
  split
  next h =>
    rw [h]
    cases x
    · exact congrArg not h
    · exact congrArg not h
  next h =>
    rw [Bool.eq_false_iff.mpr h]
    rfl

/-- The tap after a part reset (R46). -/
theorem partReset_tap (x : Side) : ((partReset swA swB a b inp r s).tap.get x).arb = .free ∧
    ((partReset swA swB a b inp r s).tap.get x).fence = none ∧ ((partReset swA swB a b inp r s).tap.get x).held = none ∧
    ((partReset swA swB a b inp r s).tap.get x).comp = r.1.get x ∧
    ((partReset swA swB a b inp r s).tap.get x).owed = (if initOf a b x then .clear else .all) ∧
    ((partReset swA swB a b inp r s).tap.get x).base = ((s.cleared swA swB a b inp r).tap.get x).base := by
  obtain ⟨o, ht, ho⟩ := atReset_tap (s := s) (swA := swA) (swB := swB) (a := a) (b := b) (inp := inp) (r := r) x
  rw [(partReset_side x).1, ht]
  split
  next h =>
    rw [ho h]
    cases x <;> exact ⟨rfl, rfl, rfl, rfl, rfl, rfl⟩
  next h => cases x <;> exact ⟨rfl, rfl, rfl, rfl, rfl, rfl⟩

theorem partReset_drv : ∃ st k sp h m ms, (partReset swA swB a b inp r s).drv =
    { Drive.reset inp with state := st, cause := k, span := sp, homed := h, move := m, markSeen := ms } := by
  have h := driveStateAtReset_restarted (t := s) (swA := swA) (swB := swB) (a := a) (b := b) (inp := inp) (r := r)
  have hd := h.drive
  rw [h.recovery rfl] at hd
  rw [partReset_leaves]
  exact ⟨_, _, _, _, _, _, hd⟩

end Cleared

/-! ### The computer cycles that pass (R29, R46) -/

theorem cycles_get (s : State) (x : Side) : s.cycles.get x =
    match (s.tap.get x).arb with
    | .computer c => some c
    | _ => ((s.tap.get x).comp).or (s.tap.get x).held := by
  cases x
  · show (s.tap.get .A).cycle = _
    unfold Tap.cycle
    cases (s.tap.get .A).arb <;> rfl
  · show (s.tap.get .B).cycle = _
    unfold Tap.cycle
    cases (s.tap.get .B).arb <;> rfl

theorem passCycles_ended (cs : Sided (Option CompCycle)) (x : Side) (d : Word) (es : List ResetCycle) :
    (cs.get x = none → passCycles cs (.ended x d :: es) = passCycles cs es) ∧
    ∀ c r, cs.get x = some c → passCycles (cs.set x none) es = some r →
      passCycles cs (.ended x d :: es) = some (r.1, (if c.dir = .read then [.readReturned x d] else []) ++ r.2) := by
  refine ⟨fun h => by simp [passCycles, h], fun c r hc hr => ?_⟩
  have hret : returned x c d = if c.dir = .read then [.readReturned x d] else [] := by
    unfold returned
    cases c.dir <;> rfl
  simp only [passCycles, hc, hr, Option.map_some, hret]

theorem execPartReset_passes {swA swB : BitVec 13} {a b : Bool} {inp : ResetInputs}
    {r : Sided (Option CompCycle) × List Output} (h : passCycles s.cycles inp.cycles = some r) :
    exec (.partReset swA swB a b inp) s = .next (settle s (partReset swA swB a b inp.drive r s.begun)) := by
  show execPartReset swA swB a b inp s = _
  unfold execPartReset
  rw [h]
  rfl

/-- Settles O12. -/
theorem partResetClearsEveryBlock : Obligations.PartResetClearsEveryBlock := by
  unfold Obligations.PartResetClearsEveryBlock
  refine ⟨fun swA swB a b inp s h => ?_, fun s => ⟨rfl, cycles_get s⟩, fun _ _ _ _ _ _ => rfl, passCycles_ended,
    fun swA swB a b inp s r h => ⟨_, execPartReset_passes h, ?_⟩⟩
  · show execPartReset swA swB a b inp s = _
    unfold execPartReset
    rw [h]
  · have ht := partReset_tap (s := s.begun) (swA := swA) (swB := swB) (a := a) (b := b) (inp := inp.drive) (r := r)
    have hp := fun x =>
      (partReset_side (s := s.begun) (swA := swA) (swB := swB) (a := a) (b := b) (inp := inp.drive) (r := r) x).2
    have hl := partReset_live (s := s.begun) (swA := swA) (swB := swB) (a := a) (b := b) (inp := inp.drive) (r := r)
    have hr := partReset_leaves (s := s.begun) (swA := swA) (swB := swB) (a := a) (b := b) (inp := inp.drive) (r := r)
    obtain ⟨st, k, sp, hm, m, ms, hd⟩ := partReset_drv (s := s.begun) (swA := swA) (swB := swB) (a := a) (b := b)
      (inp := inp.drive) (r := r)
    generalize partReset swA swB a b inp.drive r s.begun = u at ht hp hl hr hd ⊢
    have hsl : ∀ i, u.slot i = Slot.empty 0 := fun i => by
      rw [hr]
      exact cleared_slot (t := s.begun) i swA swB a b inp.drive r
    have hlk : ∀ k : Fin 8, u.locks[k] = none := fun k => by
      rw [hr]
      show (Vector.replicate 8 (none : Option Lock))[k] = none
      simp
    refine ⟨by rw [hr]; rfl, by rw [hr]; rfl, by rw [hr]; rfl, by rw [hr]; rfl, hsl, hlk, by rw [hr]; rfl, by rw [hr]; rfl,
      by rw [hr]; rfl, by rw [hr]; rfl, by rw [hr]; rfl, fun x => ?_, by rw [hr]; rfl, by rw [hr]; rfl, by rw [hr]; rfl,
      fun x => ?_, fun x => ?_, fun x => ?_, fun x hx => ?_, fun x hx => ?_, (ht .A).2.2.2.2.2, (ht .B).2.2.2.2.2, hl .A,
      hl .B, by rw [hd]; rfl, by rw [hd]; rfl, by rw [hd]; rfl, by rw [hd]; rfl, by rw [hd]; rfl, fun x => ?_, by rw [hd]; rfl,
      by rw [hd]; rfl, by rw [hd]; rfl, by rw [hd]; rfl⟩
    · rw [hr]
      cases x <;> exact ⟨rfl, rfl⟩
    · rw [hr]
      cases x <;> rfl
    · rw [hp x]
      split <;> exact ⟨rfl, rfl, rfl, rfl, rfl, rfl, rfl⟩
    · obtain ⟨h1, h2, h3, h4, -, -⟩ := ht x
      exact ⟨h1, h2, h3, h4⟩
    · obtain ⟨-, -, -, -, h5, -⟩ := ht x
      have hi : initOf a b x = false := by rw [← Bool.not_eq_true', ← hl x]; exact hx
      rw [h5, hp x, hi]
      exact ⟨rfl, rfl⟩
    · obtain ⟨-, -, -, -, h5, -⟩ := ht x
      have hi : initOf a b x = true := by rw [← Bool.not_eq_false', ← hl x]; exact hx
      rw [h5, hp x, hi]
      exact ⟨rfl, rfl⟩
    · rw [hd]
      cases x <;> exact ⟨rfl, rfl⟩

/-- Settles O13, by the rows of R165. -/
theorem partResetTakesDriveState : Obligations.PartResetTakesDriveState := by
  unfold Obligations.PartResetTakesDriveState
  intro swA swB a b drive es s r h
  refine ⟨_, execPartReset_passes (inp := ⟨drive, es⟩) h, ?_⟩
  have hd : (partReset swA swB a b drive r s.begun).drv =
      (driveStateAtReset (s.begun.cleared swA swB a b drive r)).drv := by
    rw [partReset_leaves]
  have ho : (partReset swA swB a b drive r s.begun).out =
      (driveStateAtReset (s.begun.cleared swA swB a b drive r)).out := by
    rw [partReset_leaves]
  rw [show (ResetInputs.mk drive es).drive = drive from rfl, hd, ho, driveStateAtReset_eq]
  refine ⟨fun hp => ?_, fun hp hc => ?_, fun hp hc hu => ?_, fun hp hc hu ha hb => ?_, fun hp hc hu hi => ?_⟩
  · rw [if_pos hp]
    exact ⟨rfl, rfl⟩
  · rw [if_neg (by simp [hp]), if_pos hc]
    exact ⟨rfl, rfl⟩
  · rw [if_neg (by simp [hp]), if_neg (by simp [hc]), if_pos hu]
    have hs := enterRecalibrating_started (s := s.begun.cleared swA swB a b drive r) rfl rfl
    rw [show (s.begun.cleared swA swB a b drive r).clk.count = 0 from rfl, spanFrom_zero] at hs
    exact ⟨hs.out, hs.clear, hs.fault⟩
  · rw [if_neg (by simp [hp]), if_neg (by simp [hc]), if_neg (by simp [hu]), if_neg (by simp [ha, hb])]
    exact ⟨rfl, rfl⟩
  · rw [if_neg (by simp [hp]), if_neg (by simp [hc]), if_neg (by simp [hu]), if_pos hi]
    have hs := enterSpinningUp_started (s := stoppedAtReset (s.begun.cleared swA swB a b drive r)) rfl rfl hu
    rw [show (stoppedAtReset (s.begun.cleared swA swB a b drive r)).clk.count = 0 from rfl, spanFrom_zero] at hs
    exact ⟨hs.out, hs.clear, hs.fault⟩

end Sys2Proof.Machine
end

section
/-! A side reset: every block of the side, and what stays of the other side (O14). -/

namespace Sys2Proof.Machine

variable {s t u : State} {x : Side} {i j : Fin 12}

/-! ### A lock that is held stays through a re-examination -/

theorem grantLock_locks_stay {k : Fin 8} {l : Lock} (h : s.locks[k] = some l) : (grantLock i s).locks[k] = some l := by
  unfold grantLock
  split
  next m hm =>
    have hne : m.val ≠ k.val := fun e => by
      rw [Fin.ext e] at hm
      rw [freeEntry_none hm] at h
      cases h
    exact (Vector.getElem_set_ne (xs := s.locks) (x := some (lockOf (s.slot i))) m.isLt k.isLt hne).trans h
  · exact h

theorem reexamineOne_locks_stay {k : Fin 8} {l : Lock} (h : s.locks[k] = some l) :
    (reexamineOne s i).locks[k] = some l := by
  unfold reexamineOne
  dsimp only
  split
  · exact h
  · split
    · split
      · exact h
      · split
        · exact h
        · split
          · exact h
          · exact grantLock_locks_stay h
    · split
      · exact h
      · rw [examine_rest]
        exact h

theorem reexamine_eq_after (s : State) : reexamine s = reexamineAfter { Slot.empty 0 with state := .lockwait } s :=
  (if_pos (.inl rfl)).symm

theorem reexamine_locks_stay {k : Fin 8} {l : Lock} (h : s.locks[k] = some l) : (reexamine s).locks[k] = some l := by
  rw [reexamine_eq_after]
  exact reexamineAfter_induct (P := fun t => t.locks[k] = some l) (fun t j ht => reexamineOne_locks_stay ht) _ h

/-! ### The steps of a side reset -/

/-- A tap at its side's reset (R43). -/
theorem Tap.sideReset_eq (t : Tap) : t.sideReset =
    { t with live := false, arb := t.arb.sideReset, comp := t.held.or t.comp, held := none, fence := none
             owed := OwedCells.clear } := by
  obtain ⟨base, live, arb, comp, held, fence, owed⟩ := t
  cases held <;> rfl

/-- The side's tap, intake unit and presenter reset. -/
def unitsReset (x : Side) (s : State) : State :=
  ((s.modTap x Tap.sideReset).modIntake x (fun _ => .reset)).modPres x (fun _ => .reset)

/-- Then the engine told, the side's places in the posting queue gone, and its slots FREE. -/
def slotsReset (x : Side) (s : State) : State :=
  slotIds.foldl (freeIfOf x) ((tellEngine x (unitsReset x s)).modPost (fun p => p.dropSide (s.slotOf x)))

/-- Then the selector's examination, the side's proposal and idle writes gone, and its locks released. -/
def locksReset (x : Side) (s : State) : State :=
  freeLocks (fun l => l.side == x)
    (((examine (slotsReset x s)).modMap (fun m => m.discard x)).modDrv (fun d => d.sideReset x))

theorem sideReset_eq (x : Side) (s : State) :
    sideReset x s = notify x.other .peer 1 0 1 (reexamine (locksReset x s)) := rfl

/-- The blocks after the slots are free. -/
theorem slotsReset_rest (x : Side) (s : State) : slotsReset x s = { unitsReset x s with
    eng := (tellEngine x (unitsReset x s)).eng
    drv := { s.drv with readGate := (tellEngine x (unitsReset x s)).drv.readGate
                        writeGate := (tellEngine x (unitsReset x s)).drv.writeGate }
    post := s.post.dropSide (s.slotOf x), slots := (slotsReset x s).slots } := by
  have h : slotsReset x s = { (tellEngine x (unitsReset x s)).modPost (fun p => p.dropSide (s.slotOf x)) with
      slots := (slotsReset x s).slots } := foldl_free_rest x slotIds _
  have ht := tellEngine_rest x (unitsReset x s)
  generalize slotsReset x s = w at h ⊢
  generalize tellEngine x (unitsReset x s) = v at h ht ⊢
  rw [h]
  conv_lhs => rw [ht]
  rfl

/-- The blocks that the table's reset leaves. -/
theorem slotsReset_leaves (x : Side) (s : State) : (slotsReset x s).sel = s.sel ∧ (slotsReset x s).map = s.map ∧
    (slotsReset x s).locks = s.locks ∧ (slotsReset x s).drv.state = s.drv.state ∧
    (slotsReset x s).post = s.post.dropSide (s.slotOf x) ∧ (slotsReset x s).pres = s.pres.set x .reset ∧
    (slotsReset x s).tap = s.tap.set x (s.tap.get x).sideReset := by
  have h := slotsReset_rest x s
  generalize slotsReset x s = w at h ⊢
  generalize tellEngine x (unitsReset x s) = v at h
  rw [h]
  exact ⟨rfl, rfl, rfl, rfl, rfl, rfl, rfl⟩

theorem slotsReset_slot (x : Side) (s : State) (j : Fin 12) : (slotsReset x s).slot j =
    if s.slotOf x j then Slot.empty (s.slot j).tenure else s.slot j := by
  have hv : ∀ k, ((tellEngine x (unitsReset x s)).modPost (fun p => p.dropSide (s.slotOf x))).slot k = s.slot k :=
    fun k => congrArg (fun v : Vector Slot 12 => v[k]) (tellEngine_places (unitsReset x s) x).1
  unfold slotsReset
  rw [foldl_free]
  generalize (tellEngine x (unitsReset x s)).modPost (fun p => p.dropSide (s.slotOf x)) = w at hv ⊢
  unfold State.slotOf
  rw [hv]
  refine if_congr ?_ rfl rfl
  rw [and_iff_right (by simp [slotIds_eq])]

/-- The blocks at the re-examination. -/
theorem locksReset_rest (x : Side) (s : State) : locksReset x s = { slotsReset x s with
    sel := (examine (slotsReset x s)).sel, map := s.map.discard x, drv := (slotsReset x s).drv.sideReset x
    locks := s.locks.map (fun o => if o.any (fun l => l.side == x) then none else o) } := by
  obtain ⟨-, hm, hl, -⟩ := slotsReset_leaves x s
  have he := examine_rest (slotsReset x s)
  unfold locksReset freeLocks
  generalize examine (slotsReset x s) = w at he ⊢
  rw [← hm, ← hl]
  generalize slotsReset x s = z at he ⊢
  generalize w.sel = q at he ⊢
  rw [he]
  rfl

/-- The blocks that the re-examination does not touch, and the queue and the selection it finds. -/
theorem locksReset_leaves (x : Side) (s : State) : (locksReset x s).sel = (examine (slotsReset x s)).sel ∧
    (locksReset x s).locks = s.locks.map (fun o => if o.any (fun l => l.side == x) then none else o) ∧
    (locksReset x s).post = s.post.dropSide (s.slotOf x) ∧ (locksReset x s).pres = s.pres.set x .reset ∧
    (locksReset x s).tap = s.tap.set x (s.tap.get x).sideReset ∧ (locksReset x s).slots = (slotsReset x s).slots := by
  obtain ⟨-, -, -, -, hq, hp, ht⟩ := slotsReset_leaves x s
  have h := locksReset_rest x s
  generalize locksReset x s = w at h ⊢
  generalize examine (slotsReset x s) = v at h ⊢
  generalize slotsReset x s = z at *
  rw [h]
  exact ⟨rfl, rfl, hq, hp, ht, rfl⟩

theorem locksReset_slot (x : Side) (s : State) (j : Fin 12) : (locksReset x s).slot j =
    if s.slotOf x j then Slot.empty (s.slot j).tenure else s.slot j := by
  rw [← slotsReset_slot]
  exact congrArg (fun v : Vector Slot 12 => v[j]) (locksReset_leaves x s).2.2.2.2.2

/-- What a side reset leaves in every block but the slots, the locks, the selection and the presenters. -/
theorem sideReset_rest (x : Side) (s : State) : sideReset x s = { s with
    tap := s.tap.set x (s.tap.get x).sideReset, intake := s.intake.set x .reset, slots := (sideReset x s).slots
    sel := (sideReset x s).sel, map := s.map.discard x, locks := (sideReset x s).locks
    eng := (tellEngine x (unitsReset x s)).eng
    drv := Drive.sideReset { s.drv with
      readGate := (tellEngine x (unitsReset x s)).drv.readGate
      writeGate := (tellEngine x (unitsReset x s)).drv.writeGate } x
    post := { s.post.dropSide (s.slotOf x) with queue := (sideReset x s).post.queue }
    pres := (sideReset x s).pres } := by
  have hn := (notify_moves x.other .peer 1 0 1 (reexamine (locksReset x s))).rest
  have ht := notify_tap x.other .peer 1 0 1 (reexamine (locksReset x s))
  have hr := (reexamine_moves (locksReset x s)).rest
  have hl := locksReset_rest x s
  have hs := slotsReset_rest x s
  rw [← sideReset_eq] at hn ht
  generalize sideReset x s = u at hn ht ⊢
  generalize reexamine (locksReset x s) = v at hn ht hr
  generalize locksReset x s = w at hr hl
  generalize (examine (slotsReset x s)).sel = q at hl
  generalize slotsReset x s = z at hl hs
  generalize (tellEngine x (unitsReset x s)).eng = e at hs ⊢
  generalize (tellEngine x (unitsReset x s)).drv.readGate = rg at hs ⊢
  generalize (tellEngine x (unitsReset x s)).drv.writeGate = wg at hs ⊢
  rw [ht] at hn
  rw [hn, hr, hl, hs]
  rfl

theorem notify_slots (y : Side) (k : NoticeKind) (p g c : Nat) (s : State) :
    (notify y k p g c s).slots = s.slots ∧ (notify y k p g c s).sel = s.sel ∧ (notify y k p g c s).post = s.post ∧
      (notify y k p g c s).locks = s.locks := by
  rw [(notify_moves y k p g c s).rest]
  exact ⟨rfl, rfl, rfl, rfl⟩

/-- The table at a side reset: what the re-examination moves, from the side's slots FREE and its locks released. -/
theorem sideReset_moves (x : Side) (s : State) : ∃ v, TableMoves (locksReset x s) v ∧
    (∀ i, (sideReset x s).slot i = v.slot i) ∧ (sideReset x s).sel = v.sel ∧ (sideReset x s).post = v.post ∧
    (∀ k : Fin 8, (sideReset x s).locks[k] = v.locks[k]) ∧
    ∀ (k : Fin 8) (l : Lock), (locksReset x s).locks[k] = some l → v.locks[k] = some l := by
  obtain ⟨h1, h2, h3, h4⟩ := notify_slots x.other .peer 1 0 1 (reexamine (locksReset x s))
  rw [← sideReset_eq] at h1 h2 h3 h4
  exact ⟨_, reexamine_moves _, fun i => congrArg (fun v : Vector Slot 12 => v[i]) h1, h2, h3, fun k => by rw [h4],
    fun k l => reexamine_locks_stay⟩

/-! ### The slots, the queue and the locks -/

theorem slotOf_iff : s.slotOf x i = true ↔ (s.slot i).state ≠ .free ∧ (s.slot i).side = x := by
  simp [State.slotOf]

theorem locksReset_not_of (x : Side) (s : State) (i : Fin 12) : (locksReset x s).slotOf x i = false := by
  rw [Bool.eq_false_iff]
  intro h
  rw [slotOf_iff, locksReset_slot] at h
  by_cases hi : s.slotOf x i = true
  · rw [if_pos hi] at h
    exact h.1 rfl
  · rw [if_neg hi] at h
    exact hi (slotOf_iff.mpr h)

/-- A slot that waits at the re-examination is one of the other side's that waited before. -/
theorem locksReset_waits (h : ((locksReset x s).slot i).state = .lockwait) :
    s.slotOf x i = false ∧ (locksReset x s).slot i = s.slot i ∧ (s.slot i).side = x.other := by
  have hi : s.slotOf x i = false := by
    rw [Bool.eq_false_iff]
    intro hi
    rw [locksReset_slot, if_pos hi] at h
    cases h
  have hs : (locksReset x s).slot i = s.slot i := by rw [locksReset_slot, hi]; rfl
  rw [hs] at h
  refine ⟨hi, hs, (side_eq_or_other x _).resolve_left fun hx => ?_⟩
  exact Bool.false_ne_true (hi.symm.trans (slotOf_iff.mpr ⟨by rw [h]; simp, hx⟩))

theorem sideReset_slots (x : Side) (s : State) : (∀ i, (sideReset x s).slotOf x i = false) ∧
    ∀ i, s.slotOf x i = false → (s.slot i).state ≠ .lockwait → (sideReset x s).slot i = s.slot i := by
  obtain ⟨v, hm, hs, -⟩ := sideReset_moves x s
  refine ⟨fun i => ?_, fun i hi hl => ?_⟩
  · have hv : (sideReset x s).slotOf x i = v.slotOf x i := by unfold State.slotOf; rw [hs]
    rw [hv]
    rcases hm.slots i with h | ⟨hw, -, hside, -⟩
    · unfold State.slotOf
      rw [h]
      exact locksReset_not_of x s i
    · obtain ⟨-, hsl, hother⟩ := locksReset_waits hw
      unfold State.slotOf
      rw [hside, hsl, hother]
      cases x <;> simp [Side.other]
  · have hsl : (locksReset x s).slot i = s.slot i := by rw [locksReset_slot, hi]; rfl
    rw [hs]
    rcases hm.slots i with h | ⟨hw, -⟩
    · exact h.trans hsl
    · rw [hsl] at hw
      exact absurd hw hl

theorem sideReset_queue (x : Side) (s : State) : ∃ more,
    (sideReset x s).post.queue = s.post.queue.filter (fun e => !s.slotOf x e.1) ++ more ∧
      ∀ e ∈ more, s.slotOf x e.1 = false := by
  obtain ⟨v, hm, -, -, hp, -⟩ := sideReset_moves x s
  obtain ⟨more, hq, hw⟩ := hm.queue
  refine ⟨more, ?_, fun e he => (locksReset_waits (hw e he)).1⟩
  obtain ⟨-, -, hpost, -⟩ := locksReset_leaves x s
  rw [hp, hq, hpost]
  rfl

theorem sideReset_locks (x : Side) (s : State) :
    (∀ (k : Fin 8) (l : Lock), (sideReset x s).locks[k] = some l → l.side = x.other) ∧
    ∀ (k : Fin 8) (l : Lock), s.locks[k] = some l → l.side = x.other → (sideReset x s).locks[k] = some l := by
  obtain ⟨v, hm, -, -, -, hl, hstay⟩ := sideReset_moves x s
  have hold : ∀ k : Fin 8, (locksReset x s).locks[k] =
      if (s.locks[k]).any (fun l => l.side == x) then none else s.locks[k] := fun k => by
    obtain ⟨-, hlocks, -⟩ := locksReset_leaves x s
    rw [hlocks]
    exact Vector.getElem_map _ k.isLt
  refine ⟨fun k l h => ?_, fun k l h hside => ?_⟩
  · rw [hl] at h
    rcases hm.locks k l h with h | ⟨i, hw, -, rfl⟩
    · rw [hold] at h
      split at h
      · cases h
      next hn =>
        rw [h] at hn
        exact (side_eq_or_other x l.side).resolve_left fun hx => hn (by simp [hx])
    · obtain ⟨-, hsl, hother⟩ := locksReset_waits hw
      rw [hsl]
      exact hother
  · rw [hl]
    refine hstay k l ?_
    rw [hold, h]
    refine if_neg ?_
    rw [Option.any_some, hside]
    cases x <;> simp [Side.other]

/-! ### The selection (R77, R79) -/

theorem sideReset_sel_stays (x : Side) (h : s.sel.isSome = true) : (sideReset x s).sel = s.sel := by
  obtain ⟨v, hm, -, hv, -⟩ := sideReset_moves x s
  obtain ⟨hz, -⟩ := slotsReset_leaves x s
  have he : (locksReset x s).sel = s.sel := by
    rw [(locksReset_leaves x s).1, examine_of_stays (.inr (.inl (by rw [hz]; exact h)))]
    exact hz
  rw [hv, hm.sel (by rw [he]; exact h), he]

/-- The slots that are eligible once the side's are FREE are those of the other side that were. -/
theorem slotsReset_eligible : j ∈ (slotsReset x s).eligible ↔ j ∈ s.eligible ∧ (s.slot j).side = x.other := by
  obtain ⟨-, -, -, hd, -⟩ := slotsReset_leaves x s
  rw [mem_eligible, mem_eligible, hd, slotsReset_slot]
  by_cases hj : s.slotOf x j = true
  · rw [if_pos hj]
    refine iff_of_false (fun h => by cases h.1) fun h => ?_
    have hside := (slotOf_iff.mp hj).2
    rw [h.2] at hside
    cases x <;> cases hside
  · rw [if_neg hj]
    refine ⟨fun h => ⟨h, (side_eq_or_other x _).resolve_left fun hx => hj (slotOf_iff.mpr ⟨?_, hx⟩)⟩, fun h => h.1⟩
    rw [h.1]
    simp

theorem slotsReset_active (h : ∀ k, (s.slot k).state = .active → (s.slot k).side = x) :
    (slotsReset x s).activeSlot = none := by
  refine List.find?_eq_none.mpr fun k _ => ?_
  rw [slotsReset_slot]
  split
  · simp [Slot.empty]
  next hk =>
    simp only [beq_iff_eq]
    exact fun ha => hk (slotOf_iff.mpr ⟨by rw [ha]; simp, h k ha⟩)

/-- Where the ACTIVE slot is freed and no request is outstanding, the selector chooses from the other side's slots. -/
theorem sideReset_chooses (hs : s.sel = none) (hside : ∀ k, (s.slot k).state = .active → (s.slot k).side = x)
    (hj : j ∈ s.eligible) (hjx : (s.slot j).side = x.other) :
    ∃ q, (sideReset x s).sel = some q ∧ q.slot ∈ s.eligible ∧ (s.slot q.slot).side = x.other ∧
      ∀ e ∈ q.counted, e.1 ∈ s.eligible ∧ (s.slot e.1).side = x.other := by
  obtain ⟨v, hm, -, hv, -⟩ := sideReset_moves x s
  have hz : (slotsReset x s).sel = none := (slotsReset_leaves x s).1.trans hs
  cases hc : (slotsReset x s).choose (slotsReset x s).eligible with
  | none =>
    have hmem := slotsReset_eligible.mpr ⟨hj, hjx⟩
    rw [choose_none _ _ hc] at hmem
    cases hmem
  | some q =>
    obtain ⟨hq, -⟩ := choose_spec _ _ _ hc
    have he := examine_of_chosen (slotsReset_active hside) hz hc
    have hl : (locksReset x s).sel = some ⟨q, ((slotsReset x s).slot q).tenure,
        ((slotsReset x s).eligible.filter (· != q)).map (slotsReset x s).withWait⟩ := by
      rw [(locksReset_leaves x s).1, he]
    refine ⟨_, (hv.trans (hm.sel (Option.isSome_iff_exists.mpr ⟨_, hl⟩))).trans hl, (slotsReset_eligible.mp hq).1,
      (slotsReset_eligible.mp hq).2, fun e hmem => slotsReset_eligible.mp ?_⟩
    dsimp only at hmem
    exact (mem_counted.mp hmem).1

/-! ### The engine (R128) -/

theorem tellEngine_freed (ha : s.activeSlot = some i) (he : engineSlot s = some i) (hx : (s.slot i).side = x) :
    tellEngine x s = if s.eng.phase = .inSector ∧ (s.slot i).isKind Kind.diskWrite = true then
        s.modEng (fun e => { e with work := none, phase := .finishing, span := none, ending := none })
      else dropGates (s.modEng (fun e => Engine.cleared e.moving)) := by
  unfold tellEngine
  rw [ha]
  dsimp only
  rw [if_pos hx]
  exact if_pos he

theorem tellEngine_same (h : ∀ i, s.activeSlot = some i → engineSlot s = some i → (s.slot i).side ≠ x) :
    tellEngine x s = s := by
  unfold tellEngine
  split
  · rfl
  next i ha =>
    split
    next hx => exact if_neg fun he => h i ha he hx
    · rfl

/-- The movement that the engine leaves behind when it is stopped. -/
theorem moving_rows (e : Engine) :
    (∀ sp, e.span = some sp → (e.phase = .seeking → e.moving = some (.seek e.moveTo, sp)) ∧
      (e.phase = .recalWait ∨ (e.phase = .restoring ∧ e.restore = some .ready) → e.moving = some (.recalibrate, sp))) ∧
    (e.phase ≠ .seeking → e.phase ≠ .recalWait → e.phase ≠ .restoring → e.moving = e.abandoned) := by
  refine ⟨fun sp hs => ⟨fun hp => ?_, fun hp => ?_⟩, fun h1 h2 h3 => ?_⟩
  · unfold Engine.moving
    rw [hp, hs]
  · unfold Engine.moving
    rcases hp with hp | ⟨hp, hr⟩
    · rw [hp, hs]
    · rw [hp, hs]
      exact if_pos hr
  · unfold Engine.moving
    split
    next hp _ => exact absurd hp h1
    next hp _ => exact absurd hp h2
    next hp _ => exact absurd hp h3
    · rfl

theorem tellEngine_engineFreed (ha : s.activeSlot = some i) (he : engineSlot s = some i) (hx : (s.slot i).side = x) :
    EngineFreed s (tellEngine x s) i := by
  rw [tellEngine_freed ha he hx]
  refine ⟨fun hp hk => ?_, fun hn => ?_⟩
  · rw [if_pos ⟨hp, hk⟩]
    exact ⟨rfl, rfl, rfl⟩
  · rw [if_neg fun h => hn.elim (fun hp => hp h.1) fun hk => Bool.false_ne_true (hk.symm.trans h.2)]
    exact ⟨_, rfl, rfl, rfl, moving_rows s.eng⟩

theorem sideReset_engine (x : Side) (s : State) : (sideReset x s).eng = (tellEngine x (unitsReset x s)).eng ∧
    (sideReset x s).drv.readGate = (tellEngine x (unitsReset x s)).drv.readGate ∧
    (sideReset x s).drv.writeGate = (tellEngine x (unitsReset x s)).drv.writeGate := by
  rw [sideReset_rest]
  exact ⟨rfl, rfl, rfl⟩

theorem sideReset_engineFreed (ha : s.activeSlot = some i) (he : engineSlot s = some i) (hx : (s.slot i).side = x) :
    EngineFreed s (sideReset x s) i := by
  have h := tellEngine_engineFreed (s := unitsReset x s) ha he hx
  obtain ⟨h1, h2, h3⟩ := sideReset_engine x s
  refine ⟨fun hp hk => ?_, fun hn => ?_⟩
  · rw [h1, h2, h3]
    exact h.writing hp hk
  · rw [h1, h2, h3]
    exact h.stops hn

/-! ### The presenters -/

theorem TableMoves.pres_tap (h : TableMoves s t) : t.pres = s.pres ∧ t.tap = s.tap := by
  rw [h.rest]
  exact ⟨rfl, rfl⟩

theorem sideReset_pres (x : Side) (s : State) : (sideReset x s).pres.get x = Presenter.reset ∧
    (sideReset x s).pres.get x.other = if s.live x.other then ((s.pres.get x.other).join .peer 1 0 1).examine
      else s.pres.get x.other := by
  obtain ⟨-, -, -, hlp, hlt, -⟩ := locksReset_leaves x s
  obtain ⟨hmp, hmt⟩ := (reexamine_moves (locksReset x s)).pres_tap
  have hp : (reexamine (locksReset x s)).pres = s.pres.set x .reset := hmp.trans hlp
  have ht : (reexamine (locksReset x s)).tap = s.tap.set x (s.tap.get x).sideReset := hmt.trans hlt
  have hl : (reexamine (locksReset x s)).live x.other = s.live x.other := by
    unfold State.live
    rw [ht, Sided.get_set_other]
  rw [sideReset_eq, notify_pres, notify_pres, hl, hp, Sided.get_set_same, Sided.get_set_other]
  refine ⟨if_neg fun h => ?_, if_congr (and_iff_right rfl) rfl rfl⟩
  cases x <;> cases h.1

/-- Settles O14. -/
theorem initAssertedResetsSide : Obligations.InitAssertedResetsSide := by
  unfold Obligations.InitAssertedResetsSide
  intro x s hx
  refine ⟨_, runIf_true hx, ?_⟩
  have hrest := sideReset_rest x s.begun
  obtain ⟨hfree, hkeep⟩ := sideReset_slots x s.begun
  have hsel := sideReset_sel_stays x (s := s.begun)
  have hchoose := fun j => sideReset_chooses (x := x) (s := s.begun) (j := j)
  have hfreed := fun i => sideReset_engineFreed (x := x) (s := s.begun) (i := i)
  have heng := sideReset_engine x s.begun
  have hqueue := sideReset_queue x s.begun
  obtain ⟨hlocks, hstay⟩ := sideReset_locks x s.begun
  obtain ⟨hpx, hpo⟩ := sideReset_pres x s.begun
  generalize sideReset x s.begun = u at *
  have htx : u.tap.get x = (s.tap.get x).sideReset := by rw [hrest]; exact Sided.get_set_same _ _ _
  have hto : u.tap.get x.other = s.tap.get x.other := by rw [hrest]; exact Sided.get_set_other _ _ _
  have hmap : u.map = s.map.discard x := by rw [hrest]; rfl
  have hdrv : ∃ rg wg, u.drv = Drive.sideReset { s.drv with readGate := rg, writeGate := wg } x := by
    rw [hrest]
    exact ⟨_, _, rfl⟩
  obtain ⟨rg, wg, hdrv⟩ := hdrv
  rw [Tap.sideReset_eq] at htx
  refine ⟨by unfold State.live; rw [htx], by rw [htx], by rw [htx], by rw [htx], by rw [htx]; rfl, by rw [htx],
    fun p hp => by rw [htx, hp]; rfl, fun c hc => by rw [htx, hc]; rfl, fun a d ha => by rw [htx, ha]; rfl,
    by rw [hrest]; exact Sided.get_set_same _ _ _, hpx, hfree, hkeep, hsel, fun i j hs ha huniq hi hj hjx => ?_,
    fun i ha he hi => ?_, fun h => ?_, hqueue, by rw [hrest]; rfl, hlocks, hstay, ?_, by rw [hmap]; rfl, ?_,
    by rw [hmap]; rfl, by rw [hmap]; rfl, by rw [hmap]; rfl, by rw [hmap]; rfl, by rw [hmap]; rfl, ?_, ?_, fun l hl => ?_,
    ?_, ?_, by rw [hdrv]; rfl, by rw [hdrv]; rfl, hpo, hto, by rw [hrest]; exact Sided.get_set_other _ _ _,
    by rw [hrest]; rfl, by rw [hrest]; rfl, by rw [hrest]; rfl⟩
  · exact hchoose j hs (fun k hk => huniq k hk ▸ hi) hj hjx
  · obtain ⟨hw, hst⟩ := hfreed i ha he hi
    exact ⟨hw, hst⟩
  · have hsame : tellEngine x (unitsReset x s.begun) = unitsReset x s.begun := tellEngine_same h
    rw [hsame] at heng
    exact heng
  · rw [hmap]
    exact Sided.get_set_same _ _ _
  · rw [hmap]
    exact Sided.get_set_other _ _ _
  · rw [hdrv]
    exact Sided.get_set_same _ _ _
  · rw [hdrv]
    exact Sided.get_set_same _ _ _
  · rw [hdrv] at hl
    have := (List.mem_filter.mp hl).2
    simp [DriveEvent.isIdleOf] at this
  · rw [hdrv]
    exact Sided.get_set_other _ _ _
  · rw [hdrv]
    exact Sided.get_set_other _ _ _

end Sys2Proof.Machine
end
